-- ==== Sys2Proof/Word.lean ====
section
/-! DEFINITION. Word.lean: the plain types of the LS-416's numbers and names (spec/00_scope.md,
"Node geometry and units" and "Terms"): octets, node time, degrees, domains, local ports, slots,
links, spans, handles, and what a controller does on its domain port's wires. -/

namespace Sys2Proof

/-- One octet of a frame (R142, R183). -/
abbrev Byte := BitVec 8

/-- Node time and every stamp and expiry: a 32-bit count of milliseconds (R176). -/
abbrev Time := BitVec 32

/-- A management domain, and the domain port DPn it works the part through. -/
abbrev Domain := Fin 4

/-- A degree D0 to D3. -/
abbrev Degree := Fin 4

/-- A local port L0 to L15. -/
abbrev LocalPort := Fin 16

/-- The position of a record in the connection table (R24). -/
abbrev SlotIx := Fin 128

/-- A switch link: 0 to 3 are SL0 to SL3, 4 is SLM (R123, R137). -/
abbrev LinkId := Fin 5

/-- The five-link code of the add/drop matrix module's link. -/
def slm : LinkId := 4

/-- A span, written first/width in the manual (spec/00_scope.md). -/
structure Span where
  first : Nat
  width : Nat
  deriving DecidableEq, Repr

/-- A handle, written slot:generation in the manual (R24). -/
structure Handle where
  slot : SlotIx
  gen : BitVec 8
  deriving DecidableEq, Repr

/-- What a controller does on its domain port (R179, R180): it asserts DPnSEL, clocks an octet,
deasserts DPnSEL; `whole` is a transaction with no other step of the part between its octets. -/
inductive PortEvent where
  | select
  | octet (b : Byte)
  | deselect
  | whole (octets : List Byte)
  deriving DecidableEq, Repr

/-- A piece of the work the part takes up as it leaves a reset (R204): TRU reads the line of a degree,
SLC sends the START or RESYNC batch of a link, MON makes its choice. -/
inductive ResetWork where
  | line (d : Degree)
  | batch (l : LinkId)
  | choice
  deriving DecidableEq, Repr

end Sys2Proof
end

