-- ==== Sys2Proof/Syntax.lean ====
section
/-! DEFINITION. Syntax.lean: the commands and events of the LS-416, one constructor for each row of
spec/opcode_table.json. A command of the catalogue (R189) carries the port that takes it and its
frame's tag; its parameters are the numbers its frame carries, in range or not. An event inside the
part (a request CNM takes, a timer that expires) names the request or the timer it is about. -/

namespace Sys2Proof

/-- One constructor for each row of spec/opcode_table.json. -/
inductive Instr where
  /-- COMMAND_TRANSACTION (R179 to R187): an event on the wires of domain port `port`. -/
  | commandTransaction (port : Domain) (event : PortEvent)
  /-- CLAIM (R19). -/
  | claim (port : Domain) (tag : Byte) (endpoint : Nat)
  /-- HAND_OVER (R20). -/
  | handOver (port : Domain) (tag : Byte) (endpoint domain : Nat)
  /-- UNCLAIM (R21). -/
  | unclaim (port : Domain) (tag : Byte) (endpoint : Nat)
  /-- READ_ENDPOINTS (R22). -/
  | readEndpoints (port : Domain) (tag : Byte)
  /-- PROPOSE (R9, R28). -/
  | propose (port : Domain) (tag : Byte) (source sink first width hold auto : Nat) (level : Int) (notify : Nat)
  /-- ACCEPT (R30). -/
  | accept (port : Domain) (tag : Byte) (slot : Nat) (gen : BitVec 8)
  /-- DECLINE (R31). -/
  | decline (port : Domain) (tag : Byte) (slot : Nat) (gen : BitVec 8)
  /-- ACTIVATE (R35, R36). -/
  | activate (port : Domain) (tag : Byte) (slot : Nat) (gen : BitVec 8)
  /-- RELEASE (R42, R43). -/
  | release (port : Domain) (tag : Byte) (slot : Nat) (gen : BitVec 8)
  /-- SET_TARGET (R47). -/
  | setTarget (port : Domain) (tag : Byte) (slot : Nat) (gen : BitVec 8) (level : Int)
  /-- SET_DROP_ATTEN (R48). -/
  | setDropAtten (port : Domain) (tag : Byte) (slot : Nat) (gen : BitVec 8) (atten : Int)
  /-- READ_CONN (R49). -/
  | readConn (port : Domain) (tag : Byte) (slot : Nat) (gen : BitVec 8)
  /-- LIST_SPANS (R23). -/
  | listSpans (port : Domain) (tag : Byte) (degree list start : Nat)
  /-- READ_LEVEL (R83). -/
  | readLevel (port : Domain) (tag : Byte) (tap first width : Nat)
  /-- SET_DEGREE (R169): a degree code and a list of field code and signed value. -/
  | setDegree (port : Domain) (tag : Byte) (degree : Nat) (changes : List (Nat × Int))
  /-- READ_DEGREE (R175). -/
  | readDegree (port : Domain) (tag : Byte) (degree : Nat)
  /-- CLEAR_TRIP (R151). -/
  | clearTrip (port : Domain) (tag : Byte) (degree : Nat)
  /-- RETRY_LINK (R137). -/
  | retryLink (port : Domain) (tag : Byte) (link : Nat)
  /-- READ_EXCURSIONS (R164). -/
  | readExcursions (port : Domain) (tag : Byte) (degree : Nat)
  /-- REARM_EXCURSIONS (R165). -/
  | rearmExcursions (port : Domain) (tag : Byte) (degree : Nat)
  /-- FETCH_NOTICE (R194). -/
  | fetchNotice (port : Domain) (tag : Byte)
  /-- READ_PORT (R199). -/
  | readPort (port : Domain) (tag : Byte)
  /-- CLEAR_FLAGS (R196). -/
  | clearFlags (port : Domain) (tag : Byte) (flags : Nat)
  /-- SET_MASK (R197). -/
  | setMask (port : Domain) (tag : Byte) (flags : Nat)
  /-- SET_ALL_NOTICES (R195). -/
  | setAllNotices (port : Domain) (tag : Byte) (option : Nat)
  /-- RESET_PORT (R200). -/
  | resetPort (port : Domain) (tag : Byte)
  /-- READ_NODE (R201). -/
  | readNode (port : Domain) (tag : Byte)
  /-- HEADER_WORD (R66, R68): a word transfer with MSTART asserted. -/
  | headerWord (word : BitVec 16)
  /-- READING_WORD (R66, R69): a word transfer with MEN asserted and MSTART not asserted. -/
  | readingWord (word : BitVec 16)
  /-- SWEEP_TIMEOUT (R71). -/
  | sweepTimeout
  /-- DONE (R130, R131): a good DONE frame on a switch link. -/
  | done (link : LinkId) (seq : BitVec 8)
  /-- FAULT (R130, R133): a good FAULT frame on a switch link. -/
  | fault (link : LinkId) (seq : BitVec 8) (cause : Nat)
  /-- REPLY_TIMEOUT (R134). -/
  | replyTimeout (link : LinkId)
  /-- DISCARDED_FRAME (R143, R130): the octets of a frame received on a switch link. -/
  | discardedFrame (link : LinkId) (octets : List Byte)
  /-- GRANT (R58): CNM takes the oldest grant request of a degree. -/
  | grant (degree : Degree)
  /-- PASS_RESULT (R41, R100): CNM takes the oldest pass result of a degree. -/
  | passResult (degree : Degree)
  /-- DECLARATION (R94): CNM takes the oldest declaration that names a handle. -/
  | declaration (slot : SlotIx) (gen : BitVec 8)
  /-- RESERVATION_EXPIRY (R32). -/
  | reservationExpiry (slot : SlotIx)
  /-- LINE_EVENT (R146): a trip line is sampled, high (`true`) or low. -/
  | lineEvent (degree : Degree) (high : Bool)
  /-- TRIP_HAND_OFF (R146, R147): CNM takes TRU's trip change of a degree. -/
  | tripHandOff (degree : Degree)
  /-- HOLD_EXPIRY (R150). -/
  | holdExpiry (degree : Degree)
  /-- COLD_RESET (R203): COLDn goes low, or power is applied. -/
  | coldReset
  /-- WARM_RESET (R203): WARMn goes low. -/
  | warmReset
  /-- LEAVE_RESET (R203, R204): COLDn and WARMn are both high again. R204 lets the blocks take up their
  work in any order: `order` is the order in which they do, as far as it goes. -/
  | leaveReset (order : List ResetWork)
  /-- NODE_TIME_ADVANCE (R176). -/
  | nodeTimeAdvance
  deriving DecidableEq, Repr

end Sys2Proof
end

