-- ==== Sys2Proof/Decode.lean ====
section
/-! DEFINITION. Decode.lean: what the table's bits spell. Every row of spec/opcode_table.json has no bits
("fixed" and "fields" are empty in all of them), so no word spells a command. How a command is spelled by
a frame's octets is in Machine/Frames.lean. -/

namespace Sys2Proof

/-- The command that a word spells by the table's bits: none, since no row gives any. -/
def decodeTableWord (_nbits _w : Nat) : Option Instr := none

end Sys2Proof
end

