-- ==== Sys2Proof/Config.lean ====
section
/-! DEFINITION. Config.lean: the constants of the part, and the FREE VALUES: what the spec leaves
without a value. A free value has no body, so no proof can use what it is (log entries 9 and 10). -/

namespace Sys2Proof.Config

/-- The family code READ_NODE returns (R201). -/
def familyCode : Nat := 0x2A

/-- The revision READ_NODE returns (R201). -/
def revision : Nat := 1

/-- The sweep timer's period in milliseconds (R67, R177). -/
def sweepPeriod : Nat := 500

/-- The reply timer's period on SLM, and of every link at start-up (R134, R139). -/
def matrixTimeout : Nat := 200

/-- The room of a notice queue (R192). -/
def noticeRoom : Nat := 16

/-- The room of an excursion log (R158). -/
def logRoom : Nat := 4

/-- FREE VALUE. The reading count MON holds once a sweep has completed: R67 bounds it to 0..383 and
no rule gives it (log entry 9). The argument is the State's count of free values used. -/
opaque openCount : Nat → Fin 384

/-- FREE VALUE. What DPnDO carries for the rest of a transaction that a reset abandoned, once the
part has left the reset: no rule gives it (log entry 10). -/
opaque openOctet : Nat → Byte

end Sys2Proof.Config
end

