-- ==== Sys2Proof/Machine/State.lean ====
section
/-! DEFINITION. Machine/State.lean: every piece of state the spec gives the LS-416, block by block, as
plain data, and the state right after a cold reset. INVENTORY.md, "State", lists each field with the
rule that names it. Beside the spec's state stand two fields of the model's own: `freeCount`
(log entry 9) and `pending`, the queue of the commands that wait for a step. -/

namespace Sys2Proof.Machine
open Sys2Proof

/-- A switch pixel setting: BLOCKED, or an attenuation in dB-tenths (R124). The input or local port
a setting carries is fixed by its record (R123), so two settings of one record are equal when these are. -/
inductive Setpoint where
  | blocked
  | att (a : Nat)
  deriving DecidableEq, Repr

/-- A connection's type with its two endpoints (R10). -/
inductive Route where
  | add (port : LocalPort) (sink : Degree)
  | drop (source : Degree) (port : LocalPort)
  | express (source sink : Degree)
  deriving DecidableEq, Repr

/-- The states of a non-FREE record (section 2.2); a FREE record is a slot with no connection. -/
inductive CState where
  | proposed
  | armed
  | suspended
  | pendingUp
  | rampUp
  | inService
  | pendingDown
  | rampDown
  | draining
  deriving DecidableEq, Repr

/-- A source state (R26, R87). -/
inductive Light where
  | lit
  | dark
  deriving DecidableEq, Repr

/-- A suspend cause (R37). -/
inductive Cause where
  | sourceDark
  | trip
  deriving DecidableEq, Repr

/-- A set of suspend causes (R26). -/
structure Causes where
  sourceDark : Bool
  trip : Bool
  deriving DecidableEq, Repr

/-- A power condition (R26, R107). -/
inductive PowerCond where
  | normal
  | underpower
  | overpower
  deriving DecidableEq, Repr

/-- A notify set (R26, R193). -/
structure NotifySet where
  ramp : Bool
  suspend : Bool
  power : Bool
  deriving DecidableEq, Repr

/-- The fields of a non-FREE record (R26). `shadow` is the select shadow of an ADD or EXPRESS and the
drop shadow of a DROP; an absent field is `none`. -/
structure Conn where
  route : Route
  span : Span
  state : CState
  proposer : Domain
  peer : Option Domain
  expiry : Option Time
  autoActivate : Bool
  target : Option Int
  dropAtten : Option Nat
  notify : NotifySet
  shadow : Setpoint
  source : Option Light
  causes : Option Causes
  power : Option PowerCond
  lastLevel : Option Int
  deriving DecidableEq, Repr

/-- A slot of the connection table: its generation, kept while FREE, and its connection (R24). -/
structure Slot where
  gen : BitVec 8
  conn : Option Conn
  deriving DecidableEq, Repr

/-- An entry of an egress list (R3). -/
structure EgressEntry where
  span : Span
  handle : Handle
  deriving DecidableEq, Repr

/-- An entry of an ingress list: a span and its users, held in ascending slot order (R5). -/
structure IngressEntry where
  span : Span
  users : List Handle
  deriving DecidableEq, Repr

/-- An entry of a drop list (R6). -/
structure DropEntry where
  span : Span
  port : LocalPort
  handle : Handle
  deriving DecidableEq, Repr

/-- The spectrum map of one degree: its three lists and its committed cells (R2 to R6). -/
structure DegreeMap where
  egress : List EgressEntry
  ingress : List IngressEntry
  drops : List DropEntry
  committed : Nat
  deriving DecidableEq, Repr

/-- The two holders of a local port (R7). -/
structure Holders where
  add : Option Handle
  drop : Option Handle
  deriving DecidableEq, Repr

/-- The active level of a trip line (R145). -/
inductive ActiveLevel where
  | low
  | high
  deriving DecidableEq, Repr

/-- The mode of a degree's trips (R145). -/
inductive TripMode where
  | latched
  | follow
  deriving DecidableEq, Repr

/-- The mode of an excursion log (R159). -/
inductive LogMode where
  | continuous
  | oneShot
  deriving DecidableEq, Repr

/-- The stamp setting of a log, and the stamp kind of an entry (R158, R161). -/
inductive StampKind where
  | absolute
  | delta
  deriving DecidableEq, Repr

/-- A degree's settings record, its eighteen fields in field code order (R168). -/
structure Settings where
  guard : Nat
  loadLimit : Nat
  rampSlots : Nat
  gain : Nat
  deadband : Nat
  maxStep : Nat
  rampStep : Nat
  darkThreshold : Int
  darkCount : Nat
  lightCount : Nat
  activeLevel : ActiveLevel
  mode : TripMode
  hold : Nat
  switchTimeout : Nat
  logThreshold : Nat
  logMode : LogMode
  logStamp : StampKind
  logPrescale : Nat
  deriving DecidableEq, Repr

/-- The settings record at cold reset: every field at its default (R168). -/
def Settings.default : Settings where
  guard := 1
  loadLimit := 384
  rampSlots := 2
  gain := 8
  deadband := 3
  maxStep := 10
  rampStep := 5
  darkThreshold := -350
  darkCount := 3
  lightCount := 2
  activeLevel := .low
  mode := .latched
  hold := 100
  switchTimeout := 200
  logThreshold := 30
  logMode := .continuous
  logStamp := .absolute
  logPrescale := 1

/-- An entry of a ramp queue: a handle and, when it carries the offered mark, the offer number (R53). -/
structure QueueEntry where
  handle : Handle
  offer : Option (BitVec 16)
  deriving DecidableEq, Repr

/-- A holder of a ramp slot; `offer` while its grant request awaits CNM's answer (R54). -/
structure SlotHolder where
  handle : Handle
  offer : Option (BitVec 16)
  deriving DecidableEq, Repr

/-- RSC's state of one degree: the ramp queue, oldest first, the slot holders in ascending slot order,
and the count of offer numbers (R53, R54, R58). -/
structure Ramps where
  queue : List QueueEntry
  holders : List SlotHolder
  offerCount : BitVec 16
  deriving DecidableEq, Repr

/-- A grant request on its way to CNM (R58). -/
structure GrantReq where
  handle : Handle
  offer : BitVec 16
  deriving DecidableEq, Repr

/-- A pass result on its way to CNM (R100). -/
structure PassResult where
  handle : Handle
  computedFor : CState
  shadow : Setpoint
  level : Int
  toState : Option CState
  power : Option PowerCond
  error : Option Int
  deriving DecidableEq, Repr

/-- A declaration on its way to CNM: the source level is that of the declaring evaluation (R91, R92). -/
structure DeclReq where
  handle : Handle
  light : Light
  level : Int
  deriving DecidableEq, Repr

/-- The point of a degree that a tap senses (R65). -/
inductive TapKind where
  | ingress
  | add
  | egress
  deriving DecidableEq, Repr

/-- A tap I0 to I3, A0 to A3 or E0 to E3 (R65). -/
structure Tap where
  kind : TapKind
  degree : Degree
  deriving DecidableEq, Repr

/-- An entry of SLT's tracking table (R87). -/
structure TrackEntry where
  handle : Handle
  tap : Tap
  span : Span
  declared : Light
  darkRun : Nat
  lightRun : Nat
  deriving DecidableEq, Repr

/-- MON's request state (R67). -/
inductive RequestState where
  | idle
  | requested
  | receiving
  deriving DecidableEq, Repr

/-- The kind of MON's next turn (R79). -/
inductive Turn where
  | rotation
  | boost
  deriving DecidableEq, Repr

/-- MON's last failure, with the tap of the failed request (R84). -/
inductive MonFailure where
  | none
  | mismatch (tap : Tap)
  | earlyStart (tap : Tap)
  | timeout (tap : Tap)
  deriving DecidableEq, Repr

/-- What MON samples of an E tap's switch link at the header (R68). -/
structure LinkSample where
  gen : BitVec 16
  idle : Bool
  deriving DecidableEq, Repr

/-- MON's state: the request, the sweep in progress, the scheduler and the last failure (R67 to R84). -/
structure Mon where
  state : RequestState
  tap : Tap
  tag : BitVec 4
  tagCounter : BitVec 4
  requestTime : Time
  timer : Option Time
  count : Fin 384
  stamp : Time
  sample : Option LinkSample
  buffer : List Int
  turn : Turn
  rotation : Tap
  boost : Degree
  lastFailure : MonFailure
  deriving DecidableEq, Repr

/-- A filled bank of the sweep store (R80). -/
structure Bank where
  readings : List Int
  stamp : Time
  gen : Option (BitVec 16)
  usable : Option Bool
  deriving DecidableEq, Repr

/-- The state of a switch link (section 7.5). -/
inductive LinkState where
  | starting
  | ready
  | faulted
  deriving DecidableEq, Repr

/-- The kind of a batch; `byRetry` marks a resync sent by RETRY_LINK (R138). -/
inductive BatchKind where
  | update
  | start
  | resync (byRetry : Bool)
  deriving DecidableEq, Repr

/-- An entry of a batch (R123, R142). A select entry's input is 0 to 3 for the ingress of a degree
and 4 for the add input; the handle names the record the entry was written for. -/
inductive Entry where
  | select (handle : Handle) (span : Span) (input : Fin 5) (value : Setpoint)
  | drop (handle : Handle) (span : Span) (port : LocalPort) (value : Setpoint)
  | allBlocked
  | port (port : LocalPort) (add drop : Option Degree)
  deriving DecidableEq, Repr

/-- A batch (section 7.3). -/
structure Batch where
  kind : BatchKind
  seq : BitVec 8
  entries : List Entry
  deriving DecidableEq, Repr

/-- A link's last failure (R144). -/
inductive LinkFailure where
  | none
  | fault (cause : Nat)
  | timeout
  deriving DecidableEq, Repr

/-- SLC's state of one switch link (R126 to R134). `pendingMark` is CNM's report, in the step being
taken, that a shadow of the link changed; SLC examines it at the step's end (R126). -/
structure Link where
  state : LinkState
  inFlight : Option Batch
  seq : BitVec 8
  timer : Option Time
  unanswered : Option (List Entry)
  lastFailure : LinkFailure
  pendingMark : Bool
  deriving DecidableEq, Repr

/-- A port entry of the add/drop matrix: shadow and active of its two halves (R123, R125). -/
structure MatrixEntry where
  addShadow : Option Degree
  dropShadow : Option Degree
  addActive : Option Degree
  dropActive : Option Degree
  deriving DecidableEq, Repr

/-- A degree's trip state (R145). -/
inductive TripState where
  | clear
  | tripped
  | holding
  deriving DecidableEq, Repr

/-- The line level TRU holds of a degree (R145). -/
inductive LineLevel where
  | active
  | inactive
  deriving DecidableEq, Repr

/-- TRU's three items of a degree (R145). -/
structure Trip where
  state : TripState
  line : LineLevel
  timer : Option Time
  deriving DecidableEq, Repr

/-- The change of a degree's trip state that TRU hands to CNM (R146). -/
inductive TripChange where
  | trip
  | hold
  | clear
  deriving DecidableEq, Repr

/-- An entry of an excursion log (R158). -/
structure LogEntry where
  handle : Handle
  error : Int
  kind : StampKind
  stamp : Time
  deriving DecidableEq, Repr

/-- A degree's excursion log with its items of state; the fill count is the number of entries (R158). -/
structure ExcursionLog where
  entries : List LogEntry
  armed : Bool
  prescale : Nat
  lastCapture : Option Time
  deriving DecidableEq, Repr

/-- The notice kinds, in the order of their codes 1 to 18 (R191). -/
inductive NoticeKind where
  | proposalIn
  | proposalAccepted
  | proposalDeclined
  | proposalExpired
  | rampDone
  | suspended
  | resumed
  | sourceLost
  | sourceBack
  | powerLimit
  | powerNormal
  | released
  | excursion
  | tripOn
  | tripOff
  | linkFault
  | linkReady
  | endpointHanded
  deriving DecidableEq, Repr

/-- A notice (R191). -/
structure Notice where
  kind : NoticeKind
  handle : Option Handle
  degree : Option Degree
  value : Option Int
  stamp : Time
  deriving DecidableEq, Repr

/-- A set of event flags: a port's flags, or its mask (R196, R197). -/
structure FlagSet where
  overflow : Bool
  monitorFault : Bool
  linkFault : Bool
  trip : Bool
  excursionFull : Bool
  deriving DecidableEq, Repr

/-- The reply codes, in the order of their numbers 0 to 17 (R188). -/
inductive ReplyCode where
  | ok
  | okClamped
  | frameError
  | unknownCommand
  | badParam
  | notManager
  | noPeer
  | ownedElsewhere
  | inUse
  | tableFull
  | portBusy
  | spanConflict
  | guardConflict
  | loadLimit
  | ingressConflict
  | noSuchConnection
  | wrongState
  | empty
  deriving DecidableEq, Repr

/-- A reply, less its length and CRC, which its frame adds (R183). -/
structure Reply where
  tag : Byte
  code : ReplyCode
  results : List Byte
  deriving DecidableEq, Repr

/-- The reply slot (R186). A BUSY slot holds the command taken and passed on, its tag within it. -/
inductive ReplySlot where
  | empty
  | busy (command : Instr)
  | ready (reply : Reply)
  deriving DecidableEq, Repr

/-- Where a transaction on a domain port stands (R180 to R182, R202). -/
inductive Transaction where
  /-- DPnSEL is deasserted. -/
  | idle
  /-- DPnSEL is asserted and the kind octet is still to come. -/
  | selected
  /-- A COMMAND transaction and the octets of its frame so far. -/
  | command (frame : List Byte)
  /-- A COMMAND transaction that found the slot BUSY: ignored to its end. -/
  | commandIgnored
  /-- A READ transaction and the octets of the reply frame still to be driven. -/
  | read (rest : List Byte)
  /-- A transaction of neither kind: ignored to its end. -/
  | ignored
  /-- A transaction that a reset abandoned: ignored until DPnSEL is next deasserted. -/
  | abandoned
  deriving DecidableEq, Repr

/-- A domain port (chapter 11). `driven` is what DPnDO has carried, octet by octet, in the transaction
in progress, or in the last one when none is. ATTNn follows from the queue, flags and mask (R198). -/
structure Port where
  slot : ReplySlot
  queue : List Notice
  flags : FlagSet
  mask : FlagSet
  allNotices : Bool
  transaction : Transaction
  driven : List Byte
  deriving DecidableEq, Repr

/-- Which reset holds the part (R203). -/
inductive ResetKind where
  | cold
  | warm
  deriving DecidableEq, Repr

/-- The state of the LS-416. -/
structure State where
  /-- CNM: the connection table (R24). -/
  table : Vector Slot 128
  /-- CNM: the spectrum map of each degree (R2 to R6). -/
  map : Vector DegreeMap 4
  /-- CNM: the holders of each local port (R7). -/
  holders : Vector Holders 16
  /-- CNM: the endpoint assignment table, in endpoint code order (R18). -/
  managers : Vector (Option Domain) 20
  /-- CNM: the settings record of each degree (R168). -/
  settings : Vector Settings 4
  /-- RSC: the ramp queue and slot holders of each degree (R53, R54). -/
  ramps : Vector Ramps 4
  /-- MON: the request, the scheduler, the last failure (R67 to R84). -/
  mon : Mon
  /-- MON: the sweep store, by tap code (R80). -/
  banks : Vector (Option Bank) 12
  /-- SLT: the tracking table, in ascending slot order (R87). -/
  tracks : List TrackEntry
  /-- SLC: the five links (R126 to R134). -/
  links : Vector Link 5
  /-- SLC: the switch generation of each degree (R129). -/
  switchGen : Vector (BitVec 16) 4
  /-- SLC: the active select or drop setpoint of each slot's connection (R124). -/
  actives : Vector Setpoint 128
  /-- CNM and SLC: the port entries of the add/drop matrix (R125). -/
  matrix : Vector MatrixEntry 16
  /-- TRU: each degree's trip state, line level and hold timer (R145). -/
  trips : Vector Trip 4
  /-- EXL: each degree's excursion log (R158). -/
  logs : Vector ExcursionLog 4
  /-- The four domain ports (chapter 11). -/
  ports : Vector Port 4
  /-- The node timer (R176). -/
  nodeTime : Time
  /-- The reset that holds the part, if one does (R203). -/
  held : Option ResetKind
  /-- Grant requests that wait at CNM, oldest first, by degree (R58). -/
  grantReqs : Vector (List GrantReq) 4
  /-- Pass results that wait at CNM, oldest first, by degree (R100, R101). -/
  passReqs : Vector (List PassResult) 4
  /-- Declarations that wait at CNM, oldest first (R94). -/
  declReqs : List DeclReq
  /-- The trip hand-off of each degree that waits at CNM (R146). -/
  tripReqs : Vector (Option TripChange) 4
  /-- The levels of the inputs TRIP0 to TRIP3, high as `true` (R146). -/
  tripPins : Vector Bool 4
  /-- The pulses MREQ has made (R67); MTAP and MTAG are the tap and tag of the latest request. -/
  mreqPulses : Nat
  /-- The MODEL's own field: how many free values have been used (log entry 9). -/
  freeCount : Nat
  /-- The commands and events that wait for a step, first in first out. -/
  pending : List Instr
  deriving DecidableEq, Repr

/-- Why a step stops with a fault. The LS-416 has none: the spec gives every command and event an
effect in every state, so no constructor is needed and no step faults. -/
inductive Fault where
  deriving DecidableEq, Repr

/-- Why a step is refused. -/
inductive Refusal where
  /-- The command has no meaning in the model yet: raised by `exec` alone, and safe. No arm of this
  model raises it. -/
  | notModelled (mnemonic : String)
  deriving DecidableEq, Repr

/-- An empty set of flags (R196, R197). -/
def FlagSet.none : FlagSet := ⟨false, false, false, false, false⟩

/-- The tap I0. -/
def Tap.i0 : Tap := ⟨.ingress, 0⟩

/-- A port after a reset, no transaction in progress (R202). -/
def Port.cleared : Port := ⟨.empty, [], .none, .none, false, .idle, []⟩

/-- MON after a reset (R67, R79, R84, R85). -/
def Mon.cleared : Mon where
  state := .idle
  tap := .i0
  tag := 0
  tagCounter := 0
  requestTime := 0
  timer := none
  count := 0
  stamp := 0
  sample := none
  buffer := []
  turn := .rotation
  rotation := .i0
  boost := 0
  lastFailure := .none

/-- An excursion log after a reset or a rearm (R165, R167). -/
def ExcursionLog.rearmed : ExcursionLog := ⟨[], true, 0, none⟩

/-- A degree's empty map (R8). -/
def DegreeMap.empty : DegreeMap := ⟨[], [], [], 0⟩

/-- A port entry of none, shadow and active (R125). -/
def MatrixEntry.none : MatrixEntry := ⟨.none, .none, .none, .none⟩

/-- The entries of SLM's START batch: sixteen port entries of none, in port order (R139). -/
def startPortEntries : List Entry := (List.finRange 16).map fun l => .port l none none

/-- A link as a cold reset leaves it: STARTING with its START batch of sequence number 0 in flight, to
expire 200 ms after node time 0 (R139, R140). -/
def Link.started (entries : List Entry) : Link where
  state := .starting
  inFlight := some ⟨.start, 0, entries⟩
  seq := 1
  timer := some 200
  unanswered := none
  lastFailure := .none
  pendingMark := false

/-- The machine right after a cold reset, every trip line high and so INACTIVE (log entry 2). -/
def State.reset : State where
  table := Vector.replicate 128 ⟨0, none⟩
  map := Vector.replicate 4 .empty
  holders := Vector.replicate 16 ⟨none, none⟩
  managers := Vector.replicate 20 none
  settings := Vector.replicate 4 .default
  ramps := Vector.replicate 4 ⟨[], [], 0⟩
  mon := .cleared
  banks := Vector.replicate 12 none
  tracks := []
  links := #v[.started [.allBlocked], .started [.allBlocked], .started [.allBlocked],
    .started [.allBlocked], .started startPortEntries]
  switchGen := Vector.replicate 4 1
  actives := Vector.replicate 128 .blocked
  matrix := Vector.replicate 16 .none
  trips := Vector.replicate 4 ⟨.clear, .inactive, none⟩
  logs := Vector.replicate 4 .rearmed
  ports := Vector.replicate 4 .cleared
  nodeTime := 0
  held := none
  grantReqs := Vector.replicate 4 []
  passReqs := Vector.replicate 4 []
  declReqs := []
  tripReqs := Vector.replicate 4 none
  tripPins := Vector.replicate 4 true
  mreqPulses := 0
  freeCount := 0
  pending := []

end Sys2Proof.Machine
end

