-- ==== Sys2Proof/Machine/Flags.lean ====
section
/-! DEFINITION. Machine/Flags.lean: the event flags and masks of the domain ports, their octets, the
attention line, and the status octet (R181, R183, R189, R196 to R198). -/

namespace Sys2Proof.Machine
open Sys2Proof

/-- The set of MONITOR_FAULT alone. -/
def FlagSet.onlyMonitorFault : FlagSet := { FlagSet.none with monitorFault := true }

/-- The set of LINK_FAULT alone. -/
def FlagSet.onlyLinkFault : FlagSet := { FlagSet.none with linkFault := true }

/-- The set of TRIP alone. -/
def FlagSet.onlyTrip : FlagSet := { FlagSet.none with trip := true }

/-- The set of EXCURSION_FULL alone. -/
def FlagSet.onlyExcursionFull : FlagSet := { FlagSet.none with excursionFull := true }

/-- The members of either set. -/
def FlagSet.union (a b : FlagSet) : FlagSet :=
  ⟨a.overflow || b.overflow, a.monitorFault || b.monitorFault, a.linkFault || b.linkFault,
    a.trip || b.trip, a.excursionFull || b.excursionFull⟩

/-- The members of both sets. -/
def FlagSet.inter (a b : FlagSet) : FlagSet :=
  ⟨a.overflow && b.overflow, a.monitorFault && b.monitorFault, a.linkFault && b.linkFault,
    a.trip && b.trip, a.excursionFull && b.excursionFull⟩

/-- The members of the first set that are not in the second: what CLEAR_FLAGS leaves (R196). -/
def FlagSet.diff (a b : FlagSet) : FlagSet :=
  ⟨a.overflow && !b.overflow, a.monitorFault && !b.monitorFault, a.linkFault && !b.linkFault,
    a.trip && !b.trip, a.excursionFull && !b.excursionFull⟩

/-- Whether a set has a member. -/
def FlagSet.any (a : FlagSet) : Bool :=
  a.overflow || a.monitorFault || a.linkFault || a.trip || a.excursionFull

/-- The octet of a flag set, OVERFLOW in bit 0 (R189, R190). -/
def FlagSet.octet (a : FlagSet) : Byte :=
  BitVec.ofNat 8 (a.overflow.toNat + 2 * a.monitorFault.toNat + 4 * a.linkFault.toNat +
    8 * a.trip.toNat + 16 * a.excursionFull.toNat)

/-- ATTNn: asserted while the queue holds a notice or a flag of the mask is set (R198). -/
def Port.attention (q : Port) : Bool := !q.queue.isEmpty || (q.flags.inter q.mask).any

/-- The number of the reply slot's state in the status octet (R183). -/
def ReplySlot.number : ReplySlot → Nat
  | .empty => 0
  | .busy _ => 1
  | .ready _ => 2

/-- Whether a reply slot is BUSY (R186). -/
def ReplySlot.isBusy : ReplySlot → Bool
  | .busy _ => true
  | _ => false

/-- The status octet of port `p` (R181, R183). -/
def statusOctet (p : Domain) (q : Port) : Byte :=
  BitVec.ofNat 8 (q.slot.number + 4 * q.attention.toNat + 8 * (!q.queue.isEmpty).toNat + 16 * p.val)

end Sys2Proof.Machine
end

