-- ==== Sys2Proof/Machine/Operands.lean ====
section
/-! DEFINITION. Machine/Operands.lean: what the numbers a command carries stand for (endpoints, spans,
links, taps, notify and flag sets), the relations between spans, clamping, and the codings a port
checks before it dispatches a command. -/

namespace Sys2Proof

/-- A span is legal when its width is 2 to 16, its first cell 0 to 383 and its last cell 383 or lower (R1). -/
def Span.legal (sp : Span) : Bool :=
  decide (2 ≤ sp.width ∧ sp.width ≤ 16 ∧ sp.first ≤ 383 ∧ sp.first + sp.width - 1 ≤ 383)

/-- Two spans overlap when they have a cell in common (section 1.1). -/
def Span.overlaps (a b : Span) : Bool :=
  decide (a.first < b.first + b.width ∧ b.first < a.first + a.width)

/-- The gap of two spans that do not overlap, `a` the lower (section 1.1). -/
def Span.gapTo (a b : Span) : Nat := b.first - (a.first + a.width)

/-- The port's coding checks of a command's parameters (R187, step 2). -/
def Instr.codingOk : Instr → Bool
  | .propose _ _ _ _ _ _ _ auto _ notify => decide (auto ≤ 1 ∧ notify ≤ 7)
  | .clearFlags _ _ flags => decide (flags ≤ 31)
  | .setMask _ _ flags => decide (flags ≤ 31)
  | .setAllNotices _ _ option => decide (option ≤ 1)
  | _ => true

end Sys2Proof

namespace Sys2Proof.Machine
open Sys2Proof

/-- An endpoint: a degree or a local port (R10). -/
inductive Endpoint where
  | degree (d : Degree)
  | port (l : LocalPort)
  deriving DecidableEq, Repr

/-- The endpoint an endpoint code names: 0 to 3 are D0 to D3, 4 to 19 are L0 to L15 (R10). -/
def Endpoint.ofCode (code : Nat) : Option Endpoint :=
  if h : code < 4 then some (.degree ⟨code, h⟩)
  else if h' : code < 20 then some (.port ⟨code - 4, by omega⟩)
  else none

/-- The place of an endpoint in the endpoint assignment table, its code (R10, R18). -/
def Endpoint.index : Endpoint → Fin 20
  | .degree d => ⟨d.val, by omega⟩
  | .port l => ⟨l.val + 4, by omega⟩

/-- A degree code, 0 to 3. -/
def degreeOfCode (code : Nat) : Option Degree := if h : code < 4 then some ⟨code, h⟩ else none

/-- A domain number, 0 to 3. -/
def domainOfCode (code : Nat) : Option Domain := if h : code < 4 then some ⟨code, h⟩ else none

/-- A slot number, 0 to 127. -/
def slotOfCode (code : Nat) : Option SlotIx := if h : code < 128 then some ⟨code, h⟩ else none

/-- A link code: 0 to 3 for SL0 to SL3, 4 for SLM (R137). -/
def linkOfCode (code : Nat) : Option LinkId := if h : code < 5 then some ⟨code, h⟩ else none

/-- The switch link of a degree. -/
def degreeLink (d : Degree) : LinkId := ⟨d.val, by omega⟩

/-- The degree of a switch link; SLM has none (R123). -/
def linkDegree (l : LinkId) : Option Degree := if h : l.val < 4 then some ⟨l.val, h⟩ else none

/-- The route of two endpoints, or none when check 1 refuses their pairing (R10). -/
def Route.ofEndpoints : Endpoint → Endpoint → Option Route
  | .port l, .degree d => some (.add l d)
  | .degree d, .port l => some (.drop d l)
  | .degree a, .degree b => if a = b then none else some (.express a b)
  | .port _, .port _ => none

/-- The source endpoint of a route. -/
def Route.source : Route → Endpoint
  | .add l _ => .port l
  | .drop d _ => .degree d
  | .express a _ => .degree a

/-- The sink endpoint of a route. -/
def Route.sink : Route → Endpoint
  | .add _ d => .degree d
  | .drop _ l => .port l
  | .express _ b => .degree b

/-- The sink degree of an ADD or EXPRESS. -/
def Route.sinkDegree : Route → Option Degree
  | .add _ d => some d
  | .drop _ _ => none
  | .express _ b => some b

/-- The source degree of a DROP or EXPRESS. -/
def Route.sourceDegree : Route → Option Degree
  | .add _ _ => none
  | .drop d _ => some d
  | .express a _ => some a

/-- The link that carries a connection's entry: its sink degree's for an ADD or EXPRESS, its source
degree's for a DROP (R44, R123). -/
def Route.link : Route → LinkId
  | .add _ d => degreeLink d
  | .drop d _ => degreeLink d
  | .express _ b => degreeLink b

/-- The input a select entry carries: the ingress of the source degree of an EXPRESS, the add input of
an ADD (R123). -/
def Route.input : Route → Fin 5
  | .add _ _ => 4
  | .drop d _ => ⟨d.val, by omega⟩
  | .express a _ => ⟨a.val, by omega⟩

/-- A number clamped to a range (spec/00_scope.md, "clamped"). -/
def clampInt (lo hi v : Int) : Int := if v < lo then lo else if hi < v then hi else v

/-- The notify set of an octet: RAMP bit 0, SUSPEND bit 1, POWER bit 2 (R189). -/
def NotifySet.ofOctet (n : Nat) : NotifySet := ⟨n.testBit 0, n.testBit 1, n.testBit 2⟩

/-- The flag set of an octet: OVERFLOW bit 0 up to EXCURSION_FULL bit 4 (R189). -/
def FlagSet.ofOctet (n : Nat) : FlagSet :=
  ⟨n.testBit 0, n.testBit 1, n.testBit 2, n.testBit 3, n.testBit 4⟩

/-- The empty set of suspend causes. -/
def Causes.empty : Causes := ⟨false, false⟩

/-- A set of causes with one more. -/
def Causes.insert (c : Causes) : Cause → Causes
  | .sourceDark => { c with sourceDark := true }
  | .trip => { c with trip := true }

/-- A set of causes less one. -/
def Causes.erase (c : Causes) : Cause → Causes
  | .sourceDark => { c with sourceDark := false }
  | .trip => { c with trip := false }

/-- Whether a set of causes holds one. -/
def Causes.has (c : Causes) : Cause → Bool
  | .sourceDark => c.sourceDark
  | .trip => c.trip

/-- The value a SUSPENDED notice carries: 1 for SOURCE_DARK, 2 for TRIP (R39). -/
def Cause.value : Cause → Int
  | .sourceDark => 1
  | .trip => 2

/-- The code of a tap, 0 to 11 (R65). -/
def Tap.code (t : Tap) : Fin 12 :=
  match t.kind with
  | .ingress => ⟨t.degree.val, by omega⟩
  | .add => ⟨t.degree.val + 4, by omega⟩
  | .egress => ⟨t.degree.val + 8, by omega⟩

/-- The tap of a code; 12 to 15 name none (R65). -/
def Tap.ofCode (code : Nat) : Option Tap :=
  if h : code < 4 then some ⟨.ingress, ⟨code, h⟩⟩
  else if h' : code < 8 then some ⟨.add, ⟨code - 4, by omega⟩⟩
  else if h'' : code < 12 then some ⟨.egress, ⟨code - 8, by omega⟩⟩
  else none

/-- The tap whose sweeps evaluate a connection: I of the source degree, or A of an ADD's sink (R87). -/
def Route.tap : Route → Tap
  | .add _ d => ⟨.add, d⟩
  | .drop d _ => ⟨.ingress, d⟩
  | .express a _ => ⟨.ingress, a⟩

end Sys2Proof.Machine
end

