-- ==== Sys2Proof/Machine/Ops.lean ====
section
/-! DEFINITION. Machine/Ops.lean: the operations the meanings share. Each block's state is read and
changed through the operations here: notices and flags at the ports, records, the spectrum map, the
tracking table, batches on the switch links, ramp grants, suspend causes, draining and freeing, the
choice of a tap, and the changes of a degree's trip state. -/

namespace Sys2Proof.Machine
open Sys2Proof

/-! ## Ports, notices and flags -/

/-- Change one port. -/
def State.mapPort (s : State) (p : Domain) (f : Port → Port) : State :=
  { s with ports := s.ports.set p (f s.ports[p]) }

/-- A notice reaches a port: it joins the queue's tail, or it is dropped at a full queue and
OVERFLOW is set (R192). -/
def Port.join (n : Notice) (q : Port) : Port :=
  if q.queue.length < Config.noticeRoom then { q with queue := q.queue ++ [n] }
  else { q with flags := { q.flags with overflow := true } }

/-- Address a notice to a port, ungated. -/
def State.tell (s : State) (p : Domain) (n : Notice) : State := s.mapPort p (Port.join n)

/-- Set event flags at a port, whatever its mask (R196). -/
def State.setFlag (s : State) (p : Domain) (f : FlagSet) : State :=
  s.mapPort p fun q => { q with flags := q.flags.union f }

/-- A notice stamped with node time of the step (R178, R191). -/
def State.notice (s : State) (kind : NoticeKind) (handle : Option Handle) (degree : Option Degree)
    (value : Option Int) : Notice :=
  ⟨kind, handle, degree, value, s.nodeTime⟩

/-- The manager of a degree. -/
def State.manager (s : State) (d : Degree) : Option Domain := s.managers[(Endpoint.degree d).index]

/-- Whether a domain manages an endpoint (R18). -/
def State.manages (s : State) (p : Domain) (e : Endpoint) : Bool := s.managers[e.index] == some p

/-- Address a notice to the manager of a degree; an unassigned degree has none (R191). -/
def State.tellManager (s : State) (d : Degree) (n : Notice) : State :=
  match s.manager d with
  | some p => s.tell p n
  | none => s

/-- Set event flags at the port of a degree's manager. -/
def State.flagManager (s : State) (d : Degree) (f : FlagSet) : State :=
  match s.manager d with
  | some p => s.setFlag p f
  | none => s

/-- Address a notice to all four ports. -/
def State.tellAll (s : State) (n : Notice) : State :=
  (List.finRange 4).foldl (fun s p => s.tell p n) s

/-- Set event flags at all four ports. -/
def State.flagAll (s : State) (f : FlagSet) : State :=
  (List.finRange 4).foldl (fun s p => s.setFlag p f) s

/-- The domains of a connection: its proposer and, when it has one, its peer (R46, R191). -/
def Conn.domains (c : Conn) : List Domain := c.proposer :: c.peer.toList

/-- Whether a connection's notify set lets a notice of this kind through (R193). -/
def NotifySet.opens (n : NotifySet) : NoticeKind → Bool
  | .rampDone => n.ramp
  | .suspended => n.suspend
  | .resumed => n.suspend
  | .sourceLost => n.suspend
  | .sourceBack => n.suspend
  | .powerLimit => n.power
  | .powerNormal => n.power
  | _ => true

/-- Address a notice about a connection to its domains, each gated by the notify set or by the
all-notices option of its port (R193). -/
def State.tellConn (s : State) (h : Handle) (c : Conn) (kind : NoticeKind) (value : Option Int) : State :=
  c.domains.foldl
    (fun s p =>
      if c.notify.opens kind || s.ports[p].allNotices then s.tell p (s.notice kind (some h) none value) else s) s

/-! ## Records -/

/-- The connection in a slot, if its record is not FREE. -/
def State.conn (s : State) (i : SlotIx) : Option Conn := s.table[i].conn

/-- The handle of a slot with its present generation. -/
def State.handleAt (s : State) (i : SlotIx) : Handle := ⟨i, s.table[i].gen⟩

/-- The connection a handle names; none when the record is FREE or has another generation (R25, R50). -/
def State.find (s : State) (h : Handle) : Option Conn :=
  if s.table[h.slot].gen = h.gen then s.conn h.slot else none

/-- Write the connection of a slot; the generation is kept. -/
def State.putConn (s : State) (i : SlotIx) (c : Option Conn) : State :=
  { s with table := s.table.set i { s.table[i] with conn := c } }

/-- The slots in ascending order. -/
def slots : List SlotIx := List.finRange 128

/-- Whether a non-FREE connection names an endpoint (R18, R22). -/
def Conn.names (c : Conn) (e : Endpoint) : Bool := c.route.source == e || c.route.sink == e

/-- The use count of an endpoint (R22). -/
def State.useCount (s : State) (e : Endpoint) : Nat :=
  (slots.filter fun i => (s.conn i).any fun c => c.names e).length

/-! ## The spectrum map -/

/-- Place an entry in a list kept in ascending order of a key. -/
def insertBy {α : Type} (key : α → Nat) (x : α) : List α → List α
  | [] => [x]
  | y :: ys => if key x < key y then x :: y :: ys else y :: insertBy key x ys

/-- An ADD or EXPRESS joins an egress list, and its width the committed cells (R3, R4, R16). -/
def DegreeMap.joinEgress (m : DegreeMap) (sp : Span) (h : Handle) : DegreeMap :=
  { m with egress := insertBy (·.span.first) ⟨sp, h⟩ m.egress, committed := m.committed + sp.width }

/-- It leaves them (R17). -/
def DegreeMap.leaveEgress (m : DegreeMap) (sp : Span) (h : Handle) : DegreeMap :=
  { m with egress := m.egress.filter (·.handle ≠ h), committed := m.committed - sp.width }

/-- A DROP or EXPRESS joins the identical ingress entry, or a new one placed in order (R5, R16). -/
def DegreeMap.joinIngress (m : DegreeMap) (sp : Span) (h : Handle) : DegreeMap :=
  if m.ingress.any (·.span == sp) then
    { m with ingress := m.ingress.map fun e =>
        if e.span = sp then { e with users := insertBy (·.slot.val) h e.users } else e }
  else { m with ingress := insertBy (·.span.first) ⟨sp, [h]⟩ m.ingress }

/-- It leaves its entry, and an entry with no users left leaves the list (R17). -/
def DegreeMap.leaveIngress (m : DegreeMap) (sp : Span) (h : Handle) : DegreeMap :=
  { m with ingress := m.ingress.filterMap fun e =>
      if e.span = sp then
        if (e.users.filter (· ≠ h)).isEmpty then none else some { e with users := e.users.filter (· ≠ h) }
      else some e }

/-- A DROP joins the drop list (R6, R16). -/
def DegreeMap.joinDrop (m : DegreeMap) (sp : Span) (l : LocalPort) (h : Handle) : DegreeMap :=
  { m with drops := insertBy (·.span.first) ⟨sp, l, h⟩ m.drops }

/-- It leaves the drop list (R17). -/
def DegreeMap.leaveDrop (m : DegreeMap) (h : Handle) : DegreeMap :=
  { m with drops := m.drops.filter (·.handle ≠ h) }

/-- Change the map of one degree. -/
def State.mapMap (s : State) (d : Degree) (f : DegreeMap → DegreeMap) : State :=
  { s with map := s.map.set d (f s.map[d]) }

/-- Change the holders of one local port. -/
def State.mapHolders (s : State) (l : LocalPort) (f : Holders → Holders) : State :=
  { s with holders := s.holders.set l (f s.holders[l]) }

/-- A connection takes its places in the map (R2, R16). -/
def State.enterMap (s : State) (h : Handle) (r : Route) (sp : Span) : State :=
  match r with
  | .add l d => (s.mapMap d (·.joinEgress sp h)).mapHolders l fun k => { k with add := some h }
  | .drop d l =>
    (s.mapMap d fun m => (m.joinIngress sp h).joinDrop sp l h).mapHolders l fun k => { k with drop := some h }
  | .express a b => (s.mapMap b (·.joinEgress sp h)).mapMap a (·.joinIngress sp h)

/-- A connection leaves its places in the map (R17). -/
def State.leaveMap (s : State) (h : Handle) (r : Route) (sp : Span) : State :=
  match r with
  | .add l d => (s.mapMap d (·.leaveEgress sp h)).mapHolders l fun k => { k with add := none }
  | .drop d l =>
    (s.mapMap d fun m => (m.leaveIngress sp h).leaveDrop h).mapHolders l fun k => { k with drop := none }
  | .express a b => (s.mapMap b (·.leaveEgress sp h)).mapMap a (·.leaveIngress sp h)

/-! ## The tracking table -/

/-- SLT begins tracking a connection: declared DARK, both runs 0 (R88). -/
def State.startTrack (s : State) (h : Handle) (c : Conn) : State :=
  { s with
    tracks := insertBy (·.handle.slot.val) ⟨h, c.route.tap, c.span, .dark, 0, 0⟩
      (s.tracks.filter (·.handle.slot ≠ h.slot)) }

/-- SLT stops tracking the connection of a slot (R45, R88). -/
def State.stopTrack (s : State) (i : SlotIx) : State :=
  { s with tracks := s.tracks.filter (·.handle.slot ≠ i) }

/-- The entry of a tracked connection. -/
def State.track (s : State) (h : Handle) : Option TrackEntry := s.tracks.find? (·.handle == h)

/-! ## Switch links -/

/-- Change one link. -/
def State.mapLink (s : State) (l : LinkId) (f : Link → Link) : State :=
  { s with links := s.links.set l (f s.links[l]) }

/-- CNM marks a link pending: a shadow of one of its entries changed in this step (R126). -/
def State.mark (s : State) (l : LinkId) : State := s.mapLink l fun k => { k with pendingMark := true }

/-- The handle a batch entry was written for. -/
def Entry.handle? : Entry → Option Handle
  | .select h _ _ _ => some h
  | .drop h _ _ _ => some h
  | .allBlocked => none
  | .port _ _ _ => none

/-- Whether a list of entries carries one for a handle (R44). -/
def carries (es : List Entry) (h : Handle) : Bool := es.any fun e => e.handle? == some h

/-- The entry of a connection at its shadow (R123, R124). -/
def Conn.entry (c : Conn) (h : Handle) : Entry :=
  match c.route with
  | .add _ _ => .select h c.span c.route.input c.shadow
  | .express _ _ => .select h c.span c.route.input c.shadow
  | .drop _ l => .drop h c.span l c.shadow

/-- The entries of a degree's link, each with whether its shadow differs from its active value: the
select entries in ascending order of first cell, then the drop entries (R123, R127). -/
def State.degreeEntries (s : State) (d : Degree) : List (Entry × Bool) :=
  (s.map[d].egress.map (·.handle) ++ s.map[d].drops.map (·.handle)).filterMap fun h =>
    (s.find h).map fun c => (c.entry h, c.shadow != s.actives[h.slot])

/-- The entries of SLM in port order, each with whether it differs (R123, R125). -/
def State.portEntries (s : State) : List (Entry × Bool) :=
  (List.finRange 16).map fun l =>
    let m := s.matrix[l]
    (.port l m.addShadow m.dropShadow, m.addShadow != m.addActive || m.dropShadow != m.dropActive)

/-- The entries of a link, each with whether it differs. -/
def State.linkEntries (s : State) (l : LinkId) : List (Entry × Bool) :=
  match linkDegree l with
  | some d => s.degreeEntries d
  | none => s.portEntries

/-- The entries a RESYNC carries: every one, at its shadow (R138). -/
def State.resyncEntries (s : State) (l : LinkId) : List Entry := (s.linkEntries l).map (·.1)

/-- The entries an UPDATE carries: those whose shadow differs from the active value (R127). -/
def State.updateEntries (s : State) (l : LinkId) : List Entry := ((s.linkEntries l).filter (·.2)).map (·.1)

/-- The reply timer's period on a link (R134). -/
def State.replyPeriod (s : State) (l : LinkId) : Nat :=
  match linkDegree l with
  | some d => s.settings[d].switchTimeout
  | none => Config.matrixTimeout

/-- SLC sends a batch: it takes the sequence number, which advances; the reply timer starts; on a
degree link the switch generation advances (R127, R129, R130, R134). -/
def State.sendBatch (s : State) (l : LinkId) (kind : BatchKind) (entries : List Entry) : State :=
  let s' := s.mapLink l fun k =>
    { k with inFlight := some ⟨kind, k.seq, entries⟩, seq := k.seq + 1,
             timer := some (s.nodeTime + BitVec.ofNat 32 (s.replyPeriod l)) }
  match linkDegree l with
  | some d => { s' with switchGen := s'.switchGen.set d (s'.switchGen[d] + 1) }
  | none => s'

/-- SLC sends an UPDATE on a link that is READY with no batch in flight and pending (R127). -/
def State.sendIfPending (s : State) (l : LinkId) : State :=
  if s.links[l].state = .ready ∧ s.links[l].inFlight = none ∧ s.updateEntries l ≠ [] then
    s.sendBatch l .update (s.updateEntries l)
  else s

/-- The examination of a link at the end of a CNM step: only a link CNM marked is examined (R126). -/
def State.flushLink (s : State) (l : LinkId) : State :=
  if s.links[l].pendingMark then (s.mapLink l fun k => { k with pendingMark := false }).sendIfPending l else s

/-- The examination of the five links at the end of a CNM step (R126, R127). -/
def State.flushLinks (s : State) : State := (List.finRange 5).foldl State.flushLink s

/-- Change one port entry of the matrix and mark SLM (R34, R45). -/
def State.mapMatrix (s : State) (l : LocalPort) (f : MatrixEntry → MatrixEntry) : State :=
  ({ s with matrix := s.matrix.set l (f s.matrix[l]) } : State).mark slm

/-- A record that enters ARMED sets its half of the matrix entry (R34). -/
def State.setMatrix (s : State) : Route → State
  | .add l d => s.mapMatrix l fun m => { m with addShadow := some d }
  | .drop d l => s.mapMatrix l fun m => { m with dropShadow := some d }
  | .express _ _ => s

/-- A record that becomes FREE out of ARMED or later returns its half to none (R45). -/
def State.clearMatrix (s : State) : Route → State
  | .add l _ => s.mapMatrix l fun m => { m with addShadow := none }
  | .drop _ l => s.mapMatrix l fun m => { m with dropShadow := none }
  | .express _ _ => s

/-! ## Ramp grants -/

/-- A degree's trip is in force in TRIPPED and HOLDING (R145). -/
def State.tripInForce (s : State) (d : Degree) : Bool := s.trips[d].state != .clear

/-- Change RSC's state of one degree. -/
def State.mapRamps (s : State) (d : Degree) (f : Ramps → Ramps) : State :=
  { s with ramps := s.ramps.set d (f s.ramps[d]) }

/-- The active ramps of a degree (R54). -/
def State.activeRamps (s : State) (d : Degree) : Nat := s.ramps[d].holders.length

/-- The conditions of a grant: the link READY, no trip in force, a free slot (R57). -/
def State.canGrant (s : State) (d : Degree) : Bool :=
  s.links[degreeLink d].state == .ready && !s.tripInForce d && decide (s.activeRamps d < s.settings[d].rampSlots)

/-- The handles of the queue's entries without the offered mark, oldest first (R57). -/
def Ramps.unoffered (r : Ramps) : List Handle := (r.queue.filter (·.offer.isNone)).map (·.handle)

/-- A handle becomes a slot holder, in slot order, under an offer number or none. -/
def Ramps.hold (r : Ramps) (h : Handle) (offer : Option (BitVec 16)) : Ramps :=
  { r with holders := insertBy (·.handle.slot.val) ⟨h, offer⟩ (r.holders.filter (·.handle ≠ h)) }

/-- An entry leaves the queue. -/
def Ramps.dequeue (r : Ramps) (h : Handle) : Ramps := { r with queue := r.queue.filter (·.handle ≠ h) }

/-- CNM takes a grant: the entry leaves the queue, the handle holds the slot, and a PENDING_UP record
enters RAMP_UP at 250, a PENDING_DOWN record RAMP_DOWN with its shadow unchanged; a record in any
other state is unchanged (R40, R58). -/
def State.takeGrant (s : State) (d : Degree) (h : Handle) : State :=
  match s.find h with
  | none => s
  | some c =>
    match c.state with
    | .pendingUp =>
      ((s.mapRamps d fun r => (r.dequeue h).hold h none).putConn h.slot
        (some { c with state := .rampUp, shadow := .att 250 })).mark (degreeLink d)
    | .pendingDown =>
      (s.mapRamps d fun r => (r.dequeue h).hold h none).putConn h.slot (some { c with state := .rampDown })
    | _ => s

/-- A grant event inside a CNM step: slots are granted to the unoffered entries, oldest first, while
the conditions allow, and each grant is taken within the step (R57, R58). -/
def State.grantEvent (s : State) (d : Degree) : State :=
  s.ramps[d].unoffered.foldl (fun s h => if s.canGrant d then s.takeGrant d h else s) s

/-- RSC offers a grant: the entry is marked with a new offer number, the handle holds a slot under
it, and a grant request goes to CNM (R58). -/
def State.offerOne (s : State) (d : Degree) (h : Handle) : State :=
  let n := s.ramps[d].offerCount
  let s' := s.mapRamps d fun r =>
    { (r.hold h (some n)) with
      queue := r.queue.map fun e => if e.handle = h then { e with offer := some n } else e
      offerCount := n + 1 }
  { s' with grantReqs := s'.grantReqs.set d (s'.grantReqs[d] ++ [⟨h, n⟩]) }

/-- A grant event outside a CNM step, the link READY or the trip ended: grants go as requests (R58). -/
def State.offerEvent (s : State) (d : Degree) : State :=
  s.ramps[d].unoffered.foldl (fun s h => if s.canGrant d then s.offerOne d h else s) s

/-- A record joins the tail of its sink degree's ramp queue: a grant event (R55). -/
def State.joinQueue (s : State) (d : Degree) (h : Handle) : State :=
  (s.mapRamps d fun r => { r with queue := r.queue ++ [⟨h, none⟩] }).grantEvent d

/-- A slot is given back: the handle leaves the holders, a grant event (R59). -/
def State.freeRamp (s : State) (d : Degree) (h : Handle) : State :=
  (s.mapRamps d fun r => { r with holders := r.holders.filter (·.handle ≠ h) }).grantEvent d

/-- An entry leaves the queue other than by a grant; an offered grant is withdrawn with it and its
slot given back, a grant event (R56). -/
def State.leaveQueue (s : State) (d : Degree) (h : Handle) : State :=
  match s.ramps[d].queue.find? (·.handle == h) with
  | none => s
  | some e =>
    match e.offer with
    | none => s.mapRamps d (·.dequeue h)
    | some n =>
      (s.mapRamps d fun r =>
        { (r.dequeue h) with holders := r.holders.filter fun k => ¬ (k.handle = h ∧ k.offer = some n) }).grantEvent d

/-! ## Freeing and draining -/

/-- A record becomes FREE (R45): it leaves the map, its matrix half returns to none when it had
entered ARMED, SLT stops tracking it, its fields and its active setpoint go; the generation is kept. -/
def State.freeRecord (s : State) (i : SlotIx) (c : Conn) : State :=
  let s1 := s.leaveMap (s.handleAt i) c.route c.span
  let s2 := if c.state = .proposed then s1 else s1.clearMatrix c.route
  let s3 := (s2.stopTrack i).putConn i none
  { s3 with actives := s3.actives.set i .blocked }

/-- An active setpoint is settled BLOCKED: it is BLOCKED and neither the batch in flight nor the
unanswered batch of its link carries an entry for it (R44, R132). -/
def State.settled (s : State) (i : SlotIx) (c : Conn) : Bool :=
  let k := s.links[c.route.link]
  s.actives[i] == .blocked && !(k.inFlight.any fun b => carries b.entries (s.handleAt i)) &&
    !(k.unanswered.any fun es => carries es (s.handleAt i))

/-- The test of R44: a DRAINING record whose active setpoint is settled BLOCKED becomes FREE, with a
RELEASED notice to its domains (R46). -/
def State.drainTest (s : State) (i : SlotIx) : State :=
  match s.conn i with
  | none => s
  | some c =>
    if c.state = .draining ∧ s.settled i c = true then
      (s.freeRecord i c).tellConn (s.handleAt i) c .released none
    else s

/-! ## Suspension and resumption -/

/-- A record that was dark or lit enters SUSPENDED with one cause (R37): the shadow is BLOCKED, and a
SUSPENDED notice is addressed (R39). -/
def Conn.suspendedBy (c : Conn) (k : Cause) : Conn :=
  { c with state := .suspended, shadow := .blocked, causes := some (Causes.empty.insert k) }

/-- A request to add a suspend cause reaches a record (R37). A record it puts in DRAINING is left for
the test of R44, which the caller makes. -/
def State.addCause (s : State) (i : SlotIx) (k : Cause) : State :=
  match s.conn i with
  | none => s
  | some c =>
    match c.route.sinkDegree with
    | none => s
    | some d =>
      let h := s.handleAt i
      match c.state with
      | .proposed => s
      | .armed => s
      | .draining => s
      | .suspended => s.putConn i (some { c with causes := some ((c.causes.getD .empty).insert k) })
      | .pendingUp =>
        ((s.putConn i (some (c.suspendedBy k))).tellConn h c .suspended (some k.value)).leaveQueue d h
      | .rampUp =>
        ((((s.putConn i (some { c.suspendedBy k with power := some .normal })).mark c.route.link).tellConn h c
          .suspended (some k.value))).freeRamp d h
      | .inService =>
        ((s.putConn i (some { c.suspendedBy k with power := some .normal })).mark c.route.link).tellConn h c
          .suspended (some k.value)
      | .pendingDown =>
        ((s.putConn i (some { c with state := .draining, shadow := .blocked })).mark c.route.link).leaveQueue d h
      | .rampDown =>
        ((s.putConn i (some { c with state := .draining, shadow := .blocked })).mark c.route.link).freeRamp d h

/-- A request to remove a suspend cause reaches a record (R38). -/
def State.removeCause (s : State) (i : SlotIx) (k : Cause) : State :=
  match s.conn i with
  | none => s
  | some c =>
    match c.route.sinkDegree with
    | none => s
    | some d =>
      let h := s.handleAt i
      let left := (c.causes.getD .empty).erase k
      if c.state = .suspended ∧ (c.causes.getD .empty).has k = true then
        if left = .empty then
          ((s.putConn i (some { c with state := .pendingUp, causes := some left })).tellConn h c .resumed
            none).joinQueue d h
        else s.putConn i (some { c with causes := some left })
      else s

/-! ## The choice of a tap -/

/-- The six states in which a connection wants its source tap (R75). -/
def CState.wantsSource : CState → Bool
  | .suspended => true
  | .pendingUp => true
  | .rampUp => true
  | .inService => true
  | .pendingDown => true
  | .rampDown => true
  | _ => false

/-- The three states in which a connection is covered by a pass (R74, R98). -/
def CState.covered : CState → Bool
  | .rampUp => true
  | .inService => true
  | .rampDown => true
  | _ => false

/-- The two states of a ramp (R78). -/
def CState.ramping : CState → Bool
  | .rampUp => true
  | .rampDown => true
  | _ => false

/-- Whether some non-FREE connection meets a condition. -/
def State.someConn (s : State) (f : Conn → Bool) : Bool := slots.any fun i => (s.conn i).any f

/-- A link is READY with no batch in flight (R74). -/
def Link.idleReady (k : Link) : Bool := k.state == .ready && k.inFlight.isNone

/-- A tap is wanted (R74, R75). -/
def State.wanted (s : State) (t : Tap) : Bool :=
  match t.kind with
  | .egress =>
    s.links[degreeLink t.degree].idleReady &&
      s.someConn fun c => c.route.sinkDegree == some t.degree && c.state.covered
  | _ => s.someConn fun c => c.route.tap == t && c.state.wantsSource

/-- The place of a tap in the rotation order I0 A0 E0 I1 ... E3 (R77). -/
def Tap.place (t : Tap) : Nat :=
  3 * t.degree.val + match t.kind with
    | .ingress => 0
    | .add => 1
    | .egress => 2

/-- The tap at a place of the rotation order, which wraps after twelve (R77). -/
def Tap.atPlace (n : Nat) : Tap where
  kind := if n % 3 = 0 then .ingress else if n % 3 = 1 then .add else .egress
  degree := ⟨n / 3 % 4, by omega⟩

/-- The pick of a rotation turn (R77). -/
def State.rotationPick (s : State) : Option Tap :=
  ((List.range 12).map fun k => Tap.atPlace (s.mon.rotation.place + k)).find? s.wanted

/-- A degree qualifies for a boost turn: a connection sinking on it ramps, and its E tap is wanted (R78). -/
def State.boosts (s : State) (d : Degree) : Bool :=
  s.wanted ⟨.egress, d⟩ && s.someConn fun c => c.route.sinkDegree == some d && c.state.ramping

/-- The pick of a boost turn (R78). -/
def State.boostPick (s : State) : Option Degree :=
  ((List.finRange 4).map fun k => s.mon.boost + k).find? s.boosts

/-- The other kind of turn (R79). -/
def Turn.other : Turn → Turn
  | .rotation => .boost
  | .boost => .rotation

/-- MON requests a tap: the tag counter's value goes out and the counter advances, the request time is
recorded, the sweep timer starts, the turn kind changes, and MREQ pulses once (R67, R79). -/
def State.request (s : State) (t : Tap) : State :=
  { s with
    mon := { s.mon with
      state := .requested, tap := t, tag := s.mon.tagCounter, tagCounter := s.mon.tagCounter + 1,
      requestTime := s.nodeTime, timer := some (s.nodeTime + BitVec.ofNat 32 Config.sweepPeriod),
      turn := s.mon.turn.other }
    mreqPulses := s.mreqPulses + 1 }

/-- A rotation turn: the rotation position moves past the pick (R77). -/
def State.rotationTurn (s : State) : State :=
  match s.rotationPick with
  | none => s
  | some t => ({ s with mon := { s.mon with rotation := Tap.atPlace (t.place + 1) } } : State).request t

/-- MON's choice by the turn in force; a boost turn with no degree becomes a rotation turn (R76 to R79). -/
def State.choice (s : State) : State :=
  match s.mon.turn with
  | .rotation => s.rotationTurn
  | .boost =>
    match s.boostPick with
    | some d => ({ s with mon := { s.mon with boost := d + 1 } } : State).request ⟨.egress, d⟩
    | none => s.rotationTurn

/-- A choice that a change of a record or of a link prompts is made only in IDLE (R76). -/
def State.prompt (s : State) : State := if s.mon.state = .idle then s.choice else s

/-- The end of a CNM step that may have changed records or shadows: SLC examines the marked links,
and MON is prompted (R76, R126, R127). -/
def State.finish (s : State) : State := s.flushLinks.prompt

/-! ## Trips -/

/-- Change TRU's items of one degree. -/
def State.mapTrip (s : State) (d : Degree) (f : Trip → Trip) : State :=
  { s with trips := s.trips.set d (f s.trips[d]) }

/-- The ADD and EXPRESS connections sinking on a degree, as slots in ascending order. -/
def State.sinking (s : State) (d : Degree) : List SlotIx :=
  slots.filter fun i => (s.conn i).any fun c => c.route.sinkDegree == some d

/-- A degree enters TRIPPED (R147): the state changes and a hold timer stops; TRIP_ON and the TRIP
flag; TRIP is added to every record sinking on it; then the DRAINING records made are tested. -/
def State.enterTripped (s : State) (d : Degree) : State :=
  let s1 := s.mapTrip d fun t => { t with state := .tripped, timer := none }
  let s2 := (s1.tellManager d (s1.notice .tripOn none (some d) none)).flagManager d .onlyTrip
  let s3 := (s.sinking d).foldl (fun s i => s.addCause i .trip) s2
  ((s.sinking d).filter fun i => ¬ (s.conn i).any fun c => c.state == .draining).foldl State.drainTest s3

/-- A degree enters HOLDING: the hold timer starts at this step (R146, R149). -/
def State.enterHolding (s : State) (d : Degree) : State :=
  s.mapTrip d fun t =>
    { t with state := .holding, timer := some (s.nodeTime + BitVec.ofNat 32 s.settings[d].hold) }

/-- A trip ends (R152): the state is CLEAR and the hold timer stopped; TRIP_OFF; TRIP is removed from
every record sinking on the degree, each that joins the queue a grant event; then RSC offers. -/
def State.endTrip (s : State) (d : Degree) : State :=
  let s1 := s.mapTrip d fun t => { t with state := .clear, timer := none }
  let s2 := s1.tellManager d (s1.notice .tripOff none (some d) none)
  ((s.sinking d).foldl (fun s i => s.removeCause i .trip) s2).offerEvent d

/-- CNM makes a change of a degree's trip state (R146). -/
def State.applyTrip (s : State) (d : Degree) : TripChange → State
  | .trip => s.enterTripped d
  | .hold => s.enterHolding d
  | .clear => s.endTrip d

/-- The activity of a trip line at a level, judged against an active level (R146). -/
def ActiveLevel.judge (a : ActiveLevel) (high : Bool) : LineLevel :=
  match a, high with
  | .low, false => .active
  | .high, true => .active
  | _, _ => .inactive

/-- The change of trip state that a line event makes, if any (R147, R149). -/
def State.lineChange (s : State) (d : Degree) (line : LineLevel) : Option TripChange :=
  match line, s.trips[d].state with
  | .active, .clear => some .trip
  | .active, .holding => some .trip
  | .active, .tripped => none
  | .inactive, .tripped =>
    match s.settings[d].mode with
    | .latched => none
    | .follow => if s.settings[d].hold = 0 then some .clear else some .hold
  | .inactive, _ => none

/-- CNM takes the trip hand-off of a degree that waits, if one does (R146, R147). -/
def State.takeHandOff (s : State) (d : Degree) : State :=
  match s.tripReqs[d] with
  | none => s
  | some ch => ({ s with tripReqs := s.tripReqs.set d none } : State).applyTrip d ch

/-! ## Timers -/

/-- A timer runs out at the count of node time that equals its expiry (R177): its owner takes the expiry
as an event while node time stands there, and node time does not go on before it has (log entry 4). -/
def expired (now expiry : Time) : Bool := now == expiry

/-! ## Arming and activation -/

/-- ACTIVATE's effects on the record of a slot (R35, R36). -/
def State.activateRecord (s : State) (i : SlotIx) (c : Conn) : State :=
  let h := s.handleAt i
  match c.route.sinkDegree with
  | some d =>
    (s.putConn i (some { c with
      state := .suspended, source := some .dark, causes := some ⟨true, s.tripInForce d⟩,
      power := some .normal, lastLevel := none })).startTrack h c
  | none =>
    ((s.putConn i (some { c with
      state := .inService, source := some .dark, shadow := .att (c.dropAtten.getD 0) })).mark
        c.route.link).startTrack h c

/-- A record enters ARMED (R34): the expiry becomes absent, the matrix half is set, and with
auto-activate ACTIVATE's effects follow. -/
def State.armRecord (s : State) (i : SlotIx) (c : Conn) : State :=
  let c' := { c with state := .armed, expiry := none }
  let s' := (s.putConn i (some c')).setMatrix c.route
  if c.autoActivate then s'.activateRecord i c' else s'

end Sys2Proof.Machine
end

