-- ==== Sys2Proof/Machine/Optics.lean ====
section
/-! DEFINITION. Machine/Optics.lean: what is computed from a sweep: saturation of readings and the
span level (R69, R102), the source light evaluation (chapter 5), the pass of the power loop
(chapter 6), and the capture of an excursion (chapter 9). -/

namespace Sys2Proof.Machine
open Sys2Proof

/-! ## Readings and levels -/

/-- A reading word as MON keeps it: 0x8000 marks no reading and is kept as −600, the rest are
saturated to −600..+200 (R66, R69). -/
def saturate (w : BitVec 16) : Int := if w = 0x8000 then -600 else clampInt (-600) 200 w.toInt

/-- The first cell that enters a span's level (R102). -/
def Span.levelFirst (sp : Span) : Nat := if sp.width = 2 then sp.first else sp.first + 1

/-- The number of cells that enter a span's level (R102). -/
def Span.levelCount (sp : Span) : Nat := if sp.width = 2 then 2 else sp.width - 2

/-- The span level: the mean of the cells used, rounded toward minus infinity, as Int's division by a
positive number rounds (R102). -/
def spanLevel (readings : List Int) (sp : Span) : Int :=
  ((readings.drop (Span.levelFirst sp)).take (Span.levelCount sp)).sum / (Span.levelCount sp : Int)

/-! ## Source light -/

/-- One evaluation of a tracked connection: the runs, and the declaration, if any (R90 to R92). -/
def TrackEntry.evaluate (e : TrackEntry) (st : Settings) (level : Int) : TrackEntry × Option DeclReq :=
  if level < st.darkThreshold then
    let run := min 8 (e.darkRun + 1)
    if e.declared = .lit ∧ st.darkCount ≤ run then
      ({ e with darkRun := run, lightRun := 0, declared := .dark }, some ⟨e.handle, .dark, level⟩)
    else ({ e with darkRun := run, lightRun := 0 }, none)
  else
    let run := min 8 (e.lightRun + 1)
    if e.declared = .dark ∧ st.lightCount ≤ run then
      ({ e with lightRun := run, darkRun := 0, declared := .lit }, some ⟨e.handle, .lit, level⟩)
    else ({ e with lightRun := run, darkRun := 0 }, none)

/-- SLT evaluates every entry of an I or A tap, in ascending slot order, and sends the declarations
to CNM in that order (R89). -/
def State.evaluateTap (s : State) (t : Tap) (readings : List Int) : State :=
  { s with
    tracks := s.tracks.map fun e =>
      if e.tap = t then (e.evaluate s.settings[t.degree] (spanLevel readings e.span)).1 else e
    declReqs := s.declReqs ++ s.tracks.filterMap fun e =>
      if e.tap = t then (e.evaluate s.settings[t.degree] (spanLevel readings e.span)).2 else none }

/-! ## The pass -/

/-- The attenuation a pass starts from, the select shadow; a covered connection's is never BLOCKED
(R27, R99). -/
def Setpoint.atten : Setpoint → Nat
  | .att a => a
  | .blocked => 0

/-- The step of an equalisation pass (R104, R105). -/
def equalStep (e : Int) (st : Settings) : Int :=
  if e.natAbs ≤ st.deadband then 0
  else
    let quotient := (e * st.gain).tdiv 16
    let floored := if quotient = 0 then (if 0 < e then 1 else -1) else quotient
    clampInt (-st.maxStep) st.maxStep floored

/-- The power condition of an equalisation pass, from its error and its sum (R107). -/
def equalPower (e sum : Int) (st : Settings) : PowerCond :=
  if e.natAbs ≤ st.deadband then .normal
  else if sum < 0 then .underpower
  else if 250 < sum then .overpower
  else .normal

/-- The result of an IN_SERVICE pass (R103 to R107). -/
def equalise (st : Settings) (h : Handle) (c : Conn) (level : Int) : PassResult :=
  let e := level - c.target.getD 0
  let sum := (c.shadow.atten : Int) + equalStep e st
  ⟨h, .inService, .att (clampInt 0 250 sum).toNat, level, none, some (equalPower e sum st), some e⟩

/-- The result of a RAMP_UP pass: complete by level, complete at full opening, or a step (R110 to R113). -/
def rampUpPass (st : Settings) (h : Handle) (c : Conn) (level : Int) : PassResult :=
  let target := c.target.getD 0
  if target - st.deadband ≤ level then
    ⟨h, .rampUp, c.shadow, level, some .inService, some .normal, some (level - target)⟩
  else if c.shadow.atten = 0 then
    ⟨h, .rampUp, .att 0, level, some .inService, some .underpower, some (level - target)⟩
  else ⟨h, .rampUp, .att (c.shadow.atten - st.rampStep), level, none, none, none⟩

/-- The result of a RAMP_DOWN pass: a step, or BLOCKED from 250 (R114). -/
def rampDownPass (st : Settings) (h : Handle) (c : Conn) (level : Int) : PassResult :=
  if c.shadow.atten < 250 then
    ⟨h, .rampDown, .att (min 250 (c.shadow.atten + st.rampStep)), level, none, none, none⟩
  else ⟨h, .rampDown, .blocked, level, some .draining, none, none⟩

/-- The result of a pass for one connection; none when the pass does not cover it (R98). -/
def passResultOf (st : Settings) (h : Handle) (c : Conn) (level : Int) : Option PassResult :=
  match c.state with
  | .inService => some (equalise st h c level)
  | .rampUp => some (rampUpPass st h c level)
  | .rampDown => some (rampDownPass st h c level)
  | _ => none

/-- PWL runs one pass of a degree: one result per covered connection sinking on it, in ascending slot
order, sent to CNM (R98, R100). -/
def State.runPass (s : State) (d : Degree) (readings : List Int) : State :=
  { s with passReqs := s.passReqs.set d (s.passReqs[d] ++ (s.sinking d).filterMap fun i =>
      (s.conn i).bind fun c => passResultOf s.settings[d] (s.handleAt i) c (spanLevel readings c.span)) }

/-! ## Excursions -/

/-- Change the log of one degree. -/
def State.mapLog (s : State) (d : Degree) (f : ExcursionLog → ExcursionLog) : State :=
  { s with logs := s.logs.set d (f s.logs[d]) }

/-- The stamp of an entry captured now (R161). -/
def ExcursionLog.stampAt (g : ExcursionLog) (kind : StampKind) (now : Time) : Time :=
  match kind with
  | .absolute => now
  | .delta =>
    match g.lastCapture with
    | some t => now - t
    | none => 0

/-- A capture: the entry joins the newest end, the oldest leaving a full log; the time of last capture
and the prescale counter follow, and the notice when the counter reaches the prescale (R159 to R162). -/
def State.capture (s : State) (d : Degree) (h : Handle) (e : Int) : State :=
  let g := s.logs[d]
  let st := s.settings[d]
  let entry : LogEntry := ⟨h, e, st.logStamp, g.stampAt st.logStamp s.nodeTime⟩
  let kept := if g.entries.length < Config.logRoom then g.entries else g.entries.drop 1
  let due := decide (st.logPrescale ≤ g.prescale + 1)
  let s' := s.mapLog d fun g =>
    { g with entries := kept ++ [entry], lastCapture := some s.nodeTime, prescale := if due then 0 else g.prescale + 1 }
  if due then s'.tellManager d (s.notice .excursion (some h) (some d) (some e)) else s'

/-- The log of a degree becomes DISARMED, and EXCURSION_FULL is set at its manager's port (R160, R163). -/
def State.disarm (s : State) (d : Degree) : State :=
  (s.mapLog d fun g => { g with armed := false }).flagManager d .onlyExcursionFull

/-- A hand-off of an applied IN_SERVICE result reaches the log (R118, R159, R160). -/
def State.handOff (s : State) (d : Degree) (h : Handle) (e : Int) : State :=
  if s.logs[d].armed = false ∨ e.natAbs < s.settings[d].logThreshold then s
  else
    match s.settings[d].logMode with
    | .continuous => s.capture d h e
    | .oneShot =>
      if s.logs[d].entries.length + 1 < Config.logRoom then s.capture d h e
      else if s.logs[d].entries.length < Config.logRoom then (s.capture d h e).disarm d
      else s.disarm d

end Sys2Proof.Machine
end

