-- ==== Sys2Proof/Machine/Replies.lean ====
section
/-! DEFINITION. Machine/Replies.lean: the octets of numbers, named values and items in a reply's
results (R190), and the results of every command that reads the part. -/

namespace Sys2Proof.Machine
open Sys2Proof

/-- The answer of a command: a reply code and its results; a refused command has none (R188). -/
structure Answer where
  code : ReplyCode
  results : List Byte
  deriving DecidableEq, Repr

/-- An answer without results. -/
def Answer.plain (code : ReplyCode) : Answer := ⟨code, []⟩

/-! ## Numbers, most significant octet first (R183, R190) -/

/-- An unsigned number of one octet. -/
def u8 (n : Nat) : List Byte := [BitVec.ofNat 8 n]

/-- An unsigned number of two octets. -/
def u16 (n : Nat) : List Byte := [BitVec.ofNat 8 (n / 256), BitVec.ofNat 8 n]

/-- A signed number: two octets, two's complement. -/
def i16 (v : Int) : List Byte := u16 (BitVec.ofInt 16 v).toNat

/-- A node time, stamp or expiry: four octets. -/
def timeOctets (t : Time) : List Byte :=
  [BitVec.ofNat 8 (t.toNat / 16777216), BitVec.ofNat 8 (t.toNat / 65536), BitVec.ofNat 8 (t.toNat / 256),
    BitVec.ofNat 8 t.toNat]

/-- A yes or no. -/
def yesNo (b : Bool) : List Byte := u8 b.toNat

/-- An item that can be absent: a presence octet, and its width filled with 0 when absent. -/
def item {α : Type} (width : Nat) (f : α → List Byte) : Option α → List Byte
  | some a => u8 1 ++ f a
  | none => u8 0 ++ List.replicate width 0

/-- A manager that may be unassigned: 0xFF for unassigned. -/
def managerOctet (m : Option Domain) : List Byte := u8 (match m with | some p => p.val | none => 255)

/-- A handle: slot, then generation. -/
def Handle.octets (h : Handle) : List Byte := u8 h.slot.val ++ u8 h.gen.toNat

/-- A span: first cell in two octets, then width. -/
def Span.octets (sp : Span) : List Byte := u16 sp.first ++ u8 sp.width

/-- A setpoint: the attenuation in two octets, 0xFFFF for BLOCKED. -/
def Setpoint.octets : Setpoint → List Byte
  | .att a => u16 a
  | .blocked => u16 0xFFFF

/-- The code of an endpoint. -/
def Endpoint.octets (e : Endpoint) : List Byte := u8 e.index.val

/-! ## Named values: their positions where the manual first lists them (R190) -/

/-- ADD, DROP, EXPRESS. -/
def Route.typeNumber : Route → Nat
  | .add _ _ => 0
  | .drop _ _ => 1
  | .express _ _ => 2

/-- The states of section 2.2, FREE first. -/
def stateNumber : Option CState → Nat
  | none => 0
  | some .proposed => 1
  | some .armed => 2
  | some .suspended => 3
  | some .pendingUp => 4
  | some .rampUp => 5
  | some .inService => 6
  | some .pendingDown => 7
  | some .rampDown => 8
  | some .draining => 9

/-- LIT, DARK. -/
def Light.number : Light → Nat
  | .lit => 0
  | .dark => 1

/-- NORMAL, UNDERPOWER, OVERPOWER. -/
def PowerCond.number : PowerCond → Nat
  | .normal => 0
  | .underpower => 1
  | .overpower => 2

/-- SOURCE_DARK in bit 0, TRIP in bit 1. -/
def Causes.octets (c : Causes) : List Byte := u8 (c.sourceDark.toNat + 2 * c.trip.toNat)

/-- RAMP in bit 0, SUSPEND in bit 1, POWER in bit 2. -/
def NotifySet.octets (n : NotifySet) : List Byte := u8 (n.ramp.toNat + 2 * n.suspend.toNat + 4 * n.power.toNat)

/-- LOW, HIGH: the codes of R168. -/
def ActiveLevel.number : ActiveLevel → Nat
  | .low => 0
  | .high => 1

/-- LATCHED, FOLLOW. -/
def TripMode.number : TripMode → Nat
  | .latched => 0
  | .follow => 1

/-- CONTINUOUS, ONE_SHOT. -/
def LogMode.number : LogMode → Nat
  | .continuous => 0
  | .oneShot => 1

/-- ABSOLUTE, DELTA. -/
def StampKind.number : StampKind → Nat
  | .absolute => 0
  | .delta => 1

/-- IDLE, REQUESTED, RECEIVING. -/
def RequestState.number : RequestState → Nat
  | .idle => 0
  | .requested => 1
  | .receiving => 2

/-- ROTATION, BOOST. -/
def Turn.number : Turn → Nat
  | .rotation => 0
  | .boost => 1

/-- NONE, MISMATCH, EARLY_START, TIMEOUT, followed by the tap. -/
def MonFailure.octets : MonFailure → List Byte
  | .none => u8 0 ++ u8 0
  | .mismatch t => u8 1 ++ u8 t.code.val
  | .earlyStart t => u8 2 ++ u8 t.code.val
  | .timeout t => u8 3 ++ u8 t.code.val

/-- STARTING, READY, FAULTED. -/
def LinkState.number : LinkState → Nat
  | .starting => 0
  | .ready => 1
  | .faulted => 2

/-- UPDATE, START, RESYNC. -/
def BatchKind.number : BatchKind → Nat
  | .update => 0
  | .start => 1
  | .resync _ => 2

/-- NONE, FAULT, TIMEOUT, followed by the cause. -/
def LinkFailure.octets : LinkFailure → List Byte
  | .none => u8 0 ++ u8 0
  | .fault c => u8 1 ++ u8 c
  | .timeout => u8 2 ++ u8 0

/-- CLEAR, TRIPPED, HOLDING. -/
def TripState.number : TripState → Nat
  | .clear => 0
  | .tripped => 1
  | .holding => 2

/-- ACTIVE, INACTIVE. -/
def LineLevel.number : LineLevel → Nat
  | .active => 0
  | .inactive => 1

/-- The code of a notice kind, 1 to 18 (R191). -/
def NoticeKind.code : NoticeKind → Nat
  | .proposalIn => 1
  | .proposalAccepted => 2
  | .proposalDeclined => 3
  | .proposalExpired => 4
  | .rampDone => 5
  | .suspended => 6
  | .resumed => 7
  | .sourceLost => 8
  | .sourceBack => 9
  | .powerLimit => 10
  | .powerNormal => 11
  | .released => 12
  | .excursion => 13
  | .tripOn => 14
  | .tripOff => 15
  | .linkFault => 16
  | .linkReady => 17
  | .endpointHanded => 18

/-- The number of a reply code (R188). -/
def ReplyCode.number : ReplyCode → Nat
  | .ok => 0
  | .okClamped => 1
  | .frameError => 2
  | .unknownCommand => 3
  | .badParam => 4
  | .notManager => 5
  | .noPeer => 6
  | .ownedElsewhere => 7
  | .inUse => 8
  | .tableFull => 9
  | .portBusy => 10
  | .spanConflict => 11
  | .guardConflict => 12
  | .loadLimit => 13
  | .ingressConflict => 14
  | .noSuchConnection => 15
  | .wrongState => 16
  | .empty => 17

/-! ## Results -/

/-- The eighteen fields of a settings record in field code order (R169, R190). -/
def Settings.octets (g : Settings) : List Byte :=
  u8 g.guard ++ u16 g.loadLimit ++ u8 g.rampSlots ++ u8 g.gain ++ u8 g.deadband ++ u8 g.maxStep ++
  u8 g.rampStep ++ i16 g.darkThreshold ++ u8 g.darkCount ++ u8 g.lightCount ++ u8 g.activeLevel.number ++
  u8 g.mode.number ++ u16 g.hold ++ u16 g.switchTimeout ++ u8 g.logThreshold ++ u8 g.logMode.number ++
  u8 g.logStamp.number ++ u8 g.logPrescale

/-- READ_ENDPOINTS: twenty entries of manager and use count (R22). -/
def State.endpointResults (s : State) : List Byte :=
  let entry (e : Endpoint) : List Byte := managerOctet s.managers[e.index] ++ u8 (s.useCount e)
  u8 20 ++ ((List.finRange 4).map fun d => entry (.degree d)).flatten ++
    ((List.finRange 16).map fun l => entry (.port l)).flatten

/-- The source endpoint code of the connection a handle names. -/
def State.sourceCode (s : State) (h : Handle) : Nat :=
  match s.find h with
  | some c => c.route.source.index.val
  | none => 0

/-- The sink endpoint code of the connection a handle names. -/
def State.sinkCode (s : State) (h : Handle) : Nat :=
  match s.find h with
  | some c => c.route.sink.index.val
  | none => 0

/-- LIST_SPANS: up to eight entries from the start cell on, then the count of all such entries (R23). -/
def listResults {α : Type} (first : α → Nat) (octets : α → List Byte) (start : Nat) (es : List α) : List Byte :=
  let found := es.filter fun e => start ≤ first e
  u8 (min 8 found.length) ++ ((found.take 8).map octets).flatten ++ u8 found.length

/-- LIST_SPANS of the egress list: span, handle, source endpoint code (R23). -/
def State.egressResults (s : State) (d : Degree) (start : Nat) : List Byte :=
  listResults (·.span.first) (fun e => Span.octets e.span ++ Handle.octets e.handle ++ u8 (s.sourceCode e.handle)) start
    s.map[d].egress

/-- LIST_SPANS of the ingress list: span, number of users, each user's handle and sink (R23). -/
def State.ingressResults (s : State) (d : Degree) (start : Nat) : List Byte :=
  listResults (·.span.first)
    (fun e => Span.octets e.span ++ u8 e.users.length ++
      (e.users.map fun h => Handle.octets h ++ u8 (s.sinkCode h)).flatten) start s.map[d].ingress

/-- LIST_SPANS of the drop list: span, local port, handle (R23). -/
def State.dropResults (s : State) (d : Degree) (start : Nat) : List Byte :=
  listResults (·.span.first) (fun e => Span.octets e.span ++ u8 e.port.val ++ Handle.octets e.handle) start s.map[d].drops

/-- The position of a waiting record in its sink degree's ramp queue, from 1 (R49). -/
def State.queuePosition (s : State) (h : Handle) (c : Conn) : Option Nat :=
  match c.route.sinkDegree with
  | some d => (s.ramps[d].queue.findIdx? (·.handle == h)).map (· + 1)
  | none => none

/-- READ_CONN: the fields of R26 in order, the active setpoint, the runs, the queue position (R49). -/
def State.connResults (s : State) (h : Handle) (c : Conn) : List Byte :=
  Handle.octets h ++ u8 c.route.typeNumber ++ c.route.source.octets ++ c.route.sink.octets ++ Span.octets c.span ++
  u8 (stateNumber (some c.state)) ++ u8 c.proposer.val ++ item 1 (fun p : Domain => u8 p.val) c.peer ++
  item 4 timeOctets c.expiry ++ yesNo c.autoActivate ++ item 2 i16 c.target ++ item 1 u8 c.dropAtten ++
  c.notify.octets ++
  item 2 Setpoint.octets (if c.route.sinkDegree.isSome then some c.shadow else none) ++
  item 2 Setpoint.octets (if c.route.sinkDegree.isSome then none else some c.shadow) ++
  item 1 (fun l : Light => u8 l.number) c.source ++ item 1 Causes.octets c.causes ++
  item 1 (fun p : PowerCond => u8 p.number) c.power ++ item 2 i16 c.lastLevel ++
  s.actives[h.slot].octets ++ item 1 (fun e : TrackEntry => u8 e.darkRun) (s.track h) ++
  item 1 (fun e : TrackEntry => u8 e.lightRun) (s.track h) ++ item 1 u8 (s.queuePosition h c)

/-- READ_LEVEL: span level, stamp, and for an E tap the generation and the usable mark (R83). -/
def Bank.results (b : Bank) (sp : Span) : List Byte :=
  i16 (spanLevel b.readings sp) ++ timeOctets b.stamp ++ item 2 (fun g : BitVec 16 => u16 g.toNat) b.gen ++
    item 1 yesNo b.usable

/-- The link fields of R144; the switch generation stands among a degree link's alone. After the yes or no
of a batch in flight its kind and its sequence number have a presence octet each, the yes or no not
standing for one (DEDUCED from R190, log entry 7). -/
def State.linkResults (s : State) (l : LinkId) : List Byte :=
  let k := s.links[l]
  u8 k.state.number ++ yesNo k.inFlight.isSome ++ item 1 (fun b : Batch => u8 b.kind.number) k.inFlight ++
  item 1 (fun b : Batch => u8 b.seq.toNat) k.inFlight ++ u8 k.seq.toNat ++
  (match linkDegree l with
    | some d => u16 s.switchGen[d].toNat
    | none => []) ++
  u8 (s.updateEntries l).length ++ yesNo k.unanswered.isSome ++ k.lastFailure.octets

/-- The trip fields of R155. -/
def State.tripResults (s : State) (d : Degree) : List Byte :=
  let t := s.trips[d]
  u8 t.state.number ++ u8 t.line.number ++ u8 s.settings[d].activeLevel.number ++ u8 s.settings[d].mode.number ++
    u16 s.settings[d].hold ++ item 4 timeOctets (if t.state = .holding then t.timer else none)

/-- READ_DEGREE (R175). -/
def State.degreeResults (s : State) (d : Degree) : List Byte :=
  managerOctet (s.manager d) ++ s.settings[d].octets ++
  u16 s.map[d].committed ++ u8 s.map[d].egress.length ++ u8 s.map[d].ingress.length ++ u8 s.map[d].drops.length ++
  u8 (s.activeRamps d) ++ (s.ramps[d].holders.map fun k => Handle.octets k.handle).flatten ++
  u8 (s.settings[d].rampSlots - s.activeRamps d) ++ u8 s.ramps[d].queue.length ++
  s.linkResults (degreeLink d) ++ s.linkResults slm ++ s.tripResults d

/-- READ_EXCURSIONS (R164). -/
def State.logResults (s : State) (d : Degree) : List Byte :=
  let g := s.logs[d]
  u8 g.entries.length ++
  (g.entries.map fun e => Handle.octets e.handle ++ i16 e.error ++ u8 e.kind.number ++ timeOctets e.stamp).flatten ++
  u8 (if g.armed then 0 else 1) ++ u8 g.prescale ++ item 4 timeOctets g.lastCapture ++
  u8 s.settings[d].logThreshold ++ u8 s.settings[d].logMode.number ++ u8 s.settings[d].logStamp.number ++
  u8 s.settings[d].logPrescale

/-- A notice in FETCH_NOTICE's results, with the number of notices that remain (R183). -/
def Notice.octets (n : Notice) (remaining : Nat) : List Byte :=
  u8 n.kind.code ++ u8 (n.handle.isSome.toNat + 2 * n.degree.isSome.toNat + 4 * n.value.isSome.toNat) ++
  (match n.handle with | some h => Handle.octets h | none => [0, 0]) ++
  (match n.degree with | some d => u8 d.val | none => [0]) ++
  (match n.value with | some v => i16 v | none => [0, 0]) ++ timeOctets n.stamp ++ u8 remaining

/-- READ_PORT (R199). -/
def State.portResults (s : State) (p : Domain) : List Byte :=
  let q := s.ports[p]
  u8 p.val ++ u8 q.queue.length ++ item 1 (fun n : Notice => u8 n.kind.code) q.queue.head? ++
  item 4 (fun n : Notice => timeOctets n.stamp) q.queue.head? ++ [q.flags.octet] ++ [q.mask.octet] ++
  yesNo q.allNotices ++ yesNo q.attention

/-- READ_NODE (R84, R201). -/
def State.nodeResults (s : State) : List Byte :=
  u8 Config.familyCode ++ u8 Config.revision ++ timeOctets s.nodeTime ++ u8 s.mon.state.number ++
  u8 s.mon.tap.code.val ++ u8 s.mon.tag.toNat ++ timeOctets s.mon.requestTime ++ u16 s.mon.count.val ++
  u8 s.mon.turn.number ++ u8 s.mon.rotation.code.val ++ u8 s.mon.boost.val ++ s.mon.lastFailure.octets

end Sys2Proof.Machine
end

