-- ==== Sys2Proof/Machine/Frames.lean ====
section
/-! DEFINITION. Machine/Frames.lean: the CRC, the command and reply frames of the domain ports (R183 to
R189), and the frames of the switch links (R142, R143). -/

namespace Sys2Proof.Machine
open Sys2Proof

/-! ## The CRC (R184) -/

/-- One bit enters the remainder: generator x^16 + x^12 + x^5 + 1. -/
def crcBit (r : BitVec 16) (b : Bool) : BitVec 16 :=
  if (r.getLsbD 15 ^^ b) then (r <<< 1) ^^^ 0x1021 else r <<< 1

/-- One octet enters it, most significant bit first. -/
def crcOctet (r : BitVec 16) (b : Byte) : BitVec 16 :=
  [7, 6, 5, 4, 3, 2, 1, 0].foldl (fun r k => crcBit r (b.getLsbD k)) r

/-- The CRC over octets: the register starts at all ones, and there is no final inversion (R184). -/
def crc16 (octets : List Byte) : BitVec 16 := octets.foldl crcOctet 0xFFFF

/-- A frame: octets and their CRC, most significant octet first. -/
def withCrc (octets : List Byte) : List Byte := octets ++ u16 (crc16 octets).toNat

/-- The CRC of a received frame matches: its last two octets are the CRC of those before (R184). -/
def crcGood (frame : List Byte) : Bool :=
  decide (2 ≤ frame.length) && frame.drop (frame.length - 2) == u16 (crc16 (frame.take (frame.length - 2))).toNat

/-! ## Reply frames (R183) -/

/-- The octets of a reply frame: tag, reply code, result length, results, CRC. -/
def Reply.frame (r : Reply) : List Byte :=
  withCrc ([r.tag] ++ u8 r.code.number ++ u16 r.results.length ++ r.results)

/-! ## Command frames (R183, R185, R187, R189) -/

/-- An unsigned number of two octets. -/
def nat16 (a b : Byte) : Nat := a.toNat * 256 + b.toNat

/-- A signed number of two octets. -/
def int16 (a b : Byte) : Int := (BitVec.ofNat 16 (nat16 a b)).toInt

/-- The field changes of a SET_DEGREE, three octets each; none when octets are left over (R169). -/
def parseChanges : List Byte → Option (List (Nat × Int))
  | [] => some []
  | f :: a :: b :: rest => (parseChanges rest).map fun cs => (f.toNat, int16 a b) :: cs
  | _ => none

/-- What a port makes of a taken frame before its own checks of coding (R187). -/
inductive Parsed where
  | unknown
  | badLength
  | command (i : Instr)
  deriving DecidableEq, Repr

/-- A command whose parameters are one octet. -/
def parse1 (f : Nat → Instr) : List Byte → Parsed
  | [a] => .command (f a.toNat)
  | _ => .badLength

/-- A command without parameters. -/
def parse0 (i : Instr) : List Byte → Parsed
  | [] => .command i
  | _ => .badLength

/-- A command whose parameters are a handle. -/
def parseHandle (f : Nat → BitVec 8 → Instr) : List Byte → Parsed
  | [s, g] => .command (f s.toNat g)
  | _ => .badLength

/-- The parameters of PROPOSE. -/
def parsePropose (p : Domain) (tag : Byte) : List Byte → Parsed
  | [src, snk, c1, c0, w, hold, auto, l1, l0, n] =>
    .command (.propose p tag src.toNat snk.toNat (nat16 c1 c0) w.toNat hold.toNat auto.toNat (int16 l1 l0) n.toNat)
  | _ => .badLength

/-- A command whose parameters are a handle and a signed number. -/
def parseHandleLevel (f : Nat → BitVec 8 → Int → Instr) : List Byte → Parsed
  | [s, g, a, b] => .command (f s.toNat g (int16 a b))
  | _ => .badLength

/-- The parameters of HAND_OVER. -/
def parseHandOver (p : Domain) (tag : Byte) : List Byte → Parsed
  | [e, d] => .command (.handOver p tag e.toNat d.toNat)
  | _ => .badLength

/-- The parameters of LIST_SPANS. -/
def parseListSpans (p : Domain) (tag : Byte) : List Byte → Parsed
  | [d, l, a, b] => .command (.listSpans p tag d.toNat l.toNat (nat16 a b))
  | _ => .badLength

/-- The parameters of READ_LEVEL. -/
def parseReadLevel (p : Domain) (tag : Byte) : List Byte → Parsed
  | [t, a, b, w] => .command (.readLevel p tag t.toNat (nat16 a b) w.toNat)
  | _ => .badLength

/-- The parameters of SET_DEGREE: a degree code and 0 to 18 changes. -/
def parseSetDegree (p : Domain) (tag : Byte) : List Byte → Parsed
  | d :: rest =>
    match parseChanges rest with
    | some cs => if cs.length ≤ 18 then .command (.setDegree p tag d.toNat cs) else .badLength
    | none => .badLength
  | _ => .badLength

/-- The command of a code with its parameters, by the catalogue of R189. -/
def parseCommand (p : Domain) (code tag : Byte) (params : List Byte) : Parsed :=
  match code.toNat with
  | 0x10 => parse1 (.claim p tag) params
  | 0x11 => parseHandOver p tag params
  | 0x12 => parse1 (.unclaim p tag) params
  | 0x13 => parse0 (.readEndpoints p tag) params
  | 0x20 => parsePropose p tag params
  | 0x21 => parseHandle (.accept p tag) params
  | 0x22 => parseHandle (.decline p tag) params
  | 0x23 => parseHandle (.activate p tag) params
  | 0x24 => parseHandle (.release p tag) params
  | 0x25 => parseHandleLevel (.setTarget p tag) params
  | 0x26 => parseHandleLevel (.setDropAtten p tag) params
  | 0x27 => parseHandle (.readConn p tag) params
  | 0x28 => parseListSpans p tag params
  | 0x30 => parseReadLevel p tag params
  | 0x31 => parseSetDegree p tag params
  | 0x32 => parse1 (.readDegree p tag) params
  | 0x33 => parse1 (.clearTrip p tag) params
  | 0x34 => parse1 (.retryLink p tag) params
  | 0x35 => parse1 (.readExcursions p tag) params
  | 0x36 => parse1 (.rearmExcursions p tag) params
  | 0x40 => parse0 (.fetchNotice p tag) params
  | 0x41 => parse0 (.readPort p tag) params
  | 0x42 => parse1 (.clearFlags p tag) params
  | 0x43 => parse1 (.setMask p tag) params
  | 0x44 => parse1 (.setAllNotices p tag) params
  | 0x45 => parse0 (.resetPort p tag) params
  | 0x50 => parse0 (.readNode p tag) params
  | _ => .unknown

/-- The parameter length P of a command frame. -/
def frameParamLength (frame : List Byte) : Nat := nat16 (frame.getD 2 0) (frame.getD 3 0)

/-- The length and CRC checks of a received command frame (R185). -/
def frameGood (frame : List Byte) : Bool :=
  decide (6 ≤ frame.length ∧ frameParamLength frame ≤ 64 ∧ frame.length = 6 + frameParamLength frame) && crcGood frame

/-- The code, the tag and the parameters of a command as its frame carries them (R189); none for an
event, which no frame carries. -/
def commandParts : Instr → Option (Domain × Nat × Byte × List Byte)
  | .claim p t e => some (p, 0x10, t, u8 e)
  | .handOver p t e d => some (p, 0x11, t, u8 e ++ u8 d)
  | .unclaim p t e => some (p, 0x12, t, u8 e)
  | .readEndpoints p t => some (p, 0x13, t, [])
  | .propose p t src snk c w hold auto level n =>
    some (p, 0x20, t, u8 src ++ u8 snk ++ u16 c ++ u8 w ++ u8 hold ++ u8 auto ++ i16 level ++ u8 n)
  | .accept p t i g => some (p, 0x21, t, u8 i ++ [g])
  | .decline p t i g => some (p, 0x22, t, u8 i ++ [g])
  | .activate p t i g => some (p, 0x23, t, u8 i ++ [g])
  | .release p t i g => some (p, 0x24, t, u8 i ++ [g])
  | .setTarget p t i g v => some (p, 0x25, t, u8 i ++ [g] ++ i16 v)
  | .setDropAtten p t i g v => some (p, 0x26, t, u8 i ++ [g] ++ i16 v)
  | .readConn p t i g => some (p, 0x27, t, u8 i ++ [g])
  | .listSpans p t d l c => some (p, 0x28, t, u8 d ++ u8 l ++ u16 c)
  | .readLevel p t k c w => some (p, 0x30, t, u8 k ++ u16 c ++ u8 w)
  | .setDegree p t d cs => some (p, 0x31, t, u8 d ++ (cs.map fun c => u8 c.1 ++ i16 c.2).flatten)
  | .readDegree p t d => some (p, 0x32, t, u8 d)
  | .clearTrip p t d => some (p, 0x33, t, u8 d)
  | .retryLink p t l => some (p, 0x34, t, u8 l)
  | .readExcursions p t d => some (p, 0x35, t, u8 d)
  | .rearmExcursions p t d => some (p, 0x36, t, u8 d)
  | .fetchNotice p t => some (p, 0x40, t, [])
  | .readPort p t => some (p, 0x41, t, [])
  | .clearFlags p t f => some (p, 0x42, t, u8 f)
  | .setMask p t f => some (p, 0x43, t, u8 f)
  | .setAllNotices p t o => some (p, 0x44, t, u8 o)
  | .resetPort p t => some (p, 0x45, t, [])
  | .readNode p t => some (p, 0x50, t, [])
  | _ => none

/-- The command frame of a command (R183): code, tag, parameter length, parameters, CRC. -/
def commandFrame (i : Instr) : Option (List Byte) :=
  (commandParts i).map fun ⟨_, code, tag, params⟩ => withCrc (u8 code ++ [tag] ++ u16 params.length ++ params)

/-! ## Switch link frames (R142, R143) -/

/-- The kind octet of a batch. -/
def BatchKind.code : BatchKind → Nat
  | .update => 0x01
  | .start => 0x02
  | .resync _ => 0x03

/-- The octet of half a port entry: 0xFF for none. -/
def degreeOctet (d : Option Degree) : List Byte := u8 (match d with | some d => d.val | none => 0xFF)

/-- Octets 4 and 5 of a degree link entry: 0xFF and 0 for BLOCKED. -/
def settingOctets (place : Nat) : Setpoint → List Byte
  | .blocked => u8 0xFF ++ u8 0
  | .att a => u8 place ++ u8 a

/-- The octets of a batch entry: six on a degree link, three on SLM. -/
def Entry.octets : Entry → List Byte
  | .select _ sp input v => u8 0x00 ++ u16 sp.first ++ u8 sp.width ++ settingOctets input.val v
  | .drop _ sp l v => u8 0x01 ++ u16 sp.first ++ u8 sp.width ++ settingOctets l.val v
  | .allBlocked => u8 0x02 ++ u16 0 ++ u8 0 ++ u8 0xFF ++ u8 0
  | .port l a d => u8 l.val ++ degreeOctet a ++ degreeOctet d

/-- The frame SLC drives on SLxTX for a batch. -/
def Batch.frame (b : Batch) : List Byte :=
  withCrc (u8 b.kind.code ++ [b.seq] ++ u16 b.entries.length ++ (b.entries.map Entry.octets).flatten)

/-- What a received frame is: a DONE or a FAULT that R143 accepts, or a frame it discards. -/
inductive ModuleReply where
  | done (seq : BitVec 8)
  | fault (seq : BitVec 8) (cause : Nat)
  | discarded
  deriving DecidableEq, Repr

/-- The reading of a received frame (R142, R143). -/
def parseModuleReply (octets : List Byte) : ModuleReply :=
  if crcGood octets then
    match octets with
    | [k, seq, _, _] => if k = 0x81 then .done seq else .discarded
    | [k, seq, cause, _, _] => if k = 0x82 ∧ cause.toNat ≤ 15 then .fault seq cause.toNat else .discarded
    | _ => .discarded
  else .discarded

end Sys2Proof.Machine
end

