-- ==== Sys2Proof/Machine/Commands.lean ====
section
/-! DEFINITION. Machine/Commands.lean: how a command of the catalogue is carried out: the reply slot, the
checks of R25 that every command naming a handle makes, and the one shape of a command's step. -/

namespace Sys2Proof.Machine
open Sys2Proof

/-- What a step answers: in this model always a next state. -/
abbrev Result := Host.Outcome State Fault Refusal

/-- A reply enters a port's slot, which becomes READY (R186). -/
def State.reply (s : State) (p : Domain) (tag : Byte) (a : Answer) : State :=
  s.mapPort p fun q => { q with slot := .ready ⟨tag, a.code, a.results⟩ }

/-- The state a command's body leaves, with its reply placed in the same step (R186). -/
def answered (p : Domain) (tag : Byte) (r : State × Answer) : State := r.1.reply p tag r.2

/-- A command is carried out (R181, R186, R187; log entry 3). Held in a reset, the part takes nothing.
A BUSY slot holds the one command that may be carried out, and any other is ignored. A slot that is
EMPTY or READY takes the command as a good frame, checks its coding, and carries it out in the step;
where a transaction of the port stands on its wires is not looked at (DESIGN CHOICE, log entry 3). -/
def runCommand (p : Domain) (tag : Byte) (i : Instr) (body : State → State × Answer) (s : State) : Result :=
  if s.held.isSome then .next s
  else
    match s.ports[p].slot with
    | .busy j => if j = i then .next (answered p tag (body s)) else .next s
    | _ =>
      if Instr.codingOk i then .next (answered p tag (body s))
      else .next (s.reply p tag (.plain .badParam))

/-- An event that the part takes from outside, or a request that a block takes, only while no reset
holds it (R203). -/
def whileRunning (s : State) (effect : State → State) : Result :=
  if s.held.isSome then .next s else .next (effect s)

/-- A refusal changes no state (R188). -/
def refuse (s : State) (code : ReplyCode) : State × Answer := (s, .plain code)

/-- Steps 1 and 2 of R25: the slot is 0 to 127, and the record is non-FREE under the handle's generation. -/
def withHandle (s : State) (slot : Nat) (gen : BitVec 8) (k : SlotIx → Conn → State × Answer) : State × Answer :=
  match slotOfCode slot with
  | none => refuse s .badParam
  | some i =>
    match s.find ⟨i, gen⟩ with
    | none => refuse s .noSuchConnection
    | some c => k i c

/-- The checks of a command that names a degree and needs its manager: BAD_PARAM, then NOT_MANAGER
(R151, R165). -/
def withManagedDegree (s : State) (p : Domain) (degree : Nat) (k : Degree → State × Answer) : State × Answer :=
  match degreeOfCode degree with
  | none => refuse s .badParam
  | some d => if s.manages p (.degree d) then k d else refuse s .notManager

/-- OK, or OK_CLAMPED when a value was clamped. -/
def okOrClamped (clamped : Bool) : ReplyCode := if clamped then .okClamped else .ok

end Sys2Proof.Machine
end

