-- ==== Sys2Proof/Machine/ConnectionCommands.lean ====
section
/-! DEFINITION. Machine/ConnectionCommands.lean: the commands on a connection (sections 2.4, 2.7, 2.9) and
the reading of the map (R23): ACTIVATE, RELEASE, SET_TARGET, SET_DROP_ATTEN, READ_CONN, LIST_SPANS. -/

namespace Sys2Proof.Machine
open Sys2Proof

/-- The requester manages the record's source or its sink (R35, R42). -/
def State.managesAnEnd (s : State) (p : Domain) (c : Conn) : Bool :=
  s.manages p c.route.source || s.manages p c.route.sink

/-- ACTIVATE (R35, R36). -/
def activateBody (p : Domain) (slot : Nat) (gen : BitVec 8) (s : State) : State × Answer :=
  withHandle s slot gen fun i c =>
    if ¬ s.managesAnEnd p c then refuse s .notManager
    else if c.state ≠ .armed then refuse s .wrongState
    else ((s.activateRecord i c).finish, .plain .ok)

/-- The meaning of ACTIVATE (R35, R36). -/
def execActivate (p : Domain) (tag : Byte) (slot : Nat) (gen : BitVec 8) (s : State) : Result :=
  runCommand p tag (.activate p tag slot gen) (activateBody p slot gen) s

/-- A record is put in DRAINING with its shadow BLOCKED, its link marked when the shadow changed, and
the test of R44 is made (R43, R44). -/
def State.drain (s : State) (i : SlotIx) (c : Conn) : State :=
  let s1 := s.putConn i (some { c with state := .draining, shadow := .blocked })
  (if c.shadow = .blocked then s1 else s1.mark c.route.link).drainTest i

/-- The domain that is told of a released proposal: the one that did not send the RELEASE (R43). -/
def Conn.otherDomain (c : Conn) (p : Domain) : Option Domain := if p = c.proposer then c.peer else some c.proposer

/-- Address a notice to a domain, if there is one. -/
def State.tellOption (s : State) (p : Option Domain) (n : Notice) : State :=
  match p with
  | some p => s.tell p n
  | none => s

/-- RELEASE's effect by the record's state (R43). The states that R42 refuses are left as they are. -/
def State.releaseRecord (s : State) (p : Domain) (i : SlotIx) (c : Conn) : State :=
  let h := s.handleAt i
  match c.state with
  | .proposed =>
    (s.freeRecord i c).tellOption (c.otherDomain p) (s.notice .proposalDeclined (some h) none none)
  | .armed => (s.freeRecord i c).tellConn h c .released none
  | .suspended => s.drain i c
  | .pendingUp =>
    match c.route.sinkDegree with
    | some d => ((s.putConn i (some { c with state := .draining, shadow := .blocked })).leaveQueue d h).drainTest i
    | none => s
  | .rampUp => s.putConn i (some { c with state := .rampDown })
  | .inService =>
    match c.route.sinkDegree with
    | some d => (s.putConn i (some { c with state := .pendingDown })).joinQueue d h
    | none => s.drain i c
  | .pendingDown => s
  | .rampDown => s
  | .draining => s

/-- The states in which RELEASE is accepted (R42). -/
def CState.releasable : CState → Bool
  | .pendingDown => false
  | .rampDown => false
  | .draining => false
  | _ => true

/-- RELEASE (R42, R43): the reply carries the state the record is in at the end of the step. -/
def releaseBody (p : Domain) (slot : Nat) (gen : BitVec 8) (s : State) : State × Answer :=
  withHandle s slot gen fun i c =>
    if ¬ s.managesAnEnd p c then refuse s .notManager
    else if ¬ c.state.releasable then refuse s .wrongState
    else
      let s' := s.releaseRecord p i c
      (s'.finish, ⟨.ok, u8 (stateNumber ((s'.conn i).map (·.state)))⟩)

/-- The meaning of RELEASE (R42, R43). -/
def execRelease (p : Domain) (tag : Byte) (slot : Nat) (gen : BitVec 8) (s : State) : Result :=
  runCommand p tag (.release p tag slot gen) (releaseBody p slot gen) s

/-- SET_TARGET (R47). -/
def setTargetBody (p : Domain) (slot : Nat) (gen : BitVec 8) (level : Int) (s : State) : State × Answer :=
  withHandle s slot gen fun i c =>
    match c.route.sinkDegree with
    | none => refuse s .wrongState
    | some d =>
      if ¬ s.manages p (.degree d) then refuse s .notManager
      else
        (s.putConn i (some { c with target := some (clampInt (-300) 50 level) }),
          .plain (okOrClamped (decide (clampInt (-300) 50 level ≠ level))))

/-- The meaning of SET_TARGET (R47). -/
def execSetTarget (p : Domain) (tag : Byte) (slot : Nat) (gen : BitVec 8) (level : Int) (s : State) : Result :=
  runCommand p tag (.setTarget p tag slot gen level) (setTargetBody p slot gen level) s

/-- SET_DROP_ATTEN (R48). -/
def setDropAttenBody (p : Domain) (slot : Nat) (gen : BitVec 8) (atten : Int) (s : State) : State × Answer :=
  withHandle s slot gen fun i c =>
    match c.route with
    | .drop _ l =>
      if ¬ s.manages p (.port l) then refuse s .notManager
      else
        let a := (clampInt 0 250 atten).toNat
        let answer := Answer.plain (okOrClamped (decide (clampInt 0 250 atten ≠ atten)))
        match c.state with
        | .proposed => (s.putConn i (some { c with dropAtten := some a }), answer)
        | .armed => (s.putConn i (some { c with dropAtten := some a }), answer)
        | .inService =>
          (((s.putConn i (some { c with dropAtten := some a, shadow := .att a })).mark c.route.link).finish, answer)
        | _ => refuse s .wrongState
    | _ => refuse s .wrongState

/-- The meaning of SET_DROP_ATTEN (R48). -/
def execSetDropAtten (p : Domain) (tag : Byte) (slot : Nat) (gen : BitVec 8) (atten : Int) (s : State) : Result :=
  runCommand p tag (.setDropAtten p tag slot gen atten) (setDropAttenBody p slot gen atten) s

/-- READ_CONN (R49). -/
def readConnBody (slot : Nat) (gen : BitVec 8) (s : State) : State × Answer :=
  withHandle s slot gen fun i c => (s, ⟨.ok, s.connResults (s.handleAt i) c⟩)

/-- The meaning of READ_CONN (R49). -/
def execReadConn (p : Domain) (tag : Byte) (slot : Nat) (gen : BitVec 8) (s : State) : Result :=
  runCommand p tag (.readConn p tag slot gen) (readConnBody slot gen) s

/-- LIST_SPANS (R23): list 0 is the egress list, 1 the ingress list, 2 the drop list. -/
def listSpansBody (degree list start : Nat) (s : State) : State × Answer :=
  match degreeOfCode degree with
  | none => refuse s .badParam
  | some d =>
    if 383 < start then refuse s .badParam
    else
      match list with
      | 0 => (s, ⟨.ok, s.egressResults d start⟩)
      | 1 => (s, ⟨.ok, s.ingressResults d start⟩)
      | 2 => (s, ⟨.ok, s.dropResults d start⟩)
      | _ => refuse s .badParam

/-- The meaning of LIST_SPANS (R23). -/
def execListSpans (p : Domain) (tag : Byte) (degree list start : Nat) (s : State) : Result :=
  runCommand p tag (.listSpans p tag degree list start) (listSpansBody degree list start) s

end Sys2Proof.Machine
end

