-- ==== Sys2Proof/Machine/TripUnit.lean ====
section
/-! DEFINITION. Machine/TripUnit.lean: the events of the trip unit (chapter 8): LINE_EVENT, TRIP_HAND_OFF
and HOLD_EXPIRY, and CLEAR_TRIP. -/

namespace Sys2Proof.Machine
open Sys2Proof

/-- Record the line level of a degree. -/
def State.setLine (s : State) (d : Degree) (line : LineLevel) : State := s.mapTrip d fun t => { t with line := line }

/-- The activity of a degree's line as its pin stands, judged against the active level (R146). -/
def State.readLine (s : State) (d : Degree) : LineLevel := (s.settings[d].activeLevel).judge s.tripPins[d]

/-- TRU samples a line (R146): when its activity differs from the line level held, and no hand-off of
the degree waits at CNM, the level is recorded and a change of trip state is handed to CNM. -/
def State.sampleLine (s : State) (d : Degree) : State :=
  if s.tripReqs[d].isSome ∨ s.readLine d = s.trips[d].line then s
  else
    { (s.setLine d (s.readLine d)) with tripReqs := s.tripReqs.set d (s.lineChange d (s.readLine d)) }

/-- The meaning of LINE_EVENT (R146): the pin takes the level, in a reset too, and is sampled while no
reset holds the part. -/
def execLineEvent (d : Degree) (high : Bool) (s : State) : Result :=
  whileRunning ({ s with tripPins := s.tripPins.set d high } : State) fun s => s.sampleLine d

/-- The meaning of TRIP_HAND_OFF (R146, R147, R152): CNM takes the hand-off of the degree that waits, if
one does. -/
def execTripHandOff (d : Degree) (s : State) : Result :=
  whileRunning s fun s => if s.tripReqs[d].isSome then (s.takeHandOff d).finish else s

/-- TRU takes the expiry of a degree's hold timer, if it runs out at this count in HOLDING with no hand-off
of the degree waiting: the end of the trip is handed to CNM (R146, R150, R177). -/
def State.takeHoldExpiry (s : State) (d : Degree) : State :=
  match s.trips[d].timer with
  | none => s
  | some t =>
    if s.trips[d].state = .holding ∧ s.tripReqs[d] = none ∧ expired s.nodeTime t = true then
      { s with tripReqs := s.tripReqs.set d (some .clear) }
    else s

/-- The meaning of HOLD_EXPIRY (R150): in HOLDING, with no hand-off of the degree waiting, an expiry that
node time stands at hands the end of the trip to CNM; otherwise nothing happens. -/
def execHoldExpiry (d : Degree) (s : State) : Result := whileRunning s fun s => s.takeHoldExpiry d

/-- CLEAR_TRIP (R151). -/
def clearTripBody (p : Domain) (degree : Nat) (s : State) : State × Answer :=
  withManagedDegree s p degree fun d =>
    if s.settings[d].mode = .latched ∧ s.trips[d].state = .tripped ∧ s.trips[d].line = .inactive then
      ((s.endTrip d).finish, .plain .ok)
    else refuse s .wrongState

/-- The meaning of CLEAR_TRIP (R151). -/
def execClearTrip (p : Domain) (tag : Byte) (degree : Nat) (s : State) : Result :=
  runCommand p tag (.clearTrip p tag degree) (clearTripBody p degree) s

end Sys2Proof.Machine
end

