-- ==== Sys2Proof/Machine/DegreeCommands.lean ====
section
/-! DEFINITION. Machine/DegreeCommands.lean: the commands on one degree (chapters 9 and 10): SET_DEGREE,
READ_DEGREE, READ_EXCURSIONS and REARM_EXCURSIONS. -/

namespace Sys2Proof.Machine
open Sys2Proof

/-! ## The fields of a settings record -/

/-- A choice field's code (R168). -/
def isChoiceField (code : Nat) : Bool := code == 10 || code == 11 || code == 15 || code == 16

/-- The range of a field by its code (R168); a choice field's is its two codes. -/
def fieldRange (code : Nat) : Int × Int :=
  match code with
  | 0 => (0, 4)
  | 1 => (0, 384)
  | 2 => (1, 4)
  | 3 => (1, 16)
  | 4 => (0, 20)
  | 5 => (1, 50)
  | 6 => (1, 30)
  | 7 => (-500, -100)
  | 8 => (1, 8)
  | 9 => (1, 8)
  | 12 => (0, 10000)
  | 13 => (50, 1000)
  | 14 => (10, 200)
  | 17 => (1, 15)
  | _ => (0, 1)

/-- The value a change stores: clamped to the field's range (R170), and then the load limit to no less
than the committed cells (R171), the ramp slots to no less than the active ramps (R172). -/
def State.storedValue (s : State) (d : Degree) (code : Nat) (v : Int) : Int :=
  let first := clampInt (fieldRange code).1 (fieldRange code).2 v
  match code with
  | 1 => max first s.map[d].committed
  | 2 => max first (s.activeRamps d)
  | _ => first

/-- Store a value in a field by its code (R168). -/
def Settings.store (g : Settings) (code : Nat) (v : Int) : Settings :=
  match code with
  | 0 => { g with guard := v.toNat }
  | 1 => { g with loadLimit := v.toNat }
  | 2 => { g with rampSlots := v.toNat }
  | 3 => { g with gain := v.toNat }
  | 4 => { g with deadband := v.toNat }
  | 5 => { g with maxStep := v.toNat }
  | 6 => { g with rampStep := v.toNat }
  | 7 => { g with darkThreshold := v }
  | 8 => { g with darkCount := v.toNat }
  | 9 => { g with lightCount := v.toNat }
  | 10 => { g with activeLevel := if v = 1 then .high else .low }
  | 11 => { g with mode := if v = 1 then .follow else .latched }
  | 12 => { g with hold := v.toNat }
  | 13 => { g with switchTimeout := v.toNat }
  | 14 => { g with logThreshold := v.toNat }
  | 15 => { g with logMode := if v = 1 then .oneShot else .continuous }
  | 16 => { g with logStamp := if v = 1 then .delta else .absolute }
  | 17 => { g with logPrescale := v.toNat }
  | _ => g

/-- Step 1 of R169, less the degree code: every field code is 0 to 17 and named once, and a choice
field's value is 0 or 1. -/
def changesOk (cs : List (Nat × Int)) : Bool :=
  cs.all (fun c => decide (c.1 ≤ 17) && (!isChoiceField c.1 || c.2 == 0 || c.2 == 1)) &&
    decide ((cs.map (·.1)).Nodup)

/-- The settings record after every change is stored (R170 to R173). -/
def State.changedSettings (s : State) (d : Degree) (cs : List (Nat × Int)) : Settings :=
  cs.foldl (fun g c => g.store c.1 (s.storedValue d c.1 c.2)) s.settings[d]

/-- Some value was replaced by a clamp (R169). -/
def State.changesClamped (s : State) (d : Degree) (cs : List (Nat × Int)) : Bool :=
  cs.any fun c => s.storedValue d c.1 c.2 != c.2

/-! ## The effects of SET_DEGREE -/

/-- A changed active level: the line is re-read, and a changed activity is a line event whose change of
trip state CNM makes in the step (R153). -/
def State.reread (s : State) (d : Degree) : State :=
  if s.readLine d = s.trips[d].line then s
  else
    match s.lineChange d (s.readLine d) with
    | some ch => (s.setLine d (s.readLine d)).applyTrip d ch
    | none => s.setLine d (s.readLine d)

/-- The exceptions of a changed mode, made on the state the re-read leaves (R154). -/
def State.modeChange (s : State) (d : Degree) : State :=
  let t := s.trips[d]
  match s.settings[d].mode with
  | .follow =>
    if t.state = .tripped ∧ t.line = .inactive then
      if s.settings[d].hold = 0 then s.endTrip d else s.enterHolding d
    else s
  | .latched => if t.state = .holding then s.mapTrip d fun t => { t with state := .tripped, timer := none } else s

/-- The effects of the stored changes, in the order of R173: the trip effects, then the grant event of
raised ramp slots. -/
def State.settingEffects (s : State) (d : Degree) (old : Settings) : State :=
  let s1 := if old.activeLevel = s.settings[d].activeLevel then s else s.reread d
  let s2 := if old.mode = s1.settings[d].mode then s1 else s1.modeChange d
  if old.rampSlots < s2.settings[d].rampSlots then s2.grantEvent d else s2

/-- SET_DEGREE's remaining checks and its effect (R169 to R173). -/
def storeDegree (p : Domain) (d : Degree) (changes : List (Nat × Int)) (s : State) : State × Answer :=
  if ¬ changesOk changes then refuse s .badParam
  else if ¬ s.manages p (.degree d) then refuse s .notManager
  else
    let g := s.changedSettings d changes
    let s1 : State := { s with settings := s.settings.set d g }
    (s1.settingEffects d s.settings[d], ⟨okOrClamped (s.changesClamped d changes), g.octets⟩)

/-- A command was carried out: its reply is OK or OK_CLAMPED (R188). -/
def Answer.carriedOut (a : Answer) : Bool := a.code == .ok || a.code == .okClamped

/-- SET_DEGREE: a hand-off of the degree that waits at CNM is taken first, in the same step, before the
command is checked (R146). A refusal with no hand-off to take changes nothing. -/
def setDegreeBody (p : Domain) (degree : Nat) (changes : List (Nat × Int)) (s : State) : State × Answer :=
  match degreeOfCode degree with
  | none => refuse s .badParam
  | some d =>
    let r := storeDegree p d changes (s.takeHandOff d)
    if s.tripReqs[d].isSome || r.2.carriedOut then (r.1.finish, r.2) else r

/-- The meaning of SET_DEGREE (R169 to R173). -/
def execSetDegree (p : Domain) (tag : Byte) (degree : Nat) (changes : List (Nat × Int)) (s : State) : Result :=
  runCommand p tag (.setDegree p tag degree changes) (setDegreeBody p degree changes) s

/-- READ_DEGREE (R175). -/
def readDegreeBody (degree : Nat) (s : State) : State × Answer :=
  match degreeOfCode degree with
  | none => refuse s .badParam
  | some d => (s, ⟨.ok, s.degreeResults d⟩)

/-- The meaning of READ_DEGREE (R175). -/
def execReadDegree (p : Domain) (tag : Byte) (degree : Nat) (s : State) : Result :=
  runCommand p tag (.readDegree p tag degree) (readDegreeBody degree) s

/-! ## The excursion log -/

/-- READ_EXCURSIONS (R164). -/
def readExcursionsBody (degree : Nat) (s : State) : State × Answer :=
  match degreeOfCode degree with
  | none => refuse s .badParam
  | some d => (s, ⟨.ok, s.logResults d⟩)

/-- The meaning of READ_EXCURSIONS (R164). -/
def execReadExcursions (p : Domain) (tag : Byte) (degree : Nat) (s : State) : Result :=
  runCommand p tag (.readExcursions p tag degree) (readExcursionsBody degree) s

/-- Some degree that a domain manages has a DISARMED log (R165). -/
def State.managesDisarmed (s : State) (p : Domain) : Bool :=
  (List.finRange 4).any fun d => s.manages p (.degree d) && !s.logs[d].armed

/-- REARM_EXCURSIONS (R165): EXCURSION_FULL is cleared at the requester's port when no degree it manages
now has a DISARMED log. -/
def rearmBody (p : Domain) (degree : Nat) (s : State) : State × Answer :=
  withManagedDegree s p degree fun d =>
    let s1 := s.mapLog d fun _ => .rearmed
    let s2 :=
      if s1.managesDisarmed p then s1
      else s1.mapPort p fun q => { q with flags := q.flags.diff .onlyExcursionFull }
    (s2, .plain .ok)

/-- The meaning of REARM_EXCURSIONS (R165). -/
def execRearmExcursions (p : Domain) (tag : Byte) (degree : Nat) (s : State) : Result :=
  runCommand p tag (.rearmExcursions p tag degree) (rearmBody p degree) s

end Sys2Proof.Machine
end

