-- ==== Sys2Proof/Machine/EndpointCommands.lean ====
section
/-! DEFINITION. Machine/EndpointCommands.lean: the commands on the endpoint assignment table (section 1.5):
CLAIM, HAND_OVER, UNCLAIM and READ_ENDPOINTS. -/

namespace Sys2Proof.Machine
open Sys2Proof

/-- Assign an endpoint to a domain, or make it unassigned. -/
def State.assign (s : State) (e : Endpoint) (m : Option Domain) : State :=
  { s with managers := s.managers.set e.index m }

/-- CLAIM (R19). -/
def claimBody (p : Domain) (endpoint : Nat) (s : State) : State × Answer :=
  match Endpoint.ofCode endpoint with
  | none => refuse s .badParam
  | some e =>
    match s.managers[e.index] with
    | none => (s.assign e (some p), .plain .ok)
    | some m => if m = p then (s, .plain .ok) else refuse s .ownedElsewhere

/-- The meaning of CLAIM (R19). -/
def execClaim (p : Domain) (tag : Byte) (endpoint : Nat) (s : State) : Result :=
  runCommand p tag (.claim p tag endpoint) (claimBody p endpoint) s

/-- HAND_OVER (R20). -/
def handOverBody (p : Domain) (endpoint domain : Nat) (s : State) : State × Answer :=
  match Endpoint.ofCode endpoint, domainOfCode domain with
  | some e, some q =>
    if ¬ s.manages p e then refuse s .notManager
    else if 0 < s.useCount e then refuse s .inUse
    else if q = p then (s, .plain .ok)
    else ((s.assign e (some q)).tell q (s.notice .endpointHanded none none (some endpoint)), .plain .ok)
  | _, _ => refuse s .badParam

/-- The meaning of HAND_OVER (R20). -/
def execHandOver (p : Domain) (tag : Byte) (endpoint domain : Nat) (s : State) : Result :=
  runCommand p tag (.handOver p tag endpoint domain) (handOverBody p endpoint domain) s

/-- UNCLAIM (R21). -/
def unclaimBody (p : Domain) (endpoint : Nat) (s : State) : State × Answer :=
  match Endpoint.ofCode endpoint with
  | none => refuse s .badParam
  | some e =>
    if ¬ s.manages p e then refuse s .notManager
    else if 0 < s.useCount e then refuse s .inUse
    else (s.assign e none, .plain .ok)

/-- The meaning of UNCLAIM (R21). -/
def execUnclaim (p : Domain) (tag : Byte) (endpoint : Nat) (s : State) : Result :=
  runCommand p tag (.unclaim p tag endpoint) (unclaimBody p endpoint) s

/-- The meaning of READ_ENDPOINTS (R22). -/
def execReadEndpoints (p : Domain) (tag : Byte) (s : State) : Result :=
  runCommand p tag (.readEndpoints p tag) (fun s => (s, ⟨.ok, s.endpointResults⟩)) s

end Sys2Proof.Machine
end

