-- ==== Sys2Proof/Machine/MonitorPort.lean ====
section
/-! DEFINITION. Machine/MonitorPort.lean: the events of the monitor port (chapter 4): HEADER_WORD,
READING_WORD and SWEEP_TIMEOUT, and READ_LEVEL, which MON carries out. -/

namespace Sys2Proof.Machine
open Sys2Proof

/-- A request fails (R72): the timer stops, the receive buffer and the sample go, the state is IDLE with
count 0, the failure is recorded, MONITOR_FAULT is set at all four ports, and MON chooses. -/
def State.failRequest (s : State) (failure : Tap → MonFailure) : State :=
  let s1 : State := { s with
    mon := { s.mon with
      state := .idle, timer := none, count := 0, buffer := [], sample := none, lastFailure := failure s.mon.tap } }
  (s1.flagAll .onlyMonitorFault).choice

/-- What MON samples of the tap's link at an accepted header: an E tap's alone (R68). -/
def State.sampleLink (s : State) (t : Tap) : Option LinkSample :=
  match t.kind with
  | .egress => some ⟨s.switchGen[t.degree], s.links[degreeLink t.degree].idleReady⟩
  | _ => none

/-- The meaning of HEADER_WORD (R68): bits 3–0 are the tap code, bits 7–4 the tag, the rest unexamined. -/
def execHeaderWord (w : BitVec 16) (s : State) : Result :=
  whileRunning s fun s =>
    match s.mon.state with
    | .idle => s
    | .receiving => s.failRequest .earlyStart
    | .requested =>
      if (w.extractLsb' 0 4).toNat = s.mon.tap.code.val ∧ w.extractLsb' 4 4 = s.mon.tag then
        { s with mon := { s.mon with
            state := .receiving, stamp := s.nodeTime, count := 0, buffer := [], sample := s.sampleLink s.mon.tap } }
      else s.failRequest .mismatch

/-- A completed E sweep is usable: the link was READY and idle at the header, and no batch has been
sent since (R81). -/
def State.usable (s : State) (d : Degree) : Bool :=
  match s.mon.sample with
  | some k => k.idle && k.gen == s.switchGen[d]
  | none => false

/-- The bank a completed sweep files (R70, R80). -/
def State.newBank (s : State) (readings : List Int) : Bank where
  readings := readings
  stamp := s.mon.stamp
  gen := s.mon.sample.map (·.gen)
  usable := if s.mon.tap.kind = .egress then some (s.usable s.mon.tap.degree) else none

/-- A completed sweep is handed on: I and A sweeps to SLT, a usable E sweep to PWL (R82). -/
def State.handOn (s : State) (t : Tap) (usable : Bool) (readings : List Int) : State :=
  match t.kind with
  | .egress => if usable then s.runPass t.degree readings else s
  | _ => s.evaluateTap t readings

/-- A sweep completes (R70): the timer stops, the bank is replaced and judged, MON enters IDLE, hands
the sweep on and makes its next choice. The reading count after it is a free value (log entry 9). -/
def State.completeSweep (s : State) (readings : List Int) : State :=
  let t := s.mon.tap
  let s1 : State := { s with
    banks := s.banks.set t.code (some (s.newBank readings))
    mon := { s.mon with
      state := .idle, timer := none, count := Config.openCount s.freeCount, buffer := [], sample := none }
    freeCount := s.freeCount + 1 }
  (s1.handOn t (s.usable t.degree) readings).choice

/-- The meaning of READING_WORD (R69): ignored but in RECEIVING, where the word is the next cell's
reading and the 384th completes the sweep. -/
def execReadingWord (w : BitVec 16) (s : State) : Result :=
  whileRunning s fun s =>
    match s.mon.state with
    | .receiving =>
      if h : s.mon.count.val + 1 < 384 then
        { s with mon := { s.mon with count := ⟨s.mon.count.val + 1, h⟩, buffer := s.mon.buffer ++ [saturate w] } }
      else s.completeSweep (s.mon.buffer ++ [saturate w])
    | _ => s

/-- MON takes the expiry of the sweep timer, if it runs out at this count (R71, R177). -/
def State.takeSweepExpiry (s : State) : State :=
  match s.mon.timer with
  | none => s
  | some t => if expired s.nodeTime t then s.failRequest .timeout else s

/-- The meaning of SWEEP_TIMEOUT (R71): taken when the sweep timer runs and node time stands at its expiry;
otherwise no timer runs out and nothing happens. -/
def execSweepTimeout (s : State) : Result := whileRunning s State.takeSweepExpiry

/-- READ_LEVEL (R83). -/
def readLevelBody (tap first width : Nat) (s : State) : State × Answer :=
  match Tap.ofCode tap with
  | none => refuse s .badParam
  | some t =>
    if ¬ Span.legal ⟨first, width⟩ then refuse s .badParam
    else
      match s.banks[t.code] with
      | none => refuse s .empty
      | some b => (s, ⟨.ok, b.results ⟨first, width⟩⟩)

/-- The meaning of READ_LEVEL (R83). -/
def execReadLevel (p : Domain) (tag : Byte) (tap first width : Nat) (s : State) : Result :=
  runCommand p tag (.readLevel p tag tap first width) (readLevelBody tap first width) s

end Sys2Proof.Machine
end

