-- ==== Sys2Proof/Machine/ProposalCommands.lean ====
section
/-! DEFINITION. Machine/ProposalCommands.lean: admission and the proposal protocol (sections 1.3 and 2.3):
PROPOSE, ACCEPT, DECLINE and the expiry of a reservation. -/

namespace Sys2Proof.Machine
open Sys2Proof

/-- Check 1: the endpoints and the span are decoded (R10). -/
def proposedRoute (source sink : Nat) (sp : Span) : Option Route :=
  match Endpoint.ofCode source, Endpoint.ofCode sink with
  | some a, some b => if Span.legal sp then Route.ofEndpoints a b else none
  | _, _ => none

/-- Check 2: the peer domain, or the refusal (R11). -/
def State.findPeer (s : State) (p : Domain) (r : Route) : Except ReplyCode (Option Domain) :=
  if s.manages p r.source && s.manages p r.sink then .ok none
  else if s.manages p r.source then
    match s.managers[r.sink.index] with
    | some q => .ok (some q)
    | none => .error .noPeer
  else if s.manages p r.sink then
    match s.managers[r.source.index] with
    | some q => .ok (some q)
    | none => .error .noPeer
  else .error .notManager

/-- The lowest-numbered FREE slot (R16, R24). -/
def State.freeSlot (s : State) : Option SlotIx := slots.find? fun i => (s.conn i).isNone

/-- Check 4: the local port side the proposal needs is held (R12). -/
def State.sideHeld (s : State) : Route → Bool
  | .add l _ => s.holders[l].add.isSome
  | .drop _ l => s.holders[l].drop.isSome
  | .express _ _ => false

/-- Check 6: the gap to a neighbour in an egress list is less than the guard (R13). The neighbours are
the last entry below the span and the first above it, in the list's ascending order. -/
def guardBroken (guard : Nat) (sp : Span) (es : List EgressEntry) : Bool :=
  ((es.filter fun e => e.span.first < sp.first).getLast?.any fun e => Span.gapTo e.span sp < guard) ||
    ((es.find? fun e => sp.first < e.span.first).any fun e => Span.gapTo sp e.span < guard)

/-- Checks 5 to 7 against the sink degree (R13, R14). -/
def State.egressRefusal (s : State) (d : Degree) (sp : Span) : Option ReplyCode :=
  if s.map[d].egress.any fun e => Span.overlaps sp e.span then some .spanConflict
  else if guardBroken s.settings[d].guard sp s.map[d].egress then some .guardConflict
  else if s.settings[d].loadLimit < s.map[d].committed + sp.width then some .loadLimit
  else none

/-- Check 8 against the source degree (R15). -/
def State.ingressConflict (s : State) (d : Degree) (isDrop : Bool) (sp : Span) : Bool :=
  (s.map[d].ingress.any fun e => Span.overlaps sp e.span && e.span != sp) ||
    (isDrop && s.map[d].drops.any fun e => e.span == sp)

/-- Checks 3 to 8, in order: the first that fails gives the reply (R9). -/
def State.admissionRefusal (s : State) (r : Route) (sp : Span) : Option ReplyCode :=
  if s.freeSlot.isNone then some .tableFull
  else if s.sideHeld r then some .portBusy
  else
    match r with
    | .add _ d => s.egressRefusal d sp
    | .drop d _ => if s.ingressConflict d true sp then some .ingressConflict else none
    | .express a b =>
      match s.egressRefusal b sp with
      | some code => some code
      | none => if s.ingressConflict a false sp then some .ingressConflict else none

/-- The new record as R28 and R29 fill it, ARMED without a peer and PROPOSED with one. -/
def newConn (now : Time) (p : Domain) (peer : Option Domain) (r : Route) (sp : Span) (hold auto : Nat) (level : Int)
    (notify : Nat) : Conn where
  route := r
  span := sp
  state := if peer.isSome then .proposed else .armed
  proposer := p
  peer := peer
  expiry := if peer.isSome then some (now + BitVec.ofNat 32 ((clampInt 1 60 hold).toNat * 1000)) else none
  autoActivate := decide (auto = 1)
  target := if r.sinkDegree.isSome then some (clampInt (-300) 50 level) else none
  dropAtten := if r.sinkDegree.isSome then none else some (clampInt 0 250 level).toNat
  notify := NotifySet.ofOctet notify
  shadow := .blocked
  source := none
  causes := none
  power := none
  lastLevel := none

/-- Whether a field that the record keeps was clamped (R28). -/
def proposeClamped (peer : Option Domain) (r : Route) (hold : Nat) (level : Int) : Bool :=
  (peer.isSome && decide (clampInt 1 60 hold ≠ hold)) ||
    if r.sinkDegree.isSome then decide (clampInt (-300) 50 level ≠ level) else decide (clampInt 0 250 level ≠ level)

/-- A slot is allocated: its generation advances by one, and the record is filled with its active
setpoint BLOCKED (R24, R124). -/
def State.allocate (s : State) (i : SlotIx) (c : Conn) : State :=
  { s with
    table := s.table.set i ⟨s.table[i].gen + 1, some c⟩
    actives := s.actives.set i .blocked }

/-- A proposal is admitted (R16, R29): the record, the map, and with a peer the PROPOSAL_IN notice,
without one the effects of entering ARMED. -/
def State.enterRecord (s : State) (i : SlotIx) (c : Conn) : State :=
  let s1 := s.allocate i c
  let h := s1.handleAt i
  let s2 := s1.enterMap h c.route c.span
  match c.peer with
  | some q => s2.tell q (s2.notice .proposalIn (some h) none none)
  | none => s2.armRecord i c

/-- PROPOSE: the eight checks and the admission (R9, R16, R28, R29). -/
def proposeBody (p : Domain) (source sink first width hold auto : Nat) (level : Int) (notify : Nat)
    (s : State) : State × Answer :=
  match proposedRoute source sink ⟨first, width⟩ with
  | none => refuse s .badParam
  | some r =>
    match s.findPeer p r with
    | .error code => refuse s code
    | .ok peer =>
      match s.admissionRefusal r ⟨first, width⟩, s.freeSlot with
      | none, some i =>
        let s' := s.enterRecord i (newConn s.nodeTime p peer r ⟨first, width⟩ hold auto level notify)
        (s'.finish, ⟨okOrClamped (proposeClamped peer r hold level), Handle.octets (s'.handleAt i)⟩)
      | some code, _ => refuse s code
      | none, none => refuse s .tableFull

/-- The meaning of PROPOSE (R9). -/
def execPropose (p : Domain) (tag : Byte) (source sink first width hold auto : Nat) (level : Int) (notify : Nat)
    (s : State) : Result :=
  runCommand p tag (.propose p tag source sink first width hold auto level notify)
    (proposeBody p source sink first width hold auto level notify) s

/-- ACCEPT (R30). -/
def acceptBody (p : Domain) (slot : Nat) (gen : BitVec 8) (s : State) : State × Answer :=
  withHandle s slot gen fun i c =>
    if c.peer ≠ some p then refuse s .notManager
    else if c.state ≠ .proposed then refuse s .wrongState
    else
      let s' := s.armRecord i c
      ((s'.tell c.proposer (s.notice .proposalAccepted (some (s.handleAt i)) none none)).finish, .plain .ok)

/-- The meaning of ACCEPT (R30). -/
def execAccept (p : Domain) (tag : Byte) (slot : Nat) (gen : BitVec 8) (s : State) : Result :=
  runCommand p tag (.accept p tag slot gen) (acceptBody p slot gen) s

/-- DECLINE (R31). -/
def declineBody (p : Domain) (slot : Nat) (gen : BitVec 8) (s : State) : State × Answer :=
  withHandle s slot gen fun i c =>
    if c.peer ≠ some p then refuse s .notManager
    else if c.state ≠ .proposed then refuse s .wrongState
    else
      (((s.freeRecord i c).tell c.proposer
        (s.notice .proposalDeclined (some (s.handleAt i)) none none)).finish, .plain .ok)

/-- The meaning of DECLINE (R31). -/
def execDecline (p : Domain) (tag : Byte) (slot : Nat) (gen : BitVec 8) (s : State) : Result :=
  runCommand p tag (.decline p tag slot gen) (declineBody p slot gen) s

/-- The expiry of a reservation: the record becomes FREE, and the proposer and the peer are told (R32). -/
def State.expireReservation (s : State) (i : SlotIx) (c : Conn) : State :=
  c.domains.foldl (fun t q => t.tell q (s.notice .proposalExpired (some (s.handleAt i)) none none))
    (s.freeRecord i c)

/-- CNM takes the expiry of a slot's reservation timer, if it runs out at this count (R32, R177). -/
def State.takeReservation (s : State) (i : SlotIx) : State :=
  match s.conn i with
  | none => s
  | some c =>
    match c.expiry with
    | none => s
    | some t => if c.state = .proposed ∧ expired s.nodeTime t = true then (s.expireReservation i c).finish else s

/-- The meaning of RESERVATION_EXPIRY (R32): taken when the slot's record is PROPOSED and node time stands
at its expiry; otherwise no timer runs out and nothing happens. -/
def execReservationExpiry (i : SlotIx) (s : State) : Result := whileRunning s fun s => s.takeReservation i

end Sys2Proof.Machine
end

