-- ==== Sys2Proof/Machine/SwitchLinks.lean ====
section
/-! DEFINITION. Machine/SwitchLinks.lean: the events of the switch links (chapter 7): DONE, FAULT,
REPLY_TIMEOUT and DISCARDED_FRAME, and RETRY_LINK, which recovers a link. -/

namespace Sys2Proof.Machine
open Sys2Proof

/-! ## Failures -/

/-- The value of a LINK_FAULT notice: the cause, or 16 for a timeout (R133, R134). -/
def LinkFailure.noticeValue : LinkFailure → Int
  | .none => 0
  | .fault cause => cause
  | .timeout => 16

/-- The batch in flight ends without a DONE (R132, R133): the timer stops, its entries become the
unanswered batch, and the link is FAULTED with its last failure. -/
def Link.failed (k : Link) (b : Batch) (f : LinkFailure) : Link :=
  { k with state := .faulted, inFlight := none, timer := none, unanswered := some b.entries, lastFailure := f }

/-- The notice and the flag of a failure: to the degree's manager, or for SLM to all four ports (R135). -/
def State.tellLinkFault (s : State) (l : LinkId) (f : LinkFailure) : State :=
  match linkDegree l with
  | some d => (s.tellManager d (s.notice .linkFault none (some d) (some f.noticeValue))).flagManager d .onlyLinkFault
  | none => (s.tellAll (s.notice .linkFault none none (some f.noticeValue))).flagAll .onlyLinkFault

/-- A link fails (R133 to R135), which MON is prompted by (R76). -/
def State.failLink (s : State) (l : LinkId) (b : Batch) (f : LinkFailure) : State :=
  ((s.mapLink l fun k => k.failed b f).tellLinkFault l f).prompt

/-! ## Completion -/

/-- An entry of a completed batch that still exists takes the carried value as its active value (R131,
step 2). It exists while its handle names a record (DEDUCED, log entry 24). -/
def State.activate (s : State) : Entry → State
  | .select h _ _ v => if (s.find h).isSome then { s with actives := s.actives.set h.slot v } else s
  | .drop h _ _ v => if (s.find h).isSome then { s with actives := s.actives.set h.slot v } else s
  | .allBlocked => s
  | .port l a d => { s with matrix := s.matrix.set l { s.matrix[l] with addActive := a, dropActive := d } }

/-- The link after steps 1 and 3 of R131: no batch in flight, no timer, and a STARTING link READY with
its unanswered batch cleared. -/
def Link.completed (k : Link) : Link :=
  { k with
    state := if k.state = .starting then .ready else k.state
    inFlight := none, timer := none
    unanswered := if k.state = .starting then none else k.unanswered }

/-- CNM tests each DRAINING record of a degree link, in ascending slot order (R44; R131, step 4; log
entry 12). -/
def State.drainLink (s : State) (l : LinkId) : State :=
  match linkDegree l with
  | some _ => (slots.filter fun i => (s.conn i).any fun c => c.route.link == l).foldl State.drainTest s
  | none => s

/-- A link has become READY: RSC grants by requests, and a resync sent by RETRY_LINK is answered with
LINK_READY (R61, R138; R131, step 5). -/
def State.linkReady (s : State) (l : LinkId) (kind : BatchKind) : State :=
  match linkDegree l with
  | some d =>
    let s1 := s.offerEvent d
    if kind = .resync true then s1.tellManager d (s1.notice .linkReady none (some d) none) else s1
  | none => if kind = .resync true then s.tellAll (s.notice .linkReady none none none) else s

/-- A batch completes (R131, in the order of its steps), and MON is prompted (R76). -/
def State.completeBatch (s : State) (l : LinkId) (b : Batch) : State :=
  let s1 := (b.entries.foldl State.activate s).mapLink l Link.completed
  let s2 := s1.drainLink l
  let s3 := if s.links[l].state = .starting then s2.linkReady l b.kind else s2
  (s3.sendIfPending l).finish

/-- A good DONE: taken as the reply to the batch in flight when its sequence number matches, and
discarded without effect otherwise (R130, R131). -/
def State.takeDone (s : State) (l : LinkId) (seq : BitVec 8) : State :=
  match s.links[l].inFlight with
  | none => s
  | some b => if b.seq = seq then s.completeBatch l b else s

/-- A good FAULT, likewise; a frame with a cause above 15 is discarded (R130, R133, R143). -/
def State.takeFault (s : State) (l : LinkId) (seq : BitVec 8) (cause : Nat) : State :=
  match s.links[l].inFlight with
  | none => s
  | some b => if b.seq = seq ∧ cause ≤ 15 then s.failLink l b (.fault cause) else s

/-- The meaning of DONE (R131). -/
def execDone (l : LinkId) (seq : BitVec 8) (s : State) : Result := whileRunning s fun s => s.takeDone l seq

/-- The meaning of FAULT (R133). -/
def execFault (l : LinkId) (seq : BitVec 8) (cause : Nat) (s : State) : Result :=
  whileRunning s fun s => s.takeFault l seq cause

/-- SLC takes the expiry of a link's reply timer, if it runs out at this count (R134, R177). -/
def State.takeReplyExpiry (s : State) (l : LinkId) : State :=
  match s.links[l].inFlight, s.links[l].timer with
  | some b, some t => if expired s.nodeTime t then s.failLink l b .timeout else s
  | _, _ => s

/-- The meaning of REPLY_TIMEOUT (R134): taken when a batch is in flight and node time stands at its timer's
expiry; otherwise no timer runs out and nothing happens. -/
def execReplyTimeout (l : LinkId) (s : State) : Result := whileRunning s fun s => s.takeReplyExpiry l

/-- The meaning of DISCARDED_FRAME (R143, R130): the octets of a received frame are read. A frame that
R143 discards has no effect, nor has a good frame that R130 discards; octets that are after all a
good reply are taken as that reply (log entry 16). -/
def execDiscardedFrame (l : LinkId) (octets : List Byte) (s : State) : Result :=
  whileRunning s fun s =>
    match parseModuleReply octets with
    | .done seq => s.takeDone l seq
    | .fault seq cause => s.takeFault l seq cause
    | .discarded => s

/-! ## Recovery -/

/-- The requester has the authority to retry a link: the manager of a degree link's degree, and every
domain for SLM (R137). -/
def State.mayRetry (s : State) (p : Domain) (l : LinkId) : Bool :=
  match linkDegree l with
  | some d => s.manages p (.degree d)
  | none => true

/-- A RESYNC batch is sent and the link enters STARTING (R137, R138). -/
def State.resync (s : State) (l : LinkId) (byRetry : Bool) : State :=
  (s.mapLink l fun k => { k with state := .starting }).sendBatch l (.resync byRetry) (s.resyncEntries l)

/-- RETRY_LINK (R137). -/
def retryLinkBody (p : Domain) (link : Nat) (s : State) : State × Answer :=
  match linkOfCode link with
  | none => refuse s .badParam
  | some l =>
    if ¬ s.mayRetry p l then refuse s .notManager
    else if s.links[l].state ≠ .faulted then refuse s .wrongState
    else ((s.resync l true).prompt, .plain .ok)

/-- The meaning of RETRY_LINK (R137). -/
def execRetryLink (p : Domain) (tag : Byte) (link : Nat) (s : State) : Result :=
  runCommand p tag (.retryLink p tag link) (retryLinkBody p link) s

end Sys2Proof.Machine
end

