-- ==== Sys2Proof/Machine/Node.lean ====
section
/-! DEFINITION. Machine/Node.lean: READ_NODE, node time, and the resets: COLD_RESET, WARM_RESET and
LEAVE_RESET (R176, R201 to R204, and the reset rule of each chapter). -/

namespace Sys2Proof.Machine
open Sys2Proof

/-- The meaning of READ_NODE (R201). -/
def execReadNode (p : Domain) (tag : Byte) (s : State) : Result :=
  runCommand p tag (.readNode p tag) (fun s => (s, ⟨.ok, s.nodeResults⟩)) s

/-- Every timer that runs out at this count and whose owner has not taken its expiry yet has it taken: the
reservations, the sweep timer, the reply timers, the hold timers (R177; their order: log entry 4). -/
def State.takeExpiries (s : State) : State :=
  (List.finRange 4).foldl State.takeHoldExpiry
    ((List.finRange 5).foldl State.takeReplyExpiry (slots.foldl State.takeReservation s).takeSweepExpiry)

/-- Node time advances by one, modulo 2^32 (R176). -/
def State.tick (s : State) : State := { s with nodeTime := s.nodeTime + 1 }

/-- The meaning of NODE_TIME_ADVANCE (R176, R177, R203): node time advances by one, and goes past no timer:
an expiry still to be taken at the count it leaves is taken first. Under COLDn it is held at 0; under WARMn
alone it counts on and no timer expires. -/
def execNodeTimeAdvance (s : State) : Result :=
  .next (match s.held with
    | some .cold => s
    | some .warm => s.tick
    | none => s.takeExpiries.tick)

/-! ## Entering a reset -/

/-- A port at a reset (R202): everything is emptied, and a transaction in progress is abandoned, DPnDO's
octets so far kept. -/
def Port.atReset (q : Port) : Port :=
  { Port.cleared with
    transaction := if q.transaction = .idle then .idle else .abandoned
    driven := q.driven }

/-- A link while a cold reset holds the part: nothing in flight, numbers 0 (R130, R140). -/
def Link.cold : Link where
  state := .starting
  inFlight := none
  seq := 0
  timer := none
  unanswered := none
  lastFailure := .none
  pendingMark := false

/-- A link at a warm reset: the batch in flight, its timer and the unanswered batch go; the sequence
number and the last failure are kept (R141). -/
def Link.warm (k : Link) : Link := { k with inFlight := none, timer := none, unanswered := none, pendingMark := false }

/-- What every reset clears: the ports, MON and its banks, the logs, and the requests that wait at CNM
(R58, R64, R85, R86, R97, R122, R157, R167, R202). -/
def State.clearControl (s : State) : State :=
  { s with
    ports := s.ports.map Port.atReset
    mon := .cleared
    banks := Vector.replicate 12 none
    logs := Vector.replicate 4 .rearmed
    grantReqs := Vector.replicate 4 []
    passReqs := Vector.replicate 4 []
    declReqs := []
    tripReqs := Vector.replicate 4 none }

/-- The contents every chapter gives for a cold reset (R8, R18, R51, R63, R85, R96, R140, R156, R167, R168,
R176); the trip lines' pins and the model's own fields are kept (log entries 2, 9, 15). -/
def State.enterCold (s : State) : State :=
  { s.clearControl with
    table := State.reset.table
    map := State.reset.map
    holders := State.reset.holders
    managers := State.reset.managers
    settings := State.reset.settings
    ramps := State.reset.ramps
    tracks := []
    links := Vector.replicate 5 .cold
    switchGen := Vector.replicate 4 0
    actives := State.reset.actives
    matrix := State.reset.matrix
    trips := State.reset.trips
    nodeTime := 0
    held := some .cold }

/-- A record freed by a warm reset: a PROPOSED one, without notices (R52). -/
def State.warmFree (s : State) (i : SlotIx) : State :=
  match s.conn i with
  | none => s
  | some c => if c.state = .proposed then s.freeRecord i c else s

/-- The contents every chapter gives for a warm reset (R8, R52, R86, R122, R141, R157, R167, R202): the
PROPOSED records are freed, the control state goes, and the connections, the map, the settings, the
actives and the trip states are kept. -/
def State.enterWarm (s : State) : State :=
  let s1 := slots.foldl State.warmFree s
  { s1.clearControl with
    links := s1.links.map Link.warm
    trips := s1.trips.map fun t => { t with timer := none }
    held := some .warm }

/-- The meaning of COLD_RESET (R203): COLDn turns a warm reset into a cold one. -/
def execColdReset (s : State) : Result := .next (if s.held = some .cold then s else s.enterCold)

/-- The meaning of WARM_RESET (R203): in a reset it has no effect of its own. -/
def execWarmReset (s : State) : Result := .next (if s.held.isSome then s else s.enterWarm)

/-! ## Leaving a reset -/

/-- RSC's state of a degree, rebuilt from the kept records (R64): the holders are the RAMP_UP and
RAMP_DOWN records, the queue the PENDING_UP and PENDING_DOWN ones, both in ascending slot order. -/
def State.rebuiltRamps (s : State) (d : Degree) : Ramps where
  queue := ((s.sinking d).filter fun i => (s.conn i).any fun c => c.state == .pendingUp || c.state == .pendingDown).map
    fun i => ⟨s.handleAt i, none⟩
  holders := ((s.sinking d).filter fun i => (s.conn i).any fun c => c.state.ramping).map fun i => ⟨s.handleAt i, none⟩
  offerCount := s.ramps[d].offerCount

/-- SLT's entry of a kept record that has a source state, both runs 0 (R97). -/
def State.rebuiltTrack (s : State) (i : SlotIx) : Option TrackEntry :=
  (s.conn i).bind fun c => c.source.map fun l => ⟨s.handleAt i, c.route.tap, c.span, l, 0, 0⟩

/-- RSC and SLT rebuild their state from the kept records (R64, R97). -/
def State.rebuild (s : State) : State :=
  { s with
    ramps := #v[s.rebuiltRamps 0, s.rebuiltRamps 1, s.rebuiltRamps 2, s.rebuiltRamps 3]
    tracks := slots.filterMap s.rebuiltTrack }

/-- TRU reads a line as a cold reset ends: an ACTIVE line trips its degree (R156). -/
def State.coldLine (s : State) (d : Degree) : State :=
  let s1 := s.setLine d (s.readLine d)
  if s.readLine d = .active then s1.enterTripped d else s1

/-- TRU re-reads a line as a warm reset ends, by the table of R157. -/
def State.warmLine (s : State) (d : Degree) : State :=
  let s1 := s.setLine d (s.readLine d)
  let hold := if s.settings[d].hold = 0 then s1.endTrip d else s1.enterHolding d
  match s.trips[d].state, s.readLine d with
  | .clear, .inactive => s1
  | .clear, .active => s1.enterTripped d
  | .tripped, .active => s1
  | .tripped, .inactive => if s.settings[d].mode = .latched then s1 else hold
  | .holding, .inactive => hold
  | .holding, .active => s1.enterTripped d

/-- The START batch of a link (R139). -/
def startEntries (l : LinkId) : List Entry := if (linkDegree l).isSome then [.allBlocked] else startPortEntries

/-- One piece of the work taken up as a reset ends (R139, R141, R156, R157, R204). -/
def State.takeUp (kind : ResetKind) (s : State) : ResetWork → State
  | .line d =>
    match kind with
    | .cold => s.coldLine d
    | .warm => s.warmLine d
  | .batch l =>
    match kind with
    | .cold => s.sendBatch l .start (startEntries l)
    | .warm => s.resync l false
  | .choice => s.prompt

/-- Every piece of the work, in the manual's order: the batches, the lines, the choice. -/
def allResetWork : List ResetWork :=
  (List.finRange 5).map .batch ++ (List.finRange 4).map .line ++ [.choice]

/-- The order in which the work is taken up: the pieces named, each once, and then the rest (log entry 8). -/
def workOrder (order : List ResetWork) : List ResetWork :=
  (order ++ allResetWork).foldl (fun done w => if done.contains w then done else done ++ [w]) []

/-- The TRIP flag of a degree whose trip was in force before a warm reset and is at its end (R157). -/
def State.keptTripFlags (s before : State) : State :=
  (List.finRange 4).foldl
    (fun t d => if before.tripInForce d && t.tripInForce d then t.flagManager d .onlyTrip else t) s

/-- Every link enters STARTING as a reset ends (R139, R141). -/
def State.startLinks (s : State) : State :=
  { s with links := s.links.map fun k => { k with state := .starting }, held := none }

/-- The part leaves a reset as from the one that holds it (R203, R204). -/
def State.leave (s : State) (kind : ResetKind) (order : List ResetWork) : State :=
  match kind with
  | .cold => ((workOrder order).foldl (State.takeUp .cold) s.startLinks).flushLinks
  | .warm => (((workOrder order).foldl (State.takeUp .warm) s.startLinks.rebuild).keptTripFlags s).flushLinks

/-- The meaning of LEAVE_RESET (R203, R204); the part that no reset holds has none to leave. -/
def execLeaveReset (order : List ResetWork) (s : State) : Result :=
  match s.held with
  | none => .next s
  | some kind => .next (s.leave kind order)

end Sys2Proof.Machine
end

