-- ==== Sys2Proof/Machine/Ports.lean ====
section
/-! DEFINITION. Machine/Ports.lean: the domain ports (chapter 11): the commands a port carries out itself
(FETCH_NOTICE, READ_PORT, CLEAR_FLAGS, SET_MASK, SET_ALL_NOTICES, RESET_PORT), the taking of a frame,
and the transactions on a port's wires. -/

namespace Sys2Proof.Machine
open Sys2Proof

/-! ## The commands of the port -/

/-- FETCH_NOTICE (R194). -/
def fetchNoticeBody (p : Domain) (s : State) : State × Answer :=
  match s.ports[p].queue with
  | [] => refuse s .empty
  | n :: rest => (s.mapPort p fun q => { q with queue := rest }, ⟨.ok, n.octets rest.length⟩)

/-- The meaning of FETCH_NOTICE (R194). -/
def execFetchNotice (p : Domain) (tag : Byte) (s : State) : Result :=
  runCommand p tag (.fetchNotice p tag) (fetchNoticeBody p) s

/-- READ_PORT (R199). -/
def readPortBody (p : Domain) (s : State) : State × Answer := (s, ⟨.ok, s.portResults p⟩)

/-- The meaning of READ_PORT (R199). -/
def execReadPort (p : Domain) (tag : Byte) (s : State) : Result :=
  runCommand p tag (.readPort p tag) (readPortBody p) s

/-- CLEAR_FLAGS (R196). -/
def clearFlagsBody (p : Domain) (flags : Nat) (s : State) : State × Answer :=
  (s.mapPort p fun q => { q with flags := q.flags.diff (FlagSet.ofOctet flags) }, .plain .ok)

/-- The meaning of CLEAR_FLAGS (R196). -/
def execClearFlags (p : Domain) (tag : Byte) (flags : Nat) (s : State) : Result :=
  runCommand p tag (.clearFlags p tag flags) (clearFlagsBody p flags) s

/-- SET_MASK (R197). -/
def setMaskBody (p : Domain) (flags : Nat) (s : State) : State × Answer :=
  (s.mapPort p fun q => { q with mask := FlagSet.ofOctet flags }, .plain .ok)

/-- The meaning of SET_MASK (R197). -/
def execSetMask (p : Domain) (tag : Byte) (flags : Nat) (s : State) : Result :=
  runCommand p tag (.setMask p tag flags) (setMaskBody p flags) s

/-- SET_ALL_NOTICES (R195). -/
def setAllNoticesBody (p : Domain) (option : Nat) (s : State) : State × Answer :=
  (s.mapPort p fun q => { q with allNotices := decide (option = 1) }, .plain .ok)

/-- The meaning of SET_ALL_NOTICES (R195). -/
def execSetAllNotices (p : Domain) (tag : Byte) (option : Nat) (s : State) : Result :=
  runCommand p tag (.setAllNotices p tag option) (setAllNoticesBody p option) s

/-- RESET_PORT (R200). -/
def resetPortBody (p : Domain) (s : State) : State × Answer :=
  (s.mapPort p fun q => { q with queue := [], flags := .none, mask := .none, allNotices := false }, .plain .ok)

/-- The meaning of RESET_PORT (R200). -/
def execResetPort (p : Domain) (tag : Byte) (s : State) : Result :=
  runCommand p tag (.resetPort p tag) (resetPortBody p) s

/-- The commands a port carries out in the step of taking; none for one it passes on (R187, step 3). -/
def portBody : Instr → Option (State → State × Answer)
  | .fetchNotice p _ => some (fetchNoticeBody p)
  | .readPort p _ => some (readPortBody p)
  | .clearFlags p _ flags => some (clearFlagsBody p flags)
  | .setMask p _ flags => some (setMaskBody p flags)
  | .setAllNotices p _ option => some (setAllNoticesBody p option)
  | .resetPort p _ => some (resetPortBody p)
  | _ => none

/-! ## Taking a frame -/

/-- A taken command that passed the port's checks: carried out by the port, or passed on, the slot
BUSY (R186, R187). -/
def State.dispatch (s : State) (p : Domain) (tag : Byte) (i : Instr) : State :=
  match portBody i with
  | some body => answered p tag (body s)
  | none => s.mapPort p fun q => { q with slot := .busy i }

/-- The end of a frame received at a port (R185, R187). -/
def State.takeFrame (s : State) (p : Domain) (frame : List Byte) : State :=
  let tag := frame.getD 1 0
  if frameGood frame then
    match parseCommand p (frame.getD 0 0) tag ((frame.drop 4).take (frameParamLength frame)) with
    | .unknown => s.reply p tag (.plain .unknownCommand)
    | .badLength => s.reply p tag (.plain .badParam)
    | .command i => if Instr.codingOk i then s.dispatch p tag i else s.reply p tag (.plain .badParam)
  else s.reply p tag (.plain .frameError)

/-! ## Transactions -/

/-- Move a port's transaction on, the octet of DPnDO with it. -/
def Port.drive (q : Port) (b : Byte) (t : Transaction) : Port := { q with driven := q.driven ++ [b], transaction := t }

/-- What a transaction of a kind octet becomes (R180 to R182). -/
def Port.start (q : Port) (kind : Byte) : Transaction :=
  if kind = 0xC1 then (if q.slot.isBusy then .commandIgnored else .command [])
  else if kind = 0xC2 then .read (match q.slot with | .ready r => r.frame | _ => [])
  else .ignored

/-- DPnSEL is asserted: a transaction begins; in a reset it is ignored to its end (R180, R203). -/
def State.selectPort (s : State) (p : Domain) : State :=
  match s.ports[p].transaction with
  | .idle => s.mapPort p fun q =>
    { q with transaction := if s.held.isSome then .abandoned else .selected, driven := [] }
  | _ => s

/-- An octet is clocked (R180 to R182, R202, R203): the kind octet meets the status octet, an octet of a
frame 0x00, an octet of a READ the next of the reply. In a reset DPnDO carries 0x00; what it carries
in the rest of a transaction that a reset abandoned is a free value (log entry 10). -/
def State.clockOctet (s : State) (p : Domain) (b : Byte) : State :=
  match s.ports[p].transaction with
  | .idle => s
  | .selected => s.mapPort p fun q => q.drive (statusOctet p q) (q.start b)
  | .command frame => s.mapPort p fun q => q.drive 0 (.command (frame ++ [b]))
  | .read rest => s.mapPort p fun q => q.drive (rest.headD 0) (.read rest.tail)
  | .commandIgnored => s.mapPort p fun q => q.drive 0 .commandIgnored
  | .ignored => s.mapPort p fun q => q.drive 0 .ignored
  | .abandoned =>
    if s.held.isSome then s.mapPort p fun q => q.drive 0 .abandoned
    else
      ({ s with freeCount := s.freeCount + 1 } : State).mapPort p fun q =>
        q.drive (Config.openOctet s.freeCount) .abandoned

/-- DPnSEL is deasserted: the transaction ends, and a frame received is taken or discarded; a COMMAND
transaction with no octet after the kind holds no frame (R180, R185). -/
def State.deselectPort (s : State) (p : Domain) : State :=
  let s1 := s.mapPort p fun q => { q with transaction := .idle }
  match s.ports[p].transaction with
  | .command (b :: frame) => s1.takeFrame p (b :: frame)
  | _ => s1

/-- An event on a port's wires; a whole transaction is its select, its octets and its deselect. -/
def State.portEvent (s : State) (p : Domain) : PortEvent → State
  | .select => s.selectPort p
  | .octet b => s.clockOctet p b
  | .deselect => s.deselectPort p
  | .whole octets => ((octets.foldl (fun s b => s.clockOctet p b) (s.selectPort p))).deselectPort p

/-- The meaning of COMMAND_TRANSACTION (R179 to R187). A port goes on with its wires in a reset, where
R203 says what it makes of them. -/
def execCommandTransaction (p : Domain) (event : PortEvent) (s : State) : Result := .next (s.portEvent p event)

end Sys2Proof.Machine
end

