-- ==== Sys2Proof/Machine/Requests.lean ====
section
/-! DEFINITION. Machine/Requests.lean: the requests of other blocks that CNM takes one at a time (R50):
GRANT from RSC, PASS_RESULT from PWL and DECLARATION from SLT. -/

namespace Sys2Proof.Machine
open Sys2Proof

/-- The conditions under which CNM takes a grant sent as a request, as they stand when it takes it (R58).
A request that still waits when the link leaves READY and is READY again is judged by the link as it then
stands: the model's reading of R61 beside R58 (DEDUCED, log entry 23). -/
def State.takesGrant (s : State) (d : Degree) (r : GrantReq) : Bool :=
  ((s.find r.handle).any fun c => c.state == .pendingUp || c.state == .pendingDown) &&
    (s.ramps[d].queue.any fun e => e.handle == r.handle && e.offer == some r.offer) &&
    s.links[degreeLink d].state == .ready && !s.tripInForce d

/-- RSC receives the answer not taken: the slot held under the offer number is given back, the mark
that carries it is cleared, and the answer is a grant event (R58). -/
def State.notTaken (s : State) (d : Degree) (r : GrantReq) : State :=
  (s.mapRamps d fun m =>
    { m with
      holders := m.holders.filter fun k => ¬ (k.handle = r.handle ∧ k.offer = some r.offer)
      queue := m.queue.map fun e => if e.handle = r.handle ∧ e.offer = some r.offer then { e with offer := none } else e
    }).grantEvent d

/-- CNM takes a grant request, or answers it not taken (R58). -/
def State.answerGrant (s : State) (d : Degree) (r : GrantReq) : State :=
  if s.takesGrant d r then s.takeGrant d r.handle else s.notTaken d r

/-- The meaning of GRANT (R58): CNM takes the oldest grant request of the degree, if one waits. -/
def execGrant (d : Degree) (s : State) : Result :=
  whileRunning s fun s =>
    match s.grantReqs[d] with
    | [] => s
    | r :: rest => (({ s with grantReqs := s.grantReqs.set d rest } : State).answerGrant d r).finish

/-- The notice of a change of power condition (R108). -/
def powerNotice (stored new : PowerCond) : Option NoticeKind :=
  if stored = new then none
  else
    match new with
    | .normal => some .powerNormal
    | _ => some .powerLimit

/-- The power notice of an applied result, under the POWER option, with the error as value (R108). -/
def State.tellPower (s : State) (h : Handle) (c : Conn) (r : PassResult) : State :=
  match r.power with
  | none => s
  | some new =>
    match powerNotice (c.power.getD .normal) new with
    | none => s
    | some kind => s.tellConn h c kind r.error

/-- The record as an applied result leaves it (R41, R100). -/
def Conn.apply (c : Conn) (r : PassResult) : Conn :=
  { c with
    state := r.toState.getD c.state, shadow := r.shadow, lastLevel := some r.level,
    power := if r.power.isSome then r.power else c.power }

/-- A result is applied (R41, R108, R109, R111, R112, R114, R118). The ramp slot given back (R59) and the log
handed to (R118) are those of the record's sink degree, which is the degree of the pass. -/
def State.applyResult (s : State) (passed : Degree) (i : SlotIx) (c : Conn) (r : PassResult) : State :=
  let h := r.handle
  let d := c.route.sinkDegree.getD passed
  let s1 := s.putConn i (some (c.apply r))
  let s2 := if r.shadow = c.shadow then s1 else s1.mark c.route.link
  match r.computedFor, r.toState with
  | .rampUp, some _ => ((s2.tellConn h c .rampDone (some r.level)).tellPower h c r).freeRamp d h
  | .rampDown, some _ => (s2.freeRamp d h).drainTest i
  | .inService, _ =>
    match r.error with
    | some e => (s2.tellPower h c r).handOff d h e
    | none => s2.tellPower h c r
  | _, _ => s2

/-- CNM takes a pass result: applied when the record is still in the state it was computed for, and
discarded whole otherwise (R41, R100). -/
def State.takeResult (s : State) (d : Degree) (r : PassResult) : State :=
  match s.find r.handle with
  | none => s
  | some c => if c.state = r.computedFor then s.applyResult d r.handle.slot c r else s

/-- The meaning of PASS_RESULT (R41, R100): CNM takes the oldest pass result of the degree, if one waits. -/
def execPassResult (d : Degree) (s : State) : Result :=
  whileRunning s fun s =>
    match s.passReqs[d] with
    | [] => s
    | r :: rest => (({ s with passReqs := s.passReqs.set d rest } : State).takeResult d r).finish

/-- A declaration is applied to a record (R94): the source state, then by type the suspend cause or
the notice. -/
def State.applyDeclaration (s : State) (i : SlotIx) (c : Conn) (r : DeclReq) : State :=
  let c' := { c with source := some r.light }
  let s1 := s.putConn i (some c')
  match c.route.sinkDegree, r.light with
  | some _, .dark => if c.state = .draining then s1 else (s1.addCause i .sourceDark).drainTest i
  | some _, .lit => s1.removeCause i .sourceDark
  | none, .dark => s1.tellConn r.handle c' .sourceLost (some r.level)
  | none, .lit => s1.tellConn r.handle c' .sourceBack (some r.level)

/-- The meaning of DECLARATION (R94): CNM takes the oldest declaration naming the handle, if one waits;
one whose handle no longer matches leaves the table unchanged. -/
def execDeclaration (i : SlotIx) (gen : BitVec 8) (s : State) : Result :=
  whileRunning s fun s =>
    match s.declReqs.find? (·.handle == ⟨i, gen⟩) with
    | none => s
    | some r =>
      let s1 : State := { s with declReqs := s.declReqs.eraseP (·.handle == ⟨i, gen⟩) }
      match s1.find ⟨i, gen⟩ with
      | none => s1
      | some c => (s1.applyDeclaration i c r).finish

end Sys2Proof.Machine
end

