-- ==== Sys2Proof/Machine/Dispatch.lean ====
section
/-! DEFINITION. Machine/Dispatch.lean: the meaning of each command and event, one arm for each row of the
opcode table. -/

namespace Sys2Proof.Machine
open Sys2Proof

/-- The effect of a command or an event on everything but the queue. -/
def exec (i : Instr) (s : State) : Host.Outcome State Fault Refusal :=
  match i with
  | .commandTransaction port event => Sys2Proof.Machine.execCommandTransaction port event s
  | .claim port tag endpoint => Sys2Proof.Machine.execClaim port tag endpoint s
  | .handOver port tag endpoint domain => Sys2Proof.Machine.execHandOver port tag endpoint domain s
  | .unclaim port tag endpoint => Sys2Proof.Machine.execUnclaim port tag endpoint s
  | .readEndpoints port tag => Sys2Proof.Machine.execReadEndpoints port tag s
  | .propose port tag source sink first width hold auto level notify => Sys2Proof.Machine.execPropose port tag source sink first width hold auto level notify s
  | .accept port tag slot gen => Sys2Proof.Machine.execAccept port tag slot gen s
  | .decline port tag slot gen => Sys2Proof.Machine.execDecline port tag slot gen s
  | .activate port tag slot gen => Sys2Proof.Machine.execActivate port tag slot gen s
  | .release port tag slot gen => Sys2Proof.Machine.execRelease port tag slot gen s
  | .setTarget port tag slot gen level => Sys2Proof.Machine.execSetTarget port tag slot gen level s
  | .setDropAtten port tag slot gen atten => Sys2Proof.Machine.execSetDropAtten port tag slot gen atten s
  | .readConn port tag slot gen => Sys2Proof.Machine.execReadConn port tag slot gen s
  | .listSpans port tag degree list start => Sys2Proof.Machine.execListSpans port tag degree list start s
  | .readLevel port tag tap first width => Sys2Proof.Machine.execReadLevel port tag tap first width s
  | .setDegree port tag degree changes => Sys2Proof.Machine.execSetDegree port tag degree changes s
  | .readDegree port tag degree => Sys2Proof.Machine.execReadDegree port tag degree s
  | .clearTrip port tag degree => Sys2Proof.Machine.execClearTrip port tag degree s
  | .retryLink port tag link => Sys2Proof.Machine.execRetryLink port tag link s
  | .readExcursions port tag degree => Sys2Proof.Machine.execReadExcursions port tag degree s
  | .rearmExcursions port tag degree => Sys2Proof.Machine.execRearmExcursions port tag degree s
  | .fetchNotice port tag => Sys2Proof.Machine.execFetchNotice port tag s
  | .readPort port tag => Sys2Proof.Machine.execReadPort port tag s
  | .clearFlags port tag flags => Sys2Proof.Machine.execClearFlags port tag flags s
  | .setMask port tag flags => Sys2Proof.Machine.execSetMask port tag flags s
  | .setAllNotices port tag option => Sys2Proof.Machine.execSetAllNotices port tag option s
  | .resetPort port tag => Sys2Proof.Machine.execResetPort port tag s
  | .readNode port tag => Sys2Proof.Machine.execReadNode port tag s
  | .headerWord word => Sys2Proof.Machine.execHeaderWord word s
  | .readingWord word => Sys2Proof.Machine.execReadingWord word s
  | .sweepTimeout => Sys2Proof.Machine.execSweepTimeout s
  | .done link seq => Sys2Proof.Machine.execDone link seq s
  | .fault link seq cause => Sys2Proof.Machine.execFault link seq cause s
  | .replyTimeout link => Sys2Proof.Machine.execReplyTimeout link s
  | .discardedFrame link octets => Sys2Proof.Machine.execDiscardedFrame link octets s
  | .grant degree => Sys2Proof.Machine.execGrant degree s
  | .passResult degree => Sys2Proof.Machine.execPassResult degree s
  | .declaration slot gen => Sys2Proof.Machine.execDeclaration slot gen s
  | .reservationExpiry slot => Sys2Proof.Machine.execReservationExpiry slot s
  | .lineEvent degree high => Sys2Proof.Machine.execLineEvent degree high s
  | .tripHandOff degree => Sys2Proof.Machine.execTripHandOff degree s
  | .holdExpiry degree => Sys2Proof.Machine.execHoldExpiry degree s
  | .coldReset => Sys2Proof.Machine.execColdReset s
  | .warmReset => Sys2Proof.Machine.execWarmReset s
  | .leaveReset order => Sys2Proof.Machine.execLeaveReset order s
  | .nodeTimeAdvance => Sys2Proof.Machine.execNodeTimeAdvance s

end Sys2Proof.Machine
end

