-- ==== Sys2Proof/WellFormed.lean ====
section
/-! DEFINITION. WellFormed.lean: the operands a command's frame can carry (R183, R189). Every operand is a
number its octets hold; a value too wide for its field, such as a first cell of 900, is well formed
and is refused by the block that carries the command out. -/

namespace Sys2Proof

/-- A number one octet holds. -/
def octetOk (n : Nat) : Bool := decide (n < 256)

/-- A number two octets hold. -/
def pairOk (n : Nat) : Bool := decide (n < 65536)

/-- A signed number two octets hold, in two's complement. -/
def signedOk (v : Int) : Bool := decide (-32768 ≤ v ∧ v ≤ 32767)

/-- The changes a SET_DEGREE frame can carry: at most eighteen, each an octet and a signed number (R169). -/
def changesFit (cs : List (Nat × Int)) : Bool :=
  decide (cs.length ≤ 18) && cs.all fun c => octetOk c.1 && signedOk c.2

/-- A command's operands fit their octets; an event's are in the range of what it names. -/
def Instr.wellFormed : Instr → Bool
  | .commandTransaction _ _ => true
  | .claim _ _ endpoint => octetOk endpoint
  | .handOver _ _ endpoint domain => octetOk endpoint && octetOk domain
  | .unclaim _ _ endpoint => octetOk endpoint
  | .readEndpoints _ _ => true
  | .propose _ _ source sink first width hold auto level notify =>
    octetOk source && octetOk sink && pairOk first && octetOk width && octetOk hold && octetOk auto &&
      signedOk level && octetOk notify
  | .accept _ _ slot _ => octetOk slot
  | .decline _ _ slot _ => octetOk slot
  | .activate _ _ slot _ => octetOk slot
  | .release _ _ slot _ => octetOk slot
  | .setTarget _ _ slot _ level => octetOk slot && signedOk level
  | .setDropAtten _ _ slot _ atten => octetOk slot && signedOk atten
  | .readConn _ _ slot _ => octetOk slot
  | .listSpans _ _ degree list start => octetOk degree && octetOk list && pairOk start
  | .readLevel _ _ tap first width => octetOk tap && pairOk first && octetOk width
  | .setDegree _ _ degree changes => octetOk degree && changesFit changes
  | .readDegree _ _ degree => octetOk degree
  | .clearTrip _ _ degree => octetOk degree
  | .retryLink _ _ link => octetOk link
  | .readExcursions _ _ degree => octetOk degree
  | .rearmExcursions _ _ degree => octetOk degree
  | .fetchNotice _ _ => true
  | .readPort _ _ => true
  | .clearFlags _ _ flags => octetOk flags
  | .setMask _ _ flags => octetOk flags
  | .setAllNotices _ _ option => octetOk option
  | .resetPort _ _ => true
  | .readNode _ _ => true
  | .headerWord _ => true
  | .readingWord _ => true
  | .sweepTimeout => true
  | .done _ _ => true
  | .fault _ _ cause => decide (cause ≤ 15)
  | .replyTimeout _ => true
  | .discardedFrame _ _ => true
  | .grant _ => true
  | .passResult _ => true
  | .declaration _ _ => true
  | .reservationExpiry _ => true
  | .lineEvent _ _ => true
  | .tripHandOff _ => true
  | .holdExpiry _ => true
  | .coldReset => true
  | .warmReset => true
  | .leaveReset order => decide order.Nodup
  | .nodeTimeAdvance => true

end Sys2Proof
end

