-- ==== Sys2Proof/Safety.lean ====
section
/-! DEFINITION. Safety.lean: what the statements speak of: when a command is carried out, when an event has
become due, and the laws of the manual as properties of a state. -/

namespace Sys2Proof.Machine
open Sys2Proof

/-! ## When a command is carried out -/

/-- No reset holds the part, and port `p` either holds the command taken and passed on (R186), or has
room for it and finds its coding good (R181, R187; log entry 3). -/
def State.takes (s : State) (p : Domain) (i : Instr) : Prop :=
  s.held = none ∧ (s.ports[p].slot = .busy i ∨ (s.ports[p].slot.isBusy = false ∧ Instr.codingOk i = true))

/-- Commands that name the port and the frame tag they came by: those of the catalogue (R189). -/
def commandPort (i : Instr) : Option (Domain × Byte) := (commandParts i).map fun c => (c.1, c.2.2.1)

/-- The events that no reset holds back: the wires, the clock and the reset pins themselves (R203). -/
def Instr.actsInReset : Instr → Bool
  | .commandTransaction _ _ => true
  | .lineEvent _ _ => true
  | .coldReset => true
  | .warmReset => true
  | .leaveReset _ => true
  | .nodeTimeAdvance => true
  | _ => false

/-- The reply a command's step places, and nothing else of the state (R186, R188). -/
def Refused (s : State) (p : Domain) (tag : Byte) (code : ReplyCode) : Result := .next (s.reply p tag ⟨code, []⟩)

/-- An endpoint is named by a non-FREE connection (R18). -/
def State.inUse (s : State) (e : Endpoint) : Prop :=
  ∃ (i : SlotIx) (c : Conn), s.conn i = some c ∧ (c.route.source = e ∨ c.route.sink = e)

/-- A slot is the lowest-numbered FREE one (R16, R24). -/
def State.lowestFree (s : State) (i : SlotIx) : Prop :=
  s.conn i = none ∧ ∀ j : SlotIx, j.val < i.val → s.conn j ≠ none

/-- The local port side a proposal needs is free (check 4; R12). -/
def State.sideFree (s : State) : Route → Prop
  | .add l _ => s.holders[l].add = none
  | .drop _ l => s.holders[l].drop = none
  | .express _ _ => True

/-- No entry of the sink degree's egress list overlaps the span (check 5; R13). -/
def State.egressClear (s : State) (r : Route) (sp : Span) : Prop :=
  ∀ d : Degree, r.sinkDegree = some d → ∀ e ∈ s.map[d].egress, Span.overlaps sp e.span = false

/-- Every gap to an entry of the sink degree's egress list is the guard at least (check 6; R13). -/
def State.guardKept (s : State) (r : Route) (sp : Span) : Prop :=
  ∀ d : Degree, r.sinkDegree = some d → ∀ e ∈ s.map[d].egress,
    (e.span.first < sp.first → s.settings[d].guard ≤ Span.gapTo e.span sp) ∧
      (sp.first < e.span.first → s.settings[d].guard ≤ Span.gapTo sp e.span)

/-- The committed cells with the span stay within the sink degree's load limit (check 7; R14). -/
def State.loadFits (s : State) (r : Route) (sp : Span) : Prop :=
  ∀ d : Degree, r.sinkDegree = some d → s.map[d].committed + sp.width ≤ s.settings[d].loadLimit

/-- The span fits the source degree's ingress and drop lists (check 8; R15). -/
def State.ingressFits (s : State) (r : Route) (sp : Span) : Prop :=
  ∀ d : Degree, r.sourceDegree = some d →
    (∀ e ∈ s.map[d].ingress, Span.overlaps sp e.span = true → e.span = sp) ∧
      (r.sinkDegree = none → ∀ e ∈ s.map[d].drops, e.span ≠ sp)

/-- Checks 4 to 8 pass (R9). -/
def State.admissible (s : State) (r : Route) (sp : Span) : Prop :=
  s.sideFree r ∧ s.egressClear r sp ∧ s.guardKept r sp ∧ s.loadFits r sp ∧ s.ingressFits r sp

/-! ## What commands leave -/

/-- The record a proposal fills (R28, R29): the clamped level, the hold time of a record with a peer as its
expiry, and every shadow BLOCKED. -/
def proposedRecord (now : Time) (p : Domain) (peer : Option Domain) (r : Route) (sp : Span) (hold : Nat)
    (auto : Bool) (level : Int) (notify : Nat) : Conn where
  route := r
  span := sp
  state := match peer with | some _ => .proposed | none => .armed
  proposer := p
  peer := peer
  expiry := match peer with
    | some _ => some (now + BitVec.ofNat 32 (1000 * if hold < 1 then 1 else if 60 < hold then 60 else hold))
    | none => none
  autoActivate := auto
  target := match r with
    | .drop _ _ => none
    | _ => some (if level < -300 then -300 else if 50 < level then 50 else level)
  dropAtten := match r with
    | .drop _ _ => some (if level < 0 then 0 else if 250 < level then 250 else level.toNat)
    | _ => none
  notify := ⟨notify.testBit 0, notify.testBit 1, notify.testBit 2⟩
  shadow := .blocked
  source := none
  causes := none
  power := none
  lastLevel := none

/-- The record ACTIVATE leaves (R35, R36): an ADD or EXPRESS SUSPENDED, dark, with TRIP among its causes
when the sink degree's trip is in force; a DROP IN_SERVICE at its drop attenuation. -/
def activatedRecord (s : State) (c : Conn) : Conn :=
  match c.route.sinkDegree with
  | some d =>
    { c with state := .suspended, expiry := none, source := some .dark,
             causes := some ⟨true, s.trips[d].state != .clear⟩, power := some .normal, lastLevel := none }
  | none =>
    { c with state := .inService, expiry := none, source := some .dark, shadow := .att (c.dropAtten.getD 0) }

/-- What a freed record leaves behind (R17, R45): the slot FREE with its generation, the active setpoint
BLOCKED, no entry of the handle in the map, no holder, no track; the committed cells fall by the width. -/
def Freed (s t : State) (i : SlotIx) (c : Conn) : Prop :=
  t.table = s.table.set i ⟨s.table[i].gen, none⟩ ∧ t.actives = s.actives.set i .blocked ∧
  (∀ d, c.route.sinkDegree = some d →
    t.map[d].committed = s.map[d].committed - c.span.width ∧
      ∀ e : EgressEntry, e ∈ t.map[d].egress ↔ e ∈ s.map[d].egress ∧ e.handle ≠ ⟨i, s.table[i].gen⟩) ∧
  (∀ d, c.route.sourceDegree = some d → ∀ u ∈ t.map[d].ingress, u.span = c.span → ⟨i, s.table[i].gen⟩ ∉ u.users) ∧
  (∀ d l, c.route = .drop d l → t.holders[l].drop = none ∧ ∀ e ∈ t.map[d].drops, e.handle ≠ ⟨i, s.table[i].gen⟩) ∧
  (∀ l d, c.route = .add l d → t.holders[l].add = none) ∧
  (∀ e ∈ t.tracks, e.handle.slot ≠ i) ∧
  t.managers = s.managers ∧ t.settings = s.settings ∧ t.trips = s.trips ∧ t.logs = s.logs ∧ t.ramps = s.ramps

/-- The pick of a rotation turn (R77): the first wanted tap from the rotation position on, and the position
one past it. `w` is the state the choice reads. -/
def RotationChose (w : State) (m t : Mon) : Prop :=
  ∃ k : Nat, k < 12 ∧ t.tap = Tap.atPlace (m.rotation.place + k) ∧ w.wanted t.tap = true ∧
    (∀ j : Nat, j < k → w.wanted (Tap.atPlace (m.rotation.place + j)) = false) ∧
    t.rotation = Tap.atPlace (t.tap.place + 1) ∧ t.boost = m.boost

/-- The pick of a boost turn (R78): the E tap of the first qualifying degree from the boost pointer on, and
the pointer one past it. -/
def BoostChose (w : State) (m t : Mon) : Prop :=
  ∃ d : Degree, t.tap = ⟨.egress, d⟩ ∧ w.boosts d = true ∧
    (∀ k : Degree, (k - m.boost).val < (d - m.boost).val → w.boosts k = false) ∧
    t.boost = d + 1 ∧ t.rotation = m.rotation

/-- What a choice of MON leaves (R67, R76 to R79): no tap is wanted and MON is as it was, or one request of
the turn's pick with the tag counter's value, its time and its timer 500 ms on, and the other turn next. -/
def Chose (w : State) (m t : Mon) (pulses pulses' : Nat) (now : Time) : Prop :=
  ((∀ k : Tap, w.wanted k = false) ∧ t = m ∧ pulses' = pulses) ∨
  ((m.turn = .boost ∧ BoostChose w m t ∨
      (m.turn = .rotation ∨ ∀ d : Degree, w.boosts d = false) ∧ RotationChose w m t) ∧
    t.state = .requested ∧ t.tag = m.tagCounter ∧ t.tagCounter = m.tagCounter + 1 ∧
    t.requestTime = now ∧ t.timer = some (now + 500) ∧ t.turn ≠ m.turn ∧ t.count = m.count ∧ t.buffer = m.buffer ∧
    t.sample = m.sample ∧ t.stamp = m.stamp ∧ t.lastFailure = m.lastFailure ∧ pulses' = pulses + 1)

/-- The fields of State that a monitor event never touches: the table, the map, the links, the trips and
what belongs to them. -/
def MonitorFrame (s t : State) : Prop :=
  t.table = s.table ∧ t.map = s.map ∧ t.holders = s.holders ∧ t.managers = s.managers ∧ t.settings = s.settings ∧
  t.ramps = s.ramps ∧ t.links = s.links ∧ t.switchGen = s.switchGen ∧ t.actives = s.actives ∧ t.matrix = s.matrix ∧
  t.trips = s.trips ∧ t.logs = s.logs ∧ t.nodeTime = s.nodeTime ∧ t.grantReqs = s.grantReqs ∧ t.tripReqs = s.tripReqs

/-- A request fails (R72): MON is IDLE with nothing received and the failure recorded, MONITOR_FAULT is set at
all four ports, the banks are kept, and MON chooses. -/
def MonitorFailed (s t : State) (failure : Tap → MonFailure) : Prop :=
  MonitorFrame s t ∧ t.banks = s.banks ∧ t.tracks = s.tracks ∧ t.declReqs = s.declReqs ∧ t.passReqs = s.passReqs ∧
  (∀ q : Domain, t.ports[q] =
    { s.ports[q] with flags := { s.ports[q].flags with monitorFault := true } }) ∧
  (let m : Mon := {
     s.mon with
     state := .idle, timer := none, count := 0, buffer := [], sample := none, lastFailure := failure s.mon.tap }
   Chose s m t.mon s.mreqPulses t.mreqPulses s.nodeTime)

/-- A link has failed (R132 to R135): FAULTED, nothing in flight, the batch's entries unanswered, the failure
recorded; the notice and the flag to the degree's manager, or for SLM to all four ports. -/
def LinkFailed (s t : State) (l : LinkId) (b : Batch) (f : LinkFailure) (value : Int) : Prop :=
  (let k : Link := {
     s.links[l] with
     state := .faulted, inFlight := none, timer := none, unanswered := some b.entries, lastFailure := f }
   t.links = s.links.set l k) ∧
  (∀ (d : Degree) (q : Domain), l = degreeLink d → s.manager d = some q →
    t.ports = ((s.tell q ⟨.linkFault, none, some d, some value, s.nodeTime⟩).setFlag q .onlyLinkFault).ports) ∧
  (∀ d : Degree, l = degreeLink d → s.manager d = none → t.ports = s.ports) ∧
  (l = slm → ∀ q : Domain,
    t.ports[q] = (((s.tell q ⟨.linkFault, none, none, some value, s.nodeTime⟩).setFlag q .onlyLinkFault).ports)[q]) ∧
  t.table = s.table ∧ t.map = s.map ∧ t.actives = s.actives ∧ t.matrix = s.matrix ∧ t.ramps = s.ramps ∧
  t.switchGen = s.switchGen ∧ t.trips = s.trips ∧ t.settings = s.settings ∧ t.grantReqs = s.grantReqs

/-- The other records of a step on one slot: each is as it was, or a grant of the step has taken it (R58). -/
def OthersKept (s t : State) (k : SlotIx) : Prop :=
  (∀ j : SlotIx, t.table[j].gen = s.table[j].gen) ∧
  ∀ j : SlotIx, j ≠ k → t.conn j = s.conn j ∨ ∃ c, s.conn j = some c ∧
    (c.state = .pendingUp ∧ t.conn j = some { c with state := .rampUp, shadow := .att 250 } ∨
      c.state = .pendingDown ∧ t.conn j = some { c with state := .rampDown })

/-- The record a cause request leaves when it suspends (R37): SUSPENDED with that cause, BLOCKED; out of
RAMP_UP and IN_SERVICE the power condition returns to NORMAL. -/
def suspendedRecord (c : Conn) (trip : Bool) : Conn :=
  { c with state := .suspended, shadow := .blocked, causes := some ⟨!trip, trip⟩,
           power := if c.state = .pendingUp then c.power else some .normal }

/-- The record a trip of its sink degree leaves (R37, R147), before any freeing. -/
def trippedRecord (c : Conn) : Conn :=
  match c.state with
  | .suspended => { c with causes := some ⟨(c.causes.getD ⟨false, false⟩).sourceDark, true⟩ }
  | .pendingUp => suspendedRecord c true
  | .rampUp => suspendedRecord c true
  | .inService => suspendedRecord c true
  | .pendingDown => { c with state := .draining, shadow := .blocked }
  | .rampDown => { c with state := .draining, shadow := .blocked }
  | _ => c

/-- A degree has entered TRIPPED (R147): the trip state, no timer, and every record sinking on it as R37
leaves it, or FREE when the step put it in DRAINING with its active setpoint settled BLOCKED; the records
that do not sink on the degree are as they were. The degree's manager is told and flagged. -/
def Tripped (s t : State) (d : Degree) : Prop :=
  (let k : Trip := { s.trips[d] with state := .tripped, timer := none }
   t.trips = s.trips.set d k) ∧
  (∀ (i : SlotIx) (c : Conn), s.conn i = some c → c.route.sinkDegree = some d →
    t.conn i = if (c.state = .pendingDown ∨ c.state = .rampDown) ∧ s.settled i c = true then none
      else some (trippedRecord c)) ∧
  (∀ i : SlotIx, (∀ c, s.conn i = some c → c.route.sinkDegree ≠ some d) → t.conn i = s.conn i) ∧
  (∀ i : SlotIx, t.table[i].gen = s.table[i].gen) ∧
  (∀ q, s.manager d = some q → t.ports[q].flags.trip = true ∧
    ((⟨.tripOn, none, some d, none, s.nodeTime⟩ : Notice) ∈ t.ports[q].queue ∨ t.ports[q].flags.overflow = true)) ∧
  t.settings = s.settings ∧ t.managers = s.managers ∧ t.logs = s.logs ∧ t.banks = s.banks

/-- A trip has ended (R152): CLEAR, no timer; a SUSPENDED record sinking on the degree has lost TRIP, and with
no cause left it is PENDING_UP, or granted in the step it is RAMP_UP at 250. Every other record is as it
was, but for a waiting one that a grant of the step may have reached. The degree's manager is told. -/
def TripEnded (s t : State) (d : Degree) : Prop :=
  (let k : Trip := { s.trips[d] with state := .clear, timer := none }
   t.trips = s.trips.set d k) ∧
  (∀ (i : SlotIx) (c : Conn), s.conn i = some c → c.route.sinkDegree = some d → c.state = .suspended →
    c.causes = some ⟨true, true⟩ → t.conn i = some { c with causes := some ⟨true, false⟩ }) ∧
  (∀ (i : SlotIx) (c : Conn), s.conn i = some c → c.route.sinkDegree = some d → c.state = .suspended →
    c.causes = some ⟨false, true⟩ →
    t.conn i = some { c with state := .pendingUp, causes := some ⟨false, false⟩ } ∨
      t.conn i = some { c with state := .rampUp, shadow := .att 250, causes := some ⟨false, false⟩ }) ∧
  (∀ i : SlotIx, (∀ c, s.conn i = some c → c.state ≠ .pendingUp ∧ c.state ≠ .pendingDown ∧
      (c.state = .suspended → c.route.sinkDegree ≠ some d)) → t.conn i = s.conn i) ∧
  (∀ q, s.manager d = some q →
    (⟨.tripOff, none, some d, none, s.nodeTime⟩ : Notice) ∈ t.ports[q].queue ∨ t.ports[q].flags.overflow = true) ∧
  t.map = s.map ∧ t.actives = s.actives ∧ t.settings = s.settings ∧ t.managers = s.managers ∧ t.logs = s.logs

/-! ## What the links carry -/

/-- One span ends before another begins: they share no cell and stand in ascending order. -/
def Span.before (a b : Span) : Prop := a.first + a.width ≤ b.first

/-- The setpoint a degree link's entry carries. -/
def Entry.value? : Entry → Option Setpoint
  | .select _ _ _ v => some v
  | .drop _ _ _ v => some v
  | _ => none

/-- The span a degree link's entry names, and whether it is a drop entry (R142). -/
def Entry.span? : Entry → Option Span
  | .select _ sp _ _ => some sp
  | .drop _ sp _ _ => some sp
  | _ => none
def Entry.isDrop : Entry → Bool
  | .drop _ _ _ _ => true
  | _ => false

/-- One entry of a degree link stands before another (R127): a select entry before a drop entry, and of one kind
the one of the lower cells. -/
def Entry.before (x y : Entry) : Prop :=
  x.isDrop = false ∧ y.isDrop = true ∨
    x.isDrop = y.isDrop ∧ ∃ a b : Span, x.span? = some a ∧ y.span? = some b ∧ Span.before a b

/-- A batch carries the value for a handle: it has an entry of it, and every such entry has the value. -/
def Batch.carriesValue (b : Batch) (h : Handle) (v : Setpoint) : Prop :=
  (∃ e ∈ b.entries, e.handle? = some h) ∧ ∀ e ∈ b.entries, e.handle? = some h → e.value? = some v

/-- The active setpoint of a slot once a batch has completed (R131, step 2): the value it carries for the
slot's record, or the one held. -/
def ActiveAfter (s : State) (b : Batch) (i : SlotIx) (v : Setpoint) : Prop :=
  b.carriesValue (s.handleAt i) v ∨ (∀ e ∈ b.entries, e.handle? ≠ some (s.handleAt i)) ∧ v = s.actives[i]

/-- The reply timer's period on a link (R134): the degree's switch timeout, 200 ms on SLM. -/
def State.period (s : State) (l : LinkId) : Time :=
  match linkDegree l with
  | some d => BitVec.ofNat 32 s.settings[d].switchTimeout
  | none => 200

/-! ## Settings by their field codes -/

/-- A field of a settings record by its code, as a number (R168). -/
def Settings.field (g : Settings) : Nat → Int
  | 0 => g.guard
  | 1 => g.loadLimit
  | 2 => g.rampSlots
  | 3 => g.gain
  | 4 => g.deadband
  | 5 => g.maxStep
  | 6 => g.rampStep
  | 7 => g.darkThreshold
  | 8 => g.darkCount
  | 9 => g.lightCount
  | 10 => g.activeLevel.number
  | 11 => g.mode.number
  | 12 => g.hold
  | 13 => g.switchTimeout
  | 14 => g.logThreshold
  | 15 => g.logMode.number
  | 16 => g.logStamp.number
  | _ => g.logPrescale

/-- The ranges of the eighteen fields by their codes (R168); a choice field's is its two codes. -/
def fieldRanges : List (Int × Int) :=
  [(0, 4), (0, 384), (1, 4), (1, 16), (0, 20), (1, 50), (1, 30), (-500, -100), (1, 8), (1, 8), (0, 1), (0, 1),
    (0, 10000), (50, 1000), (10, 200), (0, 1), (0, 1), (1, 15)]

/-- The value SET_DEGREE stores (R170 to R172): the nearest in the field's range, and then no less than
the committed cells for the load limit, no less than the active ramps for the ramp slots. -/
def State.valueStored (s : State) (d : Degree) (code : Nat) (v : Int) : Int :=
  let r := fieldRanges.getD code (0, 0)
  let first := if v < r.1 then r.1 else if r.2 < v then r.2 else v
  if code = 1 then max first s.map[d].committed
  else if code = 2 then max first s.ramps[d].holders.length
  else first

/-- The changes pass step 1 of R169: codes 0 to 17, each at most once, choice fields 0 or 1. -/
def ChangesValid (cs : List (Nat × Int)) : Prop :=
  (∀ c ∈ cs, c.1 ≤ 17 ∧ (c.1 = 10 ∨ c.1 = 11 ∨ c.1 = 15 ∨ c.1 = 16 → c.2 = 0 ∨ c.2 = 1)) ∧ (cs.map (·.1)).Nodup

/-! ## What a port drives and takes -/

/-- The catalogue of commands: each code with the parameter lengths it allows (R189). -/
def catalogue : List (Nat × List Nat) :=
  [(0x10, [1]), (0x11, [2]), (0x12, [1]), (0x13, [0]), (0x20, [10]), (0x21, [2]), (0x22, [2]), (0x23, [2]), (0x24, [2]),
    (0x25, [4]), (0x26, [4]), (0x27, [2]), (0x28, [4]), (0x30, [4]), (0x31, (List.range 19).map fun k => 1 + 3 * k),
    (0x32, [1]), (0x33, [1]), (0x34, [1]), (0x35, [1]), (0x36, [1]), (0x40, [0]), (0x41, [0]), (0x42, [1]), (0x43, [1]),
    (0x44, [1]), (0x45, [0]), (0x50, [0])]

/-- A received frame fails its checks (R185). -/
def FrameFails (frame : List Byte) : Prop :=
  frame.length < 6 ∨ 64 < nat16 (frame.getD 2 0) (frame.getD 3 0) ∨
    frame.length ≠ 6 + nat16 (frame.getD 2 0) (frame.getD 3 0) ∨ crcGood frame = false

/-- What a port answers to a frame that reaches no command (R185, R187): FRAME_ERROR where it fails its checks,
UNKNOWN_COMMAND where its code is not of the catalogue, BAD_PARAM where its parameter length is not allowed. -/
def PortAnswers (frame : List Byte) (code : ReplyCode) : Prop :=
  FrameFails frame ∧ code = .frameError ∨
  ¬ FrameFails frame ∧
    ((∀ c ∈ catalogue, c.1 ≠ (frame.getD 0 0).toNat) ∧ code = .unknownCommand ∨
      ∃ c ∈ catalogue, c.1 = (frame.getD 0 0).toNat ∧ nat16 (frame.getD 2 0) (frame.getD 3 0) ∉ c.2 ∧ code = .badParam)

/-- The status octet (R181, R183): the slot's state in bits 1 and 0, the attention line in bit 2, a queue
that is not empty in bit 3, the port's number in bits 5 and 4. -/
def StatusOf (p : Domain) (q : Port) : Byte :=
  BitVec.ofNat 8 ((match q.slot with | .empty => 0 | .busy _ => 1 | .ready _ => 2) +
    (if q.queue ≠ [] ∨ (q.flags.inter q.mask).any = true then 4 else 0) + (if q.queue ≠ [] then 8 else 0) + 16 * p.val)

/-- The state after a transaction of a port: DPnDO's octets, and no transaction in progress. -/
def State.drove (s : State) (p : Domain) (octets : List Byte) : State :=
  s.mapPort p fun q => { q with transaction := .idle, driven := octets }

/-! ## The laws of the manual -/

/-- A notice queue never holds more than 16 notices (R192). -/
def State.queuesOk (s : State) : Prop := ∀ p : Domain, s.ports[p].queue.length ≤ 16

/-- The committed cells of each degree never exceed its load limit (R4, R171). -/
def State.loadOk (s : State) : Prop := ∀ d : Degree, s.map[d].committed ≤ s.settings[d].loadLimit

/-- The egress list and the ingress list of each degree stand in ascending order of first cell, and no
two of a list's spans share a cell (R3, R5). -/
def State.mapOk (s : State) : Prop :=
  ∀ d : Degree, s.map[d].egress.Pairwise (fun a b => Span.before a.span b.span) ∧
    s.map[d].ingress.Pairwise (fun a b => Span.before a.span b.span)

/-- Every numeric field lies in its range, and the committed cells are within the load limit (R168, R171). -/
def State.settingsOk (s : State) : Prop :=
  ∀ d : Degree,
    s.settings[d].guard ≤ 4 ∧ s.map[d].committed ≤ s.settings[d].loadLimit ∧ s.settings[d].loadLimit ≤ 384 ∧
    (1 ≤ s.settings[d].rampSlots ∧ s.settings[d].rampSlots ≤ 4) ∧
    (1 ≤ s.settings[d].gain ∧ s.settings[d].gain ≤ 16) ∧ s.settings[d].deadband ≤ 20 ∧
    (1 ≤ s.settings[d].maxStep ∧ s.settings[d].maxStep ≤ 50) ∧
    (1 ≤ s.settings[d].rampStep ∧ s.settings[d].rampStep ≤ 30) ∧
    (-500 ≤ s.settings[d].darkThreshold ∧ s.settings[d].darkThreshold ≤ -100) ∧
    (1 ≤ s.settings[d].darkCount ∧ s.settings[d].darkCount ≤ 8) ∧
    (1 ≤ s.settings[d].lightCount ∧ s.settings[d].lightCount ≤ 8) ∧
    s.settings[d].hold ≤ 10000 ∧
    (50 ≤ s.settings[d].switchTimeout ∧ s.settings[d].switchTimeout ≤ 1000) ∧
    (10 ≤ s.settings[d].logThreshold ∧ s.settings[d].logThreshold ≤ 200) ∧
    (1 ≤ s.settings[d].logPrescale ∧ s.settings[d].logPrescale ≤ 15)

/-- The states whose shadow is BLOCKED (R27). -/
def CState.blocked : CState → Bool
  | .proposed => true
  | .armed => true
  | .suspended => true
  | .pendingUp => true
  | .draining => true
  | _ => false

/-- Every record in one of those states has its shadow BLOCKED (R27). -/
def State.blockedOk (s : State) : Prop :=
  ∀ (i : SlotIx) (c : Conn), s.conn i = some c → c.state.blocked = true → c.shadow = .blocked

/-- While a degree's trip is in force every record sinking on it is PROPOSED, ARMED, DRAINING, or
SUSPENDED with TRIP among its causes (R147, R148). -/
def State.tripOk (s : State) : Prop :=
  ∀ (i : SlotIx) (c : Conn) (d : Degree), s.conn i = some c → c.route.sinkDegree = some d →
    s.tripInForce d = true →
    c.state = .proposed ∨ c.state = .armed ∨ c.state = .draining ∨
      (c.state = .suspended ∧ c.causes.any (·.trip) = true)

/-- What waits at CNM was sent by the rules: a pass result was computed for a state a pass covers (R98), and
one that ends in a dark state is BLOCKED (R114); a change to HOLDING was handed over by a FOLLOW degree in
TRIPPED (R149). No trip hand-off waits while a reset holds the part (R157). -/
def State.requestsOk (s : State) : Prop :=
  (∀ (d : Degree) (r : PassResult), r ∈ s.passReqs[d] → r.computedFor.covered = true ∧
    ∀ k : CState, r.toState = some k → k.blocked = true → r.shadow = .blocked) ∧
  (∀ d : Degree, s.tripReqs[d] = some .hold → s.trips[d].state = .tripped ∧ s.settings[d].mode = .follow) ∧
  (s.held ≠ none → ∀ d : Degree, s.tripReqs[d] = none)

/-- The trip law with what it rests on (R27, R148). -/
def State.darkOk (s : State) : Prop := s.blockedOk ∧ s.tripOk ∧ s.requestsOk

/-- A handle names a connection sinking on a degree in one of two states. -/
def State.sinksIn (s : State) (d : Degree) (h : Handle) (a b : CState) : Prop :=
  ∃ c : Conn, s.find h = some c ∧ c.route.sinkDegree = some d ∧ (c.state = a ∨ c.state = b)

/-- The laws of the scheduler (R53, R54). The active ramps of a degree are within its ramp slots, 4 at most; its
queue holds exactly the PENDING connections sinking on it, each once; its slot holders stand in ascending slot
order (R175); a slot is held without an offer
number by exactly the ramping connections, and under one by exactly the entries marked with it. -/
def State.rampsOk (s : State) : Prop :=
  ∀ d : Degree,
    s.ramps[d].holders.length ≤ s.settings[d].rampSlots ∧ s.settings[d].rampSlots ≤ 4 ∧
    (s.ramps[d].queue.map (·.handle)).Nodup ∧ (s.ramps[d].holders.map (·.handle.slot.val)).Pairwise (· < ·) ∧
    (∀ h : Handle, (∃ e ∈ s.ramps[d].queue, e.handle = h) ↔ s.sinksIn d h .pendingUp .pendingDown) ∧
    (∀ h : Handle, (⟨h, none⟩ : SlotHolder) ∈ s.ramps[d].holders ↔ s.sinksIn d h .rampUp .rampDown) ∧
    ∀ (h : Handle) (n : BitVec 16),
      (⟨h, some n⟩ : SlotHolder) ∈ s.ramps[d].holders ↔ (⟨h, some n⟩ : QueueEntry) ∈ s.ramps[d].queue

/-- A pass result ends a ramp in the one state its direction has, or changes no state (R103, R111 to R114). -/
def State.passesOk (s : State) : Prop :=
  ∀ (d : Degree) (r : PassResult), r ∈ s.passReqs[d] → r.toState = none ∨
    (r.computedFor = .rampUp ∧ r.toState = some .inService) ∨ (r.computedFor = .rampDown ∧ r.toState = some .draining)

/-- The map law (R2 to R7): each collection of the map holds exactly the connections that belong in it, each
once, at their spans, the users of an ingress entry in ascending slot order, and the committed cells are the
sum of the widths of the egress list. -/
def State.recordsOk (s : State) : Prop :=
  (∀ d : Degree,
    s.map[d].committed = (s.map[d].egress.map (·.span.width)).sum ∧
    (s.map[d].egress.map (·.handle)).Nodup ∧
    (∀ (h : Handle) (sp : Span), (⟨sp, h⟩ : EgressEntry) ∈ s.map[d].egress ↔
      ∃ c : Conn, s.find h = some c ∧ c.route.sinkDegree = some d ∧ c.span = sp) ∧
    (s.map[d].ingress.map (·.span)).Nodup ∧ (∀ u ∈ s.map[d].ingress, u.users ≠ [] ∧ u.users.Nodup ∧ (u.users.map (·.slot.val)).Pairwise (· < ·)) ∧
    (∀ (h : Handle) (sp : Span), (∃ u ∈ s.map[d].ingress, u.span = sp ∧ h ∈ u.users) ↔
      ∃ c : Conn, s.find h = some c ∧ c.route.sourceDegree = some d ∧ c.span = sp) ∧
    (s.map[d].drops.map (·.handle)).Nodup ∧
    ∀ (h : Handle) (sp : Span) (l : LocalPort), (⟨sp, l, h⟩ : DropEntry) ∈ s.map[d].drops ↔
      ∃ c : Conn, s.find h = some c ∧ c.route = .drop d l ∧ c.span = sp) ∧
  ∀ (l : LocalPort) (h : Handle),
    (s.holders[l].add = some h ↔ ∃ (c : Conn) (d : Degree), s.find h = some c ∧ c.route = .add l d) ∧
    (s.holders[l].drop = some h ↔ ∃ (c : Conn) (d : Degree), s.find h = some c ∧ c.route = .drop d l)

/-- The drop list of each degree stands in ascending order, and no two of its spans share a cell (R3, R6). -/
def State.dropsOk (s : State) : Prop :=
  ∀ d : Degree, s.map[d].drops.Pairwise fun a b => Span.before a.span b.span

/-- The assignment law (R18): both endpoints of a non-FREE connection are assigned, and their managers are its
proposer and its peer, the proposer alone when it has no peer (R11, R46). -/
def State.assignedOk (s : State) : Prop :=
  ∀ (i : SlotIx) (c : Conn), s.conn i = some c →
    (s.managers[c.route.source.index] = some c.proposer ∧
      s.managers[c.route.sink.index] = some (c.peer.getD c.proposer)) ∨
    (s.managers[c.route.sink.index] = some c.proposer ∧
      s.managers[c.route.source.index] = some (c.peer.getD c.proposer))

/-- The law of the tracking table (R87, R88): its entries stand in ascending slot order and are exactly those of
the connections past ARMED, each with its connection's evaluating tap and span; those connections have a source
state and the PROPOSED and ARMED ones none (R26). -/
def State.tracksOk (s : State) : Prop :=
  (s.tracks.map (·.handle.slot.val)).Pairwise (· < ·) ∧
  (∀ h : Handle, (∃ e ∈ s.tracks, e.handle = h) ↔
    ∃ c : Conn, s.find h = some c ∧ c.state ≠ .proposed ∧ c.state ≠ .armed) ∧
  (∀ e ∈ s.tracks, ∀ c : Conn, s.find e.handle = some c → e.tap = c.route.tap ∧ e.span = c.span) ∧
  ∀ (i : SlotIx) (c : Conn), s.conn i = some c → (c.source = none ↔ c.state = .proposed ∨ c.state = .armed)

/-- A declaration that waits at CNM names a tracked connection or none that exists (R88). -/
def State.declsOk (s : State) : Prop :=
  ∀ r ∈ s.declReqs, ∀ c : Conn, s.find r.handle = some c → c.state ≠ .proposed ∧ c.state ≠ .armed

/-- The milliseconds from node time to an expiry, modulo 2^32 (R177). -/
def State.msTo (s : State) (expiry : Time) : Nat := (expiry - s.nodeTime).toNat

/-- No timer is behind node time (R177): a running timer's expiry is its period ahead at most. While a reset
holds the part no reservation, sweep or reply timer runs (R203), and under COLDn every trip is CLEAR (R156). -/
def State.timersOk (s : State) : Prop :=
  (∀ (i : SlotIx) (c : Conn), s.conn i = some c → c.state = .proposed →
    s.held = none ∧ ∃ e, c.expiry = some e ∧ s.msTo e ≤ 60000) ∧
  (∀ e, s.mon.timer = some e → s.held = none ∧ s.msTo e ≤ 500) ∧
  (∀ l : LinkId, s.links[l].inFlight ≠ none → s.held = none ∧ ∃ e, s.links[l].timer = some e ∧ s.msTo e ≤ 1000) ∧
  (∀ d : Degree, s.trips[d].state = .holding → s.tripReqs[d] = none → s.held = none →
    ∃ e, s.trips[d].timer = some e ∧ s.msTo e ≤ 10000) ∧
  (s.held = some .cold → ∀ d : Degree, s.trips[d].state = .clear)

/-- No timer whose expiry its owner could take runs out at the present count of node time (R177). -/
def State.nothingDue (s : State) : Prop :=
  (∀ (i : SlotIx) (c : Conn), s.conn i = some c → c.state = .proposed → c.expiry ≠ some s.nodeTime) ∧
  s.mon.timer ≠ some s.nodeTime ∧
  (∀ l : LinkId, s.links[l].inFlight ≠ none → s.links[l].timer ≠ some s.nodeTime) ∧
  ∀ d : Degree, s.trips[d].state = .holding → s.tripReqs[d] = none → s.trips[d].timer ≠ some s.nodeTime

/-- Nothing is left to send on an idle link (R126, R127): while no reset holds the part, a READY link with no
batch in flight has no entry whose shadow differs from its active value. -/
def State.sentOk (s : State) : Prop :=
  s.held = none → ∀ l : LinkId, s.links[l].state = .ready → s.links[l].inFlight = none → s.updateEntries l = []

/-- A batch in flight is of its own link (R123): an entry whose record still exists is of a record of that link,
and only SLM's batches carry port entries. -/
def State.batchesOk (s : State) : Prop :=
  ∀ (l : LinkId) (b : Batch) (e : Entry), s.links[l].inFlight = some b → e ∈ b.entries →
    (∀ (h : Handle) (c : Conn), e.handle? = some h → s.find h = some c → c.route.link = l) ∧
    ∀ (k : LocalPort) (x y : Option Degree), e = .port k x y → l = slm

/-! ## Several steps in a row -/

/-- Commands and events carried out one after another. -/
def runAll : List Instr → State → Result
  | [], s => .next s
  | i :: is, s =>
    match exec i s with
    | .next t => runAll is t
    | r => r

/-- The rows of every expiry: reservations by slot, the sweep timer, reply timers by link, hold timers by degree. -/
def expiryRows : List Instr :=
  slots.map .reservationExpiry ++ [.sweepTimeout] ++ (List.finRange 5).map .replyTimeout ++
    (List.finRange 4).map .holdExpiry

/-! ## The octets of results -/

/-- An item that can be absent (R190): a presence octet, and its octets or its width of zeros. -/
def itemOctets (width : Nat) : Option (List Byte) → List Byte
  | some octets => 1 :: octets
  | none => 0 :: List.replicate width 0

/-- A setpoint's two octets (R190): 0xFFFF for BLOCKED. -/
def setpointOctets : Setpoint → List Byte
  | .blocked => [255, 255]
  | .att a => [BitVec.ofNat 8 (a / 256), BitVec.ofNat 8 a]

/-- The eighteen fields of a settings record in field code order (R169, R190): twenty-two octets. -/
def settingsOctets (g : Settings) : List Byte :=
  [BitVec.ofNat 8 g.guard] ++ u16 g.loadLimit ++
  [BitVec.ofNat 8 g.rampSlots, BitVec.ofNat 8 g.gain, BitVec.ofNat 8 g.deadband, BitVec.ofNat 8 g.maxStep,
    BitVec.ofNat 8 g.rampStep] ++ i16 g.darkThreshold ++
  [BitVec.ofNat 8 g.darkCount, BitVec.ofNat 8 g.lightCount, (match g.activeLevel with | .low => 0 | .high => 1),
    (match g.mode with | .latched => 0 | .follow => 1)] ++ u16 g.hold ++ u16 g.switchTimeout ++
  [BitVec.ofNat 8 g.logThreshold, (match g.logMode with | .continuous => 0 | .oneShot => 1),
    (match g.logStamp with | .absolute => 0 | .delta => 1), BitVec.ofNat 8 g.logPrescale]

/-- The octet of a flag set, OVERFLOW in bit 0 up to EXCURSION_FULL in bit 4 (R189, R190). -/
def flagOctet (f : FlagSet) : Byte :=
  BitVec.ofNat 8 ((if f.overflow then 1 else 0) + (if f.monitorFault then 2 else 0) + (if f.linkFault then 4 else 0) +
    (if f.trip then 8 else 0) + (if f.excursionFull then 16 else 0))

/-- The link fields of R144 for one link, the switch generation of a degree link's alone. -/
def linkOctets (k : Link) (gen : Option (BitVec 16)) (pendingEntries : Nat) : List Byte :=
  ([(match k.state with | .starting => 0 | .ready => 1 | .faulted => 2), if k.inFlight = none then 0 else 1] : List Byte) ++
  itemOctets 1 (k.inFlight.map fun b => [match b.kind with | .update => 0 | .start => 1 | .resync _ => 2]) ++
  itemOctets 1 (k.inFlight.map fun b => [b.seq]) ++ [k.seq] ++
  (match gen with | some g => u16 g.toNat | none => []) ++
  [BitVec.ofNat 8 pendingEntries, if k.unanswered = none then 0 else 1] ++
  (match k.lastFailure with | .none => [0, 0] | .fault cause => [1, BitVec.ofNat 8 cause] | .timeout => [2, 0])

end Sys2Proof.Machine
end

