-- ==== Sys2Proof/Certificates/Slice0/Obligations.lean ====
section
/-! DEFINITION. Certificates/Slice0/Obligations.lean: the statements for the provers, in the order of
OBLIGATIONS.json. -/

open Sys2Proof Sys2Proof.Machine

/-! ## The step and the queue -/

/-- A step takes the command at the front of the queue and is `exec` of it on the state with the
queue's rest; on an empty queue the part idles, which is the model's own (log entry 1). -/
def Obligations.StepTakesTheFront : Prop :=
  (∀ (s : State) (c : Instr) (rest : List Instr),
    s.pending = c :: rest → step s = exec c { s with pending := rest }) ∧
  ∀ s : State, s.pending = [] → step s = .next s

/-- Every command and event, with any operands and in every state, is answered with a next state whose
queue is the queue it found (log entry 20). -/
def Obligations.EveryCommandIsAnswered : Prop :=
  ∀ (i : Instr) (s : State), ∃ t, exec i s = .next t ∧ t.pending = s.pending

/-- What is not taken. While a reset holds the part, an event from outside or a command changes nothing at
all; the wires of the ports, the trip pins, node time and the reset pins are the only steps left (R203).
A port that is BUSY with one command carries out no other that names it: its row stands for a frame
that R181 ignores (log entry 3). -/
def Obligations.NotTakenInAResetOrBusy : Prop :=
  (∀ (i : Instr) (s : State), s.held ≠ none → Instr.actsInReset i = false → exec i s = .next s) ∧
  ∀ (i j : Instr) (s : State) (p : Domain) (tag : Byte),
    commandPort i = some (p, tag) → s.ports[p].slot = .busy j → j ≠ i → exec i s = .next s

/-! ## Endpoints -/

/-- CLAIM (R19): the four outcomes, each with the whole next state. -/
def Obligations.ClaimResult : Prop :=
  ∀ (p : Domain) (tag : Byte) (code : Nat) (s : State), s.takes p (.claim p tag code) →
    (19 < code → exec (.claim p tag code) s = Refused s p tag .badParam) ∧
    ∀ e : Endpoint, Endpoint.ofCode code = some e →
      (s.managers[e.index] = none →
        exec (.claim p tag code) s =
          .next (({ s with managers := s.managers.set e.index (some p) } : State).reply p tag ⟨.ok, []⟩)) ∧
      (s.managers[e.index] = some p → exec (.claim p tag code) s = .next (s.reply p tag ⟨.ok, []⟩)) ∧
      (∀ q : Domain, s.managers[e.index] = some q → q ≠ p →
        exec (.claim p tag code) s = Refused s p tag .ownedElsewhere)

/-- HAND_OVER (R20): the checks in order, and the outcome for the requester itself and for another domain,
whose port is sent ENDPOINT_HANDED. -/
def Obligations.HandOverResult : Prop :=
  ∀ (p : Domain) (tag : Byte) (code domain : Nat) (s : State), s.takes p (.handOver p tag code domain) →
    (19 < code ∨ 3 < domain → exec (.handOver p tag code domain) s = Refused s p tag .badParam) ∧
    ∀ (e : Endpoint) (q : Domain), Endpoint.ofCode code = some e → domain = q.val →
      (s.managers[e.index] ≠ some p → exec (.handOver p tag code domain) s = Refused s p tag .notManager) ∧
      (s.managers[e.index] = some p → s.inUse e →
        exec (.handOver p tag code domain) s = Refused s p tag .inUse) ∧
      (s.managers[e.index] = some p → ¬ s.inUse e → q = p →
        exec (.handOver p tag code domain) s = .next (s.reply p tag ⟨.ok, []⟩)) ∧
      (s.managers[e.index] = some p → ¬ s.inUse e → q ≠ p →
        exec (.handOver p tag code domain) s =
          .next ((({ s with managers := s.managers.set e.index (some q) } : State).tell q
            ⟨.endpointHanded, none, none, some code, s.nodeTime⟩).reply p tag ⟨.ok, []⟩))

/-- UNCLAIM (R21): the checks in order, and the endpoint left unassigned. READ_ENDPOINTS (R22): nothing but the
slot changes, and the results give the twenty endpoints in code order, each its manager, 255 for none,
and its use count, after the count of the list (log entry 7). -/
def Obligations.UnclaimAndReadEndpointsResult : Prop :=
  (∀ (p : Domain) (tag : Byte) (code : Nat) (s : State), s.takes p (.unclaim p tag code) →
    (19 < code → exec (.unclaim p tag code) s = Refused s p tag .badParam) ∧
    ∀ e : Endpoint, Endpoint.ofCode code = some e →
      (s.managers[e.index] ≠ some p → exec (.unclaim p tag code) s = Refused s p tag .notManager) ∧
      (s.managers[e.index] = some p → s.inUse e → exec (.unclaim p tag code) s = Refused s p tag .inUse) ∧
      (s.managers[e.index] = some p → ¬ s.inUse e →
        exec (.unclaim p tag code) s =
          .next (({ s with managers := s.managers.set e.index none } : State).reply p tag ⟨.ok, []⟩))) ∧
  ∀ (p : Domain) (tag : Byte) (s : State), s.takes p (.readEndpoints p tag) →
    ∃ r : List Byte, exec (.readEndpoints p tag) s = .next (s.reply p tag ⟨.ok, r⟩) ∧ r.length = 41 ∧
      r[0]? = some 20 ∧
      ∀ e : Endpoint,
        r[1 + 2 * e.index.val]? =
          some (match s.managers[e.index] with | some q => BitVec.ofNat 8 q.val | none => 255) ∧
        r[2 + 2 * e.index.val]? = some (BitVec.ofNat 8 (s.useCount e))

/-! ## Proposals -/

/-- PROPOSE refused (R9): each check's reply when the checks before it pass, and no change but the reply. -/
def Obligations.ProposeRefusals : Prop :=
  ∀ (p : Domain) (tag : Byte) (source sink first width hold auto : Nat) (level : Int) (notify : Nat) (s : State),
    let c := Instr.propose p tag source sink first width hold auto level notify
    s.takes p c → s.mapOk →
    ((Endpoint.ofCode source = none ∨ Endpoint.ofCode sink = none ∨ Span.legal ⟨first, width⟩ = false →
      exec c s = Refused s p tag .badParam) ∧
    ∀ a b : Endpoint, Endpoint.ofCode source = some a → Endpoint.ofCode sink = some b →
      Span.legal ⟨first, width⟩ = true →
      (Route.ofEndpoints a b = none → exec c s = Refused s p tag .badParam) ∧
      ∀ r : Route, Route.ofEndpoints a b = some r →
        (s.managers[a.index] ≠ some p → s.managers[b.index] ≠ some p → exec c s = Refused s p tag .notManager) ∧
        (s.managers[a.index] = some p → s.managers[b.index] = none → exec c s = Refused s p tag .noPeer) ∧
        (s.managers[b.index] = some p → s.managers[a.index] = none → exec c s = Refused s p tag .noPeer) ∧
        (s.managers[a.index] ≠ none → s.managers[b.index] ≠ none →
          s.managers[a.index] = some p ∨ s.managers[b.index] = some p →
          ((∀ i : SlotIx, s.conn i ≠ none) → exec c s = Refused s p tag .tableFull) ∧
          ∀ i : SlotIx, s.conn i = none →
            (¬ s.sideFree r → exec c s = Refused s p tag .portBusy) ∧
            (s.sideFree r → ¬ s.egressClear r ⟨first, width⟩ → exec c s = Refused s p tag .spanConflict) ∧
            (s.sideFree r → s.egressClear r ⟨first, width⟩ → ¬ s.guardKept r ⟨first, width⟩ →
              exec c s = Refused s p tag .guardConflict) ∧
            (s.sideFree r → s.egressClear r ⟨first, width⟩ → s.guardKept r ⟨first, width⟩ →
              ¬ s.loadFits r ⟨first, width⟩ → exec c s = Refused s p tag .loadLimit) ∧
            (s.sideFree r → s.egressClear r ⟨first, width⟩ → s.guardKept r ⟨first, width⟩ →
              s.loadFits r ⟨first, width⟩ → ¬ s.ingressFits r ⟨first, width⟩ →
              exec c s = Refused s p tag .ingressConflict)))

/-- PROPOSE admitted without auto-activate, or with it and a peer (R16, R24, R28, R29, R34): the lowest FREE slot
takes the next generation and the record, the option with it, the reply is its handle, the map and the
local port's holder and matrix half follow, and a peer is sent PROPOSAL_IN. With auto-activate and no
peer the record is activated in the step too, of which ProposeActivates speaks. -/
def Obligations.ProposeAdmits : Prop :=
  ∀ (p : Domain) (tag : Byte) (source sink first width hold auto : Nat) (level : Int) (notify : Nat) (s : State)
    (a b : Endpoint) (r : Route) (peer : Option Domain) (i : SlotIx),
    let c := Instr.propose p tag source sink first width hold auto level notify
    let sp : Span := ⟨first, width⟩
    let rec' := proposedRecord s.nodeTime p peer r sp hold (auto == 1) level notify
    let h : Handle := ⟨i, s.table[i].gen + 1⟩
    s.takes p c → auto = 0 ∨ auto = 1 ∧ peer ≠ none → notify ≤ 7 →
    Endpoint.ofCode source = some a → Endpoint.ofCode sink = some b →
    Route.ofEndpoints a b = some r → Span.legal sp = true →
    (peer = none ∧ s.managers[a.index] = some p ∧ s.managers[b.index] = some p ∨
      ∃ q, q ≠ p ∧ peer = some q ∧ (s.managers[a.index] = some p ∧ s.managers[b.index] = some q ∨
        s.managers[a.index] = some q ∧ s.managers[b.index] = some p)) →
    s.lowestFree i → s.admissible r sp →
    ∃ (t : State) (code : ReplyCode), exec c s = .next t ∧
      t.table = s.table.set i ⟨s.table[i].gen + 1, some rec'⟩ ∧
      t.actives = s.actives.set i .blocked ∧
      t.ports = (match peer with
        | some q => ((s.tell q ⟨.proposalIn, some h, none, none, s.nodeTime⟩).reply p tag
            ⟨code, [BitVec.ofNat 8 i.val, s.table[i].gen + 1]⟩).ports
        | none => (s.reply p tag ⟨code, [BitVec.ofNat 8 i.val, s.table[i].gen + 1]⟩).ports) ∧
      (code = .okClamped ↔
        (peer ≠ none ∧ (hold < 1 ∨ 60 < hold)) ∨
          (r.sinkDegree ≠ none ∧ (level < -300 ∨ 50 < level)) ∨
          (r.sinkDegree = none ∧ (level < 0 ∨ 250 < level))) ∧
      (code = .ok ∨ code = .okClamped) ∧
      (∀ d, r.sinkDegree = some d →
        t.map[d].committed = s.map[d].committed + width ∧ (⟨sp, h⟩ : EgressEntry) ∈ t.map[d].egress) ∧
      (∀ d, r.sourceDegree = some d → ∃ u : IngressEntry, u ∈ t.map[d].ingress ∧ u.span = sp ∧ h ∈ u.users) ∧
      (∀ d l, r = .drop d l → (⟨sp, l, h⟩ : DropEntry) ∈ t.map[d].drops ∧ t.holders[l].drop = some h) ∧
      (∀ l d, r = .add l d → t.holders[l].add = some h) ∧
      (peer = none → (∀ l d, r = .add l d → t.matrix[l].addShadow = some d) ∧
        ∀ d l, r = .drop d l → t.matrix[l].dropShadow = some d) ∧
      t.managers = s.managers ∧ t.settings = s.settings ∧ t.ramps = s.ramps ∧ t.tracks = s.tracks ∧
      t.trips = s.trips ∧ t.logs = s.logs ∧ t.banks = s.banks

/-- ACCEPT (R30, R34): the record enters ARMED, or with auto-activate is activated in the same step; the
proposer is sent PROPOSAL_ACCEPTED, and the map, the actives and the ramps stay. A record activated is tracked from
there on with both runs 0 (R88), and no other entry of the tracking table changes. -/
def Obligations.AcceptResult : Prop :=
  ∀ (p : Domain) (tag : Byte) (i : SlotIx) (gen : BitVec 8) (c : Conn) (s : State),
    s.takes p (.accept p tag i.val gen) → s.table[i] = ⟨gen, some c⟩ → c.peer = some p → c.state = .proposed →
    ∃ t, exec (.accept p tag i.val gen) s = .next t ∧
      t.table = s.table.set i ⟨gen, some (if c.autoActivate then activatedRecord s c
        else { c with state := .armed, expiry := none })⟩ ∧
      t.ports = ((s.tell c.proposer ⟨.proposalAccepted, some ⟨i, gen⟩, none, none, s.nodeTime⟩).reply p tag
        ⟨.ok, []⟩).ports ∧
      (∀ l d, c.route = .add l d → t.matrix[l].addShadow = some d) ∧
      (∀ d l, c.route = .drop d l → t.matrix[l].dropShadow = some d) ∧
      (c.autoActivate = true → (∀ e : TrackEntry, e ∈ t.tracks ↔
        e = ⟨⟨i, gen⟩, c.route.tap, c.span, .dark, 0, 0⟩ ∨ e ∈ s.tracks ∧ e.handle.slot ≠ i)) ∧
      (c.autoActivate = false → t.tracks = s.tracks) ∧
      t.map = s.map ∧ t.holders = s.holders ∧ t.managers = s.managers ∧ t.settings = s.settings ∧
      t.ramps = s.ramps ∧ t.actives = s.actives ∧ t.trips = s.trips ∧ t.logs = s.logs

/-- DECLINE (R31, R45): the record becomes FREE and the proposer is sent PROPOSAL_DECLINED; a PROPOSED record
set no matrix entry and changes none. RESERVATION_EXPIRY (R32, R177): taken while node time stands at a
PROPOSED record's expiry; the record becomes FREE and the proposer and the peer are sent PROPOSAL_EXPIRED.
An event that is not due changes nothing (log entry 4). -/
def Obligations.DeclineAndExpiryResult : Prop :=
  (∀ (p : Domain) (tag : Byte) (i : SlotIx) (gen : BitVec 8) (c : Conn) (s : State),
    s.takes p (.decline p tag i.val gen) → s.table[i] = ⟨gen, some c⟩ → c.peer = some p → c.state = .proposed →
    ∃ t, exec (.decline p tag i.val gen) s = .next t ∧ Freed s t i c ∧ t.matrix = s.matrix ∧
      t.ports = ((s.tell c.proposer ⟨.proposalDeclined, some ⟨i, gen⟩, none, none, s.nodeTime⟩).reply p tag
        ⟨.ok, []⟩).ports) ∧
  ∀ (i : SlotIx) (c : Conn) (e : Time) (s : State), s.held = none → s.conn i = some c → c.expiry = some e →
    (c.state = .proposed → s.nodeTime = e →
      ∃ t, exec (.reservationExpiry i) s = .next t ∧ Freed s t i c ∧ t.matrix = s.matrix ∧
        t.ports = (match c.peer with
          | some q => ((s.tell c.proposer ⟨.proposalExpired, some ⟨i, s.table[i].gen⟩, none, none, s.nodeTime⟩).tell q
              ⟨.proposalExpired, some ⟨i, s.table[i].gen⟩, none, none, s.nodeTime⟩).ports
          | none => (s.tell c.proposer ⟨.proposalExpired, some ⟨i, s.table[i].gen⟩, none, none, s.nodeTime⟩).ports)) ∧
    (c.state ≠ .proposed ∨ s.nodeTime ≠ e → exec (.reservationExpiry i) s = .next s)

/-! ## Commands on a connection -/

/-- The checks of the seven commands that name a handle (R25, R30, R31, R35, R42): a slot above 127 gives BAD_PARAM; a
FREE record or another generation NO_SUCH_CONNECTION; for ACCEPT, DECLINE, ACTIVATE and RELEASE the authority
comes before the state. None changes anything but the reply. -/
def Obligations.HandleChecks : Prop :=
  (∀ (p : Domain) (tag : Byte) (slot : Nat) (gen : BitVec 8) (v : Int) (s : State) (i : Instr),
    i ∈ [Instr.accept p tag slot gen, .decline p tag slot gen, .activate p tag slot gen, .release p tag slot gen,
      .setTarget p tag slot gen v, .setDropAtten p tag slot gen v, .readConn p tag slot gen] →
    s.takes p i →
    (127 < slot → exec i s = Refused s p tag .badParam) ∧
    ∀ k : SlotIx, slot = k.val → (s.table[k].gen ≠ gen ∨ s.conn k = none) →
      exec i s = Refused s p tag .noSuchConnection) ∧
  ∀ (p : Domain) (tag : Byte) (k : SlotIx) (gen : BitVec 8) (c : Conn) (s : State), s.table[k] = ⟨gen, some c⟩ →
    (∀ i ∈ [Instr.accept p tag k.val gen, .decline p tag k.val gen], s.takes p i →
      (c.peer ≠ some p → exec i s = Refused s p tag .notManager) ∧
      (c.peer = some p → c.state ≠ .proposed → exec i s = Refused s p tag .wrongState)) ∧
    ∀ i ∈ [Instr.activate p tag k.val gen, .release p tag k.val gen], s.takes p i →
      (s.managers[c.route.source.index] ≠ some p → s.managers[c.route.sink.index] ≠ some p →
        exec i s = Refused s p tag .notManager) ∧
      (s.managers[c.route.source.index] = some p ∨ s.managers[c.route.sink.index] = some p →
        (i = .activate p tag k.val gen → c.state ≠ .armed → exec i s = Refused s p tag .wrongState) ∧
        (i = .release p tag k.val gen → c.state = .pendingDown ∨ c.state = .rampDown ∨ c.state = .draining →
          exec i s = Refused s p tag .wrongState))

/-- ACTIVATE (R35, R36): an ADD or EXPRESS is SUSPENDED and a DROP IN_SERVICE, tracked from here on with
both runs 0; no notice is sent. -/
def Obligations.ActivateResult : Prop :=
  ∀ (p : Domain) (tag : Byte) (k : SlotIx) (gen : BitVec 8) (c : Conn) (s : State),
    s.takes p (.activate p tag k.val gen) → s.table[k] = ⟨gen, some c⟩ → c.state = .armed →
    s.managers[c.route.source.index] = some p ∨ s.managers[c.route.sink.index] = some p →
    ∃ t, exec (.activate p tag k.val gen) s = .next t ∧
      t.table = s.table.set k ⟨gen, some { activatedRecord s c with expiry := c.expiry }⟩ ∧
      (⟨⟨k, gen⟩, c.route.tap, c.span, .dark, 0, 0⟩ : TrackEntry) ∈ t.tracks ∧
      t.ports = (s.reply p tag ⟨.ok, []⟩).ports ∧
      t.map = s.map ∧ t.holders = s.holders ∧ t.managers = s.managers ∧ t.settings = s.settings ∧
      t.ramps = s.ramps ∧ t.actives = s.actives ∧ t.matrix = s.matrix ∧ t.trips = s.trips ∧ t.logs = s.logs

/-- RELEASE by the record's state (R43, R44, R60), with the state of the record after it in the reply. -/
def Obligations.ReleaseResult : Prop :=
  ∀ (p : Domain) (tag : Byte) (k : SlotIx) (gen : BitVec 8) (c : Conn) (s : State),
    s.takes p (.release p tag k.val gen) → s.table[k] = ⟨gen, some c⟩ →
    s.managers[c.route.source.index] = some p ∨ s.managers[c.route.sink.index] = some p →
    (c.state = .proposed →
      ∃ t, exec (.release p tag k.val gen) s = .next t ∧ Freed s t k c ∧ t.matrix = s.matrix ∧
        t.ports = (((match (if p = c.proposer then c.peer else some c.proposer) with
          | some q => s.tell q ⟨.proposalDeclined, some ⟨k, gen⟩, none, none, s.nodeTime⟩
          | none => s) : State).reply p tag ⟨.ok, [0]⟩).ports) ∧
    (c.state = .armed →
      ∃ t, exec (.release p tag k.val gen) s = .next t ∧ Freed s t k c ∧
        t.ports = ((s.tellConn ⟨k, gen⟩ c .released none).reply p tag ⟨.ok, [0]⟩).ports ∧
        (∀ l d, c.route = .add l d → t.matrix[l].addShadow = none) ∧
        (∀ d l, c.route = .drop d l → t.matrix[l].dropShadow = none)) ∧
    (c.state = .suspended ∨ c.state = .pendingUp ∧ c.route.sinkDegree ≠ none ∨
        c.state = .inService ∧ c.route.sinkDegree = none →
      ∃ t, exec (.release p tag k.val gen) s = .next t ∧ OthersKept s t k ∧
        (s.settled k c = true → t.conn k = none ∧ t.ports[p].slot = .ready ⟨tag, .ok, [0]⟩) ∧
        (s.settled k c = false →
          t.conn k = some { c with state := .draining, shadow := .blocked } ∧
          t.ports[p].slot = .ready ⟨tag, .ok, [9]⟩)) ∧
    (c.state = .rampUp →
      ∃ t, exec (.release p tag k.val gen) s = .next t ∧
        t.table = s.table.set k ⟨gen, some { c with state := .rampDown }⟩ ∧
        t.ports = (s.reply p tag ⟨.ok, [8]⟩).ports ∧ t.ramps = s.ramps ∧ t.map = s.map ∧ t.actives = s.actives) ∧
    ∀ d : Degree, c.state = .inService → c.route.sinkDegree = some d →
      ∃ t, exec (.release p tag k.val gen) s = .next t ∧ OthersKept s t k ∧
        (s.canGrant d = false →
          t.table = s.table.set k ⟨gen, some { c with state := .pendingDown }⟩ ∧
          t.ramps[d].queue = s.ramps[d].queue ++ [⟨⟨k, gen⟩, none⟩] ∧
          t.ports = (s.reply p tag ⟨.ok, [7]⟩).ports) ∧
        (s.canGrant d = true → s.ramps[d].queue = [] →
          t.table = s.table.set k ⟨gen, some { c with state := .rampDown }⟩ ∧ t.ramps[d].queue = [] ∧
          (⟨⟨k, gen⟩, none⟩ : SlotHolder) ∈ t.ramps[d].holders ∧ t.ports = (s.reply p tag ⟨.ok, [8]⟩).ports)

/-- SET_TARGET (R47): WRONG_STATE for a DROP, NOT_MANAGER for a domain that does not manage the sink degree;
otherwise the clamped level is stored and nothing else changes, no link marked. SET_DROP_ATTEN (R48): the
clamped attenuation is stored, in IN_SERVICE the drop shadow takes it, and the source degree's link,
when it is READY and idle and the value differs from the active one, is sent an UPDATE that carries it. -/
def Obligations.SetLevelsResult : Prop :=
  (∀ (p : Domain) (tag : Byte) (k : SlotIx) (gen : BitVec 8) (v : Int) (c : Conn) (s : State),
    s.takes p (.setTarget p tag k.val gen v) → s.table[k] = ⟨gen, some c⟩ →
    (c.route.sinkDegree = none → exec (.setTarget p tag k.val gen v) s = Refused s p tag .wrongState) ∧
    ∀ d : Degree, c.route.sinkDegree = some d →
      (s.manager d ≠ some p → exec (.setTarget p tag k.val gen v) s = Refused s p tag .notManager) ∧
      (s.manager d = some p →
        let c' : Conn := { c with target := some (if v < -300 then -300 else if 50 < v then 50 else v) }
        exec (.setTarget p tag k.val gen v) s =
          .next (({ s with table := s.table.set k ⟨gen, some c'⟩ } : State).reply p tag
            ⟨if v < -300 ∨ 50 < v then .okClamped else .ok, []⟩))) ∧
  ∀ (p : Domain) (tag : Byte) (k : SlotIx) (gen : BitVec 8) (v : Int) (c : Conn) (s : State),
    let i := Instr.setDropAtten p tag k.val gen v
    let a : Nat := if v < 0 then 0 else if 250 < v then 250 else v.toNat
    let code : ReplyCode := if v < 0 ∨ 250 < v then .okClamped else .ok
    s.takes p i → s.table[k] = ⟨gen, some c⟩ →
    (c.route.sinkDegree ≠ none → exec i s = Refused s p tag .wrongState) ∧
    ∀ (d : Degree) (l : LocalPort), c.route = .drop d l →
      (s.managers[(Endpoint.port l).index] ≠ some p → exec i s = Refused s p tag .notManager) ∧
      (s.managers[(Endpoint.port l).index] = some p →
        (c.state = .draining → exec i s = Refused s p tag .wrongState) ∧
        (c.state = .proposed ∨ c.state = .armed →
          let c' : Conn := { c with dropAtten := some a }
          exec i s = .next (({ s with table := s.table.set k ⟨gen, some c'⟩ } : State).reply p tag ⟨code, []⟩)) ∧
        (c.state = .inService →
          ∃ t, exec i s = .next t ∧
            t.table = s.table.set k ⟨gen, some { c with dropAtten := some a, shadow := .att a }⟩ ∧
            t.ports = (s.reply p tag ⟨code, []⟩).ports ∧ t.actives = s.actives ∧ t.map = s.map ∧
            t.ramps = s.ramps ∧ t.trips = s.trips ∧ t.settings = s.settings ∧ t.tracks = s.tracks ∧
            (s.links[degreeLink d].state = .ready → s.links[degreeLink d].inFlight = none →
              s.actives[k] ≠ .att a → (⟨c.span, l, ⟨k, gen⟩⟩ : DropEntry) ∈ s.map[d].drops →
              ∃ b, t.links[degreeLink d].inFlight = some b ∧ b.kind = .update ∧ b.seq = s.links[degreeLink d].seq ∧
                Entry.drop ⟨k, gen⟩ c.span l (.att a) ∈ b.entries)))

/-- READ_CONN (R49): nothing but the slot changes; the results are forty-seven octets, each item of R26 in its
place, then the active setpoint, the runs and the place in the ramp queue, an absent one filled with 0
(R190; the presence octets are the model's reading, log entry 7). -/
def Obligations.ReadConnResult : Prop :=
  ∀ (p : Domain) (tag : Byte) (k : SlotIx) (gen : BitVec 8) (c : Conn) (s : State),
    s.takes p (.readConn p tag k.val gen) → s.table[k] = ⟨gen, some c⟩ →
    let run : Option TrackEntry := s.tracks.find? fun e => e.handle = ⟨k, gen⟩
    let place : Option Nat := match c.route.sinkDegree with
      | some d => s.ramps[d].queue.findIdx? fun e => e.handle = ⟨k, gen⟩
      | none => none
    ∃ r : List Byte, exec (.readConn p tag k.val gen) s = .next (s.reply p tag ⟨.ok, r⟩) ∧ r.length = 47 ∧
      r = [BitVec.ofNat 8 k.val, gen,
          (match c.route with | .add _ _ => 0 | .drop _ _ => 1 | .express _ _ => 2),
          BitVec.ofNat 8 c.route.source.index.val, BitVec.ofNat 8 c.route.sink.index.val,
          BitVec.ofNat 8 (c.span.first / 256), BitVec.ofNat 8 c.span.first, BitVec.ofNat 8 c.span.width,
          (match c.state with
            | .proposed => 1 | .armed => 2 | .suspended => 3 | .pendingUp => 4 | .rampUp => 5 | .inService => 6
            | .pendingDown => 7 | .rampDown => 8 | .draining => 9),
          BitVec.ofNat 8 c.proposer.val] ++
        itemOctets 1 (c.peer.map fun q => [BitVec.ofNat 8 q.val]) ++
        itemOctets 4 (c.expiry.map timeOctets) ++ [if c.autoActivate then 1 else 0] ++
        itemOctets 2 (c.target.map i16) ++ itemOctets 1 (c.dropAtten.map fun a => [BitVec.ofNat 8 a]) ++
        [BitVec.ofNat 8 ((if c.notify.ramp then 1 else 0) + (if c.notify.suspend then 2 else 0) +
          (if c.notify.power then 4 else 0))] ++
        itemOctets 2 (if c.route.sinkDegree = none then none else some (setpointOctets c.shadow)) ++
        itemOctets 2 (if c.route.sinkDegree = none then some (setpointOctets c.shadow) else none) ++
        itemOctets 1 (c.source.map fun l => match l with | .lit => [0] | .dark => [1]) ++
        itemOctets 1 (c.causes.map fun k =>
          [BitVec.ofNat 8 ((if k.sourceDark then 1 else 0) + (if k.trip then 2 else 0))]) ++
        itemOctets 1 (c.power.map fun w => match w with | .normal => [0] | .underpower => [1] | .overpower => [2]) ++
        itemOctets 2 (c.lastLevel.map i16) ++ setpointOctets s.actives[k] ++
        itemOctets 1 (run.map fun e => [BitVec.ofNat 8 e.darkRun]) ++
        itemOctets 1 (run.map fun e => [BitVec.ofNat 8 e.lightRun]) ++
        itemOctets 1 (place.map fun n => [BitVec.ofNat 8 (n + 1)])

/-- LIST_SPANS (R23): the range checks, and the results: the first eight entries of the list whose first cell is
the start cell or above, after their count, and then the count of all such entries (the two counts'
places: log entry 7). An egress entry is its span, its handle and its source; an ingress entry its span, the
count of its users and each user's handle and sink; a drop entry its span, local port and handle. The
entries returned are the lowest, the lists standing in ascending order. -/
def Obligations.ListSpansResult : Prop :=
  ∀ (p : Domain) (tag : Byte) (degree list start : Nat) (s : State),
    let i := Instr.listSpans p tag degree list start
    let span (sp : Span) : List Byte := [BitVec.ofNat 8 (sp.first / 256), BitVec.ofNat 8 sp.first, BitVec.ofNat 8 sp.width]
    let handle (h : Handle) : List Byte := [BitVec.ofNat 8 h.slot.val, h.gen]
    let code (h : Handle) (f : Route → Endpoint) : Byte :=
      match s.find h with | some c => BitVec.ofNat 8 (f c.route).index.val | none => 0
    s.takes p i →
    (3 < degree ∨ 2 < list ∨ 383 < start → exec i s = Refused s p tag .badParam) ∧
    ∀ d : Degree, degree = d.val → start ≤ 383 →
      (let es := s.map[d].egress.filter fun e => start ≤ e.span.first
       (list = 0 → exec i s = .next (s.reply p tag ⟨.ok,
         [BitVec.ofNat 8 (min 8 es.length)] ++
           ((es.take 8).map fun e => span e.span ++ handle e.handle ++ [code e.handle Route.source]).flatten ++
           [BitVec.ofNat 8 es.length]⟩)) ∧
       (s.mapOk → ∀ a ∈ es.take 8, ∀ b ∈ es.drop 8, Span.before a.span b.span)) ∧
      (let es := s.map[d].ingress.filter fun e => start ≤ e.span.first
       (list = 1 → exec i s = .next (s.reply p tag ⟨.ok,
         [BitVec.ofNat 8 (min 8 es.length)] ++
           ((es.take 8).map fun e => span e.span ++ [BitVec.ofNat 8 e.users.length] ++
             (e.users.map fun h => handle h ++ [code h Route.sink]).flatten).flatten ++
           [BitVec.ofNat 8 es.length]⟩)) ∧
       (s.mapOk → ∀ a ∈ es.take 8, ∀ b ∈ es.drop 8, Span.before a.span b.span)) ∧
      (let es := s.map[d].drops.filter fun e => start ≤ e.span.first
       (list = 2 → exec i s = .next (s.reply p tag ⟨.ok,
         [BitVec.ofNat 8 (min 8 es.length)] ++
           ((es.take 8).map fun e => span e.span ++ [BitVec.ofNat 8 e.port.val] ++ handle e.handle).flatten ++
           [BitVec.ofNat 8 es.length]⟩)) ∧
       (s.dropsOk → ∀ a ∈ es.take 8, ∀ b ∈ es.drop 8, Span.before a.span b.span))

/-! ## The monitor port -/

/-- HEADER_WORD (R68): ignored in IDLE; in REQUESTED a header of the outstanding tap and tag is accepted, with
the link sampled for an E tap, and another fails the request; in RECEIVING any header fails it.
READING_WORD before the last (R69): ignored but in RECEIVING, where the reading is kept, saturated to
−600..+200, 0x8000 as −600. SWEEP_TIMEOUT (R71, R177) fails the request while node time stands at the sweep
timer's expiry; with no timer, or at another count, it changes nothing (log entry 4). -/
def Obligations.MonitorEventsResult : Prop :=
  ∀ (w : BitVec 16) (s : State), s.held = none →
    (s.mon.timer = none → exec .sweepTimeout s = .next s) ∧
    (∀ e : Time, s.mon.timer = some e →
      (s.nodeTime ≠ e → exec .sweepTimeout s = .next s) ∧
      (s.nodeTime = e → ∃ t, exec .sweepTimeout s = .next t ∧ MonitorFailed s t .timeout)) ∧
    (s.mon.state = .idle → exec (.headerWord w) s = .next s) ∧
    (s.mon.state = .requested → (w.toNat % 16 = s.mon.tap.code.val ∧ w.toNat / 16 % 16 = s.mon.tag.toNat) →
      exec (.headerWord w) s = .next { s with mon := { s.mon with
        state := .receiving, stamp := s.nodeTime, count := 0, buffer := [],
        sample := match s.mon.tap.kind with
          | .egress => some ⟨s.switchGen[s.mon.tap.degree],
              s.links[degreeLink s.mon.tap.degree].state == .ready &&
                s.links[degreeLink s.mon.tap.degree].inFlight.isNone⟩
          | _ => none } }) ∧
    (s.mon.state = .requested → ¬ (w.toNat % 16 = s.mon.tap.code.val ∧ w.toNat / 16 % 16 = s.mon.tag.toNat) →
      ∃ t, exec (.headerWord w) s = .next t ∧ MonitorFailed s t .mismatch) ∧
    (s.mon.state = .receiving → ∃ t, exec (.headerWord w) s = .next t ∧ MonitorFailed s t .earlyStart) ∧
    (s.mon.state ≠ .receiving → exec (.readingWord w) s = .next s) ∧
    ∀ (h : s.mon.count.val + 1 < 384), s.mon.state = .receiving →
      exec (.readingWord w) s = .next { s with mon := { s.mon with
        count := ⟨s.mon.count.val + 1, h⟩
        buffer := s.mon.buffer ++
          [if w = 0x8000 ∨ w.toInt < -600 then -600 else if 200 < w.toInt then 200 else w.toInt] } }

/-- READING_WORD that completes a sweep (R70, R80 to R82): the bank of the tap is replaced, MON ends idle with all
else of it as it was and chooses, and an E sweep is marked usable when its link was READY and idle at the header, as
MonitorEventsResult has it sampled, and the switch generation of the degree is still the one sampled there
(R81); an I or A sweep has no mark. A usable E sweep alone runs a pass: one result per connection that it covers, in ascending slot order, by its state's pass (R98, R100). An I or A
sweep evaluates every entry of its tap against its degree's settings and hands on what is declared (R89).
The count afterwards is a free value (log entry 9), of which nothing is said. -/
def Obligations.SweepCompletes : Prop :=
  ∀ (w : BitVec 16) (s : State), s.held = none → s.mon.state = .receiving → s.mon.count.val = 383 →
    let readings := s.mon.buffer ++ [saturate w]
    let d := s.mon.tap.degree
    let good : Prop := ∃ k : LinkSample, s.mon.sample = some k ∧ k.idle = true ∧ k.gen = s.switchGen[d]
    ∃ t, exec (.readingWord w) s = .next t ∧ MonitorFrame s t ∧ t.ports = s.ports ∧
      (∃ u : Option Bool,
        (s.mon.tap.kind = .egress → good → u = some true) ∧ (s.mon.tap.kind = .egress → ¬ good → u = some false) ∧
        (s.mon.tap.kind ≠ .egress → u = none) ∧
        let bank : Bank := {
          readings := readings, stamp := s.mon.stamp
          gen := s.mon.sample.map (·.gen)
          usable := u }
        t.banks = s.banks.set s.mon.tap.code (some bank)) ∧
      (∃ n : Fin 384,
        let m : Mon := { s.mon with state := .idle, timer := none, count := n, buffer := [], sample := none }
        Chose s m t.mon s.mreqPulses t.mreqPulses s.nodeTime) ∧
      (s.mon.tap.kind = .egress → t.tracks = s.tracks ∧ t.declReqs = s.declReqs ∧
        (¬ good → t.passReqs = s.passReqs) ∧
        (good →
          ∃ rs : List PassResult, t.passReqs = s.passReqs.set d (s.passReqs[d] ++ rs) ∧
            (rs.map (·.handle.slot.val)).Pairwise (· < ·) ∧
            ∀ r : PassResult, r ∈ rs ↔ ∃ (i : SlotIx) (c : Conn), s.conn i = some c ∧ c.route.sinkDegree = some d ∧
              (c.state = .inService ∧ r = equalise s.settings[d] (s.handleAt i) c (spanLevel readings c.span) ∨
                c.state = .rampUp ∧ r = rampUpPass s.settings[d] (s.handleAt i) c (spanLevel readings c.span) ∨
                c.state = .rampDown ∧ r = rampDownPass s.settings[d] (s.handleAt i) c (spanLevel readings c.span)))) ∧
      (s.mon.tap.kind ≠ .egress → t.passReqs = s.passReqs ∧
        t.tracks = (s.tracks.map fun e =>
          if e.tap = s.mon.tap then (e.evaluate s.settings[d] (spanLevel readings e.span)).1 else e) ∧
        t.declReqs = s.declReqs ++ s.tracks.filterMap fun e =>
          if e.tap = s.mon.tap then (e.evaluate s.settings[d] (spanLevel readings e.span)).2 else none)

/-- The span level (R102): the mean of the interior cells, of both cells for a width of 2, rounded toward
minus infinity. READ_LEVEL (R83): the range checks, EMPTY for an empty bank, and otherwise the span level and
the stamp of the bank, with an E tap's generation and usable mark; nothing but the slot changes. The
presence octets before the last two are the model's reading of R190 (log entry 7). -/
def Obligations.ReadLevelResult : Prop :=
  (∀ (readings : List Int) (sp : Span), Span.legal sp = true → readings.length = 384 →
    let first := if sp.width = 2 then sp.first else sp.first + 1
    let n := if sp.width = 2 then 2 else sp.width - 2
    let sum := ((List.range n).map fun k => readings.getD (first + k) 0).sum
    n * spanLevel readings sp ≤ sum ∧ sum < n * (spanLevel readings sp + 1)) ∧
  ∀ (p : Domain) (tag : Byte) (tap first width : Nat) (s : State),
    let i := Instr.readLevel p tag tap first width
    s.takes p i →
    (11 < tap ∨ Span.legal ⟨first, width⟩ = false → exec i s = Refused s p tag .badParam) ∧
    ∀ k : Fin 12, tap = k.val → Span.legal ⟨first, width⟩ = true →
      (s.banks[k] = none → exec i s = Refused s p tag .empty) ∧
      ∀ b : Bank, s.banks[k] = some b →
        ∃ r : List Byte, exec i s = .next (s.reply p tag ⟨.ok, r⟩) ∧ r.length = 11 ∧
          r.take 6 = i16 (spanLevel b.readings ⟨first, width⟩) ++ timeOctets b.stamp ∧
          r.drop 6 = (match b.gen with
            | some g => 1 :: u16 g.toNat
            | none => [0, 0, 0]) ++
            (match b.usable with
            | some u => [1, if u then 1 else 0]
            | none => [0, 0])

/-! ## Source light -/

/-- One evaluation of a tracked connection (R90 to R92): below the threshold the dark run rises, held at 8, and
the light run is 0; at the threshold or above it is the other way round. A declaration is made when the
run of the other state than the declared one reaches its count. -/
def Obligations.EvaluationRuns : Prop :=
  ∀ (e : TrackEntry) (g : Settings) (level : Int),
    let r := e.evaluate g level
    r.1.handle = e.handle ∧ r.1.tap = e.tap ∧ r.1.span = e.span ∧
    (level < g.darkThreshold →
      r.1.darkRun = min 8 (e.darkRun + 1) ∧ r.1.lightRun = 0 ∧
      (e.declared = .lit ∧ g.darkCount ≤ min 8 (e.darkRun + 1) →
        r.1.declared = .dark ∧ r.2 = some ⟨e.handle, .dark, level⟩) ∧
      (¬ (e.declared = .lit ∧ g.darkCount ≤ min 8 (e.darkRun + 1)) → r.1.declared = e.declared ∧ r.2 = none)) ∧
    (g.darkThreshold ≤ level →
      r.1.lightRun = min 8 (e.lightRun + 1) ∧ r.1.darkRun = 0 ∧
      (e.declared = .dark ∧ g.lightCount ≤ min 8 (e.lightRun + 1) →
        r.1.declared = .lit ∧ r.2 = some ⟨e.handle, .lit, level⟩) ∧
      (¬ (e.declared = .dark ∧ g.lightCount ≤ min 8 (e.lightRun + 1)) → r.1.declared = e.declared ∧ r.2 = none))

/-- DECLARATION (R94): the oldest one that names the handle is taken. One whose record is gone changes nothing
else. For an ADD or EXPRESS, DARK adds SOURCE_DARK and LIT removes it: with no cause left the record resumes
(R38, R39) and waits, or ramps in the step when a grant is possible and none waits before it (R55). For a DROP the
source state alone changes, with SOURCE_LOST or SOURCE_BACK. With none waiting nothing happens (log entry 5). -/
def Obligations.DeclarationResult : Prop :=
  ∀ (i : SlotIx) (gen : BitVec 8) (s : State), s.held = none →
    ((∀ r ∈ s.declReqs, r.handle ≠ ⟨i, gen⟩) → exec (.declaration i gen) s = .next s) ∧
    ∀ (r : DeclReq) (before after : List DeclReq), s.declReqs = before ++ r :: after → r.handle = ⟨i, gen⟩ →
      (∀ q ∈ before, q.handle ≠ ⟨i, gen⟩) →
      (s.find ⟨i, gen⟩ = none → exec (.declaration i gen) s = .next { s with declReqs := before ++ after }) ∧
      ∀ c : Conn, s.find ⟨i, gen⟩ = some c →
        ∃ t, exec (.declaration i gen) s = .next t ∧ t.declReqs = before ++ after ∧ OthersKept s t i ∧
          (c.route.sinkDegree = none →
            t.table = s.table.set i ⟨gen, some { c with source := some r.light }⟩ ∧
            t.ports = (s.tellConn ⟨i, gen⟩ c
              (match r.light with | .dark => .sourceLost | .lit => .sourceBack) (some r.level)).ports) ∧
          (∀ d : Degree, c.route.sinkDegree = some d → r.light = .dark →
            (c.state = .rampUp ∨ c.state = .inService ∨ c.state = .pendingUp →
              t.conn i = some { suspendedRecord c false with source := some .dark } ∧
              (c.notify.suspend = true → ∀ q ∈ c.domains,
                (⟨.suspended, some ⟨i, gen⟩, none, some 1, s.nodeTime⟩ : Notice) ∈ t.ports[q].queue ∨
                  t.ports[q].flags.overflow = true)) ∧
            (c.state = .suspended → t.conn i = some { c with
              source := some .dark, causes := some ⟨true, (c.causes.getD ⟨false, false⟩).trip⟩ }) ∧
            (c.state = .pendingDown ∨ c.state = .rampDown →
              t.conn i = if s.settled i c = true then none
                else some { c with source := some .dark, state := .draining, shadow := .blocked }) ∧
            (c.state = .proposed ∨ c.state = .armed ∨ c.state = .draining →
              t.conn i = some { c with source := some .dark })) ∧
          (∀ d : Degree, c.route.sinkDegree = some d → r.light = .lit →
            (c.state = .suspended → c.causes = some ⟨true, true⟩ →
              t.conn i = some { c with source := some .lit, causes := some ⟨false, true⟩ }) ∧
            (c.state = .suspended → c.causes = some ⟨true, false⟩ → s.canGrant d = false →
              t.conn i = some { c with source := some .lit, state := .pendingUp, causes := some ⟨false, false⟩ } ∧
              t.ramps[d].queue = s.ramps[d].queue ++ [⟨⟨i, gen⟩, none⟩]) ∧
            (c.state = .suspended → c.causes = some ⟨true, false⟩ → s.canGrant d = true → s.ramps[d].queue = [] →
              t.conn i = some { c with
                source := some .lit, state := .rampUp, shadow := .att 250, causes := some ⟨false, false⟩ } ∧
              t.ramps[d].queue = [] ∧ (⟨⟨i, gen⟩, none⟩ : SlotHolder) ∈ t.ramps[d].holders) ∧
            (c.state = .suspended → c.causes = some ⟨true, false⟩ → c.notify.suspend = true → ∀ q ∈ c.domains,
              (⟨.resumed, some ⟨i, gen⟩, none, none, s.nodeTime⟩ : Notice) ∈ t.ports[q].queue ∨
                t.ports[q].flags.overflow = true) ∧
            (c.state ≠ .suspended → t.conn i = some { c with source := some .lit }))

/-! ## The power loop -/

/-- The equalisation step and the power condition (R103 to R107): none in the deadband; outside it the sign of
the error, and the correction e·G/16 truncated toward zero, 1 as its least and the max step as its most; the
new attenuation is held in 0..250, and the condition reports a sum outside it. -/
def Obligations.EqualisationArithmetic : Prop :=
  ∀ (g : Settings) (h : Handle) (c : Conn) (level target : Int) (a : Nat),
    c.target = some target → c.shadow = .att a → 1 ≤ g.gain → 1 ≤ g.maxStep →
    let r := equalise g h c level
    let e := level - target
    r.handle = h ∧ r.computedFor = .inService ∧ r.level = level ∧ r.error = some e ∧ r.toState = none ∧
    (e.natAbs ≤ g.deadband → (a ≤ 250 → r.shadow = .att a) ∧ r.power = some .normal) ∧
    (g.deadband < e.natAbs →
      ∃ step : Int, (0 < e → 1 ≤ step) ∧ (e < 0 → step ≤ -1) ∧
        step.natAbs = min g.maxStep (max 1 (e.natAbs * g.gain / 16)) ∧
        r.shadow = .att (if (a : Int) + step < 0 then 0 else if 250 < (a : Int) + step then 250 else (a + step).toNat) ∧
        r.power = some (if (a : Int) + step < 0 then .underpower
          else if 250 < (a : Int) + step then .overpower else .normal))

/-- The ramp passes (R110 to R114): up, complete by level, complete at full opening, or a step down to 0 at
least; down, a step up to 250 at most, and from 250 BLOCKED and DRAINING. -/
def Obligations.RampPasses : Prop :=
  ∀ (g : Settings) (h : Handle) (c : Conn) (level target : Int) (a : Nat), c.target = some target → c.shadow = .att a →
    (let r := rampUpPass g h c level
     r.handle = h ∧ r.computedFor = .rampUp ∧ r.level = level ∧
     (target - g.deadband ≤ level → r.toState = some .inService ∧ r.shadow = .att a ∧ r.power = some .normal ∧
       r.error = some (level - target)) ∧
     (level < target - g.deadband → a = 0 → r.toState = some .inService ∧ r.shadow = .att 0 ∧
       r.power = some .underpower ∧ r.error = some (level - target)) ∧
     (level < target - g.deadband → 0 < a → r.toState = none ∧ r.shadow = .att (a - g.rampStep) ∧ r.power = none ∧
       r.error = none)) ∧
    (let r := rampDownPass g h c level
     r.handle = h ∧ r.computedFor = .rampDown ∧ r.level = level ∧ r.power = none ∧ r.error = none ∧
     (a < 250 → r.toState = none ∧ r.shadow = .att (min 250 (a + g.rampStep))) ∧
     (250 ≤ a → r.toState = some .draining ∧ r.shadow = .blocked))

/-- PASS_RESULT (R41, R100): CNM takes the oldest result of the degree; with none waiting nothing happens (log
entry 5). A result whose record is gone or in another state is discarded whole. A step or an equalisation stores its
shadow, level and condition; a ramp up that ends enters IN_SERVICE and gives its slot back; a ramp down that
ends drains. RAMP_DONE and the power notices (R108) go out in that order; an applied IN_SERVICE result is handed to
the log (R118); and a link that is READY and idle is sent an UPDATE that carries a changed shadow (R126). -/
def Obligations.PassResultResult : Prop :=
  ∀ (d : Degree) (s : State), s.held = none →
    (s.passReqs[d] = [] → exec (.passResult d) s = .next s) ∧
    ∀ (r : PassResult) (rest : List PassResult), s.passReqs[d] = r :: rest →
      ∃ t, exec (.passResult d) s = .next t ∧ t.passReqs = s.passReqs.set d rest ∧
        ((∀ c, s.find r.handle = some c → c.state ≠ r.computedFor) →
          t.table = s.table ∧ t.ramps = s.ramps ∧ t.ports = s.ports ∧ t.logs = s.logs) ∧
        ∀ (c : Conn) (k : Degree), s.find r.handle = some c → c.state = r.computedFor → c.route.sinkDegree = some k →
          OthersKept s t r.handle.slot ∧
          (let c' : Conn := {
             c with
             shadow := r.shadow, lastLevel := some r.level, power := if r.power = none then c.power else r.power }
           (r.toState = none →
             t.table = s.table.set r.handle.slot ⟨r.handle.gen, some c'⟩ ∧ t.ramps = s.ramps) ∧
           (r.computedFor = .rampUp → r.toState = some .inService →
             t.conn r.handle.slot = some { c' with state := .inService } ∧
             ∀ x ∈ t.ramps[k].holders, x.handle ≠ r.handle) ∧
           (r.computedFor = .rampDown → r.toState = some .draining → r.shadow = .blocked →
             (∀ x ∈ t.ramps[k].holders, x.handle ≠ r.handle) ∧
             t.conn r.handle.slot = if s.settled r.handle.slot c = true then none
               else some { c' with state := .draining })) ∧
          (let told (u : State) : State :=
             if r.power = none ∨ r.power = some (c.power.getD .normal) then u
             else u.tellConn r.handle c (if r.power = some .normal then .powerNormal else .powerLimit) r.error
           (r.computedFor = .rampUp → r.toState = some .inService →
             t.ports = (told (s.tellConn r.handle c .rampDone (some r.level))).ports ∧ t.logs = s.logs) ∧
           (r.computedFor = .inService → ∀ e : Int, r.error = some e →
             t.ports = ((told s).handOff k r.handle e).ports ∧ t.logs = ((told s).handOff k r.handle e).logs) ∧
           (r.computedFor ≠ .inService → r.toState = none → t.ports = s.ports ∧ t.logs = s.logs)) ∧
          (r.toState = none ∨ (r.computedFor = .rampDown ∧ r.toState = some .draining ∧ r.shadow = .blocked) →
            s.links[degreeLink k].state = .ready → s.links[degreeLink k].inFlight = none → r.shadow ≠ c.shadow →
            r.shadow ≠ s.actives[r.handle.slot] → (⟨c.span, r.handle⟩ : EgressEntry) ∈ s.map[k].egress →
            ∃ b e, t.links[degreeLink k].inFlight = some b ∧ b.kind = .update ∧ b.seq = s.links[degreeLink k].seq ∧
              e ∈ b.entries ∧ e.handle? = some r.handle ∧ e.value? = some r.shadow)

/-- GRANT (R40, R58): a request is taken when its record waits, its queue entry carries its offer number, the
link is READY and no trip is in force: the entry leaves, the handle holds its slot, PENDING_UP becomes
RAMP_UP at 250 and PENDING_DOWN RAMP_DOWN as it stood. Otherwise, a stale offer number and a record gone or
no longer waiting among the cases, it is not taken: its slot is given back and its mark cleared, and with the
link not READY or the trip in force nothing else changes. With no request waiting nothing happens (log entry 5;
a request that waits while the link leaves READY and is READY again: log entry 23). -/
def Obligations.GrantResult : Prop :=
  ∀ (d : Degree) (s : State), s.held = none →
    (s.grantReqs[d] = [] → exec (.grant d) s = .next s) ∧
    ∀ (r : GrantReq) (rest : List GrantReq), s.grantReqs[d] = r :: rest →
      ∃ t, exec (.grant d) s = .next t ∧ t.grantReqs = s.grantReqs.set d rest ∧ t.map = s.map ∧
        (∀ k : SlotIx, OthersKept s t k) ∧
        t.ports = s.ports ∧ t.actives = s.actives ∧ t.trips = s.trips ∧
        (∀ c, s.find r.handle = some c → (⟨r.handle, some r.offer⟩ : QueueEntry) ∈ s.ramps[d].queue →
          s.links[degreeLink d].state = .ready → s.trips[d].state = .clear →
          (c.state = .pendingUp → t.table = s.table.set r.handle.slot
            ⟨r.handle.gen, some { c with state := .rampUp, shadow := .att 250 }⟩) ∧
          (c.state = .pendingDown → t.table = s.table.set r.handle.slot
            ⟨r.handle.gen, some { c with state := .rampDown }⟩) ∧
          (c.state = .pendingUp ∨ c.state = .pendingDown →
            t.ramps[d].queue = s.ramps[d].queue.filter (·.handle ≠ r.handle) ∧
            (⟨r.handle, none⟩ : SlotHolder) ∈ t.ramps[d].holders)) ∧
        ((∀ c, s.find r.handle = some c → c.state ≠ .pendingUp ∧ c.state ≠ .pendingDown) ∨
            (⟨r.handle, some r.offer⟩ : QueueEntry) ∉ s.ramps[d].queue ∨
            s.links[degreeLink d].state ≠ .ready ∨ s.trips[d].state ≠ .clear →
          (⟨r.handle, some r.offer⟩ : SlotHolder) ∉ t.ramps[d].holders ∧
          (⟨r.handle, some r.offer⟩ : QueueEntry) ∉ t.ramps[d].queue ∧
          ∀ c, s.find r.handle = some c → c.state ≠ .pendingUp → c.state ≠ .pendingDown →
            t.conn r.handle.slot = some c) ∧
        (s.links[degreeLink d].state ≠ .ready ∨ s.trips[d].state ≠ .clear →
          t.table = s.table ∧
          t.ramps[d].holders = (s.ramps[d].holders.filter fun k => k ≠ ⟨r.handle, some r.offer⟩) ∧
          t.ramps[d].queue = s.ramps[d].queue.map fun e =>
            if e = ⟨r.handle, some r.offer⟩ then ⟨r.handle, none⟩ else e)

/-! ## The excursion log -/

/-- The hand-off of an applied IN_SERVICE result (R118, R158 to R163): dropped by a DISARMED log and below the
threshold; CONTINUOUS keeps the newest four; ONE_SHOT captures while there is room, and is DISARMED when it
is full; the notice comes when the raised counter reaches the prescale. -/
def Obligations.ExcursionCapture : Prop :=
  ∀ (d : Degree) (h : Handle) (e : Int) (s : State),
    let g := s.logs[d]
    let t := s.handOff d h e
    let st : Time := match s.settings[d].logStamp, g.lastCapture with
      | .absolute, _ => s.nodeTime
      | .delta, some last => s.nodeTime - last
      | .delta, none => 0
    let x : LogEntry := ⟨h, e, s.settings[d].logStamp, st⟩
    (g.armed = false ∨ e.natAbs < s.settings[d].logThreshold → t = s) ∧
    (g.armed = true → s.settings[d].logThreshold ≤ e.natAbs → g.entries.length ≤ 4 →
      (s.settings[d].logMode = .continuous ∨ g.entries.length < 4 →
        t.logs[d].entries = (if g.entries.length < 4 then g.entries else g.entries.tail) ++ [x] ∧
        t.logs[d].lastCapture = some s.nodeTime ∧
        t.logs[d].prescale = (if s.settings[d].logPrescale ≤ g.prescale + 1 then 0 else g.prescale + 1) ∧
        t.logs[d].armed = !(s.settings[d].logMode == .oneShot && g.entries.length == 3) ∧
        (∀ q, s.manager d = some q → s.settings[d].logPrescale ≤ g.prescale + 1 → s.ports[q].queue.length < 16 →
          t.ports[q].queue = s.ports[q].queue ++ [⟨.excursion, some h, some d, some e, s.nodeTime⟩]) ∧
        (s.settings[d].logPrescale > g.prescale + 1 → ∀ q : Domain, t.ports[q].queue = s.ports[q].queue)) ∧
      (s.settings[d].logMode = .oneShot → g.entries.length = 4 →
        t.logs = s.logs.set d { g with armed := false } ∧ ∀ q : Domain, t.ports[q].queue = s.ports[q].queue) ∧
      (s.settings[d].logMode = .oneShot → 3 ≤ g.entries.length → ∀ q, s.manager d = some q →
        t.ports[q].flags.excursionFull = true))

/-- READ_EXCURSIONS (R164) and REARM_EXCURSIONS (R165): the first changes nothing but the slot and gives the count
of the entries, the entries oldest first, and the log's items with its settings (octets: log entry 7); the
second, from the degree's manager, empties and arms it, and clears EXCURSION_FULL at the requester's port when
no degree it manages has a DISARMED log. -/
def Obligations.ExcursionCommands : Prop :=
  ∀ (p : Domain) (tag : Byte) (code : Nat) (s : State),
    (s.takes p (.readExcursions p tag code) →
      (3 < code → exec (.readExcursions p tag code) s = Refused s p tag .badParam) ∧
      ∀ d : Degree, code = d.val → ∃ r : List Byte,
        exec (.readExcursions p tag code) s = .next (s.reply p tag ⟨.ok, r⟩) ∧
        r.length = 12 + 9 * s.logs[d].entries.length ∧
        r = [BitVec.ofNat 8 s.logs[d].entries.length] ++
          (s.logs[d].entries.map fun e => [BitVec.ofNat 8 e.handle.slot.val, e.handle.gen] ++ i16 e.error ++
            [match e.kind with | .absolute => 0 | .delta => 1] ++ timeOctets e.stamp).flatten ++
          [if s.logs[d].armed then 0 else 1, BitVec.ofNat 8 s.logs[d].prescale] ++
          itemOctets 4 (s.logs[d].lastCapture.map timeOctets) ++
          [BitVec.ofNat 8 s.settings[d].logThreshold,
            (match s.settings[d].logMode with | .continuous => 0 | .oneShot => 1),
            (match s.settings[d].logStamp with | .absolute => 0 | .delta => 1),
            BitVec.ofNat 8 s.settings[d].logPrescale]) ∧
    (s.takes p (.rearmExcursions p tag code) →
      (3 < code → exec (.rearmExcursions p tag code) s = Refused s p tag .badParam) ∧
      ∀ d : Degree, code = d.val →
        (s.manager d ≠ some p → exec (.rearmExcursions p tag code) s = Refused s p tag .notManager) ∧
        (s.manager d = some p →
          ∃ t, exec (.rearmExcursions p tag code) s = .next t ∧
            t.logs = s.logs.set d ⟨[], true, 0, none⟩ ∧
            t.ports[p].flags.excursionFull = (s.ports[p].flags.excursionFull &&
              (List.finRange 4).any fun k => k ≠ d && s.manager k == some p && !s.logs[k].armed) ∧
            t.ports[p].queue = s.ports[p].queue ∧ t.ports[p].slot = .ready ⟨tag, .ok, []⟩ ∧
            (∀ q : Domain, q ≠ p → t.ports[q] = s.ports[q]) ∧ t.table = s.table ∧ t.settings = s.settings))

/-! ## Proposals that activate at once -/

/-- PROPOSE with auto-activate and both endpoints the requester's (R16, R28, R29, R34 to R36): the record is admitted,
armed and activated in the step, tracked from there on with both runs 0, and no notice is sent. It takes its places
in the map, its holder and its half of the matrix entry, and the reply is OK_CLAMPED exactly where the level
value it keeps was clamped: the hold time of a record with no peer is ignored. -/
def Obligations.ProposeActivates : Prop :=
  ∀ (p : Domain) (tag : Byte) (source sink first width hold : Nat) (level : Int) (notify : Nat) (s : State)
    (a b : Endpoint) (r : Route) (i : SlotIx),
    let c := Instr.propose p tag source sink first width hold 1 level notify
    let sp : Span := ⟨first, width⟩
    let rec' := proposedRecord s.nodeTime p none r sp hold true level notify
    let h : Handle := ⟨i, s.table[i].gen + 1⟩
    s.takes p c → notify ≤ 7 → Endpoint.ofCode source = some a → Endpoint.ofCode sink = some b →
    Route.ofEndpoints a b = some r → Span.legal sp = true →
    s.managers[a.index] = some p → s.managers[b.index] = some p → s.lowestFree i → s.admissible r sp →
    ∃ (t : State) (code : ReplyCode), exec c s = .next t ∧ (code = .ok ∨ code = .okClamped) ∧
      (code = .okClamped ↔
        (r.sinkDegree ≠ none ∧ (level < -300 ∨ 50 < level)) ∨ (r.sinkDegree = none ∧ (level < 0 ∨ 250 < level))) ∧
      t.table = s.table.set i ⟨s.table[i].gen + 1, some (activatedRecord s rec')⟩ ∧
      (∀ d, r.sinkDegree = some d →
        t.map[d].committed = s.map[d].committed + width ∧ (⟨sp, h⟩ : EgressEntry) ∈ t.map[d].egress) ∧
      (∀ d, r.sourceDegree = some d → ∃ u : IngressEntry, u ∈ t.map[d].ingress ∧ u.span = sp ∧ h ∈ u.users) ∧
      (∀ d l, r = .drop d l → (⟨sp, l, h⟩ : DropEntry) ∈ t.map[d].drops ∧ t.holders[l].drop = some h ∧
        t.matrix[l].dropShadow = some d) ∧
      (∀ l d, r = .add l d → t.holders[l].add = some h ∧ t.matrix[l].addShadow = some d) ∧
      t.ports = (s.reply p tag ⟨code, [BitVec.ofNat 8 i.val, s.table[i].gen + 1]⟩).ports ∧
      (⟨h, r.tap, sp, .dark, 0, 0⟩ : TrackEntry) ∈ t.tracks ∧ t.actives = s.actives.set i .blocked ∧
      t.managers = s.managers ∧ t.settings = s.settings ∧ t.ramps = s.ramps ∧ t.trips = s.trips ∧ t.logs = s.logs ∧
      t.banks = s.banks

/-! ## The switch links -/

/-- The entries of a batch (R123, R127, R138): a RESYNC of a degree link carries, at its shadow, the entry of
every record in the degree's egress list and drop list and no other; an UPDATE those of them whose
shadow differs from the active setpoint; the matrix link's entries are its sixteen ports. Where the laws of the map
hold, the select entries come first and then the drop entries, each group in ascending order of first cell; on SLM
the entries come in port order; and an UPDATE keeps the order of a RESYNC. -/
def Obligations.EntriesOfABatch : Prop :=
  ∀ s : State,
    (∀ (d : Degree) (e : Entry),
      (e ∈ s.resyncEntries (degreeLink d) ↔
        ∃ (h : Handle) (c : Conn), s.find h = some c ∧
          ((∃ x ∈ s.map[d].egress, x.handle = h) ∨ ∃ x ∈ s.map[d].drops, x.handle = h) ∧
          e = (match c.route with
            | .add _ _ => .select h c.span 4 c.shadow
            | .express a _ => .select h c.span ⟨a.val, by omega⟩ c.shadow
            | .drop _ l => .drop h c.span l c.shadow)) ∧
      (e ∈ s.updateEntries (degreeLink d) →
        e ∈ s.resyncEntries (degreeLink d) ∧
          ∃ (h : Handle) (c : Conn), e.handle? = some h ∧ s.find h = some c ∧ c.shadow ≠ s.actives[h.slot])) ∧
    (∀ (d : Degree) (h : Handle) (c : Conn), s.find h = some c → c.shadow ≠ s.actives[h.slot] →
      ((∃ x ∈ s.map[d].egress, x.handle = h) ∨ ∃ x ∈ s.map[d].drops, x.handle = h) →
      ∃ e ∈ s.updateEntries (degreeLink d), e.handle? = some h ∧ e.value? = some c.shadow) ∧
    s.resyncEntries slm =
      ((List.finRange 16).map fun l => .port l s.matrix[l].addShadow s.matrix[l].dropShadow) ∧
    (∀ e : Entry, e ∈ s.updateEntries slm ↔
      ∃ l : LocalPort, e = .port l s.matrix[l].addShadow s.matrix[l].dropShadow ∧
        (s.matrix[l].addShadow ≠ s.matrix[l].addActive ∨ s.matrix[l].dropShadow ≠ s.matrix[l].dropActive)) ∧
    (s.recordsOk → s.mapOk → s.dropsOk → ∀ d : Degree, (s.resyncEntries (degreeLink d)).Pairwise Entry.before) ∧
    ∀ l : LinkId, (s.updateEntries l).Sublist (s.resyncEntries l)

/-- DONE with the sequence number of the batch in flight (R131): the carried values become active, a
STARTING link is READY, the DRAINING records of the link that are settled BLOCKED become FREE, a
RETRY_LINK is answered with LINK_READY, and a READY link still pending is sent the next UPDATE, which advances a
degree's switch generation (R129). As a STARTING
degree link becomes READY with no trip in force, RSC offers its free ramp slots to the oldest entries of the queue
that are not offered, each under the next offer number and by a grant request (R57, R58, R61). WHICH number the j-th
offer carries, the count as it stands before it advances and so offerCount + j, is the model's reading of R58 and
no rule's words (DEDUCED, log entry 13). An entry exists while its handle names a record (log entry 24). -/
def Obligations.DoneCompletesTheBatch : Prop :=
  ∀ (l : LinkId) (b : Batch) (s : State), s.held = none → s.links[l].inFlight = some b →
    ∃ t, exec (.done l b.seq) s = .next t ∧
      (∀ (i : SlotIx) (c : Conn) (v : Setpoint), s.conn i = some c → ActiveAfter s b i v →
        (c.state = .draining ∧ c.route.link = l ∧ v = .blocked ∧
            (s.links[l].state = .starting ∨ ∀ es, s.links[l].unanswered = some es →
              ∀ e ∈ es, e.handle? ≠ some (s.handleAt i)) →
          t.conn i = none ∧ t.actives[i] = .blocked) ∧
        (c.state ≠ .draining ∨ c.route.link ≠ l ∨ v ≠ .blocked ∨
            (s.links[l].state ≠ .starting ∧ ∃ es, s.links[l].unanswered = some es ∧
              ∃ e ∈ es, e.handle? = some (s.handleAt i)) →
          t.conn i = some c ∧ t.actives[i] = v)) ∧
      (∀ (k : LocalPort) (x y : Option Degree), .port k x y ∈ b.entries →
        (∀ x' y', .port k x' y' ∈ b.entries → x' = x ∧ y' = y) →
        t.matrix[k].addActive = x ∧ t.matrix[k].dropActive = y) ∧
      t.links[l].state = (if s.links[l].state = .starting then .ready else s.links[l].state) ∧
      t.links[l].unanswered = (if s.links[l].state = .starting then none else s.links[l].unanswered) ∧
      t.links[l].lastFailure = s.links[l].lastFailure ∧
      (t.links[l].state = .ready →
        (t.updateEntries l = [] → t.links[l].inFlight = none ∧ t.links[l].seq = s.links[l].seq) ∧
        (t.updateEntries l ≠ [] → t.links[l].inFlight = some ⟨.update, s.links[l].seq, t.updateEntries l⟩ ∧
          t.links[l].seq = s.links[l].seq + 1 ∧ t.links[l].timer = some (s.nodeTime + s.period l) ∧
          ∀ d : Degree, l = degreeLink d → t.switchGen[d] = s.switchGen[d] + 1)) ∧
      (s.links[l].state = .starting → b.kind = .resync true →
        (∀ (d : Degree) (q : Domain), l = degreeLink d → s.manager d = some q →
          (⟨.linkReady, none, some d, none, s.nodeTime⟩ : Notice) ∈ t.ports[q].queue ∨
            t.ports[q].flags.overflow = true) ∧
        (l = slm → ∀ q : Domain,
          (⟨.linkReady, none, none, none, s.nodeTime⟩ : Notice) ∈ t.ports[q].queue ∨
            t.ports[q].flags.overflow = true)) ∧
      (∀ d : Degree, degreeLink d ≠ l ∨ s.links[l].state ≠ .starting ∨ s.trips[d].state ≠ .clear →
        t.ramps[d] = s.ramps[d] ∧ t.grantReqs[d] = s.grantReqs[d]) ∧
      (∀ d : Degree, degreeLink d = l → s.links[l].state = .starting → s.trips[d].state = .clear → s.rampsOk →
        let free : List Handle := (s.ramps[d].queue.filter fun e => e.offer = none).map (·.handle)
        let n := min free.length (s.settings[d].rampSlots - s.ramps[d].holders.length)
        let number (j : Nat) : BitVec 16 := s.ramps[d].offerCount + BitVec.ofNat 16 j
        t.grantReqs[d] = s.grantReqs[d] ++ ((free.take n).zipIdx.map fun x => ⟨x.1, number x.2⟩) ∧
        t.ramps[d].offerCount = number n ∧
        t.ramps[d].queue.map (·.handle) = s.ramps[d].queue.map (·.handle) ∧
        (∀ (j : Nat) (h : Handle), (free.take n)[j]? = some h →
          (⟨h, some (number j)⟩ : QueueEntry) ∈ t.ramps[d].queue ∧
            (⟨h, some (number j)⟩ : SlotHolder) ∈ t.ramps[d].holders) ∧
        (∀ e ∈ s.ramps[d].queue, e.handle ∉ free.take n → e ∈ t.ramps[d].queue) ∧
        ∀ k : SlotHolder, k ∈ s.ramps[d].holders → k ∈ t.ramps[d].holders) ∧
      t.settings = s.settings ∧ t.managers = s.managers ∧ t.trips = s.trips ∧ t.logs = s.logs ∧ t.banks = s.banks

/-- What changes nothing on a switch link (R130, R143): a DONE or FAULT with nothing in flight or with another
sequence number, a FAULT with a cause above 15, and a frame whose CRC is wrong, whose first octet is
not a reply's, or whose length is not its kind's. A frame that is a good DONE acts as one (log entry 16).
What fails a link: a FAULT with the sequence number of the batch in flight (R133), and REPLY_TIMEOUT while node time
stands at the reply timer's expiry (R134, R177), with the cause or 16 as the notice's value. With
nothing in flight, or at another count, REPLY_TIMEOUT changes nothing (log entry 4). -/
def Obligations.LinkFailuresAndDiscards : Prop :=
  (∀ (l : LinkId) (seq : BitVec 8) (cause : Nat) (s : State),
    (∀ b, s.links[l].inFlight = some b → b.seq ≠ seq) →
      exec (.done l seq) s = .next s ∧ exec (.fault l seq cause) s = .next s) ∧
  (∀ (l : LinkId) (seq : BitVec 8) (cause : Nat) (s : State), 15 < cause → exec (.fault l seq cause) s = .next s) ∧
  (∀ (l : LinkId) (octets : List Byte) (s : State),
    (crcGood octets = false ∨ (octets.head? ≠ some 0x81 ∧ octets.head? ≠ some 0x82) ∨
      (octets.head? = some 0x81 ∧ octets.length ≠ 4) ∨ (octets.head? = some 0x82 ∧ octets.length ≠ 5)) →
    exec (.discardedFrame l octets) s = .next s) ∧
  (∀ (l : LinkId) (seq : BitVec 8) (s : State),
    exec (.discardedFrame l (withCrc [0x81, seq])) s = exec (.done l seq) s) ∧
  ∀ (l : LinkId) (s : State), s.held = none →
    (s.links[l].inFlight = none → exec (.replyTimeout l) s = .next s) ∧
    ∀ b : Batch, s.links[l].inFlight = some b →
      (∀ cause : Nat, cause ≤ 15 →
        ∃ t, exec (.fault l b.seq cause) s = .next t ∧ LinkFailed s t l b (.fault cause) cause) ∧
      ∀ e : Time, s.links[l].timer = some e →
        (s.nodeTime ≠ e → exec (.replyTimeout l) s = .next s) ∧
        (s.nodeTime = e → ∃ t, exec (.replyTimeout l) s = .next t ∧ LinkFailed s t l b .timeout 16)

/-- RETRY_LINK (R137, R138): the range, authority and state checks; then the FAULTED link enters STARTING and a
RESYNC of every entry is sent under the next sequence number, the degree's switch generation with it. -/
def Obligations.RetryLinkResult : Prop :=
  ∀ (p : Domain) (tag : Byte) (code : Nat) (s : State), s.takes p (.retryLink p tag code) →
    (4 < code → exec (.retryLink p tag code) s = Refused s p tag .badParam) ∧
    ∀ l : LinkId, code = l.val →
      (∀ d : Degree, l = degreeLink d → s.manager d ≠ some p →
        exec (.retryLink p tag code) s = Refused s p tag .notManager) ∧
      ((∀ d : Degree, l = degreeLink d → s.manager d = some p) →
        (s.links[l].state ≠ .faulted → exec (.retryLink p tag code) s = Refused s p tag .wrongState) ∧
        (s.links[l].state = .faulted →
          ∃ t, exec (.retryLink p tag code) s = .next t ∧
            (let k : Link := {
               s.links[l] with
               state := .starting, inFlight := some ⟨.resync true, s.links[l].seq, s.resyncEntries l⟩,
               seq := s.links[l].seq + 1, timer := some (s.nodeTime + s.period l) }
             t.links = s.links.set l k) ∧
            (∀ d : Degree, t.switchGen[d] = if l = degreeLink d then s.switchGen[d] + 1 else s.switchGen[d]) ∧
            t.ports = (s.reply p tag ⟨.ok, []⟩).ports ∧ t.table = s.table ∧ t.map = s.map ∧ t.actives = s.actives ∧
            t.matrix = s.matrix ∧ t.ramps = s.ramps ∧ t.trips = s.trips ∧ t.settings = s.settings))

/-! ## Trips -/

/-- What TRU hands to CNM (R146, R147, R149, R150). LINE_EVENT: the pin takes the level; when its activity
differs from the line level held and no hand-off of the degree waits, the level is recorded and the
change of trip state that the two rules give waits at CNM; in a reset the pin alone moves (log entries 2, 17).
HOLD_EXPIRY: in HOLDING, with no hand-off waiting and node time at the expiry, the end of the trip waits (log
entry 11); at any other time it changes nothing (log entry 4). -/
def Obligations.TripEventsHandOff : Prop :=
  ∀ (d : Degree) (high : Bool) (s : State),
    (let s' : State := { s with tripPins := s.tripPins.set d high }
     let act : LineLevel := if (s.settings[d].activeLevel = .high ↔ high = true) then .active else .inactive
     let change : Option TripChange := match act, s.trips[d].state, s.settings[d].mode with
       | .active, .tripped, _ => none
       | .active, _, _ => some .trip
       | .inactive, .tripped, .follow => if s.settings[d].hold = 0 then some .clear else some .hold
       | .inactive, _, _ => none
     (s.held ≠ none ∨ s.tripReqs[d] ≠ none ∨ act = s.trips[d].line → exec (.lineEvent d high) s = .next s') ∧
     (s.held = none → s.tripReqs[d] = none → act ≠ s.trips[d].line →
       exec (.lineEvent d high) s = .next { s' with
         trips := s.trips.set d ⟨s.trips[d].state, act, s.trips[d].timer⟩, tripReqs := s.tripReqs.set d change })) ∧
    (s.held = none →
      ((s.trips[d].state ≠ .holding ∨ s.trips[d].timer = none ∨ s.tripReqs[d] ≠ none →
        exec (.holdExpiry d) s = .next s) ∧
      ∀ e : Time, s.trips[d].timer = some e → s.trips[d].state = .holding → s.tripReqs[d] = none →
        (s.nodeTime ≠ e → exec (.holdExpiry d) s = .next s) ∧
        (s.nodeTime = e →
          exec (.holdExpiry d) s = .next { s with tripReqs := s.tripReqs.set d (some .clear) })))

/-- TRIP_HAND_OFF (R146, R147, R149, R152): CNM takes the change that waits: the degree is TRIPPED with its
records dark, HOLDING with its timer started and no record changed, or CLEAR with its records released
from TRIP. With none waiting nothing happens (log entry 5). -/
def Obligations.TripHandOffResult : Prop :=
  ∀ (d : Degree) (s : State), s.held = none →
    (s.tripReqs[d] = none → exec (.tripHandOff d) s = .next s) ∧
    (s.tripReqs[d] = some .trip →
      ∃ t, exec (.tripHandOff d) s = .next t ∧ Tripped s t d ∧ t.tripReqs = s.tripReqs.set d none) ∧
    (s.tripReqs[d] = some .hold →
      ∃ t, exec (.tripHandOff d) s = .next t ∧ t.tripReqs = s.tripReqs.set d none ∧
        t.trips = s.trips.set d
          ⟨.holding, s.trips[d].line, some (s.nodeTime + BitVec.ofNat 32 s.settings[d].hold)⟩ ∧
        t.table = s.table ∧ t.ports = s.ports ∧ t.ramps = s.ramps ∧ t.map = s.map ∧ t.actives = s.actives) ∧
    (s.tripReqs[d] = some .clear →
      ∃ t, exec (.tripHandOff d) s = .next t ∧ TripEnded s t d ∧ t.tripReqs = s.tripReqs.set d none)

/-- CLEAR_TRIP (R151): BAD_PARAM, NOT_MANAGER, then WRONG_STATE in every case but a LATCHED degree TRIPPED with its
line INACTIVE, whose trip ends in the step. -/
def Obligations.ClearTripResult : Prop :=
  ∀ (p : Domain) (tag : Byte) (code : Nat) (s : State), s.takes p (.clearTrip p tag code) →
    (3 < code → exec (.clearTrip p tag code) s = Refused s p tag .badParam) ∧
    ∀ d : Degree, code = d.val →
      (s.manager d ≠ some p → exec (.clearTrip p tag code) s = Refused s p tag .notManager) ∧
      (s.manager d = some p →
        (s.settings[d].mode = .latched ∧ s.trips[d].state = .tripped ∧ s.trips[d].line = .inactive →
          ∃ t, exec (.clearTrip p tag code) s = .next t ∧ TripEnded s t d ∧
            t.ports[p].slot = .ready ⟨tag, .ok, []⟩) ∧
        (s.settings[d].mode = .follow ∨ s.trips[d].state ≠ .tripped ∨ s.trips[d].line = .active →
          exec (.clearTrip p tag code) s = Refused s p tag .wrongState))

/-! ## Settings -/

/-- SET_DEGREE (R169 to R173). A trip hand-off of the degree that waits is taken first, in the step, whether the
command is then refused or carried out (R146, log entry 22). With none: the checks in order; then every named
field holds the value sent as the clamps leave it and every other field its own, the reply says whether a clamp
acted and gives the eighteen fields, and changes that touch neither the active level, the mode nor a raise of
the ramp slots change nothing else of the records, the trips and the notices. -/
def Obligations.SetDegreeResult : Prop :=
  ∀ (p : Domain) (tag : Byte) (code : Nat) (cs : List (Nat × Int)) (s : State),
    let i := Instr.setDegree p tag code cs
    s.takes p i →
    (3 < code → exec i s = Refused s p tag .badParam) ∧
    (∀ d : Degree, code = d.val → s.tripReqs[d] ≠ none →
      (¬ ChangesValid cs → ∃ u, exec (.tripHandOff d) s = .next u ∧ exec i s = .next (u.reply p tag ⟨.badParam, []⟩)) ∧
      (ChangesValid cs → s.manager d ≠ some p →
        ∃ u, exec (.tripHandOff d) s = .next u ∧ exec i s = .next (u.reply p tag ⟨.notManager, []⟩)) ∧
      (ChangesValid cs → s.manager d = some p →
        (s.takeHandOff d).takes p i ∧ (s.takeHandOff d).tripReqs[d] = none ∧ (s.takeHandOff d).manager d = some p ∧
          exec i s = exec i (s.takeHandOff d))) ∧
    ∀ d : Degree, code = d.val → s.tripReqs[d] = none →
      (¬ ChangesValid cs → exec i s = Refused s p tag .badParam) ∧
      (ChangesValid cs → s.manager d ≠ some p → exec i s = Refused s p tag .notManager) ∧
      (ChangesValid cs → s.manager d = some p →
        ∃ (t : State) (g : Settings), exec i s = .next t ∧ t.settings = s.settings.set d g ∧
          (∀ c ∈ cs, g.field c.1 = s.valueStored d c.1 c.2) ∧
          (∀ k : Nat, k ≤ 17 → (∀ c ∈ cs, c.1 ≠ k) → g.field k = s.settings[d].field k) ∧
          ((∃ c ∈ cs, s.valueStored d c.1 c.2 ≠ c.2) →
            t.ports[p].slot = .ready ⟨tag, .okClamped, settingsOctets g⟩) ∧
          ((∀ c ∈ cs, s.valueStored d c.1 c.2 = c.2) → t.ports[p].slot = .ready ⟨tag, .ok, settingsOctets g⟩) ∧
          (g.activeLevel = s.settings[d].activeLevel → g.mode = s.settings[d].mode →
            g.rampSlots ≤ s.settings[d].rampSlots →
            t.table = s.table ∧ t.trips = s.trips ∧ t.ramps = s.ramps ∧ t.map = s.map ∧ t.actives = s.actives ∧
              (∀ q : Domain, t.ports[q].queue = s.ports[q].queue ∧ t.ports[q].flags = s.ports[q].flags)))

/-- The effects SET_DEGREE makes in its step (R62, R153, R154, R173), for one change sent alone by the
degree's manager: FOLLOW with the line INACTIVE in TRIPPED starts the hold or, at hold 0, ends the trip;
LATCHED in HOLDING returns to TRIPPED; an active level that makes the line ACTIVE trips a CLEAR degree; and a
raise of the ramp slots grants the oldest waiting record. -/
def Obligations.SetDegreeEffects : Prop :=
  ∀ (p : Domain) (tag : Byte) (d : Degree) (v : Int) (s : State),
    let sent (k : Nat) : Instr := .setDegree p tag d.val [(k, v)]
    s.held = none → s.ports[p].slot.isBusy = false → s.manager d = some p → s.tripReqs[d] = none →
    (v = 1 → s.settings[d].mode = .latched → s.trips[d].state = .tripped → s.trips[d].line = .inactive →
      ∃ t, exec (sent 11) s = .next t ∧
        (0 < s.settings[d].hold →
          t.trips = s.trips.set d
            ⟨.holding, .inactive, some (s.nodeTime + BitVec.ofNat 32 s.settings[d].hold)⟩ ∧ t.table = s.table ∧
          ∀ q : Domain, t.ports[q].queue = s.ports[q].queue) ∧
        (s.settings[d].hold = 0 →
          TripEnded { s with settings := s.settings.set d { s.settings[d] with mode := .follow } } t d)) ∧
    (v = 0 → s.settings[d].mode = .follow → s.trips[d].state = .holding →
      ∃ t, exec (sent 11) s = .next t ∧
        t.trips = s.trips.set d ⟨.tripped, s.trips[d].line, none⟩ ∧ t.table = s.table ∧
        ∀ q : Domain, t.ports[q].queue = s.ports[q].queue) ∧
    (v = 1 → s.settings[d].activeLevel = .low → s.tripPins[d] = true → s.trips[d].line = .inactive →
      s.trips[d].state = .clear →
      ∃ t, exec (sent 10) s = .next t ∧
        Tripped { s with settings := s.settings.set d { s.settings[d] with activeLevel := .high },
                         trips := s.trips.set d ⟨.clear, .active, s.trips[d].timer⟩ } t d) ∧
    (∀ (h : Handle) (c : Conn) (rest : List QueueEntry), v ≤ 4 → (s.settings[d].rampSlots : Int) < v →
      s.ramps[d].queue = ⟨h, none⟩ :: rest → s.find h = some c → c.state = .pendingUp →
      s.links[degreeLink d].state = .ready → s.trips[d].state = .clear →
      (s.ramps[d].holders.length : Int) < v →
      ∃ t, exec (sent 2) s = .next t ∧ t.conn h.slot = some { c with state := .rampUp, shadow := .att 250 } ∧
        (⟨h, none⟩ : SlotHolder) ∈ t.ramps[d].holders ∧ ∀ e ∈ t.ramps[d].queue, e.handle ≠ h)

/-! ## Readings -/

/-- READ_DEGREE (R175), READ_PORT (R199) and READ_NODE (R201) change nothing but the slot. The first gives the
manager, the settings, the map's counts, the ramps, the fields of the degree's link and of the matrix
link (R144) and the trip fields (R155); the second the state of the port; the third the part's codes,
node time and MON's request. The octets of the items are the model's reading of R190 (log entry 7). -/
def Obligations.ReadingsChangeNothing : Prop :=
  ∀ (p : Domain) (tag : Byte) (s : State),
    (∀ code : Nat, s.takes p (.readDegree p tag code) →
      (3 < code → exec (.readDegree p tag code) s = Refused s p tag .badParam) ∧
      ∀ d : Degree, code = d.val → exec (.readDegree p tag code) s = .next (s.reply p tag ⟨.ok,
        [match s.manager d with | some q => BitVec.ofNat 8 q.val | none => (255 : Byte)] ++ settingsOctets s.settings[d] ++
        u16 s.map[d].committed ++ [BitVec.ofNat 8 s.map[d].egress.length, BitVec.ofNat 8 s.map[d].ingress.length,
          BitVec.ofNat 8 s.map[d].drops.length, BitVec.ofNat 8 s.ramps[d].holders.length] ++
        (s.ramps[d].holders.map fun k => [BitVec.ofNat 8 k.handle.slot.val, k.handle.gen]).flatten ++
        [BitVec.ofNat 8 (s.settings[d].rampSlots - s.ramps[d].holders.length),
          BitVec.ofNat 8 s.ramps[d].queue.length] ++
        linkOctets s.links[degreeLink d] (some s.switchGen[d]) (s.updateEntries (degreeLink d)).length ++
        linkOctets s.links[slm] none (s.updateEntries slm).length ++
        [(match s.trips[d].state with | .clear => (0 : Byte) | .tripped => 1 | .holding => 2),
          (match s.trips[d].line with | .active => 0 | .inactive => 1),
          (match s.settings[d].activeLevel with | .low => 0 | .high => 1),
          (match s.settings[d].mode with | .latched => 0 | .follow => 1)] ++ u16 s.settings[d].hold ++
        itemOctets 4 (if s.trips[d].state = .holding then s.trips[d].timer.map timeOctets else none)⟩)) ∧
    (s.takes p (.readPort p tag) → ∃ r : List Byte, exec (.readPort p tag) s = .next (s.reply p tag ⟨.ok, r⟩) ∧
      r.length = 13 ∧
      r = [BitVec.ofNat 8 p.val, BitVec.ofNat 8 s.ports[p].queue.length] ++
        itemOctets 1 (s.ports[p].queue.head?.map fun n => [BitVec.ofNat 8 n.kind.code]) ++
        itemOctets 4 (s.ports[p].queue.head?.map fun n => timeOctets n.stamp) ++
        [flagOctet s.ports[p].flags, flagOctet s.ports[p].mask, if s.ports[p].allNotices then 1 else 0,
          if s.ports[p].queue ≠ [] ∨ (s.ports[p].flags.inter s.ports[p].mask).any = true then 1 else 0]) ∧
    (s.takes p (.readNode p tag) → ∃ r : List Byte, exec (.readNode p tag) s = .next (s.reply p tag ⟨.ok, r⟩) ∧
      r.length = 20 ∧
      r = [0x2A, 1] ++ timeOctets s.nodeTime ++
        [(match s.mon.state with | .idle => 0 | .requested => 1 | .receiving => 2),
          BitVec.ofNat 8 s.mon.tap.code.val, BitVec.ofNat 8 s.mon.tag.toNat] ++ timeOctets s.mon.requestTime ++
        u16 s.mon.count.val ++ [(match s.mon.turn with | .rotation => 0 | .boost => 1),
          BitVec.ofNat 8 s.mon.rotation.code.val, BitVec.ofNat 8 s.mon.boost.val] ++
        (match s.mon.lastFailure with
          | .none => [0, 0]
          | .mismatch k => [1, BitVec.ofNat 8 k.code.val]
          | .earlyStart k => [2, BitVec.ofNat 8 k.code.val]
          | .timeout k => [3, BitVec.ofNat 8 k.code.val]))

/-! ## The domain ports -/

/-- The commands of the port (R194 to R197) and its coding checks (R187): FETCH_NOTICE removes the oldest notice
and returns it in the twelve octets of R183 (its kind; which of handle, degree and value it has; the three, 0 where
absent; its stamp; the notices that remain), or answers EMPTY; CLEAR_FLAGS, SET_MASK and SET_ALL_NOTICES set what they
name and nothing else; a reserved bit or option is answered with BAD_PARAM. -/
def Obligations.PortCommandsResult : Prop :=
  ∀ (p : Domain) (tag : Byte) (v : Nat) (s : State),
    let q := s.ports[p]
    let put (q' : Port) : State := { s with ports := s.ports.set p q' }
    (s.takes p (.fetchNotice p tag) →
      (q.queue = [] → exec (.fetchNotice p tag) s = Refused s p tag .empty) ∧
      ∀ (n : Notice) (rest : List Notice), q.queue = n :: rest → ∃ r : List Byte,
        exec (.fetchNotice p tag) s = .next ((put { q with queue := rest }).reply p tag ⟨.ok, r⟩) ∧ r.length = 12 ∧
        r.head? = some (BitVec.ofNat 8 n.kind.code) ∧
        r[1]? = some (BitVec.ofNat 8 ((if n.handle = none then 0 else 1) + (if n.degree = none then 0 else 2) +
          if n.value = none then 0 else 4)) ∧
        (r.drop 2).take 2 = (match n.handle with | some h => [BitVec.ofNat 8 h.slot.val, h.gen] | none => [0, 0]) ∧
        r[4]? = some (match n.degree with | some d => BitVec.ofNat 8 d.val | none => 0) ∧
        (r.drop 5).take 2 = (match n.value with
          | some v => [(BitVec.ofInt 16 v).extractLsb' 8 8, (BitVec.ofInt 16 v).extractLsb' 0 8]
          | none => [0, 0]) ∧
        (r.drop 7).take 4 = timeOctets n.stamp ∧ r.drop 11 = [BitVec.ofNat 8 rest.length]) ∧
    (s.takes p (.clearFlags p tag v) → v ≤ 31 →
      exec (.clearFlags p tag v) s = .next ((put { q with flags :=
        ⟨q.flags.overflow && !v.testBit 0, q.flags.monitorFault && !v.testBit 1, q.flags.linkFault && !v.testBit 2,
         q.flags.trip && !v.testBit 3, q.flags.excursionFull && !v.testBit 4⟩ }).reply p tag ⟨.ok, []⟩)) ∧
    (s.takes p (.setMask p tag v) → v ≤ 31 →
      exec (.setMask p tag v) s = .next ((put { q with mask :=
        ⟨v.testBit 0, v.testBit 1, v.testBit 2, v.testBit 3, v.testBit 4⟩ }).reply p tag ⟨.ok, []⟩)) ∧
    (s.takes p (.setAllNotices p tag v) → v ≤ 1 →
      exec (.setAllNotices p tag v) s = .next ((put { q with allNotices := v == 1 }).reply p tag ⟨.ok, []⟩)) ∧
    (s.held = none → q.slot.isBusy = false →
      (31 < v → exec (.clearFlags p tag v) s = Refused s p tag .badParam ∧
        exec (.setMask p tag v) s = Refused s p tag .badParam) ∧
      (1 < v → exec (.setAllNotices p tag v) s = Refused s p tag .badParam) ∧
      ∀ (source sink first width hold auto : Nat) (level : Int) (notify : Nat), 1 < auto ∨ 7 < notify →
        exec (.propose p tag source sink first width hold auto level notify) s = Refused s p tag .badParam)

/-- RESET_PORT (R200): the queue, the five flags, the mask and the option of the port that took it go, its
attention line with them, and the slot holds OK; nothing else of the part changes. -/
def Obligations.ResetPortResult : Prop :=
  ∀ (p : Domain) (tag : Byte) (s : State), s.takes p (.resetPort p tag) →
    ∃ q : Port,
      exec (.resetPort p tag) s = .next { s with ports := s.ports.set p q } ∧
      q.queue = [] ∧ q.flags = ⟨false, false, false, false, false⟩ ∧ q.mask = ⟨false, false, false, false, false⟩ ∧
      q.allNotices = false ∧ q.attention = false ∧ q.slot = .ready ⟨tag, .ok, []⟩ ∧
      q.transaction = s.ports[p].transaction ∧ q.driven = s.ports[p].driven

/-- A notice reaches a port (R192, R193): it joins the tail while the queue holds fewer than sixteen, and else it
is dropped with OVERFLOW set; a notice about a connection goes to its domains alone, and one of a
gated kind only where the notify set or the port's all-notices option lets it through. -/
def Obligations.NoticeDelivery : Prop :=
  ∀ (s : State) (h : Handle) (c : Conn) (kind : NoticeKind) (v : Option Int) (q : Domain),
    c.peer ≠ some c.proposer →
    let gate : Bool := match kind with
      | .rampDone => c.notify.ramp
      | .suspended | .resumed | .sourceLost | .sourceBack => c.notify.suspend
      | .powerLimit | .powerNormal => c.notify.power
      | _ => true
    let n : Notice := ⟨kind, some h, none, v, s.nodeTime⟩
    let t := s.tellConn h c kind v
    (q ≠ c.proposer ∧ c.peer ≠ some q ∨ (gate = false ∧ s.ports[q].allNotices = false) → t.ports[q] = s.ports[q]) ∧
    (q = c.proposer ∨ c.peer = some q → gate = true ∨ s.ports[q].allNotices = true →
      (s.ports[q].queue.length < 16 → t.ports[q] = { s.ports[q] with queue := s.ports[q].queue ++ [n] }) ∧
      (16 ≤ s.ports[q].queue.length →
        t.ports[q] = { s.ports[q] with flags := { s.ports[q].flags with overflow := true } }))

/-- Whole transactions from DPnSEL deasserted, no reset holding the part (R180 to R182, R185): the status octet
meets the kind octet. A READ drives the reply frame of a READY slot and then zeros, and changes nothing. A
kind that is neither, a COMMAND at a BUSY slot and a COMMAND without a frame drive zeros and change nothing. A
frame that fails its checks puts FRAME_ERROR with its second octet as tag into the slot; a good frame puts
UNKNOWN_COMMAND there when its code is not of the catalogue, and BAD_PARAM when its parameter length is not one that
the command allows (R187 to R189). -/
def Obligations.TransactionsOnTheWires : Prop :=
  ∀ (p : Domain) (k : Byte) (xs : List Byte) (s : State), s.held = none → s.ports[p].transaction = .idle →
    let status := StatusOf p s.ports[p]
    let zeros := List.replicate xs.length (0 : Byte)
    let whole (k : Byte) : Result := exec (.commandTransaction p (.whole (k :: xs))) s
    (∀ r : Reply, s.ports[p].slot = .ready r →
      whole 0xC2 = .next (s.drove p (status :: (r.frame ++ zeros).take xs.length))) ∧
    ((∀ r : Reply, s.ports[p].slot ≠ .ready r) → whole 0xC2 = .next (s.drove p (status :: zeros))) ∧
    (k ≠ 0xC1 → k ≠ 0xC2 → whole k = .next (s.drove p (status :: zeros))) ∧
    (s.ports[p].slot.isBusy = true ∨ xs = [] → whole 0xC1 = .next (s.drove p (status :: zeros))) ∧
    (s.ports[p].slot.isBusy = false → xs ≠ [] → ∀ code : ReplyCode, PortAnswers xs code →
      whole 0xC1 = Refused (s.drove p (status :: zeros)) p (xs.getD 1 0) code)

/-- The wires of a port event by event (R180 to R182, R185, R202). A transaction begins at DPnSEL and ends at its
deassertion; its kind octet meets the status octet and settles what it is, the reply a READ drives being
the one that stands in the slot then, whatever becomes of the slot after; a frame grows by the octets
received. At the end a frame is taken, or fails its checks or names no command of the catalogue, and every other transaction leaves nothing. A reset
abandons a transaction: no octet of it acts, DPnDO carrying a free value once the reset has ended (log entry 10).
A whole transaction is its events in a row (the row's operand is the model's, log entry 3). -/
def Obligations.OctetsOnTheWires : Prop :=
  ∀ (p : Domain) (s : State),
    let on (e : PortEvent) : Result := exec (.commandTransaction p e) s
    let at' (x : Transaction) (octets : List Byte) : State :=
      s.mapPort p fun q => { q with transaction := x, driven := octets }
    let seen := s.ports[p].driven
    (s.ports[p].transaction = .idle →
      on .select = .next (at' (if s.held = none then .selected else .abandoned) []) ∧
      on .deselect = .next s ∧ ∀ b : Byte, on (.octet b) = .next s) ∧
    (s.ports[p].transaction ≠ .idle → on .select = .next s) ∧
    (∀ b : Byte, s.ports[p].transaction = .selected →
      on (.octet b) = .next (at' (if b = 0xC1 then if s.ports[p].slot.isBusy = true then .commandIgnored else .command []
        else if b = 0xC2 then .read (match s.ports[p].slot with | .ready r => r.frame | _ => [])
        else .ignored) (seen ++ [StatusOf p s.ports[p]]))) ∧
    (∀ (b : Byte) (frame : List Byte), s.ports[p].transaction = .command frame →
      on (.octet b) = .next (at' (.command (frame ++ [b])) (seen ++ [0]))) ∧
    (∀ (b c : Byte) (rest : List Byte), s.ports[p].transaction = .read (c :: rest) →
      on (.octet b) = .next (at' (.read rest) (seen ++ [c]))) ∧
    (∀ b : Byte, s.ports[p].transaction = .read [] ∨ s.ports[p].transaction = .commandIgnored ∨
        s.ports[p].transaction = .ignored →
      on (.octet b) = .next (at' s.ports[p].transaction (seen ++ [0]))) ∧
    ((∀ frame, s.ports[p].transaction = .command frame → frame = []) → on .deselect = .next (at' .idle seen)) ∧
    (∀ (frame : List Byte) (code : ReplyCode), s.ports[p].transaction = .command frame → frame ≠ [] →
      PortAnswers frame code → on .deselect = Refused (at' .idle seen) p (frame.getD 1 0) code) ∧
    (∀ (i : Instr) (code : Nat) (tag : Byte) (params frame : List Byte), commandParts i = some (p, code, tag, params) →
      i.wellFormed = true → Instr.codingOk i = true → commandFrame i = some frame →
      s.held = none → s.ports[p].slot.isBusy = false → s.ports[p].transaction = .command frame →
      (code < 0x40 ∨ code = 0x50 → on .deselect = .next ((at' .idle seen).mapPort p fun q => { q with slot := .busy i })) ∧
      (0x40 ≤ code → code ≠ 0x50 → on .deselect = exec i (at' .idle seen))) ∧
    (∀ i : Instr, i = .coldReset ∧ s.held ≠ some .cold ∨ i = .warmReset ∧ s.held = none → ∃ t, exec i s = .next t ∧
      t.ports[p].driven = seen ∧
      t.ports[p].transaction = if s.ports[p].transaction = .idle then .idle else .abandoned) ∧
    (∀ b : Byte, s.ports[p].transaction = .abandoned →
      (s.held ≠ none → on (.octet b) = .next (at' .abandoned (seen ++ [0]))) ∧
      (s.held = none → ∃ x : Byte,
        on (.octet b) = .next { at' .abandoned (seen ++ [x]) with freeCount := s.freeCount + 1 })) ∧
    ∀ octets : List Byte, on (.whole octets) =
      runAll ((PortEvent.select :: octets.map PortEvent.octet ++ [PortEvent.deselect]).map (.commandTransaction p)) s

/-- Every command whose operands its octets can hold is taken by its frame (R183, R187, R189): the COMMAND transaction
of the frame that the catalogue gives it leaves the slot BUSY with exactly that command, every operand
as it was, or, for the six commands of the port, carries it out. One with an octet outside its coding is answered at
the port with BAD_PARAM (R187, step 2). -/
def Obligations.FramesReachTheirCommand : Prop :=
  ∀ (i : Instr) (p : Domain) (code : Nat) (tag : Byte) (params : List Byte) (s : State),
    commandParts i = some (p, code, tag, params) → i.wellFormed = true →
    s.held = none → s.ports[p].transaction = .idle → s.ports[p].slot.isBusy = false →
    ∃ frame : List Byte, commandFrame i = some frame ∧ frame.length = 6 + params.length ∧
      (let s' := s.drove p (StatusOf p s.ports[p] :: List.replicate frame.length 0)
       let taken : Result := exec (.commandTransaction p (.whole (0xC1 :: frame))) s
       (Instr.codingOk i = true → code < 0x40 ∨ code = 0x50 →
         taken = .next (s'.mapPort p fun q => { q with slot := .busy i })) ∧
       (Instr.codingOk i = true → 0x40 ≤ code → code ≠ 0x50 → taken = exec i s') ∧
       (Instr.codingOk i = false → taken = Refused s' p tag .badParam))

/-- A command that is carried out is answered in its step under its tag, and one that is refused changes
nothing but the slot and has no results (R186, R188); no trip hand-off waits, since SET_DEGREE takes one first
(R146). -/
def Obligations.RefusalsChangeNothing : Prop :=
  ∀ (i : Instr) (p : Domain) (tag : Byte) (s : State), commandPort i = some (p, tag) → s.takes p i →
    (∀ d : Degree, s.tripReqs[d] = none) →
    ∃ (t : State) (r : Reply), exec i s = .next t ∧ t.ports[p].slot = .ready r ∧ r.tag = tag ∧
      (r.code ≠ .ok → r.code ≠ .okClamped → r.results = [] ∧ t = s.reply p tag ⟨r.code, []⟩)

/-! ## Node time and resets -/

/-- NODE_TIME_ADVANCE (R176, R177) counts by one modulo 2^32, in a warm reset too, and not under COLDn. It goes past
no timer: whatever is still due at the count it leaves is taken first, as the expiry rows take it (their order:
log entry 4), so that every reservation due there is FREE and nothing is due any more. COLD_RESET and then
LEAVE_RESET, every trip line high (log entry 2), leave the state after reset: every chapter's contents and the
START batches sent (R139, R140). What the model itself counts, the pins and the octets driven stay. -/
def Obligations.NodeTimeAndColdReset : Prop :=
  (∀ s : State, s.held = some .warm ∨ s.held = none ∧ s.nothingDue →
    exec .nodeTimeAdvance s = .next { s with nodeTime := s.nodeTime + 1 }) ∧
  (∀ s : State, s.held = none →
    ∃ u, runAll expiryRows s = .next u ∧ u.nothingDue ∧ u.nodeTime = s.nodeTime ∧
      exec .nodeTimeAdvance s = .next { u with nodeTime := s.nodeTime + 1 } ∧
      ∀ (i : SlotIx) (c : Conn), s.conn i = some c → c.state = .proposed → c.expiry = some s.nodeTime →
        u.conn i = none) ∧
  (∀ s : State, s.held = some .cold →
    exec .nodeTimeAdvance s = .next s ∧ exec .coldReset s = .next s ∧ exec .warmReset s = .next s) ∧
  ∀ s : State, s.held ≠ some .cold → s.tripPins = Vector.replicate 4 true →
    (∀ p : Domain, s.ports[p].transaction = .idle) →
    ∃ t, exec .coldReset s = .next t ∧ t.held = some .cold ∧ t.nodeTime = 0 ∧
      (∀ p : Domain, t.ports[p] = { Port.cleared with driven := s.ports[p].driven }) ∧
      exec (.leaveReset []) t = .next { State.reset with
        ports := t.ports, tripPins := s.tripPins, mreqPulses := s.mreqPulses, freeCount := s.freeCount,
        pending := s.pending }

/-- WARM_RESET (R52, R86, R141, R157, R167, R202): the PROPOSED records become FREE and every other record, the
settings, the assignments, the generations, the actives and the trip states stay; the ports with their five flags and
their masks, MON and its banks, the logs, the batches in flight and the timers go. In a reset it has no effect of its own. -/
def Obligations.WarmResetResult : Prop :=
  (∀ s : State, s.held ≠ none → exec .warmReset s = .next s) ∧
  ∀ s : State, s.held = none →
    ∃ t, exec .warmReset s = .next t ∧ t.held = some .warm ∧
      (∀ (i : SlotIx) (c : Conn), s.conn i = some c →
        (c.state = .proposed → t.conn i = none) ∧
        (c.state ≠ .proposed → t.conn i = some c ∧ t.actives[i] = s.actives[i])) ∧
      (∀ i : SlotIx, t.table[i].gen = s.table[i].gen) ∧ t.matrix = s.matrix ∧ t.managers = s.managers ∧
      t.settings = s.settings ∧ t.switchGen = s.switchGen ∧ t.nodeTime = s.nodeTime ∧ t.tripPins = s.tripPins ∧
      (∀ l : LinkId, t.links[l].inFlight = none ∧ t.links[l].timer = none ∧ t.links[l].unanswered = none ∧
        t.links[l].seq = s.links[l].seq ∧ t.links[l].lastFailure = s.links[l].lastFailure) ∧
      (∀ d : Degree, t.trips[d] = ⟨s.trips[d].state, s.trips[d].line, none⟩ ∧ t.logs[d] = ⟨[], true, 0, none⟩ ∧
        t.grantReqs[d] = [] ∧ t.passReqs[d] = [] ∧ t.tripReqs[d] = none) ∧
      t.declReqs = [] ∧ t.mon = Mon.cleared ∧ (∀ k : Fin 12, t.banks[k] = none) ∧
      ∀ p : Domain, t.ports[p].slot = .empty ∧ t.ports[p].queue = [] ∧ t.ports[p].attention = false ∧
        t.ports[p].allNotices = false ∧ t.ports[p].flags = ⟨false, false, false, false, false⟩ ∧
        t.ports[p].mask = ⟨false, false, false, false, false⟩

/-- LEAVE_RESET, whatever the order the work is taken up in (R139, R141, R156, R157, R204): every link is STARTING
with its START or RESYNC batch in flight under the number it kept, its degree's switch generation advanced; a RESYNC
of a degree link carries an entry of every record of the degree's lists that stays and entries of its records only,
each at the shadow the reset kept, or BLOCKED where the record's sink degree tripped before it was sent; SLM's carries
its sixteen ports in order, each half as kept, or none where the record that held it has become FREE; every line is read and its degree's trip state is as the table of its reset gives. Out of a warm reset the
tracking entries are rebuilt (R97), and the queue and the slot holders of every degree whose trip state is kept
or becomes HOLDING (R64), and a trip that stays in force sets TRIP (R157). A line that trips its degree leaves every
record sinking on it as R37 gives, or FREE when it was to drain and its active setpoint is settled BLOCKED; a trip that
ends releases its records, which wait for a grant; every other record is kept. MON in IDLE, as both resets leave it
(R85, R86), makes its choice on the records as they stand before or after a line's work, every link being STARTING.
With no reset it changes nothing (log entry 17). -/
def Obligations.LeaveResetResult : Prop :=
  (∀ (order : List ResetWork) (s : State), s.held = none → exec (.leaveReset order) s = .next s) ∧
  ∀ (order : List ResetWork) (kind : ResetKind) (s : State), s.held = some kind →
    ∃ t, exec (.leaveReset order) s = .next t ∧ t.held = none ∧ t.nodeTime = s.nodeTime ∧
      (∀ l : LinkId, ∃ es : List Entry,
        t.links[l].state = .starting ∧ t.links[l].seq = s.links[l].seq + 1 ∧
        t.links[l].timer = some (s.nodeTime + s.period l) ∧
        (kind = .cold → t.links[l].inFlight = some ⟨.start, s.links[l].seq, es⟩ ∧
          es = if l = slm then (List.finRange 16).map (fun k => Entry.port k none none) else [.allBlocked]) ∧
        (kind = .warm → t.links[l].inFlight = some ⟨.resync false, s.links[l].seq, es⟩ ∧
          (l = slm → es.length = 16 ∧ ∀ k : LocalPort, ∃ x y : Option Degree, es[k.val]? = some (.port k x y) ∧
            (x = s.matrix[k].addShadow ∨ x = none ∧ t.matrix[k].addShadow = none) ∧
            (y = s.matrix[k].dropShadow ∨ y = none ∧ t.matrix[k].dropShadow = none)) ∧
          ∀ d : Degree, l = degreeLink d →
            let listed (h : Handle) : Prop :=
              (∃ x ∈ s.map[d].egress, x.handle = h) ∨ ∃ x ∈ s.map[d].drops, x.handle = h
            (∀ e ∈ es, ∃ (h : Handle) (c : Conn) (v : Setpoint), s.find h = some c ∧ listed h ∧
              e = (match c.route with
                | .add _ _ => .select h c.span 4 v
                | .express a _ => .select h c.span ⟨a.val, by omega⟩ v
                | .drop _ p => .drop h c.span p v) ∧
              (v = c.shadow ∨ v = .blocked ∧ ∃ k : Degree, c.route.sinkDegree = some k ∧
                s.trips[k].state ≠ .tripped ∧ t.trips[k].state = .tripped)) ∧
            ∀ (h : Handle) (c : Conn), s.find h = some c → listed h → t.conn h.slot ≠ none →
              ∃ e ∈ es, e.handle? = some h)) ∧
      ∀ d : Degree, t.switchGen[d] = s.switchGen[d] + 1 ∧
        (let act : LineLevel := if (s.settings[d].activeLevel = .high ↔ s.tripPins[d] = true) then .active else .inactive
         t.trips[d].line = act ∧
         (act = .active → t.trips[d].state = .tripped) ∧
         (act = .inactive → kind = .cold ∨ s.trips[d].state = .clear ∨
             (s.trips[d].state = .tripped ∧ s.settings[d].mode = .latched) →
           t.trips[d].state = s.trips[d].state) ∧
         (act = .inactive → kind = .warm → s.trips[d].state = .holding ∨
             (s.trips[d].state = .tripped ∧ s.settings[d].mode = .follow) →
           (s.settings[d].hold = 0 → t.trips[d].state = .clear) ∧
           (0 < s.settings[d].hold → t.trips[d].state = .holding ∧
             t.trips[d].timer = some (s.nodeTime + BitVec.ofNat 32 s.settings[d].hold)))) ∧
      (s.mon.state ≠ .idle → t.mon = s.mon ∧ t.mreqPulses = s.mreqPulses) ∧
      (s.mon.state = .idle → ∃ w : State, (∀ i : SlotIx, w.conn i = s.conn i ∨ w.conn i = t.conn i) ∧
        (∀ l : LinkId, w.links[l].state = .starting) ∧
        Chose w s.mon t.mon s.mreqPulses t.mreqPulses s.nodeTime) ∧
      (kind = .warm →
        (∀ i : SlotIx, t.table[i].gen = s.table[i].gen) ∧
        (∀ i : SlotIx, (∀ (c : Conn) (d : Degree), s.conn i = some c → c.route.sinkDegree = some d →
            t.trips[d].state = s.trips[d].state ∨ t.trips[d].state = .holding) → t.conn i = s.conn i) ∧
        (∀ (i : SlotIx) (c : Conn) (d : Degree), s.conn i = some c → c.route.sinkDegree = some d →
          (s.trips[d].state ≠ .tripped → t.trips[d].state = .tripped →
            t.conn i = some (trippedRecord c) ∨
              (c.state = .pendingDown ∨ c.state = .rampDown) ∧ s.actives[i] = .blocked ∧ t.conn i = none) ∧
          (s.trips[d].state ≠ .clear → t.trips[d].state = .clear →
            (c.state = .suspended → c.causes = some ⟨true, true⟩ →
              t.conn i = some { c with causes := some ⟨true, false⟩ }) ∧
            (c.state = .suspended → c.causes = some ⟨false, true⟩ →
              t.conn i = some { c with state := .pendingUp, causes := some ⟨false, false⟩ } ∧
                (⟨s.handleAt i, none⟩ : QueueEntry) ∈ t.ramps[d].queue) ∧
            (c.state ≠ .suspended ∨ (∀ x : Bool, c.causes ≠ some ⟨x, true⟩) → t.conn i = some c))) ∧
        (∀ (d : Degree) (q : Domain), s.manager d = some q →
          (s.trips[d].state ≠ .tripped → t.trips[d].state = .tripped → t.ports[q].flags.trip = true ∧
            ((⟨.tripOn, none, some d, none, s.nodeTime⟩ : Notice) ∈ t.ports[q].queue ∨
              t.ports[q].flags.overflow = true)) ∧
          (s.trips[d].state ≠ .clear → t.trips[d].state = .clear →
            (⟨.tripOff, none, some d, none, s.nodeTime⟩ : Notice) ∈ t.ports[q].queue ∨
              t.ports[q].flags.overflow = true)) ∧
        (t.tracks.map (·.handle.slot.val)).Pairwise (· < ·) ∧
        (∀ e : TrackEntry, e ∈ t.tracks ↔ ∃ (i : SlotIx) (c : Conn) (light : Light), s.conn i = some c ∧
          t.conn i ≠ none ∧ c.source = some light ∧ e = ⟨s.handleAt i, c.route.tap, c.span, light, 0, 0⟩) ∧
        ∀ d : Degree,
          (t.trips[d].state = s.trips[d].state ∨ t.trips[d].state = .holding →
            (t.ramps[d].queue.map (·.handle.slot.val)).Pairwise (· < ·) ∧
            (t.ramps[d].holders.map (·.handle.slot.val)).Pairwise (· < ·) ∧
            (∀ e : QueueEntry, e ∈ t.ramps[d].queue ↔ ∃ (i : SlotIx) (c : Conn), s.conn i = some c ∧
              c.route.sinkDegree = some d ∧ (c.state = .pendingUp ∨ c.state = .pendingDown) ∧ e = ⟨s.handleAt i, none⟩) ∧
            ∀ k : SlotHolder, k ∈ t.ramps[d].holders ↔ ∃ (i : SlotIx) (c : Conn), s.conn i = some c ∧
              c.route.sinkDegree = some d ∧ (c.state = .rampUp ∨ c.state = .rampDown) ∧ k = ⟨s.handleAt i, none⟩) ∧
          (∀ q : Domain, s.manager d = some q → s.trips[d].state ≠ .clear → t.trips[d].state ≠ .clear →
            t.ports[q].flags.trip = true))

/-! ## What every step keeps -/

/-- No step leaves a notice queue with more than sixteen notices (R192). -/
def Obligations.StepKeepsQueues : Prop := ∀ s t : State, s.queuesOk → step s = .next t → t.queuesOk

/-- No step leaves a settings field out of its range, the ramp slots within 1 to 4 among them, or the committed
cells above the load limit (R168, R170 to R172); the bound of the ramp slots rests on the scheduler's laws (R54). -/
def Obligations.StepKeepsSettings : Prop :=
  ∀ s t : State, s.settingsOk → s.rampsOk → s.passesOk → step s = .next t → t.settingsOk

/-- Whatever shadows and port entries a step changes, what differs is sent (R126, R127): after every step that leaves no
reset in force a READY link with no batch in flight has no entry left whose shadow differs from its active value, the
values of a trip, a declaration, a release, a grant and an activated DROP among them. It rests on the map law, the scheduler's laws and
the laws of darkness, and on each batch in flight being of its own link. That law every step keeps but one that
admits a record under a handle which a batch in flight carries and which names no record before the step; a
handle comes again only after 255 other allocations of its slot (R24), and an entry exists while its handle names a
record (log entry 24). -/
def Obligations.StepSendsWhatDiffers : Prop :=
  ∀ s t : State, s.recordsOk → s.batchesOk → step s = .next t →
    (s.rampsOk → s.darkOk → s.sentOk → t.sentOk) ∧
    ((∀ (l : LinkId) (b : Batch) (e : Entry) (h : Handle), s.links[l].inFlight = some b → e ∈ b.entries →
        e.handle? = some h → s.find h = none → t.find h = none) → t.batchesOk)

/-- The map law (R2, R4 to R7): every step leaves each connection exactly once in the collections it belongs to and
nothing else in them, and the committed cells the sum of the widths. No step leaves two spans of an egress list, or
of an ingress list, that share a cell, or out of order (R3, R5). With the map law, no two spans of a drop list
share a cell (R3, R6), and both endpoints of a connection stay assigned, to its proposer and its peer (R18). The
tracking table stays in slot order and holds exactly the connections past ARMED (R87, R88), where the pass results and
the declarations that wait name what the rules sent them for; a declaration goes on to do so but where a step admits
a record under its handle, which named none (R24: only after 255 other allocations of the slot). -/
def Obligations.StepKeepsTheRecords : Prop :=
  ∀ s t : State, step s = .next t →
    (s.mapOk → t.mapOk) ∧ (s.recordsOk → t.recordsOk) ∧ (s.recordsOk → s.dropsOk → t.dropsOk) ∧ (s.assignedOk → t.assignedOk) ∧
    (s.passesOk → s.tracksOk → s.declsOk → t.tracksOk ∧
      ((∀ r ∈ s.declReqs, s.find r.handle = none → t.find r.handle = none) → t.declsOk))

/-- The laws of the scheduler (R53, R54): after every step the active ramps of a degree are within its ramp slots, its
queue holds exactly its PENDING connections, each once, and a slot is held by exactly the ramping ones and
the offered entries. They rest on what the pass results that wait may do to a record (R103, R111 to R114). -/
def Obligations.StepKeepsTheRamps : Prop :=
  ∀ s t : State, s.rampsOk → s.passesOk → step s = .next t → t.rampsOk ∧ t.passesOk

/-- No step goes past a timer (R177): a running timer's expiry is its period ahead at most and never behind,
since node time does not go on before the expiry is taken (log entry 4). -/
def Obligations.StepKeepsTheTimers : Prop :=
  ∀ s t : State, s.settingsOk → s.timersOk → step s = .next t → t.timersOk

/-- The laws of darkness (R27, R148): no step sets a shadow other than BLOCKED on a record that is to be dark, and
while a degree's trip is in force every record sinking on it is one of those. -/
def Obligations.StepKeepsTheDark : Prop := ∀ s t : State, s.darkOk → step s = .next t → t.darkOk

/-- Which commands and events can change these pieces of state; under every other each stays as it is. Assignments
(R18 to R21), settings (R168, R169), generations (R24), node time (R176), the sweep store (R70, R80), the logs
(R160, R165), trip states (R146), the map (R2, R16, R17), masks and options of the ports (R195, R197), what
waits at CNM (R58, R94, R100, R146), and the trip pins, which are inputs that no reset moves (log entry 2). Whatever
the command, but a cold reset, a link's sequence number and its degree's switch generation advance by one, together,
exactly as a batch is sent on the link, which carries the number as it stood (R127, R129, R130). -/
def Obligations.NamedPiecesChangeByTheirOwn : Prop :=
  ∀ (i : Instr) (s t : State), exec i s = .next t →
    (match i with
      | .claim _ _ _ | .handOver _ _ _ _ | .unclaim _ _ _ | .coldReset => True
      | _ => t.managers = s.managers) ∧
    (match i with
      | .setDegree _ _ _ _ | .coldReset => True
      | _ => t.settings = s.settings) ∧
    (match i with
      | .propose _ _ _ _ _ _ _ _ _ _ | .coldReset => True
      | _ => ∀ k : SlotIx, t.table[k].gen = s.table[k].gen) ∧
    (match i with
      | .nodeTimeAdvance | .coldReset => True
      | _ => t.nodeTime = s.nodeTime) ∧
    (match i with
      | .readingWord _ | .coldReset | .warmReset => True
      | _ => t.banks = s.banks) ∧
    (match i with
      | .passResult _ | .rearmExcursions _ _ _ | .coldReset | .warmReset => True
      | _ => t.logs = s.logs) ∧
    (match i with
      | .lineEvent _ _ | .tripHandOff _ | .clearTrip _ _ _ | .setDegree _ _ _ _ | .coldReset | .warmReset
      | .leaveReset _ => True
      | _ => t.trips = s.trips) ∧
    (match i with
      | .propose _ _ _ _ _ _ _ _ _ _ | .decline _ _ _ _ | .release _ _ _ _ | .reservationExpiry _ | .declaration _ _
      | .passResult _ | .done _ _ | .discardedFrame _ _ | .tripHandOff _ | .setDegree _ _ _ _ | .nodeTimeAdvance
      | .coldReset | .warmReset | .leaveReset _ => True
      | _ => t.map = s.map ∧ t.holders = s.holders) ∧
    (match i with
      | .setMask _ _ _ | .setAllNotices _ _ _ | .resetPort _ _ | .commandTransaction _ _ | .coldReset | .warmReset => True
      | _ => ∀ p : Domain, t.ports[p].mask = s.ports[p].mask ∧ t.ports[p].allNotices = s.ports[p].allNotices) ∧
    (match i with
      | .grant _ | .done _ _ | .discardedFrame _ _ | .tripHandOff _ | .clearTrip _ _ _ | .setDegree _ _ _ _
      | .coldReset | .warmReset | .leaveReset _ => True
      | _ => t.grantReqs = s.grantReqs) ∧
    (match i with
      | .readingWord _ | .passResult _ | .coldReset | .warmReset => True
      | _ => t.passReqs = s.passReqs) ∧
    (match i with
      | .readingWord _ | .declaration _ _ | .coldReset | .warmReset => True
      | _ => t.declReqs = s.declReqs) ∧
    (match i with
      | .lineEvent _ _ | .holdExpiry _ | .tripHandOff _ | .setDegree _ _ _ _ | .nodeTimeAdvance | .coldReset | .warmReset =>
        True
      | _ => t.tripReqs = s.tripReqs) ∧
    (match i with
      | .lineEvent _ _ => True
      | _ => t.tripPins = s.tripPins) ∧
    (s.settingsOk → i ≠ .coldReset → ∀ l : LinkId,
      (t.links[l].seq = s.links[l].seq ∧ (t.links[l].inFlight = s.links[l].inFlight ∨ t.links[l].inFlight = none) ∧
        ∀ d : Degree, l = degreeLink d → t.switchGen[d] = s.switchGen[d]) ∨
      (t.links[l].seq = s.links[l].seq + 1 ∧
        (∃ b : Batch, t.links[l].inFlight = some b ∧ b.seq = s.links[l].seq) ∧
        ∀ d : Degree, l = degreeLink d → t.switchGen[d] = s.switchGen[d] + 1))

/-- An active setpoint changes only at a DONE of a batch in flight that carries the new value, or to BLOCKED as
its record is freed or allocated or the part is reset cold (R124). -/
def Obligations.ActivesChangeAtADone : Prop :=
  ∀ (i : Instr) (k : SlotIx) (s t : State), exec i s = .next t → t.actives[k] ≠ s.actives[k] →
    (t.actives[k] = .blocked ∧ (s.conn k = none ∨ t.conn k = none ∨ i = .coldReset)) ∨
      ∃ (l : LinkId) (b : Batch) (e : Entry) (h : Handle),
        (i = .done l b.seq ∨ ∃ octets, i = .discardedFrame l octets) ∧ s.links[l].inFlight = some b ∧
        e ∈ b.entries ∧ e.handle? = some h ∧ h.slot = k ∧ e.value? = some t.actives[k]

/-- A change of a record's state, or of a switch link, prompts MON (R76). In the step of it MON in IDLE makes its
choice, on the records and links as the step leaves them; a request that is outstanding is not touched by it.
Of the steps that are not MON's own, nor node time's, nor a reset's, these are all that concern MON. What a choice
reads of records and links, wherever a statement speaks of one: I_d is wanted for a DROP or EXPRESS sourced on d,
A_d for an ADD sinking on d, in one of six states (R75); E_d for an ADD or EXPRESS sinking on d in one of three while
d's link is READY with no batch in flight (R74); a boost degree is one whose E tap is wanted and on which one
ramps (R78). -/
def Obligations.ChangesPromptAChoice : Prop :=
  (∀ (w : State) (d : Degree),
    let lives (c : Conn) : Prop := c.state = .suspended ∨ c.state = .pendingUp ∨ c.state = .rampUp ∨
      c.state = .inService ∨ c.state = .pendingDown ∨ c.state = .rampDown
    (w.wanted ⟨.ingress, d⟩ = true ↔ ∃ (i : SlotIx) (c : Conn), w.conn i = some c ∧ lives c ∧
      ((∃ l : LocalPort, c.route = .drop d l) ∨ ∃ k : Degree, c.route = .express d k)) ∧
    (w.wanted ⟨.add, d⟩ = true ↔ ∃ (i : SlotIx) (c : Conn), w.conn i = some c ∧ lives c ∧
      ∃ l : LocalPort, c.route = .add l d) ∧
    (w.wanted ⟨.egress, d⟩ = true ↔
      w.links[degreeLink d].state = .ready ∧ w.links[degreeLink d].inFlight = none ∧
      ∃ (i : SlotIx) (c : Conn), w.conn i = some c ∧
        ((∃ l : LocalPort, c.route = .add l d) ∨ ∃ k : Degree, c.route = .express k d) ∧
        (c.state = .rampUp ∨ c.state = .inService ∨ c.state = .rampDown)) ∧
    (w.boosts d = true ↔ w.wanted ⟨.egress, d⟩ = true ∧ ∃ (i : SlotIx) (c : Conn), w.conn i = some c ∧
      ((∃ l : LocalPort, c.route = .add l d) ∨ ∃ k : Degree, c.route = .express k d) ∧
      (c.state = .rampUp ∨ c.state = .rampDown))) ∧
  ∀ (i : Instr) (s t : State), exec i s = .next t →
    (match i with
      | .headerWord _ | .readingWord _ | .sweepTimeout | .nodeTimeAdvance | .coldReset | .warmReset | .leaveReset _ => False
      | _ => True) →
    (s.mon.state ≠ .idle → t.mon = s.mon ∧ t.mreqPulses = s.mreqPulses) ∧
    (s.mon.state = .idle →
      (t.mon = s.mon ∧ t.mreqPulses = s.mreqPulses ∨ Chose t s.mon t.mon s.mreqPulses t.mreqPulses s.nodeTime) ∧
      ((∃ k : SlotIx, (t.conn k).map (·.state) ≠ (s.conn k).map (·.state)) ∨ t.links ≠ s.links →
        Chose t s.mon t.mon s.mreqPulses t.mreqPulses s.nodeTime))

/-- A record freed out of any state but PROPOSED has RELEASED addressed to its domains in the step that frees it (R46):
the notice with its handle and the step's node time stands in the queue, or OVERFLOW at the port. -/
def Obligations.FreedRecordsAreReleased : Prop :=
  ∀ (i : Instr) (k : SlotIx) (c : Conn) (s t : State), exec i s = .next t → i ≠ .coldReset →
    s.conn k = some c → c.state ≠ .proposed → t.conn k = none →
    ∀ q ∈ c.domains, (⟨.released, some (s.handleAt k), none, none, s.nodeTime⟩ : Notice) ∈ t.ports[q].queue ∨
      t.ports[q].flags.overflow = true

/-- The state after reset meets every law a step keeps, and its records, the pages of its map, the holders of its
local ports and its queues are empty: no connection, no manager, no notice, node time 0 (R8, R18, R51, R140,
R168, R176). Every trip state is CLEAR, the pins taken to be high (log entry 2). -/
def Obligations.ResetMeetsTheLaws : Prop :=
  State.reset.queuesOk ∧ State.reset.settingsOk ∧ State.reset.mapOk ∧ State.reset.darkOk ∧
  State.reset.rampsOk ∧ State.reset.passesOk ∧ State.reset.recordsOk ∧ State.reset.dropsOk ∧
  State.reset.assignedOk ∧ State.reset.timersOk ∧ State.reset.tracksOk ∧ State.reset.declsOk ∧ State.reset.sentOk ∧ State.reset.batchesOk ∧ State.reset.nothingDue ∧
  (∀ i : SlotIx, State.reset.conn i = none ∧ State.reset.table[i].gen = 0) ∧
  (∀ d : Degree, State.reset.map[d].egress = [] ∧ State.reset.map[d].ingress = [] ∧ State.reset.map[d].drops = [] ∧
    State.reset.map[d].committed = 0 ∧ State.reset.ramps[d].queue = [] ∧ State.reset.ramps[d].holders = []) ∧
  (∀ l : LocalPort, State.reset.holders[l].add = none ∧ State.reset.holders[l].drop = none) ∧
  (∀ e : Fin 20, State.reset.managers[e] = none) ∧ (∀ p : Domain, State.reset.ports[p].queue = []) ∧
  (∀ l : LinkId, State.reset.links[l].state = .starting ∧ State.reset.links[l].seq = 1) ∧
  (∀ d : Degree, State.reset.switchGen[d] = 1 ∧ State.reset.settings[d].loadLimit = 384 ∧
    State.reset.trips[d].state = .clear) ∧
  State.reset.nodeTime = 0
end

