-- ==== Sys2Proof/Laws/State.lean ====
section
/-! SUPPORT. Laws/State.lean: what each update of one piece of State leaves in every field, one lemma per
field per update, so that no later proof unfolds a record update. -/

-- One proof at a time: proofs elaborated side by side wait for each other, a thread of 256 MB each, and a
-- burst of them passes the check's memory limit.
set_option Elab.async false

namespace Sys2Proof.Machine
open Sys2Proof

/-! ### mapPort -/

@[simp] theorem State.mapPort_table (s : State) (p : Domain) (f : Port → Port) : (s.mapPort p f).table = s.table := rfl
@[simp] theorem State.mapPort_map (s : State) (p : Domain) (f : Port → Port) : (s.mapPort p f).map = s.map := rfl
@[simp] theorem State.mapPort_holders (s : State) (p : Domain) (f : Port → Port) : (s.mapPort p f).holders = s.holders := rfl
@[simp] theorem State.mapPort_managers (s : State) (p : Domain) (f : Port → Port) : (s.mapPort p f).managers = s.managers := rfl
@[simp] theorem State.mapPort_settings (s : State) (p : Domain) (f : Port → Port) : (s.mapPort p f).settings = s.settings := rfl
@[simp] theorem State.mapPort_ramps (s : State) (p : Domain) (f : Port → Port) : (s.mapPort p f).ramps = s.ramps := rfl
@[simp] theorem State.mapPort_mon (s : State) (p : Domain) (f : Port → Port) : (s.mapPort p f).mon = s.mon := rfl
@[simp] theorem State.mapPort_banks (s : State) (p : Domain) (f : Port → Port) : (s.mapPort p f).banks = s.banks := rfl
@[simp] theorem State.mapPort_tracks (s : State) (p : Domain) (f : Port → Port) : (s.mapPort p f).tracks = s.tracks := rfl
@[simp] theorem State.mapPort_links (s : State) (p : Domain) (f : Port → Port) : (s.mapPort p f).links = s.links := rfl
@[simp] theorem State.mapPort_switchGen (s : State) (p : Domain) (f : Port → Port) : (s.mapPort p f).switchGen = s.switchGen := rfl
@[simp] theorem State.mapPort_actives (s : State) (p : Domain) (f : Port → Port) : (s.mapPort p f).actives = s.actives := rfl
@[simp] theorem State.mapPort_matrix (s : State) (p : Domain) (f : Port → Port) : (s.mapPort p f).matrix = s.matrix := rfl
@[simp] theorem State.mapPort_trips (s : State) (p : Domain) (f : Port → Port) : (s.mapPort p f).trips = s.trips := rfl
@[simp] theorem State.mapPort_logs (s : State) (p : Domain) (f : Port → Port) : (s.mapPort p f).logs = s.logs := rfl
@[simp] theorem State.mapPort_ports (s : State) (p : Domain) (f : Port → Port) :
    (s.mapPort p f).ports = s.ports.set p (f s.ports[p]) := rfl

@[simp] theorem State.mapPort_nodeTime (s : State) (p : Domain) (f : Port → Port) : (s.mapPort p f).nodeTime = s.nodeTime := rfl
@[simp] theorem State.mapPort_held (s : State) (p : Domain) (f : Port → Port) : (s.mapPort p f).held = s.held := rfl
@[simp] theorem State.mapPort_grantReqs (s : State) (p : Domain) (f : Port → Port) : (s.mapPort p f).grantReqs = s.grantReqs := rfl
@[simp] theorem State.mapPort_passReqs (s : State) (p : Domain) (f : Port → Port) : (s.mapPort p f).passReqs = s.passReqs := rfl
@[simp] theorem State.mapPort_declReqs (s : State) (p : Domain) (f : Port → Port) : (s.mapPort p f).declReqs = s.declReqs := rfl
@[simp] theorem State.mapPort_tripReqs (s : State) (p : Domain) (f : Port → Port) : (s.mapPort p f).tripReqs = s.tripReqs := rfl
@[simp] theorem State.mapPort_tripPins (s : State) (p : Domain) (f : Port → Port) : (s.mapPort p f).tripPins = s.tripPins := rfl
@[simp] theorem State.mapPort_mreqPulses (s : State) (p : Domain) (f : Port → Port) : (s.mapPort p f).mreqPulses = s.mreqPulses := rfl
@[simp] theorem State.mapPort_freeCount (s : State) (p : Domain) (f : Port → Port) : (s.mapPort p f).freeCount = s.freeCount := rfl
@[simp] theorem State.mapPort_pending (s : State) (p : Domain) (f : Port → Port) : (s.mapPort p f).pending = s.pending := rfl

/-! ### mapMap -/

@[simp] theorem State.mapMap_table (s : State) (d : Degree) (f : DegreeMap → DegreeMap) : (s.mapMap d f).table = s.table := rfl
@[simp] theorem State.mapMap_map (s : State) (d : Degree) (f : DegreeMap → DegreeMap) :
    (s.mapMap d f).map = s.map.set d (f s.map[d]) := rfl

@[simp] theorem State.mapMap_holders (s : State) (d : Degree) (f : DegreeMap → DegreeMap) : (s.mapMap d f).holders = s.holders := rfl
@[simp] theorem State.mapMap_managers (s : State) (d : Degree) (f : DegreeMap → DegreeMap) : (s.mapMap d f).managers = s.managers := rfl
@[simp] theorem State.mapMap_settings (s : State) (d : Degree) (f : DegreeMap → DegreeMap) : (s.mapMap d f).settings = s.settings := rfl
@[simp] theorem State.mapMap_ramps (s : State) (d : Degree) (f : DegreeMap → DegreeMap) : (s.mapMap d f).ramps = s.ramps := rfl
@[simp] theorem State.mapMap_mon (s : State) (d : Degree) (f : DegreeMap → DegreeMap) : (s.mapMap d f).mon = s.mon := rfl
@[simp] theorem State.mapMap_banks (s : State) (d : Degree) (f : DegreeMap → DegreeMap) : (s.mapMap d f).banks = s.banks := rfl
@[simp] theorem State.mapMap_tracks (s : State) (d : Degree) (f : DegreeMap → DegreeMap) : (s.mapMap d f).tracks = s.tracks := rfl
@[simp] theorem State.mapMap_links (s : State) (d : Degree) (f : DegreeMap → DegreeMap) : (s.mapMap d f).links = s.links := rfl
@[simp] theorem State.mapMap_switchGen (s : State) (d : Degree) (f : DegreeMap → DegreeMap) : (s.mapMap d f).switchGen = s.switchGen := rfl
@[simp] theorem State.mapMap_actives (s : State) (d : Degree) (f : DegreeMap → DegreeMap) : (s.mapMap d f).actives = s.actives := rfl
@[simp] theorem State.mapMap_matrix (s : State) (d : Degree) (f : DegreeMap → DegreeMap) : (s.mapMap d f).matrix = s.matrix := rfl
@[simp] theorem State.mapMap_trips (s : State) (d : Degree) (f : DegreeMap → DegreeMap) : (s.mapMap d f).trips = s.trips := rfl
@[simp] theorem State.mapMap_logs (s : State) (d : Degree) (f : DegreeMap → DegreeMap) : (s.mapMap d f).logs = s.logs := rfl
@[simp] theorem State.mapMap_ports (s : State) (d : Degree) (f : DegreeMap → DegreeMap) : (s.mapMap d f).ports = s.ports := rfl
@[simp] theorem State.mapMap_nodeTime (s : State) (d : Degree) (f : DegreeMap → DegreeMap) : (s.mapMap d f).nodeTime = s.nodeTime := rfl
@[simp] theorem State.mapMap_held (s : State) (d : Degree) (f : DegreeMap → DegreeMap) : (s.mapMap d f).held = s.held := rfl
@[simp] theorem State.mapMap_grantReqs (s : State) (d : Degree) (f : DegreeMap → DegreeMap) : (s.mapMap d f).grantReqs = s.grantReqs := rfl
@[simp] theorem State.mapMap_passReqs (s : State) (d : Degree) (f : DegreeMap → DegreeMap) : (s.mapMap d f).passReqs = s.passReqs := rfl
@[simp] theorem State.mapMap_declReqs (s : State) (d : Degree) (f : DegreeMap → DegreeMap) : (s.mapMap d f).declReqs = s.declReqs := rfl
@[simp] theorem State.mapMap_tripReqs (s : State) (d : Degree) (f : DegreeMap → DegreeMap) : (s.mapMap d f).tripReqs = s.tripReqs := rfl
@[simp] theorem State.mapMap_tripPins (s : State) (d : Degree) (f : DegreeMap → DegreeMap) : (s.mapMap d f).tripPins = s.tripPins := rfl
@[simp] theorem State.mapMap_mreqPulses (s : State) (d : Degree) (f : DegreeMap → DegreeMap) : (s.mapMap d f).mreqPulses = s.mreqPulses := rfl
@[simp] theorem State.mapMap_freeCount (s : State) (d : Degree) (f : DegreeMap → DegreeMap) : (s.mapMap d f).freeCount = s.freeCount := rfl
@[simp] theorem State.mapMap_pending (s : State) (d : Degree) (f : DegreeMap → DegreeMap) : (s.mapMap d f).pending = s.pending := rfl

/-! ### mapHolders -/

@[simp] theorem State.mapHolders_table (s : State) (l : LocalPort) (f : Holders → Holders) : (s.mapHolders l f).table = s.table := rfl
@[simp] theorem State.mapHolders_map (s : State) (l : LocalPort) (f : Holders → Holders) : (s.mapHolders l f).map = s.map := rfl
@[simp] theorem State.mapHolders_holders (s : State) (l : LocalPort) (f : Holders → Holders) :
    (s.mapHolders l f).holders = s.holders.set l (f s.holders[l]) := rfl

@[simp] theorem State.mapHolders_managers (s : State) (l : LocalPort) (f : Holders → Holders) : (s.mapHolders l f).managers = s.managers := rfl
@[simp] theorem State.mapHolders_settings (s : State) (l : LocalPort) (f : Holders → Holders) : (s.mapHolders l f).settings = s.settings := rfl
@[simp] theorem State.mapHolders_ramps (s : State) (l : LocalPort) (f : Holders → Holders) : (s.mapHolders l f).ramps = s.ramps := rfl
@[simp] theorem State.mapHolders_mon (s : State) (l : LocalPort) (f : Holders → Holders) : (s.mapHolders l f).mon = s.mon := rfl
@[simp] theorem State.mapHolders_banks (s : State) (l : LocalPort) (f : Holders → Holders) : (s.mapHolders l f).banks = s.banks := rfl
@[simp] theorem State.mapHolders_tracks (s : State) (l : LocalPort) (f : Holders → Holders) : (s.mapHolders l f).tracks = s.tracks := rfl
@[simp] theorem State.mapHolders_links (s : State) (l : LocalPort) (f : Holders → Holders) : (s.mapHolders l f).links = s.links := rfl
@[simp] theorem State.mapHolders_switchGen (s : State) (l : LocalPort) (f : Holders → Holders) : (s.mapHolders l f).switchGen = s.switchGen := rfl
@[simp] theorem State.mapHolders_actives (s : State) (l : LocalPort) (f : Holders → Holders) : (s.mapHolders l f).actives = s.actives := rfl
@[simp] theorem State.mapHolders_matrix (s : State) (l : LocalPort) (f : Holders → Holders) : (s.mapHolders l f).matrix = s.matrix := rfl
@[simp] theorem State.mapHolders_trips (s : State) (l : LocalPort) (f : Holders → Holders) : (s.mapHolders l f).trips = s.trips := rfl
@[simp] theorem State.mapHolders_logs (s : State) (l : LocalPort) (f : Holders → Holders) : (s.mapHolders l f).logs = s.logs := rfl
@[simp] theorem State.mapHolders_ports (s : State) (l : LocalPort) (f : Holders → Holders) : (s.mapHolders l f).ports = s.ports := rfl
@[simp] theorem State.mapHolders_nodeTime (s : State) (l : LocalPort) (f : Holders → Holders) : (s.mapHolders l f).nodeTime = s.nodeTime := rfl
@[simp] theorem State.mapHolders_held (s : State) (l : LocalPort) (f : Holders → Holders) : (s.mapHolders l f).held = s.held := rfl
@[simp] theorem State.mapHolders_grantReqs (s : State) (l : LocalPort) (f : Holders → Holders) : (s.mapHolders l f).grantReqs = s.grantReqs := rfl
@[simp] theorem State.mapHolders_passReqs (s : State) (l : LocalPort) (f : Holders → Holders) : (s.mapHolders l f).passReqs = s.passReqs := rfl
@[simp] theorem State.mapHolders_declReqs (s : State) (l : LocalPort) (f : Holders → Holders) : (s.mapHolders l f).declReqs = s.declReqs := rfl
@[simp] theorem State.mapHolders_tripReqs (s : State) (l : LocalPort) (f : Holders → Holders) : (s.mapHolders l f).tripReqs = s.tripReqs := rfl
@[simp] theorem State.mapHolders_tripPins (s : State) (l : LocalPort) (f : Holders → Holders) : (s.mapHolders l f).tripPins = s.tripPins := rfl
@[simp] theorem State.mapHolders_mreqPulses (s : State) (l : LocalPort) (f : Holders → Holders) : (s.mapHolders l f).mreqPulses = s.mreqPulses := rfl
@[simp] theorem State.mapHolders_freeCount (s : State) (l : LocalPort) (f : Holders → Holders) : (s.mapHolders l f).freeCount = s.freeCount := rfl
@[simp] theorem State.mapHolders_pending (s : State) (l : LocalPort) (f : Holders → Holders) : (s.mapHolders l f).pending = s.pending := rfl

/-! ### mapLink -/

@[simp] theorem State.mapLink_table (s : State) (l : LinkId) (f : Link → Link) : (s.mapLink l f).table = s.table := rfl
@[simp] theorem State.mapLink_map (s : State) (l : LinkId) (f : Link → Link) : (s.mapLink l f).map = s.map := rfl
@[simp] theorem State.mapLink_holders (s : State) (l : LinkId) (f : Link → Link) : (s.mapLink l f).holders = s.holders := rfl
@[simp] theorem State.mapLink_managers (s : State) (l : LinkId) (f : Link → Link) : (s.mapLink l f).managers = s.managers := rfl
@[simp] theorem State.mapLink_settings (s : State) (l : LinkId) (f : Link → Link) : (s.mapLink l f).settings = s.settings := rfl
@[simp] theorem State.mapLink_ramps (s : State) (l : LinkId) (f : Link → Link) : (s.mapLink l f).ramps = s.ramps := rfl
@[simp] theorem State.mapLink_mon (s : State) (l : LinkId) (f : Link → Link) : (s.mapLink l f).mon = s.mon := rfl
@[simp] theorem State.mapLink_banks (s : State) (l : LinkId) (f : Link → Link) : (s.mapLink l f).banks = s.banks := rfl
@[simp] theorem State.mapLink_tracks (s : State) (l : LinkId) (f : Link → Link) : (s.mapLink l f).tracks = s.tracks := rfl
@[simp] theorem State.mapLink_links (s : State) (l : LinkId) (f : Link → Link) :
    (s.mapLink l f).links = s.links.set l (f s.links[l]) := rfl

@[simp] theorem State.mapLink_switchGen (s : State) (l : LinkId) (f : Link → Link) : (s.mapLink l f).switchGen = s.switchGen := rfl
@[simp] theorem State.mapLink_actives (s : State) (l : LinkId) (f : Link → Link) : (s.mapLink l f).actives = s.actives := rfl
@[simp] theorem State.mapLink_matrix (s : State) (l : LinkId) (f : Link → Link) : (s.mapLink l f).matrix = s.matrix := rfl
@[simp] theorem State.mapLink_trips (s : State) (l : LinkId) (f : Link → Link) : (s.mapLink l f).trips = s.trips := rfl
@[simp] theorem State.mapLink_logs (s : State) (l : LinkId) (f : Link → Link) : (s.mapLink l f).logs = s.logs := rfl
@[simp] theorem State.mapLink_ports (s : State) (l : LinkId) (f : Link → Link) : (s.mapLink l f).ports = s.ports := rfl
@[simp] theorem State.mapLink_nodeTime (s : State) (l : LinkId) (f : Link → Link) : (s.mapLink l f).nodeTime = s.nodeTime := rfl
@[simp] theorem State.mapLink_held (s : State) (l : LinkId) (f : Link → Link) : (s.mapLink l f).held = s.held := rfl
@[simp] theorem State.mapLink_grantReqs (s : State) (l : LinkId) (f : Link → Link) : (s.mapLink l f).grantReqs = s.grantReqs := rfl
@[simp] theorem State.mapLink_passReqs (s : State) (l : LinkId) (f : Link → Link) : (s.mapLink l f).passReqs = s.passReqs := rfl
@[simp] theorem State.mapLink_declReqs (s : State) (l : LinkId) (f : Link → Link) : (s.mapLink l f).declReqs = s.declReqs := rfl
@[simp] theorem State.mapLink_tripReqs (s : State) (l : LinkId) (f : Link → Link) : (s.mapLink l f).tripReqs = s.tripReqs := rfl
@[simp] theorem State.mapLink_tripPins (s : State) (l : LinkId) (f : Link → Link) : (s.mapLink l f).tripPins = s.tripPins := rfl
@[simp] theorem State.mapLink_mreqPulses (s : State) (l : LinkId) (f : Link → Link) : (s.mapLink l f).mreqPulses = s.mreqPulses := rfl
@[simp] theorem State.mapLink_freeCount (s : State) (l : LinkId) (f : Link → Link) : (s.mapLink l f).freeCount = s.freeCount := rfl
@[simp] theorem State.mapLink_pending (s : State) (l : LinkId) (f : Link → Link) : (s.mapLink l f).pending = s.pending := rfl

/-! ### mapRamps -/

@[simp] theorem State.mapRamps_table (s : State) (d : Degree) (f : Ramps → Ramps) : (s.mapRamps d f).table = s.table := rfl
@[simp] theorem State.mapRamps_map (s : State) (d : Degree) (f : Ramps → Ramps) : (s.mapRamps d f).map = s.map := rfl
@[simp] theorem State.mapRamps_holders (s : State) (d : Degree) (f : Ramps → Ramps) : (s.mapRamps d f).holders = s.holders := rfl
@[simp] theorem State.mapRamps_managers (s : State) (d : Degree) (f : Ramps → Ramps) : (s.mapRamps d f).managers = s.managers := rfl
@[simp] theorem State.mapRamps_settings (s : State) (d : Degree) (f : Ramps → Ramps) : (s.mapRamps d f).settings = s.settings := rfl
@[simp] theorem State.mapRamps_ramps (s : State) (d : Degree) (f : Ramps → Ramps) :
    (s.mapRamps d f).ramps = s.ramps.set d (f s.ramps[d]) := rfl

@[simp] theorem State.mapRamps_mon (s : State) (d : Degree) (f : Ramps → Ramps) : (s.mapRamps d f).mon = s.mon := rfl
@[simp] theorem State.mapRamps_banks (s : State) (d : Degree) (f : Ramps → Ramps) : (s.mapRamps d f).banks = s.banks := rfl
@[simp] theorem State.mapRamps_tracks (s : State) (d : Degree) (f : Ramps → Ramps) : (s.mapRamps d f).tracks = s.tracks := rfl
@[simp] theorem State.mapRamps_links (s : State) (d : Degree) (f : Ramps → Ramps) : (s.mapRamps d f).links = s.links := rfl
@[simp] theorem State.mapRamps_switchGen (s : State) (d : Degree) (f : Ramps → Ramps) : (s.mapRamps d f).switchGen = s.switchGen := rfl
@[simp] theorem State.mapRamps_actives (s : State) (d : Degree) (f : Ramps → Ramps) : (s.mapRamps d f).actives = s.actives := rfl
@[simp] theorem State.mapRamps_matrix (s : State) (d : Degree) (f : Ramps → Ramps) : (s.mapRamps d f).matrix = s.matrix := rfl
@[simp] theorem State.mapRamps_trips (s : State) (d : Degree) (f : Ramps → Ramps) : (s.mapRamps d f).trips = s.trips := rfl
@[simp] theorem State.mapRamps_logs (s : State) (d : Degree) (f : Ramps → Ramps) : (s.mapRamps d f).logs = s.logs := rfl
@[simp] theorem State.mapRamps_ports (s : State) (d : Degree) (f : Ramps → Ramps) : (s.mapRamps d f).ports = s.ports := rfl
@[simp] theorem State.mapRamps_nodeTime (s : State) (d : Degree) (f : Ramps → Ramps) : (s.mapRamps d f).nodeTime = s.nodeTime := rfl
@[simp] theorem State.mapRamps_held (s : State) (d : Degree) (f : Ramps → Ramps) : (s.mapRamps d f).held = s.held := rfl
@[simp] theorem State.mapRamps_grantReqs (s : State) (d : Degree) (f : Ramps → Ramps) : (s.mapRamps d f).grantReqs = s.grantReqs := rfl
@[simp] theorem State.mapRamps_passReqs (s : State) (d : Degree) (f : Ramps → Ramps) : (s.mapRamps d f).passReqs = s.passReqs := rfl
@[simp] theorem State.mapRamps_declReqs (s : State) (d : Degree) (f : Ramps → Ramps) : (s.mapRamps d f).declReqs = s.declReqs := rfl
@[simp] theorem State.mapRamps_tripReqs (s : State) (d : Degree) (f : Ramps → Ramps) : (s.mapRamps d f).tripReqs = s.tripReqs := rfl
@[simp] theorem State.mapRamps_tripPins (s : State) (d : Degree) (f : Ramps → Ramps) : (s.mapRamps d f).tripPins = s.tripPins := rfl
@[simp] theorem State.mapRamps_mreqPulses (s : State) (d : Degree) (f : Ramps → Ramps) : (s.mapRamps d f).mreqPulses = s.mreqPulses := rfl
@[simp] theorem State.mapRamps_freeCount (s : State) (d : Degree) (f : Ramps → Ramps) : (s.mapRamps d f).freeCount = s.freeCount := rfl
@[simp] theorem State.mapRamps_pending (s : State) (d : Degree) (f : Ramps → Ramps) : (s.mapRamps d f).pending = s.pending := rfl

/-! ### mapTrip -/

@[simp] theorem State.mapTrip_table (s : State) (d : Degree) (f : Trip → Trip) : (s.mapTrip d f).table = s.table := rfl
@[simp] theorem State.mapTrip_map (s : State) (d : Degree) (f : Trip → Trip) : (s.mapTrip d f).map = s.map := rfl
@[simp] theorem State.mapTrip_holders (s : State) (d : Degree) (f : Trip → Trip) : (s.mapTrip d f).holders = s.holders := rfl
@[simp] theorem State.mapTrip_managers (s : State) (d : Degree) (f : Trip → Trip) : (s.mapTrip d f).managers = s.managers := rfl
@[simp] theorem State.mapTrip_settings (s : State) (d : Degree) (f : Trip → Trip) : (s.mapTrip d f).settings = s.settings := rfl
@[simp] theorem State.mapTrip_ramps (s : State) (d : Degree) (f : Trip → Trip) : (s.mapTrip d f).ramps = s.ramps := rfl
@[simp] theorem State.mapTrip_mon (s : State) (d : Degree) (f : Trip → Trip) : (s.mapTrip d f).mon = s.mon := rfl
@[simp] theorem State.mapTrip_banks (s : State) (d : Degree) (f : Trip → Trip) : (s.mapTrip d f).banks = s.banks := rfl
@[simp] theorem State.mapTrip_tracks (s : State) (d : Degree) (f : Trip → Trip) : (s.mapTrip d f).tracks = s.tracks := rfl
@[simp] theorem State.mapTrip_links (s : State) (d : Degree) (f : Trip → Trip) : (s.mapTrip d f).links = s.links := rfl
@[simp] theorem State.mapTrip_switchGen (s : State) (d : Degree) (f : Trip → Trip) : (s.mapTrip d f).switchGen = s.switchGen := rfl
@[simp] theorem State.mapTrip_actives (s : State) (d : Degree) (f : Trip → Trip) : (s.mapTrip d f).actives = s.actives := rfl
@[simp] theorem State.mapTrip_matrix (s : State) (d : Degree) (f : Trip → Trip) : (s.mapTrip d f).matrix = s.matrix := rfl
@[simp] theorem State.mapTrip_trips (s : State) (d : Degree) (f : Trip → Trip) :
    (s.mapTrip d f).trips = s.trips.set d (f s.trips[d]) := rfl

@[simp] theorem State.mapTrip_logs (s : State) (d : Degree) (f : Trip → Trip) : (s.mapTrip d f).logs = s.logs := rfl
@[simp] theorem State.mapTrip_ports (s : State) (d : Degree) (f : Trip → Trip) : (s.mapTrip d f).ports = s.ports := rfl
@[simp] theorem State.mapTrip_nodeTime (s : State) (d : Degree) (f : Trip → Trip) : (s.mapTrip d f).nodeTime = s.nodeTime := rfl
@[simp] theorem State.mapTrip_held (s : State) (d : Degree) (f : Trip → Trip) : (s.mapTrip d f).held = s.held := rfl
@[simp] theorem State.mapTrip_grantReqs (s : State) (d : Degree) (f : Trip → Trip) : (s.mapTrip d f).grantReqs = s.grantReqs := rfl
@[simp] theorem State.mapTrip_passReqs (s : State) (d : Degree) (f : Trip → Trip) : (s.mapTrip d f).passReqs = s.passReqs := rfl
@[simp] theorem State.mapTrip_declReqs (s : State) (d : Degree) (f : Trip → Trip) : (s.mapTrip d f).declReqs = s.declReqs := rfl
@[simp] theorem State.mapTrip_tripReqs (s : State) (d : Degree) (f : Trip → Trip) : (s.mapTrip d f).tripReqs = s.tripReqs := rfl
@[simp] theorem State.mapTrip_tripPins (s : State) (d : Degree) (f : Trip → Trip) : (s.mapTrip d f).tripPins = s.tripPins := rfl
@[simp] theorem State.mapTrip_mreqPulses (s : State) (d : Degree) (f : Trip → Trip) : (s.mapTrip d f).mreqPulses = s.mreqPulses := rfl
@[simp] theorem State.mapTrip_freeCount (s : State) (d : Degree) (f : Trip → Trip) : (s.mapTrip d f).freeCount = s.freeCount := rfl
@[simp] theorem State.mapTrip_pending (s : State) (d : Degree) (f : Trip → Trip) : (s.mapTrip d f).pending = s.pending := rfl

/-! ### mapLog -/

@[simp] theorem State.mapLog_table (s : State) (d : Degree) (f : ExcursionLog → ExcursionLog) : (s.mapLog d f).table = s.table := rfl
@[simp] theorem State.mapLog_map (s : State) (d : Degree) (f : ExcursionLog → ExcursionLog) : (s.mapLog d f).map = s.map := rfl
@[simp] theorem State.mapLog_holders (s : State) (d : Degree) (f : ExcursionLog → ExcursionLog) : (s.mapLog d f).holders = s.holders := rfl
@[simp] theorem State.mapLog_managers (s : State) (d : Degree) (f : ExcursionLog → ExcursionLog) : (s.mapLog d f).managers = s.managers := rfl
@[simp] theorem State.mapLog_settings (s : State) (d : Degree) (f : ExcursionLog → ExcursionLog) : (s.mapLog d f).settings = s.settings := rfl
@[simp] theorem State.mapLog_ramps (s : State) (d : Degree) (f : ExcursionLog → ExcursionLog) : (s.mapLog d f).ramps = s.ramps := rfl
@[simp] theorem State.mapLog_mon (s : State) (d : Degree) (f : ExcursionLog → ExcursionLog) : (s.mapLog d f).mon = s.mon := rfl
@[simp] theorem State.mapLog_banks (s : State) (d : Degree) (f : ExcursionLog → ExcursionLog) : (s.mapLog d f).banks = s.banks := rfl
@[simp] theorem State.mapLog_tracks (s : State) (d : Degree) (f : ExcursionLog → ExcursionLog) : (s.mapLog d f).tracks = s.tracks := rfl
@[simp] theorem State.mapLog_links (s : State) (d : Degree) (f : ExcursionLog → ExcursionLog) : (s.mapLog d f).links = s.links := rfl
@[simp] theorem State.mapLog_switchGen (s : State) (d : Degree) (f : ExcursionLog → ExcursionLog) : (s.mapLog d f).switchGen = s.switchGen := rfl
@[simp] theorem State.mapLog_actives (s : State) (d : Degree) (f : ExcursionLog → ExcursionLog) : (s.mapLog d f).actives = s.actives := rfl
@[simp] theorem State.mapLog_matrix (s : State) (d : Degree) (f : ExcursionLog → ExcursionLog) : (s.mapLog d f).matrix = s.matrix := rfl
@[simp] theorem State.mapLog_trips (s : State) (d : Degree) (f : ExcursionLog → ExcursionLog) : (s.mapLog d f).trips = s.trips := rfl
@[simp] theorem State.mapLog_logs (s : State) (d : Degree) (f : ExcursionLog → ExcursionLog) :
    (s.mapLog d f).logs = s.logs.set d (f s.logs[d]) := rfl

@[simp] theorem State.mapLog_ports (s : State) (d : Degree) (f : ExcursionLog → ExcursionLog) : (s.mapLog d f).ports = s.ports := rfl
@[simp] theorem State.mapLog_nodeTime (s : State) (d : Degree) (f : ExcursionLog → ExcursionLog) : (s.mapLog d f).nodeTime = s.nodeTime := rfl
@[simp] theorem State.mapLog_held (s : State) (d : Degree) (f : ExcursionLog → ExcursionLog) : (s.mapLog d f).held = s.held := rfl
@[simp] theorem State.mapLog_grantReqs (s : State) (d : Degree) (f : ExcursionLog → ExcursionLog) : (s.mapLog d f).grantReqs = s.grantReqs := rfl
@[simp] theorem State.mapLog_passReqs (s : State) (d : Degree) (f : ExcursionLog → ExcursionLog) : (s.mapLog d f).passReqs = s.passReqs := rfl
@[simp] theorem State.mapLog_declReqs (s : State) (d : Degree) (f : ExcursionLog → ExcursionLog) : (s.mapLog d f).declReqs = s.declReqs := rfl
@[simp] theorem State.mapLog_tripReqs (s : State) (d : Degree) (f : ExcursionLog → ExcursionLog) : (s.mapLog d f).tripReqs = s.tripReqs := rfl
@[simp] theorem State.mapLog_tripPins (s : State) (d : Degree) (f : ExcursionLog → ExcursionLog) : (s.mapLog d f).tripPins = s.tripPins := rfl
@[simp] theorem State.mapLog_mreqPulses (s : State) (d : Degree) (f : ExcursionLog → ExcursionLog) : (s.mapLog d f).mreqPulses = s.mreqPulses := rfl
@[simp] theorem State.mapLog_freeCount (s : State) (d : Degree) (f : ExcursionLog → ExcursionLog) : (s.mapLog d f).freeCount = s.freeCount := rfl
@[simp] theorem State.mapLog_pending (s : State) (d : Degree) (f : ExcursionLog → ExcursionLog) : (s.mapLog d f).pending = s.pending := rfl

/-! ### putConn -/

@[simp] theorem State.putConn_table (s : State) (i : SlotIx) (c : Option Conn) :
    (s.putConn i c).table = s.table.set i { s.table[i] with conn := c } := rfl

@[simp] theorem State.putConn_map (s : State) (i : SlotIx) (c : Option Conn) : (s.putConn i c).map = s.map := rfl
@[simp] theorem State.putConn_holders (s : State) (i : SlotIx) (c : Option Conn) : (s.putConn i c).holders = s.holders := rfl
@[simp] theorem State.putConn_managers (s : State) (i : SlotIx) (c : Option Conn) : (s.putConn i c).managers = s.managers := rfl
@[simp] theorem State.putConn_settings (s : State) (i : SlotIx) (c : Option Conn) : (s.putConn i c).settings = s.settings := rfl
@[simp] theorem State.putConn_ramps (s : State) (i : SlotIx) (c : Option Conn) : (s.putConn i c).ramps = s.ramps := rfl
@[simp] theorem State.putConn_mon (s : State) (i : SlotIx) (c : Option Conn) : (s.putConn i c).mon = s.mon := rfl
@[simp] theorem State.putConn_banks (s : State) (i : SlotIx) (c : Option Conn) : (s.putConn i c).banks = s.banks := rfl
@[simp] theorem State.putConn_tracks (s : State) (i : SlotIx) (c : Option Conn) : (s.putConn i c).tracks = s.tracks := rfl
@[simp] theorem State.putConn_links (s : State) (i : SlotIx) (c : Option Conn) : (s.putConn i c).links = s.links := rfl
@[simp] theorem State.putConn_switchGen (s : State) (i : SlotIx) (c : Option Conn) : (s.putConn i c).switchGen = s.switchGen := rfl
@[simp] theorem State.putConn_actives (s : State) (i : SlotIx) (c : Option Conn) : (s.putConn i c).actives = s.actives := rfl
@[simp] theorem State.putConn_matrix (s : State) (i : SlotIx) (c : Option Conn) : (s.putConn i c).matrix = s.matrix := rfl
@[simp] theorem State.putConn_trips (s : State) (i : SlotIx) (c : Option Conn) : (s.putConn i c).trips = s.trips := rfl
@[simp] theorem State.putConn_logs (s : State) (i : SlotIx) (c : Option Conn) : (s.putConn i c).logs = s.logs := rfl
@[simp] theorem State.putConn_ports (s : State) (i : SlotIx) (c : Option Conn) : (s.putConn i c).ports = s.ports := rfl
@[simp] theorem State.putConn_nodeTime (s : State) (i : SlotIx) (c : Option Conn) : (s.putConn i c).nodeTime = s.nodeTime := rfl
@[simp] theorem State.putConn_held (s : State) (i : SlotIx) (c : Option Conn) : (s.putConn i c).held = s.held := rfl
@[simp] theorem State.putConn_grantReqs (s : State) (i : SlotIx) (c : Option Conn) : (s.putConn i c).grantReqs = s.grantReqs := rfl
@[simp] theorem State.putConn_passReqs (s : State) (i : SlotIx) (c : Option Conn) : (s.putConn i c).passReqs = s.passReqs := rfl
@[simp] theorem State.putConn_declReqs (s : State) (i : SlotIx) (c : Option Conn) : (s.putConn i c).declReqs = s.declReqs := rfl
@[simp] theorem State.putConn_tripReqs (s : State) (i : SlotIx) (c : Option Conn) : (s.putConn i c).tripReqs = s.tripReqs := rfl
@[simp] theorem State.putConn_tripPins (s : State) (i : SlotIx) (c : Option Conn) : (s.putConn i c).tripPins = s.tripPins := rfl
@[simp] theorem State.putConn_mreqPulses (s : State) (i : SlotIx) (c : Option Conn) : (s.putConn i c).mreqPulses = s.mreqPulses := rfl
@[simp] theorem State.putConn_freeCount (s : State) (i : SlotIx) (c : Option Conn) : (s.putConn i c).freeCount = s.freeCount := rfl
@[simp] theorem State.putConn_pending (s : State) (i : SlotIx) (c : Option Conn) : (s.putConn i c).pending = s.pending := rfl

/-! ### startTrack -/

@[simp] theorem State.startTrack_table (s : State) (h : Handle) (c : Conn) : (s.startTrack h c).table = s.table := rfl
@[simp] theorem State.startTrack_map (s : State) (h : Handle) (c : Conn) : (s.startTrack h c).map = s.map := rfl
@[simp] theorem State.startTrack_holders (s : State) (h : Handle) (c : Conn) : (s.startTrack h c).holders = s.holders := rfl
@[simp] theorem State.startTrack_managers (s : State) (h : Handle) (c : Conn) : (s.startTrack h c).managers = s.managers := rfl
@[simp] theorem State.startTrack_settings (s : State) (h : Handle) (c : Conn) : (s.startTrack h c).settings = s.settings := rfl
@[simp] theorem State.startTrack_ramps (s : State) (h : Handle) (c : Conn) : (s.startTrack h c).ramps = s.ramps := rfl
@[simp] theorem State.startTrack_mon (s : State) (h : Handle) (c : Conn) : (s.startTrack h c).mon = s.mon := rfl
@[simp] theorem State.startTrack_banks (s : State) (h : Handle) (c : Conn) : (s.startTrack h c).banks = s.banks := rfl
@[simp] theorem State.startTrack_tracks (s : State) (h : Handle) (c : Conn) :
    (s.startTrack h c).tracks = insertBy (·.handle.slot.val) ⟨h, c.route.tap, c.span, .dark, 0, 0⟩
      (s.tracks.filter (·.handle.slot ≠ h.slot)) := rfl

@[simp] theorem State.startTrack_links (s : State) (h : Handle) (c : Conn) : (s.startTrack h c).links = s.links := rfl
@[simp] theorem State.startTrack_switchGen (s : State) (h : Handle) (c : Conn) : (s.startTrack h c).switchGen = s.switchGen := rfl
@[simp] theorem State.startTrack_actives (s : State) (h : Handle) (c : Conn) : (s.startTrack h c).actives = s.actives := rfl
@[simp] theorem State.startTrack_matrix (s : State) (h : Handle) (c : Conn) : (s.startTrack h c).matrix = s.matrix := rfl
@[simp] theorem State.startTrack_trips (s : State) (h : Handle) (c : Conn) : (s.startTrack h c).trips = s.trips := rfl
@[simp] theorem State.startTrack_logs (s : State) (h : Handle) (c : Conn) : (s.startTrack h c).logs = s.logs := rfl
@[simp] theorem State.startTrack_ports (s : State) (h : Handle) (c : Conn) : (s.startTrack h c).ports = s.ports := rfl
@[simp] theorem State.startTrack_nodeTime (s : State) (h : Handle) (c : Conn) : (s.startTrack h c).nodeTime = s.nodeTime := rfl
@[simp] theorem State.startTrack_held (s : State) (h : Handle) (c : Conn) : (s.startTrack h c).held = s.held := rfl
@[simp] theorem State.startTrack_grantReqs (s : State) (h : Handle) (c : Conn) : (s.startTrack h c).grantReqs = s.grantReqs := rfl
@[simp] theorem State.startTrack_passReqs (s : State) (h : Handle) (c : Conn) : (s.startTrack h c).passReqs = s.passReqs := rfl
@[simp] theorem State.startTrack_declReqs (s : State) (h : Handle) (c : Conn) : (s.startTrack h c).declReqs = s.declReqs := rfl
@[simp] theorem State.startTrack_tripReqs (s : State) (h : Handle) (c : Conn) : (s.startTrack h c).tripReqs = s.tripReqs := rfl
@[simp] theorem State.startTrack_tripPins (s : State) (h : Handle) (c : Conn) : (s.startTrack h c).tripPins = s.tripPins := rfl
@[simp] theorem State.startTrack_mreqPulses (s : State) (h : Handle) (c : Conn) : (s.startTrack h c).mreqPulses = s.mreqPulses := rfl
@[simp] theorem State.startTrack_freeCount (s : State) (h : Handle) (c : Conn) : (s.startTrack h c).freeCount = s.freeCount := rfl
@[simp] theorem State.startTrack_pending (s : State) (h : Handle) (c : Conn) : (s.startTrack h c).pending = s.pending := rfl

/-! ### stopTrack -/

@[simp] theorem State.stopTrack_table (s : State) (i : SlotIx) : (s.stopTrack i).table = s.table := rfl
@[simp] theorem State.stopTrack_map (s : State) (i : SlotIx) : (s.stopTrack i).map = s.map := rfl
@[simp] theorem State.stopTrack_holders (s : State) (i : SlotIx) : (s.stopTrack i).holders = s.holders := rfl
@[simp] theorem State.stopTrack_managers (s : State) (i : SlotIx) : (s.stopTrack i).managers = s.managers := rfl
@[simp] theorem State.stopTrack_settings (s : State) (i : SlotIx) : (s.stopTrack i).settings = s.settings := rfl
@[simp] theorem State.stopTrack_ramps (s : State) (i : SlotIx) : (s.stopTrack i).ramps = s.ramps := rfl
@[simp] theorem State.stopTrack_mon (s : State) (i : SlotIx) : (s.stopTrack i).mon = s.mon := rfl
@[simp] theorem State.stopTrack_banks (s : State) (i : SlotIx) : (s.stopTrack i).banks = s.banks := rfl
@[simp] theorem State.stopTrack_tracks (s : State) (i : SlotIx) :
    (s.stopTrack i).tracks = s.tracks.filter (·.handle.slot ≠ i) := rfl

@[simp] theorem State.stopTrack_links (s : State) (i : SlotIx) : (s.stopTrack i).links = s.links := rfl
@[simp] theorem State.stopTrack_switchGen (s : State) (i : SlotIx) : (s.stopTrack i).switchGen = s.switchGen := rfl
@[simp] theorem State.stopTrack_actives (s : State) (i : SlotIx) : (s.stopTrack i).actives = s.actives := rfl
@[simp] theorem State.stopTrack_matrix (s : State) (i : SlotIx) : (s.stopTrack i).matrix = s.matrix := rfl
@[simp] theorem State.stopTrack_trips (s : State) (i : SlotIx) : (s.stopTrack i).trips = s.trips := rfl
@[simp] theorem State.stopTrack_logs (s : State) (i : SlotIx) : (s.stopTrack i).logs = s.logs := rfl
@[simp] theorem State.stopTrack_ports (s : State) (i : SlotIx) : (s.stopTrack i).ports = s.ports := rfl
@[simp] theorem State.stopTrack_nodeTime (s : State) (i : SlotIx) : (s.stopTrack i).nodeTime = s.nodeTime := rfl
@[simp] theorem State.stopTrack_held (s : State) (i : SlotIx) : (s.stopTrack i).held = s.held := rfl
@[simp] theorem State.stopTrack_grantReqs (s : State) (i : SlotIx) : (s.stopTrack i).grantReqs = s.grantReqs := rfl
@[simp] theorem State.stopTrack_passReqs (s : State) (i : SlotIx) : (s.stopTrack i).passReqs = s.passReqs := rfl
@[simp] theorem State.stopTrack_declReqs (s : State) (i : SlotIx) : (s.stopTrack i).declReqs = s.declReqs := rfl
@[simp] theorem State.stopTrack_tripReqs (s : State) (i : SlotIx) : (s.stopTrack i).tripReqs = s.tripReqs := rfl
@[simp] theorem State.stopTrack_tripPins (s : State) (i : SlotIx) : (s.stopTrack i).tripPins = s.tripPins := rfl
@[simp] theorem State.stopTrack_mreqPulses (s : State) (i : SlotIx) : (s.stopTrack i).mreqPulses = s.mreqPulses := rfl
@[simp] theorem State.stopTrack_freeCount (s : State) (i : SlotIx) : (s.stopTrack i).freeCount = s.freeCount := rfl
@[simp] theorem State.stopTrack_pending (s : State) (i : SlotIx) : (s.stopTrack i).pending = s.pending := rfl

/-! ### assign -/

@[simp] theorem State.assign_table (s : State) (e : Endpoint) (m : Option Domain) : (s.assign e m).table = s.table := rfl
@[simp] theorem State.assign_map (s : State) (e : Endpoint) (m : Option Domain) : (s.assign e m).map = s.map := rfl
@[simp] theorem State.assign_holders (s : State) (e : Endpoint) (m : Option Domain) : (s.assign e m).holders = s.holders := rfl
@[simp] theorem State.assign_managers (s : State) (e : Endpoint) (m : Option Domain) :
    (s.assign e m).managers = s.managers.set e.index m := rfl

@[simp] theorem State.assign_settings (s : State) (e : Endpoint) (m : Option Domain) : (s.assign e m).settings = s.settings := rfl
@[simp] theorem State.assign_ramps (s : State) (e : Endpoint) (m : Option Domain) : (s.assign e m).ramps = s.ramps := rfl
@[simp] theorem State.assign_mon (s : State) (e : Endpoint) (m : Option Domain) : (s.assign e m).mon = s.mon := rfl
@[simp] theorem State.assign_banks (s : State) (e : Endpoint) (m : Option Domain) : (s.assign e m).banks = s.banks := rfl
@[simp] theorem State.assign_tracks (s : State) (e : Endpoint) (m : Option Domain) : (s.assign e m).tracks = s.tracks := rfl
@[simp] theorem State.assign_links (s : State) (e : Endpoint) (m : Option Domain) : (s.assign e m).links = s.links := rfl
@[simp] theorem State.assign_switchGen (s : State) (e : Endpoint) (m : Option Domain) : (s.assign e m).switchGen = s.switchGen := rfl
@[simp] theorem State.assign_actives (s : State) (e : Endpoint) (m : Option Domain) : (s.assign e m).actives = s.actives := rfl
@[simp] theorem State.assign_matrix (s : State) (e : Endpoint) (m : Option Domain) : (s.assign e m).matrix = s.matrix := rfl
@[simp] theorem State.assign_trips (s : State) (e : Endpoint) (m : Option Domain) : (s.assign e m).trips = s.trips := rfl
@[simp] theorem State.assign_logs (s : State) (e : Endpoint) (m : Option Domain) : (s.assign e m).logs = s.logs := rfl
@[simp] theorem State.assign_ports (s : State) (e : Endpoint) (m : Option Domain) : (s.assign e m).ports = s.ports := rfl
@[simp] theorem State.assign_nodeTime (s : State) (e : Endpoint) (m : Option Domain) : (s.assign e m).nodeTime = s.nodeTime := rfl
@[simp] theorem State.assign_held (s : State) (e : Endpoint) (m : Option Domain) : (s.assign e m).held = s.held := rfl
@[simp] theorem State.assign_grantReqs (s : State) (e : Endpoint) (m : Option Domain) : (s.assign e m).grantReqs = s.grantReqs := rfl
@[simp] theorem State.assign_passReqs (s : State) (e : Endpoint) (m : Option Domain) : (s.assign e m).passReqs = s.passReqs := rfl
@[simp] theorem State.assign_declReqs (s : State) (e : Endpoint) (m : Option Domain) : (s.assign e m).declReqs = s.declReqs := rfl
@[simp] theorem State.assign_tripReqs (s : State) (e : Endpoint) (m : Option Domain) : (s.assign e m).tripReqs = s.tripReqs := rfl
@[simp] theorem State.assign_tripPins (s : State) (e : Endpoint) (m : Option Domain) : (s.assign e m).tripPins = s.tripPins := rfl
@[simp] theorem State.assign_mreqPulses (s : State) (e : Endpoint) (m : Option Domain) : (s.assign e m).mreqPulses = s.mreqPulses := rfl
@[simp] theorem State.assign_freeCount (s : State) (e : Endpoint) (m : Option Domain) : (s.assign e m).freeCount = s.freeCount := rfl
@[simp] theorem State.assign_pending (s : State) (e : Endpoint) (m : Option Domain) : (s.assign e m).pending = s.pending := rfl

/-! ### allocate -/

@[simp] theorem State.allocate_table (s : State) (i : SlotIx) (c : Conn) :
    (s.allocate i c).table = s.table.set i ⟨s.table[i].gen + 1, some c⟩ := rfl

@[simp] theorem State.allocate_map (s : State) (i : SlotIx) (c : Conn) : (s.allocate i c).map = s.map := rfl
@[simp] theorem State.allocate_holders (s : State) (i : SlotIx) (c : Conn) : (s.allocate i c).holders = s.holders := rfl
@[simp] theorem State.allocate_managers (s : State) (i : SlotIx) (c : Conn) : (s.allocate i c).managers = s.managers := rfl
@[simp] theorem State.allocate_settings (s : State) (i : SlotIx) (c : Conn) : (s.allocate i c).settings = s.settings := rfl
@[simp] theorem State.allocate_ramps (s : State) (i : SlotIx) (c : Conn) : (s.allocate i c).ramps = s.ramps := rfl
@[simp] theorem State.allocate_mon (s : State) (i : SlotIx) (c : Conn) : (s.allocate i c).mon = s.mon := rfl
@[simp] theorem State.allocate_banks (s : State) (i : SlotIx) (c : Conn) : (s.allocate i c).banks = s.banks := rfl
@[simp] theorem State.allocate_tracks (s : State) (i : SlotIx) (c : Conn) : (s.allocate i c).tracks = s.tracks := rfl
@[simp] theorem State.allocate_links (s : State) (i : SlotIx) (c : Conn) : (s.allocate i c).links = s.links := rfl
@[simp] theorem State.allocate_switchGen (s : State) (i : SlotIx) (c : Conn) : (s.allocate i c).switchGen = s.switchGen := rfl
@[simp] theorem State.allocate_actives (s : State) (i : SlotIx) (c : Conn) :
    (s.allocate i c).actives = s.actives.set i .blocked := rfl

@[simp] theorem State.allocate_matrix (s : State) (i : SlotIx) (c : Conn) : (s.allocate i c).matrix = s.matrix := rfl
@[simp] theorem State.allocate_trips (s : State) (i : SlotIx) (c : Conn) : (s.allocate i c).trips = s.trips := rfl
@[simp] theorem State.allocate_logs (s : State) (i : SlotIx) (c : Conn) : (s.allocate i c).logs = s.logs := rfl
@[simp] theorem State.allocate_ports (s : State) (i : SlotIx) (c : Conn) : (s.allocate i c).ports = s.ports := rfl
@[simp] theorem State.allocate_nodeTime (s : State) (i : SlotIx) (c : Conn) : (s.allocate i c).nodeTime = s.nodeTime := rfl
@[simp] theorem State.allocate_held (s : State) (i : SlotIx) (c : Conn) : (s.allocate i c).held = s.held := rfl
@[simp] theorem State.allocate_grantReqs (s : State) (i : SlotIx) (c : Conn) : (s.allocate i c).grantReqs = s.grantReqs := rfl
@[simp] theorem State.allocate_passReqs (s : State) (i : SlotIx) (c : Conn) : (s.allocate i c).passReqs = s.passReqs := rfl
@[simp] theorem State.allocate_declReqs (s : State) (i : SlotIx) (c : Conn) : (s.allocate i c).declReqs = s.declReqs := rfl
@[simp] theorem State.allocate_tripReqs (s : State) (i : SlotIx) (c : Conn) : (s.allocate i c).tripReqs = s.tripReqs := rfl
@[simp] theorem State.allocate_tripPins (s : State) (i : SlotIx) (c : Conn) : (s.allocate i c).tripPins = s.tripPins := rfl
@[simp] theorem State.allocate_mreqPulses (s : State) (i : SlotIx) (c : Conn) : (s.allocate i c).mreqPulses = s.mreqPulses := rfl
@[simp] theorem State.allocate_freeCount (s : State) (i : SlotIx) (c : Conn) : (s.allocate i c).freeCount = s.freeCount := rfl
@[simp] theorem State.allocate_pending (s : State) (i : SlotIx) (c : Conn) : (s.allocate i c).pending = s.pending := rfl

/-! ### request -/

@[simp] theorem State.request_table (s : State) (t : Tap) : (s.request t).table = s.table := rfl
@[simp] theorem State.request_map (s : State) (t : Tap) : (s.request t).map = s.map := rfl
@[simp] theorem State.request_holders (s : State) (t : Tap) : (s.request t).holders = s.holders := rfl
@[simp] theorem State.request_managers (s : State) (t : Tap) : (s.request t).managers = s.managers := rfl
@[simp] theorem State.request_settings (s : State) (t : Tap) : (s.request t).settings = s.settings := rfl
@[simp] theorem State.request_ramps (s : State) (t : Tap) : (s.request t).ramps = s.ramps := rfl
@[simp] theorem State.request_banks (s : State) (t : Tap) : (s.request t).banks = s.banks := rfl
@[simp] theorem State.request_tracks (s : State) (t : Tap) : (s.request t).tracks = s.tracks := rfl
@[simp] theorem State.request_links (s : State) (t : Tap) : (s.request t).links = s.links := rfl
@[simp] theorem State.request_switchGen (s : State) (t : Tap) : (s.request t).switchGen = s.switchGen := rfl
@[simp] theorem State.request_actives (s : State) (t : Tap) : (s.request t).actives = s.actives := rfl
@[simp] theorem State.request_matrix (s : State) (t : Tap) : (s.request t).matrix = s.matrix := rfl
@[simp] theorem State.request_trips (s : State) (t : Tap) : (s.request t).trips = s.trips := rfl
@[simp] theorem State.request_logs (s : State) (t : Tap) : (s.request t).logs = s.logs := rfl
@[simp] theorem State.request_ports (s : State) (t : Tap) : (s.request t).ports = s.ports := rfl
@[simp] theorem State.request_nodeTime (s : State) (t : Tap) : (s.request t).nodeTime = s.nodeTime := rfl
@[simp] theorem State.request_held (s : State) (t : Tap) : (s.request t).held = s.held := rfl
@[simp] theorem State.request_grantReqs (s : State) (t : Tap) : (s.request t).grantReqs = s.grantReqs := rfl
@[simp] theorem State.request_passReqs (s : State) (t : Tap) : (s.request t).passReqs = s.passReqs := rfl
@[simp] theorem State.request_declReqs (s : State) (t : Tap) : (s.request t).declReqs = s.declReqs := rfl
@[simp] theorem State.request_tripReqs (s : State) (t : Tap) : (s.request t).tripReqs = s.tripReqs := rfl
@[simp] theorem State.request_tripPins (s : State) (t : Tap) : (s.request t).tripPins = s.tripPins := rfl
@[simp] theorem State.request_mreqPulses (s : State) (t : Tap) :
    (s.request t).mreqPulses = s.mreqPulses + 1 := rfl

@[simp] theorem State.request_freeCount (s : State) (t : Tap) : (s.request t).freeCount = s.freeCount := rfl
@[simp] theorem State.request_pending (s : State) (t : Tap) : (s.request t).pending = s.pending := rfl

end Sys2Proof.Machine
end

