-- ==== Sys2Proof/Laws/Frames.lean ====
section
/-! SUPPORT. Laws/Frames.lean: the frame of each shared operation: the fields of State it leaves as they are. -/

-- One proof at a time: proofs elaborated side by side wait for each other, a thread of 256 MB each, and a
-- burst of them passes the check's memory limit.
set_option Elab.async false

namespace Sys2Proof.Machine
open Sys2Proof

/-- A fold leaves a view of the state as it is when each of its steps does. -/
theorem foldl_keeps {α β : Type} (view : State → β) (f : State → α → State)
    (h : ∀ s a, view (f s a) = view s) (l : List α) (s : State) : view (l.foldl f s) = view s := by
  induction l generalizing s with
  | nil => rfl
  | cons a l ih => rw [List.foldl_cons, ih, h]

@[simp] theorem State.tell_frame (s : State) (p : Domain) (n : Notice) :
    (s.tell p n).table = s.table ∧ (s.tell p n).map = s.map ∧ (s.tell p n).holders = s.holders ∧
    (s.tell p n).managers = s.managers ∧ (s.tell p n).settings = s.settings ∧ (s.tell p n).ramps = s.ramps ∧
    (s.tell p n).mon = s.mon ∧ (s.tell p n).banks = s.banks ∧ (s.tell p n).tracks = s.tracks ∧
    (s.tell p n).links = s.links ∧ (s.tell p n).switchGen = s.switchGen ∧ (s.tell p n).actives = s.actives ∧
    (s.tell p n).matrix = s.matrix ∧ (s.tell p n).trips = s.trips ∧ (s.tell p n).logs = s.logs ∧
    (s.tell p n).nodeTime = s.nodeTime ∧ (s.tell p n).held = s.held ∧ (s.tell p n).grantReqs = s.grantReqs ∧
    (s.tell p n).passReqs = s.passReqs ∧ (s.tell p n).declReqs = s.declReqs ∧ (s.tell p n).tripReqs = s.tripReqs ∧
    (s.tell p n).tripPins = s.tripPins ∧ (s.tell p n).mreqPulses = s.mreqPulses ∧
    (s.tell p n).freeCount = s.freeCount ∧ (s.tell p n).pending = s.pending := by
  simp [State.tell]

@[simp] theorem State.setFlag_frame (s : State) (p : Domain) (f : FlagSet) :
    (s.setFlag p f).table = s.table ∧ (s.setFlag p f).map = s.map ∧ (s.setFlag p f).holders = s.holders ∧
    (s.setFlag p f).managers = s.managers ∧ (s.setFlag p f).settings = s.settings ∧ (s.setFlag p f).ramps = s.ramps ∧
    (s.setFlag p f).mon = s.mon ∧ (s.setFlag p f).banks = s.banks ∧ (s.setFlag p f).tracks = s.tracks ∧
    (s.setFlag p f).links = s.links ∧ (s.setFlag p f).switchGen = s.switchGen ∧ (s.setFlag p f).actives = s.actives ∧
    (s.setFlag p f).matrix = s.matrix ∧ (s.setFlag p f).trips = s.trips ∧ (s.setFlag p f).logs = s.logs ∧
    (s.setFlag p f).nodeTime = s.nodeTime ∧ (s.setFlag p f).held = s.held ∧ (s.setFlag p f).grantReqs = s.grantReqs ∧
    (s.setFlag p f).passReqs = s.passReqs ∧ (s.setFlag p f).declReqs = s.declReqs ∧
    (s.setFlag p f).tripReqs = s.tripReqs ∧ (s.setFlag p f).tripPins = s.tripPins ∧
    (s.setFlag p f).mreqPulses = s.mreqPulses ∧ (s.setFlag p f).freeCount = s.freeCount ∧
    (s.setFlag p f).pending = s.pending := by
  simp [State.setFlag]

@[simp] theorem State.reply_frame (s : State) (p : Domain) (tag : Byte) (a : Answer) :
    (s.reply p tag a).table = s.table ∧ (s.reply p tag a).map = s.map ∧ (s.reply p tag a).holders = s.holders ∧
    (s.reply p tag a).managers = s.managers ∧ (s.reply p tag a).settings = s.settings ∧
    (s.reply p tag a).ramps = s.ramps ∧ (s.reply p tag a).mon = s.mon ∧ (s.reply p tag a).banks = s.banks ∧
    (s.reply p tag a).tracks = s.tracks ∧ (s.reply p tag a).links = s.links ∧
    (s.reply p tag a).switchGen = s.switchGen ∧ (s.reply p tag a).actives = s.actives ∧
    (s.reply p tag a).matrix = s.matrix ∧ (s.reply p tag a).trips = s.trips ∧ (s.reply p tag a).logs = s.logs ∧
    (s.reply p tag a).nodeTime = s.nodeTime ∧ (s.reply p tag a).held = s.held ∧
    (s.reply p tag a).grantReqs = s.grantReqs ∧ (s.reply p tag a).passReqs = s.passReqs ∧
    (s.reply p tag a).declReqs = s.declReqs ∧ (s.reply p tag a).tripReqs = s.tripReqs ∧
    (s.reply p tag a).tripPins = s.tripPins ∧ (s.reply p tag a).mreqPulses = s.mreqPulses ∧
    (s.reply p tag a).freeCount = s.freeCount ∧ (s.reply p tag a).pending = s.pending := by
  simp [State.reply]

@[simp] theorem State.tellOption_frame (s : State) (p : Option Domain) (n : Notice) :
    (s.tellOption p n).table = s.table ∧ (s.tellOption p n).map = s.map ∧ (s.tellOption p n).holders = s.holders ∧
    (s.tellOption p n).managers = s.managers ∧ (s.tellOption p n).settings = s.settings ∧
    (s.tellOption p n).ramps = s.ramps ∧ (s.tellOption p n).mon = s.mon ∧ (s.tellOption p n).banks = s.banks ∧
    (s.tellOption p n).tracks = s.tracks ∧ (s.tellOption p n).links = s.links ∧
    (s.tellOption p n).switchGen = s.switchGen ∧ (s.tellOption p n).actives = s.actives ∧
    (s.tellOption p n).matrix = s.matrix ∧ (s.tellOption p n).trips = s.trips ∧ (s.tellOption p n).logs = s.logs ∧
    (s.tellOption p n).nodeTime = s.nodeTime ∧ (s.tellOption p n).held = s.held ∧
    (s.tellOption p n).grantReqs = s.grantReqs ∧ (s.tellOption p n).passReqs = s.passReqs ∧
    (s.tellOption p n).declReqs = s.declReqs ∧ (s.tellOption p n).tripReqs = s.tripReqs ∧
    (s.tellOption p n).tripPins = s.tripPins ∧ (s.tellOption p n).mreqPulses = s.mreqPulses ∧
    (s.tellOption p n).freeCount = s.freeCount ∧ (s.tellOption p n).pending = s.pending := by
  cases p <;> simp [State.tellOption]

@[simp] theorem State.tellManager_frame (s : State) (d : Degree) (n : Notice) :
    (s.tellManager d n).table = s.table ∧ (s.tellManager d n).map = s.map ∧ (s.tellManager d n).holders = s.holders ∧
    (s.tellManager d n).managers = s.managers ∧ (s.tellManager d n).settings = s.settings ∧
    (s.tellManager d n).ramps = s.ramps ∧ (s.tellManager d n).mon = s.mon ∧ (s.tellManager d n).banks = s.banks ∧
    (s.tellManager d n).tracks = s.tracks ∧ (s.tellManager d n).links = s.links ∧
    (s.tellManager d n).switchGen = s.switchGen ∧ (s.tellManager d n).actives = s.actives ∧
    (s.tellManager d n).matrix = s.matrix ∧ (s.tellManager d n).trips = s.trips ∧ (s.tellManager d n).logs = s.logs ∧
    (s.tellManager d n).nodeTime = s.nodeTime ∧ (s.tellManager d n).held = s.held ∧
    (s.tellManager d n).grantReqs = s.grantReqs ∧ (s.tellManager d n).passReqs = s.passReqs ∧
    (s.tellManager d n).declReqs = s.declReqs ∧ (s.tellManager d n).tripReqs = s.tripReqs ∧
    (s.tellManager d n).tripPins = s.tripPins ∧ (s.tellManager d n).mreqPulses = s.mreqPulses ∧
    (s.tellManager d n).freeCount = s.freeCount ∧ (s.tellManager d n).pending = s.pending := by
  unfold State.tellManager
  repeat' (first | (simp; done) | split | dsimp only)

@[simp] theorem State.flagManager_frame (s : State) (d : Degree) (f : FlagSet) :
    (s.flagManager d f).table = s.table ∧ (s.flagManager d f).map = s.map ∧ (s.flagManager d f).holders = s.holders ∧
    (s.flagManager d f).managers = s.managers ∧ (s.flagManager d f).settings = s.settings ∧
    (s.flagManager d f).ramps = s.ramps ∧ (s.flagManager d f).mon = s.mon ∧ (s.flagManager d f).banks = s.banks ∧
    (s.flagManager d f).tracks = s.tracks ∧ (s.flagManager d f).links = s.links ∧
    (s.flagManager d f).switchGen = s.switchGen ∧ (s.flagManager d f).actives = s.actives ∧
    (s.flagManager d f).matrix = s.matrix ∧ (s.flagManager d f).trips = s.trips ∧ (s.flagManager d f).logs = s.logs ∧
    (s.flagManager d f).nodeTime = s.nodeTime ∧ (s.flagManager d f).held = s.held ∧
    (s.flagManager d f).grantReqs = s.grantReqs ∧ (s.flagManager d f).passReqs = s.passReqs ∧
    (s.flagManager d f).declReqs = s.declReqs ∧ (s.flagManager d f).tripReqs = s.tripReqs ∧
    (s.flagManager d f).tripPins = s.tripPins ∧ (s.flagManager d f).mreqPulses = s.mreqPulses ∧
    (s.flagManager d f).freeCount = s.freeCount ∧ (s.flagManager d f).pending = s.pending := by
  unfold State.flagManager
  repeat' (first | (simp; done) | split | dsimp only)

@[simp] theorem State.tellAll_frame (s : State) (n : Notice) :
    (s.tellAll n).table = s.table ∧ (s.tellAll n).map = s.map ∧ (s.tellAll n).holders = s.holders ∧
    (s.tellAll n).managers = s.managers ∧ (s.tellAll n).settings = s.settings ∧ (s.tellAll n).ramps = s.ramps ∧
    (s.tellAll n).mon = s.mon ∧ (s.tellAll n).banks = s.banks ∧ (s.tellAll n).tracks = s.tracks ∧
    (s.tellAll n).links = s.links ∧ (s.tellAll n).switchGen = s.switchGen ∧ (s.tellAll n).actives = s.actives ∧
    (s.tellAll n).matrix = s.matrix ∧ (s.tellAll n).trips = s.trips ∧ (s.tellAll n).logs = s.logs ∧
    (s.tellAll n).nodeTime = s.nodeTime ∧ (s.tellAll n).held = s.held ∧ (s.tellAll n).grantReqs = s.grantReqs ∧
    (s.tellAll n).passReqs = s.passReqs ∧ (s.tellAll n).declReqs = s.declReqs ∧ (s.tellAll n).tripReqs = s.tripReqs ∧
    (s.tellAll n).tripPins = s.tripPins ∧ (s.tellAll n).mreqPulses = s.mreqPulses ∧
    (s.tellAll n).freeCount = s.freeCount ∧ (s.tellAll n).pending = s.pending := by
  unfold State.tellAll
  refine ⟨foldl_keeps _ _ ?_ _ _, foldl_keeps _ _ ?_ _ _, foldl_keeps _ _ ?_ _ _, foldl_keeps _ _ ?_ _ _,
    foldl_keeps _ _ ?_ _ _, foldl_keeps _ _ ?_ _ _, foldl_keeps _ _ ?_ _ _, foldl_keeps _ _ ?_ _ _,
    foldl_keeps _ _ ?_ _ _, foldl_keeps _ _ ?_ _ _, foldl_keeps _ _ ?_ _ _, foldl_keeps _ _ ?_ _ _,
    foldl_keeps _ _ ?_ _ _, foldl_keeps _ _ ?_ _ _, foldl_keeps _ _ ?_ _ _, foldl_keeps _ _ ?_ _ _,
    foldl_keeps _ _ ?_ _ _, foldl_keeps _ _ ?_ _ _, foldl_keeps _ _ ?_ _ _, foldl_keeps _ _ ?_ _ _,
    foldl_keeps _ _ ?_ _ _, foldl_keeps _ _ ?_ _ _, foldl_keeps _ _ ?_ _ _, foldl_keeps _ _ ?_ _ _,
    foldl_keeps _ _ ?_ _ _⟩ <;> (intro s p; simp)

@[simp] theorem State.flagAll_frame (s : State) (f : FlagSet) :
    (s.flagAll f).table = s.table ∧ (s.flagAll f).map = s.map ∧ (s.flagAll f).holders = s.holders ∧
    (s.flagAll f).managers = s.managers ∧ (s.flagAll f).settings = s.settings ∧ (s.flagAll f).ramps = s.ramps ∧
    (s.flagAll f).mon = s.mon ∧ (s.flagAll f).banks = s.banks ∧ (s.flagAll f).tracks = s.tracks ∧
    (s.flagAll f).links = s.links ∧ (s.flagAll f).switchGen = s.switchGen ∧ (s.flagAll f).actives = s.actives ∧
    (s.flagAll f).matrix = s.matrix ∧ (s.flagAll f).trips = s.trips ∧ (s.flagAll f).logs = s.logs ∧
    (s.flagAll f).nodeTime = s.nodeTime ∧ (s.flagAll f).held = s.held ∧ (s.flagAll f).grantReqs = s.grantReqs ∧
    (s.flagAll f).passReqs = s.passReqs ∧ (s.flagAll f).declReqs = s.declReqs ∧ (s.flagAll f).tripReqs = s.tripReqs ∧
    (s.flagAll f).tripPins = s.tripPins ∧ (s.flagAll f).mreqPulses = s.mreqPulses ∧
    (s.flagAll f).freeCount = s.freeCount ∧ (s.flagAll f).pending = s.pending := by
  unfold State.flagAll
  refine ⟨foldl_keeps _ _ ?_ _ _, foldl_keeps _ _ ?_ _ _, foldl_keeps _ _ ?_ _ _, foldl_keeps _ _ ?_ _ _,
    foldl_keeps _ _ ?_ _ _, foldl_keeps _ _ ?_ _ _, foldl_keeps _ _ ?_ _ _, foldl_keeps _ _ ?_ _ _,
    foldl_keeps _ _ ?_ _ _, foldl_keeps _ _ ?_ _ _, foldl_keeps _ _ ?_ _ _, foldl_keeps _ _ ?_ _ _,
    foldl_keeps _ _ ?_ _ _, foldl_keeps _ _ ?_ _ _, foldl_keeps _ _ ?_ _ _, foldl_keeps _ _ ?_ _ _,
    foldl_keeps _ _ ?_ _ _, foldl_keeps _ _ ?_ _ _, foldl_keeps _ _ ?_ _ _, foldl_keeps _ _ ?_ _ _,
    foldl_keeps _ _ ?_ _ _, foldl_keeps _ _ ?_ _ _, foldl_keeps _ _ ?_ _ _, foldl_keeps _ _ ?_ _ _,
    foldl_keeps _ _ ?_ _ _⟩ <;> (intro s p; simp)

@[simp] theorem State.tellConn_frame (s : State) (h : Handle) (c : Conn) (kind : NoticeKind) (value : Option Int) :
    (s.tellConn h c kind value).table = s.table ∧ (s.tellConn h c kind value).map = s.map ∧
    (s.tellConn h c kind value).holders = s.holders ∧ (s.tellConn h c kind value).managers = s.managers ∧
    (s.tellConn h c kind value).settings = s.settings ∧ (s.tellConn h c kind value).ramps = s.ramps ∧
    (s.tellConn h c kind value).mon = s.mon ∧ (s.tellConn h c kind value).banks = s.banks ∧
    (s.tellConn h c kind value).tracks = s.tracks ∧ (s.tellConn h c kind value).links = s.links ∧
    (s.tellConn h c kind value).switchGen = s.switchGen ∧ (s.tellConn h c kind value).actives = s.actives ∧
    (s.tellConn h c kind value).matrix = s.matrix ∧ (s.tellConn h c kind value).trips = s.trips ∧
    (s.tellConn h c kind value).logs = s.logs ∧ (s.tellConn h c kind value).nodeTime = s.nodeTime ∧
    (s.tellConn h c kind value).held = s.held ∧ (s.tellConn h c kind value).grantReqs = s.grantReqs ∧
    (s.tellConn h c kind value).passReqs = s.passReqs ∧ (s.tellConn h c kind value).declReqs = s.declReqs ∧
    (s.tellConn h c kind value).tripReqs = s.tripReqs ∧ (s.tellConn h c kind value).tripPins = s.tripPins ∧
    (s.tellConn h c kind value).mreqPulses = s.mreqPulses ∧ (s.tellConn h c kind value).freeCount = s.freeCount ∧
    (s.tellConn h c kind value).pending = s.pending := by
  unfold State.tellConn
  refine ⟨foldl_keeps _ _ ?_ _ _, foldl_keeps _ _ ?_ _ _, foldl_keeps _ _ ?_ _ _, foldl_keeps _ _ ?_ _ _,
    foldl_keeps _ _ ?_ _ _, foldl_keeps _ _ ?_ _ _, foldl_keeps _ _ ?_ _ _, foldl_keeps _ _ ?_ _ _,
    foldl_keeps _ _ ?_ _ _, foldl_keeps _ _ ?_ _ _, foldl_keeps _ _ ?_ _ _, foldl_keeps _ _ ?_ _ _,
    foldl_keeps _ _ ?_ _ _, foldl_keeps _ _ ?_ _ _, foldl_keeps _ _ ?_ _ _, foldl_keeps _ _ ?_ _ _,
    foldl_keeps _ _ ?_ _ _, foldl_keeps _ _ ?_ _ _, foldl_keeps _ _ ?_ _ _, foldl_keeps _ _ ?_ _ _,
    foldl_keeps _ _ ?_ _ _, foldl_keeps _ _ ?_ _ _, foldl_keeps _ _ ?_ _ _, foldl_keeps _ _ ?_ _ _,
    foldl_keeps _ _ ?_ _ _⟩ <;> (intro s p; split <;> simp)

@[simp] theorem State.mark_frame (s : State) (l : LinkId) :
    (s.mark l).table = s.table ∧ (s.mark l).map = s.map ∧ (s.mark l).holders = s.holders ∧
    (s.mark l).managers = s.managers ∧ (s.mark l).settings = s.settings ∧ (s.mark l).ramps = s.ramps ∧
    (s.mark l).mon = s.mon ∧ (s.mark l).banks = s.banks ∧ (s.mark l).tracks = s.tracks ∧
    (s.mark l).switchGen = s.switchGen ∧ (s.mark l).actives = s.actives ∧ (s.mark l).matrix = s.matrix ∧
    (s.mark l).trips = s.trips ∧ (s.mark l).logs = s.logs ∧ (s.mark l).ports = s.ports ∧
    (s.mark l).nodeTime = s.nodeTime ∧ (s.mark l).held = s.held ∧ (s.mark l).grantReqs = s.grantReqs ∧
    (s.mark l).passReqs = s.passReqs ∧ (s.mark l).declReqs = s.declReqs ∧ (s.mark l).tripReqs = s.tripReqs ∧
    (s.mark l).tripPins = s.tripPins ∧ (s.mark l).mreqPulses = s.mreqPulses ∧ (s.mark l).freeCount = s.freeCount ∧
    (s.mark l).pending = s.pending := by
  simp [State.mark]

@[simp] theorem State.mapMatrix_frame (s : State) (l : LocalPort) (f : MatrixEntry → MatrixEntry) :
    (s.mapMatrix l f).table = s.table ∧ (s.mapMatrix l f).map = s.map ∧ (s.mapMatrix l f).holders = s.holders ∧
    (s.mapMatrix l f).managers = s.managers ∧ (s.mapMatrix l f).settings = s.settings ∧
    (s.mapMatrix l f).ramps = s.ramps ∧ (s.mapMatrix l f).mon = s.mon ∧ (s.mapMatrix l f).banks = s.banks ∧
    (s.mapMatrix l f).tracks = s.tracks ∧ (s.mapMatrix l f).switchGen = s.switchGen ∧
    (s.mapMatrix l f).actives = s.actives ∧ (s.mapMatrix l f).trips = s.trips ∧ (s.mapMatrix l f).logs = s.logs ∧
    (s.mapMatrix l f).ports = s.ports ∧ (s.mapMatrix l f).nodeTime = s.nodeTime ∧ (s.mapMatrix l f).held = s.held ∧
    (s.mapMatrix l f).grantReqs = s.grantReqs ∧ (s.mapMatrix l f).passReqs = s.passReqs ∧
    (s.mapMatrix l f).declReqs = s.declReqs ∧ (s.mapMatrix l f).tripReqs = s.tripReqs ∧
    (s.mapMatrix l f).tripPins = s.tripPins ∧ (s.mapMatrix l f).mreqPulses = s.mreqPulses ∧
    (s.mapMatrix l f).freeCount = s.freeCount ∧ (s.mapMatrix l f).pending = s.pending := by
  simp [State.mapMatrix]

@[simp] theorem State.setMatrix_frame (s : State) (r : Route) :
    (s.setMatrix r).table = s.table ∧ (s.setMatrix r).map = s.map ∧ (s.setMatrix r).holders = s.holders ∧
    (s.setMatrix r).managers = s.managers ∧ (s.setMatrix r).settings = s.settings ∧ (s.setMatrix r).ramps = s.ramps ∧
    (s.setMatrix r).mon = s.mon ∧ (s.setMatrix r).banks = s.banks ∧ (s.setMatrix r).tracks = s.tracks ∧
    (s.setMatrix r).switchGen = s.switchGen ∧ (s.setMatrix r).actives = s.actives ∧ (s.setMatrix r).trips = s.trips ∧
    (s.setMatrix r).logs = s.logs ∧ (s.setMatrix r).ports = s.ports ∧ (s.setMatrix r).nodeTime = s.nodeTime ∧
    (s.setMatrix r).held = s.held ∧ (s.setMatrix r).grantReqs = s.grantReqs ∧ (s.setMatrix r).passReqs = s.passReqs ∧
    (s.setMatrix r).declReqs = s.declReqs ∧ (s.setMatrix r).tripReqs = s.tripReqs ∧
    (s.setMatrix r).tripPins = s.tripPins ∧ (s.setMatrix r).mreqPulses = s.mreqPulses ∧
    (s.setMatrix r).freeCount = s.freeCount ∧ (s.setMatrix r).pending = s.pending := by
  cases r <;> simp [State.setMatrix]

@[simp] theorem State.clearMatrix_frame (s : State) (r : Route) :
    (s.clearMatrix r).table = s.table ∧ (s.clearMatrix r).map = s.map ∧ (s.clearMatrix r).holders = s.holders ∧
    (s.clearMatrix r).managers = s.managers ∧ (s.clearMatrix r).settings = s.settings ∧
    (s.clearMatrix r).ramps = s.ramps ∧ (s.clearMatrix r).mon = s.mon ∧ (s.clearMatrix r).banks = s.banks ∧
    (s.clearMatrix r).tracks = s.tracks ∧ (s.clearMatrix r).switchGen = s.switchGen ∧
    (s.clearMatrix r).actives = s.actives ∧ (s.clearMatrix r).trips = s.trips ∧ (s.clearMatrix r).logs = s.logs ∧
    (s.clearMatrix r).ports = s.ports ∧ (s.clearMatrix r).nodeTime = s.nodeTime ∧ (s.clearMatrix r).held = s.held ∧
    (s.clearMatrix r).grantReqs = s.grantReqs ∧ (s.clearMatrix r).passReqs = s.passReqs ∧
    (s.clearMatrix r).declReqs = s.declReqs ∧ (s.clearMatrix r).tripReqs = s.tripReqs ∧
    (s.clearMatrix r).tripPins = s.tripPins ∧ (s.clearMatrix r).mreqPulses = s.mreqPulses ∧
    (s.clearMatrix r).freeCount = s.freeCount ∧ (s.clearMatrix r).pending = s.pending := by
  cases r <;> simp [State.clearMatrix]

@[simp] theorem State.enterMap_frame (s : State) (h : Handle) (r : Route) (sp : Span) :
    (s.enterMap h r sp).table = s.table ∧ (s.enterMap h r sp).managers = s.managers ∧
    (s.enterMap h r sp).settings = s.settings ∧ (s.enterMap h r sp).ramps = s.ramps ∧
    (s.enterMap h r sp).mon = s.mon ∧ (s.enterMap h r sp).banks = s.banks ∧ (s.enterMap h r sp).tracks = s.tracks ∧
    (s.enterMap h r sp).links = s.links ∧ (s.enterMap h r sp).switchGen = s.switchGen ∧
    (s.enterMap h r sp).actives = s.actives ∧ (s.enterMap h r sp).matrix = s.matrix ∧
    (s.enterMap h r sp).trips = s.trips ∧ (s.enterMap h r sp).logs = s.logs ∧ (s.enterMap h r sp).ports = s.ports ∧
    (s.enterMap h r sp).nodeTime = s.nodeTime ∧ (s.enterMap h r sp).held = s.held ∧
    (s.enterMap h r sp).grantReqs = s.grantReqs ∧ (s.enterMap h r sp).passReqs = s.passReqs ∧
    (s.enterMap h r sp).declReqs = s.declReqs ∧ (s.enterMap h r sp).tripReqs = s.tripReqs ∧
    (s.enterMap h r sp).tripPins = s.tripPins ∧ (s.enterMap h r sp).mreqPulses = s.mreqPulses ∧
    (s.enterMap h r sp).freeCount = s.freeCount ∧ (s.enterMap h r sp).pending = s.pending := by
  cases r <;> simp [State.enterMap]

@[simp] theorem State.leaveMap_frame (s : State) (h : Handle) (r : Route) (sp : Span) :
    (s.leaveMap h r sp).table = s.table ∧ (s.leaveMap h r sp).managers = s.managers ∧
    (s.leaveMap h r sp).settings = s.settings ∧ (s.leaveMap h r sp).ramps = s.ramps ∧
    (s.leaveMap h r sp).mon = s.mon ∧ (s.leaveMap h r sp).banks = s.banks ∧ (s.leaveMap h r sp).tracks = s.tracks ∧
    (s.leaveMap h r sp).links = s.links ∧ (s.leaveMap h r sp).switchGen = s.switchGen ∧
    (s.leaveMap h r sp).actives = s.actives ∧ (s.leaveMap h r sp).matrix = s.matrix ∧
    (s.leaveMap h r sp).trips = s.trips ∧ (s.leaveMap h r sp).logs = s.logs ∧ (s.leaveMap h r sp).ports = s.ports ∧
    (s.leaveMap h r sp).nodeTime = s.nodeTime ∧ (s.leaveMap h r sp).held = s.held ∧
    (s.leaveMap h r sp).grantReqs = s.grantReqs ∧ (s.leaveMap h r sp).passReqs = s.passReqs ∧
    (s.leaveMap h r sp).declReqs = s.declReqs ∧ (s.leaveMap h r sp).tripReqs = s.tripReqs ∧
    (s.leaveMap h r sp).tripPins = s.tripPins ∧ (s.leaveMap h r sp).mreqPulses = s.mreqPulses ∧
    (s.leaveMap h r sp).freeCount = s.freeCount ∧ (s.leaveMap h r sp).pending = s.pending := by
  cases r <;> simp [State.leaveMap]

@[simp] theorem State.sendBatch_frame (s : State) (l : LinkId) (kind : BatchKind) (es : List Entry) :
    (s.sendBatch l kind es).table = s.table ∧ (s.sendBatch l kind es).map = s.map ∧
    (s.sendBatch l kind es).holders = s.holders ∧ (s.sendBatch l kind es).managers = s.managers ∧
    (s.sendBatch l kind es).settings = s.settings ∧ (s.sendBatch l kind es).ramps = s.ramps ∧
    (s.sendBatch l kind es).mon = s.mon ∧ (s.sendBatch l kind es).banks = s.banks ∧
    (s.sendBatch l kind es).tracks = s.tracks ∧ (s.sendBatch l kind es).actives = s.actives ∧
    (s.sendBatch l kind es).matrix = s.matrix ∧ (s.sendBatch l kind es).trips = s.trips ∧
    (s.sendBatch l kind es).logs = s.logs ∧ (s.sendBatch l kind es).ports = s.ports ∧
    (s.sendBatch l kind es).nodeTime = s.nodeTime ∧ (s.sendBatch l kind es).held = s.held ∧
    (s.sendBatch l kind es).grantReqs = s.grantReqs ∧ (s.sendBatch l kind es).passReqs = s.passReqs ∧
    (s.sendBatch l kind es).declReqs = s.declReqs ∧ (s.sendBatch l kind es).tripReqs = s.tripReqs ∧
    (s.sendBatch l kind es).tripPins = s.tripPins ∧ (s.sendBatch l kind es).mreqPulses = s.mreqPulses ∧
    (s.sendBatch l kind es).freeCount = s.freeCount ∧ (s.sendBatch l kind es).pending = s.pending := by
  unfold State.sendBatch
  repeat' (first | (simp; done) | split | dsimp only)

@[simp] theorem State.sendIfPending_frame (s : State) (l : LinkId) :
    (s.sendIfPending l).table = s.table ∧ (s.sendIfPending l).map = s.map ∧ (s.sendIfPending l).holders = s.holders ∧
    (s.sendIfPending l).managers = s.managers ∧ (s.sendIfPending l).settings = s.settings ∧
    (s.sendIfPending l).ramps = s.ramps ∧ (s.sendIfPending l).mon = s.mon ∧ (s.sendIfPending l).banks = s.banks ∧
    (s.sendIfPending l).tracks = s.tracks ∧ (s.sendIfPending l).actives = s.actives ∧
    (s.sendIfPending l).matrix = s.matrix ∧ (s.sendIfPending l).trips = s.trips ∧ (s.sendIfPending l).logs = s.logs ∧
    (s.sendIfPending l).ports = s.ports ∧ (s.sendIfPending l).nodeTime = s.nodeTime ∧
    (s.sendIfPending l).held = s.held ∧ (s.sendIfPending l).grantReqs = s.grantReqs ∧
    (s.sendIfPending l).passReqs = s.passReqs ∧ (s.sendIfPending l).declReqs = s.declReqs ∧
    (s.sendIfPending l).tripReqs = s.tripReqs ∧ (s.sendIfPending l).tripPins = s.tripPins ∧
    (s.sendIfPending l).mreqPulses = s.mreqPulses ∧ (s.sendIfPending l).freeCount = s.freeCount ∧
    (s.sendIfPending l).pending = s.pending := by
  unfold State.sendIfPending
  repeat' (first | (simp; done) | split | dsimp only)

@[simp] theorem State.flushLink_frame (s : State) (l : LinkId) :
    (s.flushLink l).table = s.table ∧ (s.flushLink l).map = s.map ∧ (s.flushLink l).holders = s.holders ∧
    (s.flushLink l).managers = s.managers ∧ (s.flushLink l).settings = s.settings ∧ (s.flushLink l).ramps = s.ramps ∧
    (s.flushLink l).mon = s.mon ∧ (s.flushLink l).banks = s.banks ∧ (s.flushLink l).tracks = s.tracks ∧
    (s.flushLink l).actives = s.actives ∧ (s.flushLink l).matrix = s.matrix ∧ (s.flushLink l).trips = s.trips ∧
    (s.flushLink l).logs = s.logs ∧ (s.flushLink l).ports = s.ports ∧ (s.flushLink l).nodeTime = s.nodeTime ∧
    (s.flushLink l).held = s.held ∧ (s.flushLink l).grantReqs = s.grantReqs ∧ (s.flushLink l).passReqs = s.passReqs ∧
    (s.flushLink l).declReqs = s.declReqs ∧ (s.flushLink l).tripReqs = s.tripReqs ∧
    (s.flushLink l).tripPins = s.tripPins ∧ (s.flushLink l).mreqPulses = s.mreqPulses ∧
    (s.flushLink l).freeCount = s.freeCount ∧ (s.flushLink l).pending = s.pending := by
  unfold State.flushLink
  repeat' (first | (simp; done) | split | dsimp only)

@[simp] theorem State.flushLinks_frame (s : State) :
    (s.flushLinks).table = s.table ∧ (s.flushLinks).map = s.map ∧ (s.flushLinks).holders = s.holders ∧
    (s.flushLinks).managers = s.managers ∧ (s.flushLinks).settings = s.settings ∧ (s.flushLinks).ramps = s.ramps ∧
    (s.flushLinks).mon = s.mon ∧ (s.flushLinks).banks = s.banks ∧ (s.flushLinks).tracks = s.tracks ∧
    (s.flushLinks).actives = s.actives ∧ (s.flushLinks).matrix = s.matrix ∧ (s.flushLinks).trips = s.trips ∧
    (s.flushLinks).logs = s.logs ∧ (s.flushLinks).ports = s.ports ∧ (s.flushLinks).nodeTime = s.nodeTime ∧
    (s.flushLinks).held = s.held ∧ (s.flushLinks).grantReqs = s.grantReqs ∧ (s.flushLinks).passReqs = s.passReqs ∧
    (s.flushLinks).declReqs = s.declReqs ∧ (s.flushLinks).tripReqs = s.tripReqs ∧
    (s.flushLinks).tripPins = s.tripPins ∧ (s.flushLinks).mreqPulses = s.mreqPulses ∧
    (s.flushLinks).freeCount = s.freeCount ∧ (s.flushLinks).pending = s.pending := by
  unfold State.flushLinks
  refine ⟨foldl_keeps _ _ ?_ _ _, foldl_keeps _ _ ?_ _ _, foldl_keeps _ _ ?_ _ _, foldl_keeps _ _ ?_ _ _,
    foldl_keeps _ _ ?_ _ _, foldl_keeps _ _ ?_ _ _, foldl_keeps _ _ ?_ _ _, foldl_keeps _ _ ?_ _ _,
    foldl_keeps _ _ ?_ _ _, foldl_keeps _ _ ?_ _ _, foldl_keeps _ _ ?_ _ _, foldl_keeps _ _ ?_ _ _,
    foldl_keeps _ _ ?_ _ _, foldl_keeps _ _ ?_ _ _, foldl_keeps _ _ ?_ _ _, foldl_keeps _ _ ?_ _ _,
    foldl_keeps _ _ ?_ _ _, foldl_keeps _ _ ?_ _ _, foldl_keeps _ _ ?_ _ _, foldl_keeps _ _ ?_ _ _,
    foldl_keeps _ _ ?_ _ _, foldl_keeps _ _ ?_ _ _, foldl_keeps _ _ ?_ _ _,
    foldl_keeps _ _ ?_ _ _⟩ <;> (intro s l; simp)

@[simp] theorem State.rotationTurn_frame (s : State) :
    (s.rotationTurn).table = s.table ∧ (s.rotationTurn).map = s.map ∧ (s.rotationTurn).holders = s.holders ∧
    (s.rotationTurn).managers = s.managers ∧ (s.rotationTurn).settings = s.settings ∧
    (s.rotationTurn).ramps = s.ramps ∧ (s.rotationTurn).banks = s.banks ∧ (s.rotationTurn).tracks = s.tracks ∧
    (s.rotationTurn).links = s.links ∧ (s.rotationTurn).switchGen = s.switchGen ∧
    (s.rotationTurn).actives = s.actives ∧ (s.rotationTurn).matrix = s.matrix ∧ (s.rotationTurn).trips = s.trips ∧
    (s.rotationTurn).logs = s.logs ∧ (s.rotationTurn).ports = s.ports ∧ (s.rotationTurn).nodeTime = s.nodeTime ∧
    (s.rotationTurn).held = s.held ∧ (s.rotationTurn).grantReqs = s.grantReqs ∧
    (s.rotationTurn).passReqs = s.passReqs ∧ (s.rotationTurn).declReqs = s.declReqs ∧
    (s.rotationTurn).tripReqs = s.tripReqs ∧ (s.rotationTurn).tripPins = s.tripPins ∧
    (s.rotationTurn).freeCount = s.freeCount ∧ (s.rotationTurn).pending = s.pending := by
  unfold State.rotationTurn
  repeat' (first | (simp; done) | split | dsimp only)

@[simp] theorem State.choice_frame (s : State) :
    (s.choice).table = s.table ∧ (s.choice).map = s.map ∧ (s.choice).holders = s.holders ∧
    (s.choice).managers = s.managers ∧ (s.choice).settings = s.settings ∧ (s.choice).ramps = s.ramps ∧
    (s.choice).banks = s.banks ∧ (s.choice).tracks = s.tracks ∧ (s.choice).links = s.links ∧
    (s.choice).switchGen = s.switchGen ∧ (s.choice).actives = s.actives ∧ (s.choice).matrix = s.matrix ∧
    (s.choice).trips = s.trips ∧ (s.choice).logs = s.logs ∧ (s.choice).ports = s.ports ∧
    (s.choice).nodeTime = s.nodeTime ∧ (s.choice).held = s.held ∧ (s.choice).grantReqs = s.grantReqs ∧
    (s.choice).passReqs = s.passReqs ∧ (s.choice).declReqs = s.declReqs ∧ (s.choice).tripReqs = s.tripReqs ∧
    (s.choice).tripPins = s.tripPins ∧ (s.choice).freeCount = s.freeCount ∧ (s.choice).pending = s.pending := by
  unfold State.choice
  repeat' (first | (simp; done) | split | dsimp only)

@[simp] theorem State.prompt_frame (s : State) :
    (s.prompt).table = s.table ∧ (s.prompt).map = s.map ∧ (s.prompt).holders = s.holders ∧
    (s.prompt).managers = s.managers ∧ (s.prompt).settings = s.settings ∧ (s.prompt).ramps = s.ramps ∧
    (s.prompt).banks = s.banks ∧ (s.prompt).tracks = s.tracks ∧ (s.prompt).links = s.links ∧
    (s.prompt).switchGen = s.switchGen ∧ (s.prompt).actives = s.actives ∧ (s.prompt).matrix = s.matrix ∧
    (s.prompt).trips = s.trips ∧ (s.prompt).logs = s.logs ∧ (s.prompt).ports = s.ports ∧
    (s.prompt).nodeTime = s.nodeTime ∧ (s.prompt).held = s.held ∧ (s.prompt).grantReqs = s.grantReqs ∧
    (s.prompt).passReqs = s.passReqs ∧ (s.prompt).declReqs = s.declReqs ∧ (s.prompt).tripReqs = s.tripReqs ∧
    (s.prompt).tripPins = s.tripPins ∧ (s.prompt).freeCount = s.freeCount ∧ (s.prompt).pending = s.pending := by
  unfold State.prompt
  repeat' (first | (simp; done) | split | dsimp only)

@[simp] theorem State.finish_frame (s : State) :
    (s.finish).table = s.table ∧ (s.finish).map = s.map ∧ (s.finish).holders = s.holders ∧
    (s.finish).managers = s.managers ∧ (s.finish).settings = s.settings ∧ (s.finish).ramps = s.ramps ∧
    (s.finish).banks = s.banks ∧ (s.finish).tracks = s.tracks ∧ (s.finish).actives = s.actives ∧
    (s.finish).matrix = s.matrix ∧ (s.finish).trips = s.trips ∧ (s.finish).logs = s.logs ∧
    (s.finish).ports = s.ports ∧ (s.finish).nodeTime = s.nodeTime ∧ (s.finish).held = s.held ∧
    (s.finish).grantReqs = s.grantReqs ∧ (s.finish).passReqs = s.passReqs ∧ (s.finish).declReqs = s.declReqs ∧
    (s.finish).tripReqs = s.tripReqs ∧ (s.finish).tripPins = s.tripPins ∧ (s.finish).freeCount = s.freeCount ∧
    (s.finish).pending = s.pending := by
  simp [State.finish]

@[simp] theorem State.takeGrant_frame (s : State) (d : Degree) (h : Handle) :
    (s.takeGrant d h).map = s.map ∧ (s.takeGrant d h).holders = s.holders ∧ (s.takeGrant d h).managers = s.managers ∧
    (s.takeGrant d h).settings = s.settings ∧ (s.takeGrant d h).mon = s.mon ∧ (s.takeGrant d h).banks = s.banks ∧
    (s.takeGrant d h).tracks = s.tracks ∧ (s.takeGrant d h).switchGen = s.switchGen ∧
    (s.takeGrant d h).actives = s.actives ∧ (s.takeGrant d h).matrix = s.matrix ∧ (s.takeGrant d h).trips = s.trips ∧
    (s.takeGrant d h).logs = s.logs ∧ (s.takeGrant d h).ports = s.ports ∧ (s.takeGrant d h).nodeTime = s.nodeTime ∧
    (s.takeGrant d h).held = s.held ∧ (s.takeGrant d h).grantReqs = s.grantReqs ∧
    (s.takeGrant d h).passReqs = s.passReqs ∧ (s.takeGrant d h).declReqs = s.declReqs ∧
    (s.takeGrant d h).tripReqs = s.tripReqs ∧ (s.takeGrant d h).tripPins = s.tripPins ∧
    (s.takeGrant d h).mreqPulses = s.mreqPulses ∧ (s.takeGrant d h).freeCount = s.freeCount ∧
    (s.takeGrant d h).pending = s.pending := by
  unfold State.takeGrant
  repeat' (first | (simp; done) | split | dsimp only)

@[simp] theorem State.grantEvent_frame (s : State) (d : Degree) :
    (s.grantEvent d).map = s.map ∧ (s.grantEvent d).holders = s.holders ∧ (s.grantEvent d).managers = s.managers ∧
    (s.grantEvent d).settings = s.settings ∧ (s.grantEvent d).mon = s.mon ∧ (s.grantEvent d).banks = s.banks ∧
    (s.grantEvent d).tracks = s.tracks ∧ (s.grantEvent d).switchGen = s.switchGen ∧
    (s.grantEvent d).actives = s.actives ∧ (s.grantEvent d).matrix = s.matrix ∧ (s.grantEvent d).trips = s.trips ∧
    (s.grantEvent d).logs = s.logs ∧ (s.grantEvent d).ports = s.ports ∧ (s.grantEvent d).nodeTime = s.nodeTime ∧
    (s.grantEvent d).held = s.held ∧ (s.grantEvent d).grantReqs = s.grantReqs ∧
    (s.grantEvent d).passReqs = s.passReqs ∧ (s.grantEvent d).declReqs = s.declReqs ∧
    (s.grantEvent d).tripReqs = s.tripReqs ∧ (s.grantEvent d).tripPins = s.tripPins ∧
    (s.grantEvent d).mreqPulses = s.mreqPulses ∧ (s.grantEvent d).freeCount = s.freeCount ∧
    (s.grantEvent d).pending = s.pending := by
  unfold State.grantEvent
  refine ⟨foldl_keeps _ _ ?_ _ _, foldl_keeps _ _ ?_ _ _, foldl_keeps _ _ ?_ _ _, foldl_keeps _ _ ?_ _ _,
    foldl_keeps _ _ ?_ _ _, foldl_keeps _ _ ?_ _ _, foldl_keeps _ _ ?_ _ _, foldl_keeps _ _ ?_ _ _,
    foldl_keeps _ _ ?_ _ _, foldl_keeps _ _ ?_ _ _, foldl_keeps _ _ ?_ _ _, foldl_keeps _ _ ?_ _ _,
    foldl_keeps _ _ ?_ _ _, foldl_keeps _ _ ?_ _ _, foldl_keeps _ _ ?_ _ _, foldl_keeps _ _ ?_ _ _,
    foldl_keeps _ _ ?_ _ _, foldl_keeps _ _ ?_ _ _, foldl_keeps _ _ ?_ _ _, foldl_keeps _ _ ?_ _ _,
    foldl_keeps _ _ ?_ _ _, foldl_keeps _ _ ?_ _ _, foldl_keeps _ _ ?_ _ _⟩ <;> (intro s h; split <;> simp)

@[simp] theorem State.offerOne_frame (s : State) (d : Degree) (h : Handle) :
    (s.offerOne d h).table = s.table ∧ (s.offerOne d h).map = s.map ∧ (s.offerOne d h).holders = s.holders ∧
    (s.offerOne d h).managers = s.managers ∧ (s.offerOne d h).settings = s.settings ∧ (s.offerOne d h).mon = s.mon ∧
    (s.offerOne d h).banks = s.banks ∧ (s.offerOne d h).tracks = s.tracks ∧ (s.offerOne d h).links = s.links ∧
    (s.offerOne d h).switchGen = s.switchGen ∧ (s.offerOne d h).actives = s.actives ∧
    (s.offerOne d h).matrix = s.matrix ∧ (s.offerOne d h).trips = s.trips ∧ (s.offerOne d h).logs = s.logs ∧
    (s.offerOne d h).ports = s.ports ∧ (s.offerOne d h).nodeTime = s.nodeTime ∧ (s.offerOne d h).held = s.held ∧
    (s.offerOne d h).passReqs = s.passReqs ∧ (s.offerOne d h).declReqs = s.declReqs ∧
    (s.offerOne d h).tripReqs = s.tripReqs ∧ (s.offerOne d h).tripPins = s.tripPins ∧
    (s.offerOne d h).mreqPulses = s.mreqPulses ∧ (s.offerOne d h).freeCount = s.freeCount ∧
    (s.offerOne d h).pending = s.pending := by
  simp [State.offerOne]

@[simp] theorem State.offerEvent_frame (s : State) (d : Degree) :
    (s.offerEvent d).table = s.table ∧ (s.offerEvent d).map = s.map ∧ (s.offerEvent d).holders = s.holders ∧
    (s.offerEvent d).managers = s.managers ∧ (s.offerEvent d).settings = s.settings ∧ (s.offerEvent d).mon = s.mon ∧
    (s.offerEvent d).banks = s.banks ∧ (s.offerEvent d).tracks = s.tracks ∧ (s.offerEvent d).links = s.links ∧
    (s.offerEvent d).switchGen = s.switchGen ∧ (s.offerEvent d).actives = s.actives ∧
    (s.offerEvent d).matrix = s.matrix ∧ (s.offerEvent d).trips = s.trips ∧ (s.offerEvent d).logs = s.logs ∧
    (s.offerEvent d).ports = s.ports ∧ (s.offerEvent d).nodeTime = s.nodeTime ∧ (s.offerEvent d).held = s.held ∧
    (s.offerEvent d).passReqs = s.passReqs ∧ (s.offerEvent d).declReqs = s.declReqs ∧
    (s.offerEvent d).tripReqs = s.tripReqs ∧ (s.offerEvent d).tripPins = s.tripPins ∧
    (s.offerEvent d).mreqPulses = s.mreqPulses ∧ (s.offerEvent d).freeCount = s.freeCount ∧
    (s.offerEvent d).pending = s.pending := by
  unfold State.offerEvent
  refine ⟨foldl_keeps _ _ ?_ _ _, foldl_keeps _ _ ?_ _ _, foldl_keeps _ _ ?_ _ _, foldl_keeps _ _ ?_ _ _,
    foldl_keeps _ _ ?_ _ _, foldl_keeps _ _ ?_ _ _, foldl_keeps _ _ ?_ _ _, foldl_keeps _ _ ?_ _ _,
    foldl_keeps _ _ ?_ _ _, foldl_keeps _ _ ?_ _ _, foldl_keeps _ _ ?_ _ _, foldl_keeps _ _ ?_ _ _,
    foldl_keeps _ _ ?_ _ _, foldl_keeps _ _ ?_ _ _, foldl_keeps _ _ ?_ _ _, foldl_keeps _ _ ?_ _ _,
    foldl_keeps _ _ ?_ _ _, foldl_keeps _ _ ?_ _ _, foldl_keeps _ _ ?_ _ _, foldl_keeps _ _ ?_ _ _,
    foldl_keeps _ _ ?_ _ _, foldl_keeps _ _ ?_ _ _, foldl_keeps _ _ ?_ _ _,
    foldl_keeps _ _ ?_ _ _⟩ <;> (intro s h; split <;> simp)

@[simp] theorem State.joinQueue_frame (s : State) (d : Degree) (h : Handle) :
    (s.joinQueue d h).map = s.map ∧ (s.joinQueue d h).holders = s.holders ∧ (s.joinQueue d h).managers = s.managers ∧
    (s.joinQueue d h).settings = s.settings ∧ (s.joinQueue d h).mon = s.mon ∧ (s.joinQueue d h).banks = s.banks ∧
    (s.joinQueue d h).tracks = s.tracks ∧ (s.joinQueue d h).switchGen = s.switchGen ∧
    (s.joinQueue d h).actives = s.actives ∧ (s.joinQueue d h).matrix = s.matrix ∧ (s.joinQueue d h).trips = s.trips ∧
    (s.joinQueue d h).logs = s.logs ∧ (s.joinQueue d h).ports = s.ports ∧ (s.joinQueue d h).nodeTime = s.nodeTime ∧
    (s.joinQueue d h).held = s.held ∧ (s.joinQueue d h).grantReqs = s.grantReqs ∧
    (s.joinQueue d h).passReqs = s.passReqs ∧ (s.joinQueue d h).declReqs = s.declReqs ∧
    (s.joinQueue d h).tripReqs = s.tripReqs ∧ (s.joinQueue d h).tripPins = s.tripPins ∧
    (s.joinQueue d h).mreqPulses = s.mreqPulses ∧ (s.joinQueue d h).freeCount = s.freeCount ∧
    (s.joinQueue d h).pending = s.pending := by
  simp [State.joinQueue]

@[simp] theorem State.freeRamp_frame (s : State) (d : Degree) (h : Handle) :
    (s.freeRamp d h).map = s.map ∧ (s.freeRamp d h).holders = s.holders ∧ (s.freeRamp d h).managers = s.managers ∧
    (s.freeRamp d h).settings = s.settings ∧ (s.freeRamp d h).mon = s.mon ∧ (s.freeRamp d h).banks = s.banks ∧
    (s.freeRamp d h).tracks = s.tracks ∧ (s.freeRamp d h).switchGen = s.switchGen ∧
    (s.freeRamp d h).actives = s.actives ∧ (s.freeRamp d h).matrix = s.matrix ∧ (s.freeRamp d h).trips = s.trips ∧
    (s.freeRamp d h).logs = s.logs ∧ (s.freeRamp d h).ports = s.ports ∧ (s.freeRamp d h).nodeTime = s.nodeTime ∧
    (s.freeRamp d h).held = s.held ∧ (s.freeRamp d h).grantReqs = s.grantReqs ∧
    (s.freeRamp d h).passReqs = s.passReqs ∧ (s.freeRamp d h).declReqs = s.declReqs ∧
    (s.freeRamp d h).tripReqs = s.tripReqs ∧ (s.freeRamp d h).tripPins = s.tripPins ∧
    (s.freeRamp d h).mreqPulses = s.mreqPulses ∧ (s.freeRamp d h).freeCount = s.freeCount ∧
    (s.freeRamp d h).pending = s.pending := by
  simp [State.freeRamp]

@[simp] theorem State.leaveQueue_frame (s : State) (d : Degree) (h : Handle) :
    (s.leaveQueue d h).map = s.map ∧ (s.leaveQueue d h).holders = s.holders ∧
    (s.leaveQueue d h).managers = s.managers ∧ (s.leaveQueue d h).settings = s.settings ∧
    (s.leaveQueue d h).mon = s.mon ∧ (s.leaveQueue d h).banks = s.banks ∧ (s.leaveQueue d h).tracks = s.tracks ∧
    (s.leaveQueue d h).switchGen = s.switchGen ∧ (s.leaveQueue d h).actives = s.actives ∧
    (s.leaveQueue d h).matrix = s.matrix ∧ (s.leaveQueue d h).trips = s.trips ∧ (s.leaveQueue d h).logs = s.logs ∧
    (s.leaveQueue d h).ports = s.ports ∧ (s.leaveQueue d h).nodeTime = s.nodeTime ∧ (s.leaveQueue d h).held = s.held ∧
    (s.leaveQueue d h).grantReqs = s.grantReqs ∧ (s.leaveQueue d h).passReqs = s.passReqs ∧
    (s.leaveQueue d h).declReqs = s.declReqs ∧ (s.leaveQueue d h).tripReqs = s.tripReqs ∧
    (s.leaveQueue d h).tripPins = s.tripPins ∧ (s.leaveQueue d h).mreqPulses = s.mreqPulses ∧
    (s.leaveQueue d h).freeCount = s.freeCount ∧ (s.leaveQueue d h).pending = s.pending := by
  unfold State.leaveQueue
  repeat' (first | (simp; done) | split | dsimp only)

@[simp] theorem State.freeRecord_frame (s : State) (i : SlotIx) (c : Conn) :
    (s.freeRecord i c).managers = s.managers ∧ (s.freeRecord i c).settings = s.settings ∧
    (s.freeRecord i c).ramps = s.ramps ∧ (s.freeRecord i c).mon = s.mon ∧ (s.freeRecord i c).banks = s.banks ∧
    (s.freeRecord i c).switchGen = s.switchGen ∧ (s.freeRecord i c).trips = s.trips ∧
    (s.freeRecord i c).logs = s.logs ∧ (s.freeRecord i c).ports = s.ports ∧ (s.freeRecord i c).nodeTime = s.nodeTime ∧
    (s.freeRecord i c).held = s.held ∧ (s.freeRecord i c).grantReqs = s.grantReqs ∧
    (s.freeRecord i c).passReqs = s.passReqs ∧ (s.freeRecord i c).declReqs = s.declReqs ∧
    (s.freeRecord i c).tripReqs = s.tripReqs ∧ (s.freeRecord i c).tripPins = s.tripPins ∧
    (s.freeRecord i c).mreqPulses = s.mreqPulses ∧ (s.freeRecord i c).freeCount = s.freeCount ∧
    (s.freeRecord i c).pending = s.pending := by
  unfold State.freeRecord
  repeat' (first | (simp; done) | split | dsimp only)

@[simp] theorem State.drainTest_frame (s : State) (i : SlotIx) :
    (s.drainTest i).managers = s.managers ∧ (s.drainTest i).settings = s.settings ∧ (s.drainTest i).ramps = s.ramps ∧
    (s.drainTest i).mon = s.mon ∧ (s.drainTest i).banks = s.banks ∧ (s.drainTest i).switchGen = s.switchGen ∧
    (s.drainTest i).trips = s.trips ∧ (s.drainTest i).logs = s.logs ∧ (s.drainTest i).nodeTime = s.nodeTime ∧
    (s.drainTest i).held = s.held ∧ (s.drainTest i).grantReqs = s.grantReqs ∧ (s.drainTest i).passReqs = s.passReqs ∧
    (s.drainTest i).declReqs = s.declReqs ∧ (s.drainTest i).tripReqs = s.tripReqs ∧
    (s.drainTest i).tripPins = s.tripPins ∧ (s.drainTest i).mreqPulses = s.mreqPulses ∧
    (s.drainTest i).freeCount = s.freeCount ∧ (s.drainTest i).pending = s.pending := by
  unfold State.drainTest
  repeat' (first | (simp; done) | split | dsimp only)

@[simp] theorem State.addCause_frame (s : State) (i : SlotIx) (k : Cause) :
    (s.addCause i k).map = s.map ∧ (s.addCause i k).holders = s.holders ∧ (s.addCause i k).managers = s.managers ∧
    (s.addCause i k).settings = s.settings ∧ (s.addCause i k).mon = s.mon ∧ (s.addCause i k).banks = s.banks ∧
    (s.addCause i k).tracks = s.tracks ∧ (s.addCause i k).switchGen = s.switchGen ∧
    (s.addCause i k).actives = s.actives ∧ (s.addCause i k).matrix = s.matrix ∧ (s.addCause i k).trips = s.trips ∧
    (s.addCause i k).logs = s.logs ∧ (s.addCause i k).nodeTime = s.nodeTime ∧ (s.addCause i k).held = s.held ∧
    (s.addCause i k).grantReqs = s.grantReqs ∧ (s.addCause i k).passReqs = s.passReqs ∧
    (s.addCause i k).declReqs = s.declReqs ∧ (s.addCause i k).tripReqs = s.tripReqs ∧
    (s.addCause i k).tripPins = s.tripPins ∧ (s.addCause i k).mreqPulses = s.mreqPulses ∧
    (s.addCause i k).freeCount = s.freeCount ∧ (s.addCause i k).pending = s.pending := by
  unfold State.addCause
  repeat' (first | (simp; done) | split | dsimp only)

@[simp] theorem State.removeCause_frame (s : State) (i : SlotIx) (k : Cause) :
    (s.removeCause i k).map = s.map ∧ (s.removeCause i k).holders = s.holders ∧
    (s.removeCause i k).managers = s.managers ∧ (s.removeCause i k).settings = s.settings ∧
    (s.removeCause i k).mon = s.mon ∧ (s.removeCause i k).banks = s.banks ∧ (s.removeCause i k).tracks = s.tracks ∧
    (s.removeCause i k).switchGen = s.switchGen ∧ (s.removeCause i k).actives = s.actives ∧
    (s.removeCause i k).matrix = s.matrix ∧ (s.removeCause i k).trips = s.trips ∧ (s.removeCause i k).logs = s.logs ∧
    (s.removeCause i k).nodeTime = s.nodeTime ∧ (s.removeCause i k).held = s.held ∧
    (s.removeCause i k).grantReqs = s.grantReqs ∧ (s.removeCause i k).passReqs = s.passReqs ∧
    (s.removeCause i k).declReqs = s.declReqs ∧ (s.removeCause i k).tripReqs = s.tripReqs ∧
    (s.removeCause i k).tripPins = s.tripPins ∧ (s.removeCause i k).mreqPulses = s.mreqPulses ∧
    (s.removeCause i k).freeCount = s.freeCount ∧ (s.removeCause i k).pending = s.pending := by
  unfold State.removeCause
  dsimp only
  repeat' (first | (simp; done) | split | dsimp only)

@[simp] theorem State.enterHolding_frame (s : State) (d : Degree) :
    (s.enterHolding d).table = s.table ∧ (s.enterHolding d).map = s.map ∧ (s.enterHolding d).holders = s.holders ∧
    (s.enterHolding d).managers = s.managers ∧ (s.enterHolding d).settings = s.settings ∧
    (s.enterHolding d).ramps = s.ramps ∧ (s.enterHolding d).mon = s.mon ∧ (s.enterHolding d).banks = s.banks ∧
    (s.enterHolding d).tracks = s.tracks ∧ (s.enterHolding d).links = s.links ∧
    (s.enterHolding d).switchGen = s.switchGen ∧ (s.enterHolding d).actives = s.actives ∧
    (s.enterHolding d).matrix = s.matrix ∧ (s.enterHolding d).logs = s.logs ∧ (s.enterHolding d).ports = s.ports ∧
    (s.enterHolding d).nodeTime = s.nodeTime ∧ (s.enterHolding d).held = s.held ∧
    (s.enterHolding d).grantReqs = s.grantReqs ∧ (s.enterHolding d).passReqs = s.passReqs ∧
    (s.enterHolding d).declReqs = s.declReqs ∧ (s.enterHolding d).tripReqs = s.tripReqs ∧
    (s.enterHolding d).tripPins = s.tripPins ∧ (s.enterHolding d).mreqPulses = s.mreqPulses ∧
    (s.enterHolding d).freeCount = s.freeCount ∧ (s.enterHolding d).pending = s.pending := by
  simp [State.enterHolding]

@[simp] theorem State.enterTripped_frame (s : State) (d : Degree) :
    (s.enterTripped d).managers = s.managers ∧ (s.enterTripped d).settings = s.settings ∧
    (s.enterTripped d).mon = s.mon ∧ (s.enterTripped d).banks = s.banks ∧ (s.enterTripped d).switchGen = s.switchGen ∧
    (s.enterTripped d).logs = s.logs ∧ (s.enterTripped d).nodeTime = s.nodeTime ∧ (s.enterTripped d).held = s.held ∧
    (s.enterTripped d).grantReqs = s.grantReqs ∧ (s.enterTripped d).passReqs = s.passReqs ∧
    (s.enterTripped d).declReqs = s.declReqs ∧ (s.enterTripped d).tripReqs = s.tripReqs ∧
    (s.enterTripped d).tripPins = s.tripPins ∧ (s.enterTripped d).mreqPulses = s.mreqPulses ∧
    (s.enterTripped d).freeCount = s.freeCount ∧ (s.enterTripped d).pending = s.pending := by
  unfold State.enterTripped
  refine ⟨(foldl_keeps (·.managers) _ (by intro s i; simp) _ _).trans
    ((foldl_keeps (·.managers) _ (by intro s i; simp) _ _).trans (by simp)),
    (foldl_keeps (·.settings) _ (by intro s i; simp) _ _).trans
    ((foldl_keeps (·.settings) _ (by intro s i; simp) _ _).trans (by simp)),
    (foldl_keeps (·.mon) _ (by intro s i; simp) _ _).trans
    ((foldl_keeps (·.mon) _ (by intro s i; simp) _ _).trans (by simp)),
    (foldl_keeps (·.banks) _ (by intro s i; simp) _ _).trans
    ((foldl_keeps (·.banks) _ (by intro s i; simp) _ _).trans (by simp)),
    (foldl_keeps (·.switchGen) _ (by intro s i; simp) _ _).trans
    ((foldl_keeps (·.switchGen) _ (by intro s i; simp) _ _).trans (by simp)),
    (foldl_keeps (·.logs) _ (by intro s i; simp) _ _).trans
    ((foldl_keeps (·.logs) _ (by intro s i; simp) _ _).trans (by simp)),
    (foldl_keeps (·.nodeTime) _ (by intro s i; simp) _ _).trans
    ((foldl_keeps (·.nodeTime) _ (by intro s i; simp) _ _).trans (by simp)),
    (foldl_keeps (·.held) _ (by intro s i; simp) _ _).trans
    ((foldl_keeps (·.held) _ (by intro s i; simp) _ _).trans (by simp)),
    (foldl_keeps (·.grantReqs) _ (by intro s i; simp) _ _).trans
    ((foldl_keeps (·.grantReqs) _ (by intro s i; simp) _ _).trans (by simp)),
    (foldl_keeps (·.passReqs) _ (by intro s i; simp) _ _).trans
    ((foldl_keeps (·.passReqs) _ (by intro s i; simp) _ _).trans (by simp)),
    (foldl_keeps (·.declReqs) _ (by intro s i; simp) _ _).trans
    ((foldl_keeps (·.declReqs) _ (by intro s i; simp) _ _).trans (by simp)),
    (foldl_keeps (·.tripReqs) _ (by intro s i; simp) _ _).trans
    ((foldl_keeps (·.tripReqs) _ (by intro s i; simp) _ _).trans (by simp)),
    (foldl_keeps (·.tripPins) _ (by intro s i; simp) _ _).trans
    ((foldl_keeps (·.tripPins) _ (by intro s i; simp) _ _).trans (by simp)),
    (foldl_keeps (·.mreqPulses) _ (by intro s i; simp) _ _).trans
    ((foldl_keeps (·.mreqPulses) _ (by intro s i; simp) _ _).trans (by simp)),
    (foldl_keeps (·.freeCount) _ (by intro s i; simp) _ _).trans
    ((foldl_keeps (·.freeCount) _ (by intro s i; simp) _ _).trans (by simp)),
    (foldl_keeps (·.pending) _ (by intro s i; simp) _ _).trans
    ((foldl_keeps (·.pending) _ (by intro s i; simp) _ _).trans (by simp))⟩

@[simp] theorem State.endTrip_frame (s : State) (d : Degree) :
    (s.endTrip d).map = s.map ∧ (s.endTrip d).holders = s.holders ∧ (s.endTrip d).managers = s.managers ∧
    (s.endTrip d).settings = s.settings ∧ (s.endTrip d).mon = s.mon ∧ (s.endTrip d).banks = s.banks ∧
    (s.endTrip d).tracks = s.tracks ∧ (s.endTrip d).switchGen = s.switchGen ∧ (s.endTrip d).actives = s.actives ∧
    (s.endTrip d).matrix = s.matrix ∧ (s.endTrip d).logs = s.logs ∧ (s.endTrip d).nodeTime = s.nodeTime ∧
    (s.endTrip d).held = s.held ∧ (s.endTrip d).passReqs = s.passReqs ∧ (s.endTrip d).declReqs = s.declReqs ∧
    (s.endTrip d).tripReqs = s.tripReqs ∧ (s.endTrip d).tripPins = s.tripPins ∧
    (s.endTrip d).mreqPulses = s.mreqPulses ∧ (s.endTrip d).freeCount = s.freeCount ∧
    (s.endTrip d).pending = s.pending := by
  unfold State.endTrip
  simp only [State.offerEvent_frame]
  refine ⟨(foldl_keeps (·.map) _ (by intro s i; simp) _ _).trans (by simp),
    (foldl_keeps (·.holders) _ (by intro s i; simp) _ _).trans (by simp),
    (foldl_keeps (·.managers) _ (by intro s i; simp) _ _).trans (by simp),
    (foldl_keeps (·.settings) _ (by intro s i; simp) _ _).trans (by simp),
    (foldl_keeps (·.mon) _ (by intro s i; simp) _ _).trans (by simp),
    (foldl_keeps (·.banks) _ (by intro s i; simp) _ _).trans (by simp),
    (foldl_keeps (·.tracks) _ (by intro s i; simp) _ _).trans (by simp),
    (foldl_keeps (·.switchGen) _ (by intro s i; simp) _ _).trans (by simp),
    (foldl_keeps (·.actives) _ (by intro s i; simp) _ _).trans (by simp),
    (foldl_keeps (·.matrix) _ (by intro s i; simp) _ _).trans (by simp),
    (foldl_keeps (·.logs) _ (by intro s i; simp) _ _).trans (by simp),
    (foldl_keeps (·.nodeTime) _ (by intro s i; simp) _ _).trans (by simp),
    (foldl_keeps (·.held) _ (by intro s i; simp) _ _).trans (by simp),
    (foldl_keeps (·.passReqs) _ (by intro s i; simp) _ _).trans (by simp),
    (foldl_keeps (·.declReqs) _ (by intro s i; simp) _ _).trans (by simp),
    (foldl_keeps (·.tripReqs) _ (by intro s i; simp) _ _).trans (by simp),
    (foldl_keeps (·.tripPins) _ (by intro s i; simp) _ _).trans (by simp),
    (foldl_keeps (·.mreqPulses) _ (by intro s i; simp) _ _).trans (by simp),
    (foldl_keeps (·.freeCount) _ (by intro s i; simp) _ _).trans (by simp),
    (foldl_keeps (·.pending) _ (by intro s i; simp) _ _).trans (by simp)⟩

@[simp] theorem State.applyTrip_frame (s : State) (d : Degree) (ch : TripChange) :
    (s.applyTrip d ch).managers = s.managers ∧ (s.applyTrip d ch).settings = s.settings ∧
    (s.applyTrip d ch).mon = s.mon ∧ (s.applyTrip d ch).banks = s.banks ∧ (s.applyTrip d ch).switchGen = s.switchGen ∧
    (s.applyTrip d ch).logs = s.logs ∧ (s.applyTrip d ch).nodeTime = s.nodeTime ∧ (s.applyTrip d ch).held = s.held ∧
    (s.applyTrip d ch).passReqs = s.passReqs ∧ (s.applyTrip d ch).declReqs = s.declReqs ∧
    (s.applyTrip d ch).tripReqs = s.tripReqs ∧ (s.applyTrip d ch).tripPins = s.tripPins ∧
    (s.applyTrip d ch).mreqPulses = s.mreqPulses ∧ (s.applyTrip d ch).freeCount = s.freeCount ∧
    (s.applyTrip d ch).pending = s.pending := by
  cases ch <;> simp [State.applyTrip]

@[simp] theorem State.takeHandOff_frame (s : State) (d : Degree) :
    (s.takeHandOff d).managers = s.managers ∧ (s.takeHandOff d).settings = s.settings ∧
    (s.takeHandOff d).mon = s.mon ∧ (s.takeHandOff d).banks = s.banks ∧ (s.takeHandOff d).switchGen = s.switchGen ∧
    (s.takeHandOff d).logs = s.logs ∧ (s.takeHandOff d).nodeTime = s.nodeTime ∧ (s.takeHandOff d).held = s.held ∧
    (s.takeHandOff d).passReqs = s.passReqs ∧ (s.takeHandOff d).declReqs = s.declReqs ∧
    (s.takeHandOff d).tripPins = s.tripPins ∧ (s.takeHandOff d).mreqPulses = s.mreqPulses ∧
    (s.takeHandOff d).freeCount = s.freeCount ∧ (s.takeHandOff d).pending = s.pending := by
  unfold State.takeHandOff
  repeat' (first | (simp; done) | split | dsimp only)

@[simp] theorem State.activateRecord_frame (s : State) (i : SlotIx) (c : Conn) :
    (s.activateRecord i c).map = s.map ∧ (s.activateRecord i c).holders = s.holders ∧
    (s.activateRecord i c).managers = s.managers ∧ (s.activateRecord i c).settings = s.settings ∧
    (s.activateRecord i c).ramps = s.ramps ∧ (s.activateRecord i c).mon = s.mon ∧
    (s.activateRecord i c).banks = s.banks ∧ (s.activateRecord i c).switchGen = s.switchGen ∧
    (s.activateRecord i c).actives = s.actives ∧ (s.activateRecord i c).matrix = s.matrix ∧
    (s.activateRecord i c).trips = s.trips ∧ (s.activateRecord i c).logs = s.logs ∧
    (s.activateRecord i c).ports = s.ports ∧ (s.activateRecord i c).nodeTime = s.nodeTime ∧
    (s.activateRecord i c).held = s.held ∧ (s.activateRecord i c).grantReqs = s.grantReqs ∧
    (s.activateRecord i c).passReqs = s.passReqs ∧ (s.activateRecord i c).declReqs = s.declReqs ∧
    (s.activateRecord i c).tripReqs = s.tripReqs ∧ (s.activateRecord i c).tripPins = s.tripPins ∧
    (s.activateRecord i c).mreqPulses = s.mreqPulses ∧ (s.activateRecord i c).freeCount = s.freeCount ∧
    (s.activateRecord i c).pending = s.pending := by
  unfold State.activateRecord
  repeat' (first | (simp; done) | split | dsimp only)

@[simp] theorem State.armRecord_frame (s : State) (i : SlotIx) (c : Conn) :
    (s.armRecord i c).map = s.map ∧ (s.armRecord i c).holders = s.holders ∧ (s.armRecord i c).managers = s.managers ∧
    (s.armRecord i c).settings = s.settings ∧ (s.armRecord i c).ramps = s.ramps ∧ (s.armRecord i c).mon = s.mon ∧
    (s.armRecord i c).banks = s.banks ∧ (s.armRecord i c).switchGen = s.switchGen ∧
    (s.armRecord i c).actives = s.actives ∧ (s.armRecord i c).trips = s.trips ∧ (s.armRecord i c).logs = s.logs ∧
    (s.armRecord i c).ports = s.ports ∧ (s.armRecord i c).nodeTime = s.nodeTime ∧ (s.armRecord i c).held = s.held ∧
    (s.armRecord i c).grantReqs = s.grantReqs ∧ (s.armRecord i c).passReqs = s.passReqs ∧
    (s.armRecord i c).declReqs = s.declReqs ∧ (s.armRecord i c).tripReqs = s.tripReqs ∧
    (s.armRecord i c).tripPins = s.tripPins ∧ (s.armRecord i c).mreqPulses = s.mreqPulses ∧
    (s.armRecord i c).freeCount = s.freeCount ∧ (s.armRecord i c).pending = s.pending := by
  unfold State.armRecord
  repeat' (first | (simp; done) | split | dsimp only)

@[simp] theorem State.capture_frame (s : State) (d : Degree) (h : Handle) (e : Int) :
    (s.capture d h e).table = s.table ∧ (s.capture d h e).map = s.map ∧ (s.capture d h e).holders = s.holders ∧
    (s.capture d h e).managers = s.managers ∧ (s.capture d h e).settings = s.settings ∧
    (s.capture d h e).ramps = s.ramps ∧ (s.capture d h e).mon = s.mon ∧ (s.capture d h e).banks = s.banks ∧
    (s.capture d h e).tracks = s.tracks ∧ (s.capture d h e).links = s.links ∧
    (s.capture d h e).switchGen = s.switchGen ∧ (s.capture d h e).actives = s.actives ∧
    (s.capture d h e).matrix = s.matrix ∧ (s.capture d h e).trips = s.trips ∧
    (s.capture d h e).nodeTime = s.nodeTime ∧ (s.capture d h e).held = s.held ∧
    (s.capture d h e).grantReqs = s.grantReqs ∧ (s.capture d h e).passReqs = s.passReqs ∧
    (s.capture d h e).declReqs = s.declReqs ∧ (s.capture d h e).tripReqs = s.tripReqs ∧
    (s.capture d h e).tripPins = s.tripPins ∧ (s.capture d h e).mreqPulses = s.mreqPulses ∧
    (s.capture d h e).freeCount = s.freeCount ∧ (s.capture d h e).pending = s.pending := by
  unfold State.capture
  dsimp only
  repeat' (first | (simp; done) | split | dsimp only)

@[simp] theorem State.disarm_frame (s : State) (d : Degree) :
    (s.disarm d).table = s.table ∧ (s.disarm d).map = s.map ∧ (s.disarm d).holders = s.holders ∧
    (s.disarm d).managers = s.managers ∧ (s.disarm d).settings = s.settings ∧ (s.disarm d).ramps = s.ramps ∧
    (s.disarm d).mon = s.mon ∧ (s.disarm d).banks = s.banks ∧ (s.disarm d).tracks = s.tracks ∧
    (s.disarm d).links = s.links ∧ (s.disarm d).switchGen = s.switchGen ∧ (s.disarm d).actives = s.actives ∧
    (s.disarm d).matrix = s.matrix ∧ (s.disarm d).trips = s.trips ∧ (s.disarm d).nodeTime = s.nodeTime ∧
    (s.disarm d).held = s.held ∧ (s.disarm d).grantReqs = s.grantReqs ∧ (s.disarm d).passReqs = s.passReqs ∧
    (s.disarm d).declReqs = s.declReqs ∧ (s.disarm d).tripReqs = s.tripReqs ∧ (s.disarm d).tripPins = s.tripPins ∧
    (s.disarm d).mreqPulses = s.mreqPulses ∧ (s.disarm d).freeCount = s.freeCount ∧ (s.disarm d).pending = s.pending := by
  simp [State.disarm]

@[simp] theorem State.handOff_frame (s : State) (d : Degree) (h : Handle) (e : Int) :
    (s.handOff d h e).table = s.table ∧ (s.handOff d h e).map = s.map ∧ (s.handOff d h e).holders = s.holders ∧
    (s.handOff d h e).managers = s.managers ∧ (s.handOff d h e).settings = s.settings ∧
    (s.handOff d h e).ramps = s.ramps ∧ (s.handOff d h e).mon = s.mon ∧ (s.handOff d h e).banks = s.banks ∧
    (s.handOff d h e).tracks = s.tracks ∧ (s.handOff d h e).links = s.links ∧
    (s.handOff d h e).switchGen = s.switchGen ∧ (s.handOff d h e).actives = s.actives ∧
    (s.handOff d h e).matrix = s.matrix ∧ (s.handOff d h e).trips = s.trips ∧
    (s.handOff d h e).nodeTime = s.nodeTime ∧ (s.handOff d h e).held = s.held ∧
    (s.handOff d h e).grantReqs = s.grantReqs ∧ (s.handOff d h e).passReqs = s.passReqs ∧
    (s.handOff d h e).declReqs = s.declReqs ∧ (s.handOff d h e).tripReqs = s.tripReqs ∧
    (s.handOff d h e).tripPins = s.tripPins ∧ (s.handOff d h e).mreqPulses = s.mreqPulses ∧
    (s.handOff d h e).freeCount = s.freeCount ∧ (s.handOff d h e).pending = s.pending := by
  unfold State.handOff
  repeat' (first | (simp; done) | split | dsimp only)

end Sys2Proof.Machine
end

