-- ==== Sys2Proof/Laws/Commands.lean ====
section
/-! SUPPORT. Laws/Commands.lean: when a command is carried out, in one lemma for each case of runCommand and
whileRunning. -/

-- One proof at a time: proofs elaborated side by side wait for each other, a thread of 256 MB each, and a
-- burst of them passes the check's memory limit.
set_option Elab.async false

namespace Sys2Proof.Machine
open Sys2Proof

/-- A command that is carried out: its body's state with its reply placed. -/
theorem runCommand_takes {s : State} {p : Domain} {tag : Byte} {i : Instr} {body : State → State × Answer}
    (h : s.takes p i) : runCommand p tag i body s = .next ((body s).1.reply p tag (body s).2) := by
  obtain ⟨hh, hb | ⟨hb, hc⟩⟩ := h
  · simp [-Fin.getElem_fin, runCommand, hh, hb, answered]
  · cases hs : s.ports[p].slot with
    | busy j => simp [-Fin.getElem_fin, hs, ReplySlot.isBusy] at hb
    | _ => simp [-Fin.getElem_fin, runCommand, hh, hs, hc, answered]

/-- Held in a reset, the part carries out no command (R203). -/
theorem runCommand_held {s : State} {p : Domain} {tag : Byte} {i : Instr} {body : State → State × Answer}
    (h : s.held ≠ none) : runCommand p tag i body s = .next s := by
  cases hh : s.held <;> simp_all [runCommand]

/-- A port BUSY with another command ignores it (R181). -/
theorem runCommand_busy {s : State} {p : Domain} {tag : Byte} {i j : Instr} {body : State → State × Answer}
    (h : s.ports[p].slot = .busy j) (hj : j ≠ i) : runCommand p tag i body s = .next s := by
  simp only [runCommand, h, hj]
  split <;> simp

/-- Everything a command's step can answer: the same state, its body's with the reply, or a reply of
BAD_PARAM for its coding. -/
theorem runCommand_cases (p : Domain) (tag : Byte) (i : Instr) (body : State → State × Answer) (s : State) :
    runCommand p tag i body s = .next s ∨
      runCommand p tag i body s = .next ((body s).1.reply p tag (body s).2) ∨
      runCommand p tag i body s = .next (s.reply p tag (.plain .badParam)) := by
  unfold runCommand
  split
  · exact .inl rfl
  · split
    · split
      · exact .inr (.inl rfl)
      · exact .inl rfl
    · split
      · exact .inr (.inl rfl)
      · exact .inr (.inr rfl)

/-- An event while no reset holds the part has its effect. -/
theorem whileRunning_running {s : State} {f : State → State} (h : s.held = none) :
    whileRunning s f = .next (f s) := by simp [whileRunning, h]

/-- Held in a reset, the part takes no event (R203). -/
theorem whileRunning_held {s : State} {f : State → State} (h : s.held ≠ none) :
    whileRunning s f = .next s := by cases hh : s.held <;> simp_all [whileRunning]

end Sys2Proof.Machine
end

