-- ==== Sys2Proof/Laws/PerInstr.lean ====
section
/-! SUPPORT. Laws/PerInstr.lean: for every constructor, that a well-formed command is read back by a port from
the parameters its frame carries (R183, R187, R189), and that they fit the frame. -/

-- One proof at a time: proofs elaborated side by side wait for each other, a thread of 256 MB each, and a
-- burst of them passes the check's memory limit.
set_option Elab.async false

namespace Sys2Proof.Laws
open Sys2Proof Sys2Proof.Machine

/-! ## Numbers and their octets -/

theorem toNat_ofNat8 {n : Nat} (h : octetOk n = true) : (BitVec.ofNat 8 n).toNat = n := by
  simp only [octetOk, decide_eq_true_eq] at h
  simp [BitVec.toNat_ofNat]
  omega

theorem nat16_u16 {n : Nat} (h : pairOk n = true) :
    nat16 (BitVec.ofNat 8 (n / 256)) (BitVec.ofNat 8 n) = n := by
  simp only [pairOk, decide_eq_true_eq] at h
  simp only [nat16, BitVec.toNat_ofNat]
  omega

theorem ofNat_toNat16 (v : BitVec 16) :
    BitVec.ofNat 16 (nat16 (BitVec.ofNat 8 (v.toNat / 256)) (BitVec.ofNat 8 v.toNat)) = v := by
  have h := v.isLt
  rw [nat16_u16 (by simp only [pairOk, decide_eq_true_eq]; omega)]
  simp

theorem int16_i16 {v : Int} (h : signedOk v = true) :
    int16 (BitVec.ofNat 8 ((BitVec.ofInt 16 v).toNat / 256)) (BitVec.ofNat 8 (BitVec.ofInt 16 v).toNat) = v := by
  simp only [signedOk, decide_eq_true_eq] at h
  rw [int16, ofNat_toNat16, BitVec.toInt_ofInt]
  simp only [Int.bmod]
  omega

/-- The octets of SET_DEGREE's changes are read back as the changes. -/
theorem parseChanges_octets : ∀ cs : List (Nat × Int), (cs.all fun c => octetOk c.1 && signedOk c.2) = true →
    parseChanges (cs.map fun c => u8 c.1 ++ i16 c.2).flatten = some cs ∧
      ((cs.map fun c => u8 c.1 ++ i16 c.2).flatten).length = 3 * cs.length := by
  intro cs
  induction cs with
  | nil => intro _; simp [parseChanges]
  | cons c cs ih =>
    intro h
    simp only [List.all_cons, Bool.and_eq_true] at h
    obtain ⟨ih1, ih2⟩ := ih (by simpa using h.2)
    constructor
    · simp only [List.map_cons, List.flatten_cons, u8, i16, u16, List.cons_append, List.nil_append, parseChanges]
      simp only [u8, i16, u16, List.cons_append, List.nil_append] at ih1
      rw [ih1, toNat_ofNat8 h.1.1, int16_i16 h.1.2]
      rfl
    · have h1 : (u8 c.1 ++ i16 c.2).length = 3 := rfl
      rw [List.map_cons, List.flatten_cons, List.length_append, ih2, h1, List.length_cons]
      omega

namespace Encoding

/-- A port reads a well-formed command back from its parameters, which fit a frame; an event has none. -/
def Statement (i : Instr) : Prop :=
  ∀ (p : Domain) (code : Nat) (tag : Byte) (params : List Byte), commandParts i = some (p, code, tag, params) →
    i.wellFormed = true → params.length ≤ 64 ∧ parseCommand p (BitVec.ofNat 8 code) tag params = .command i

theorem commandTransaction (port : Domain) (event : PortEvent) : Statement (.commandTransaction port event) := by
  intro _ _ _ _ h
  simp [commandParts] at h

theorem claim (port : Domain) (tag : Byte) (endpoint : Nat) :
    Statement (.claim port tag endpoint) := by
  intro _ _ _ _ h w
  simp only [commandParts, Option.some.injEq, Prod.mk.injEq] at h
  obtain ⟨rfl, rfl, rfl, rfl⟩ := h
  simp only [Instr.wellFormed] at w
  refine ⟨by simp [u8], ?_⟩
  show parse1 (.claim port tag) (u8 endpoint) = _
  simp [parse1, u8, toNat_ofNat8 w]

theorem handOver (port : Domain) (tag : Byte) (endpoint domain : Nat) :
    Statement (.handOver port tag endpoint domain) := by
  intro _ _ _ _ h w
  simp only [commandParts, Option.some.injEq, Prod.mk.injEq] at h
  obtain ⟨rfl, rfl, rfl, rfl⟩ := h
  simp only [Instr.wellFormed, Bool.and_eq_true] at w
  refine ⟨by simp [u8], ?_⟩
  show parseHandOver port tag (u8 endpoint ++ u8 domain) = _
  simp only [parseHandOver, u8, List.cons_append, List.nil_append, toNat_ofNat8 w.1, toNat_ofNat8 w.2]

theorem unclaim (port : Domain) (tag : Byte) (endpoint : Nat) :
    Statement (.unclaim port tag endpoint) := by
  intro _ _ _ _ h w
  simp only [commandParts, Option.some.injEq, Prod.mk.injEq] at h
  obtain ⟨rfl, rfl, rfl, rfl⟩ := h
  simp only [Instr.wellFormed] at w
  refine ⟨by simp [u8], ?_⟩
  show parse1 (.unclaim port tag) (u8 endpoint) = _
  simp [parse1, u8, toNat_ofNat8 w]

theorem readEndpoints (port : Domain) (tag : Byte) :
    Statement (.readEndpoints port tag) := by
  intro _ _ _ _ h _
  simp only [commandParts, Option.some.injEq, Prod.mk.injEq] at h
  obtain ⟨rfl, rfl, rfl, rfl⟩ := h
  exact ⟨by decide, rfl⟩

theorem propose (port : Domain) (tag : Byte) (source sink first width hold auto : Nat) (level : Int) (notify : Nat) :
    Statement (.propose port tag source sink first width hold auto level notify) := by
  intro _ _ _ _ h w
  simp only [commandParts, Option.some.injEq, Prod.mk.injEq] at h
  obtain ⟨rfl, rfl, rfl, rfl⟩ := h
  simp only [Instr.wellFormed, Bool.and_eq_true] at w
  obtain ⟨⟨⟨⟨⟨⟨⟨w1, w2⟩, w3⟩, w4⟩, w5⟩, w6⟩, w7⟩, w8⟩ := w
  refine ⟨by simp [u8, u16, i16], ?_⟩
  show parsePropose port tag (u8 source ++ u8 sink ++ u16 first ++ u8 width ++ u8 hold ++ u8 auto ++ i16 level ++
    u8 notify) = _
  simp only [parsePropose, u8, u16, i16, List.cons_append, List.nil_append, toNat_ofNat8 w1, toNat_ofNat8 w2,
    nat16_u16 w3, toNat_ofNat8 w4, toNat_ofNat8 w5, toNat_ofNat8 w6, int16_i16 w7, toNat_ofNat8 w8]

theorem accept (port : Domain) (tag : Byte) (slot : Nat) (gen : BitVec 8) :
    Statement (.accept port tag slot gen) := by
  intro _ _ _ _ h w
  simp only [commandParts, Option.some.injEq, Prod.mk.injEq] at h
  obtain ⟨rfl, rfl, rfl, rfl⟩ := h
  simp only [Instr.wellFormed] at w
  refine ⟨by simp [u8], ?_⟩
  show parseHandle (.accept port tag) (u8 slot ++ [gen]) = _
  simp [parseHandle, u8, toNat_ofNat8 w]

theorem decline (port : Domain) (tag : Byte) (slot : Nat) (gen : BitVec 8) :
    Statement (.decline port tag slot gen) := by
  intro _ _ _ _ h w
  simp only [commandParts, Option.some.injEq, Prod.mk.injEq] at h
  obtain ⟨rfl, rfl, rfl, rfl⟩ := h
  simp only [Instr.wellFormed] at w
  refine ⟨by simp [u8], ?_⟩
  show parseHandle (.decline port tag) (u8 slot ++ [gen]) = _
  simp [parseHandle, u8, toNat_ofNat8 w]

theorem activate (port : Domain) (tag : Byte) (slot : Nat) (gen : BitVec 8) :
    Statement (.activate port tag slot gen) := by
  intro _ _ _ _ h w
  simp only [commandParts, Option.some.injEq, Prod.mk.injEq] at h
  obtain ⟨rfl, rfl, rfl, rfl⟩ := h
  simp only [Instr.wellFormed] at w
  refine ⟨by simp [u8], ?_⟩
  show parseHandle (.activate port tag) (u8 slot ++ [gen]) = _
  simp [parseHandle, u8, toNat_ofNat8 w]

theorem release (port : Domain) (tag : Byte) (slot : Nat) (gen : BitVec 8) :
    Statement (.release port tag slot gen) := by
  intro _ _ _ _ h w
  simp only [commandParts, Option.some.injEq, Prod.mk.injEq] at h
  obtain ⟨rfl, rfl, rfl, rfl⟩ := h
  simp only [Instr.wellFormed] at w
  refine ⟨by simp [u8], ?_⟩
  show parseHandle (.release port tag) (u8 slot ++ [gen]) = _
  simp [parseHandle, u8, toNat_ofNat8 w]

theorem setTarget (port : Domain) (tag : Byte) (slot : Nat) (gen : BitVec 8) (level : Int) :
    Statement (.setTarget port tag slot gen level) := by
  intro _ _ _ _ h w
  simp only [commandParts, Option.some.injEq, Prod.mk.injEq] at h
  obtain ⟨rfl, rfl, rfl, rfl⟩ := h
  simp only [Instr.wellFormed, Bool.and_eq_true] at w
  refine ⟨by simp [u8, i16, u16], ?_⟩
  show parseHandleLevel (.setTarget port tag) (u8 slot ++ [gen] ++ i16 level) = _
  simp only [parseHandleLevel, u8, i16, u16, List.cons_append, List.nil_append, toNat_ofNat8 w.1, int16_i16 w.2]

theorem setDropAtten (port : Domain) (tag : Byte) (slot : Nat) (gen : BitVec 8) (atten : Int) :
    Statement (.setDropAtten port tag slot gen atten) := by
  intro _ _ _ _ h w
  simp only [commandParts, Option.some.injEq, Prod.mk.injEq] at h
  obtain ⟨rfl, rfl, rfl, rfl⟩ := h
  simp only [Instr.wellFormed, Bool.and_eq_true] at w
  refine ⟨by simp [u8, i16, u16], ?_⟩
  show parseHandleLevel (.setDropAtten port tag) (u8 slot ++ [gen] ++ i16 atten) = _
  simp only [parseHandleLevel, u8, i16, u16, List.cons_append, List.nil_append, toNat_ofNat8 w.1, int16_i16 w.2]

theorem readConn (port : Domain) (tag : Byte) (slot : Nat) (gen : BitVec 8) :
    Statement (.readConn port tag slot gen) := by
  intro _ _ _ _ h w
  simp only [commandParts, Option.some.injEq, Prod.mk.injEq] at h
  obtain ⟨rfl, rfl, rfl, rfl⟩ := h
  simp only [Instr.wellFormed] at w
  refine ⟨by simp [u8], ?_⟩
  show parseHandle (.readConn port tag) (u8 slot ++ [gen]) = _
  simp [parseHandle, u8, toNat_ofNat8 w]

theorem listSpans (port : Domain) (tag : Byte) (degree list start : Nat) :
    Statement (.listSpans port tag degree list start) := by
  intro _ _ _ _ h w
  simp only [commandParts, Option.some.injEq, Prod.mk.injEq] at h
  obtain ⟨rfl, rfl, rfl, rfl⟩ := h
  simp only [Instr.wellFormed, Bool.and_eq_true] at w
  refine ⟨by simp [u8, u16], ?_⟩
  show parseListSpans port tag (u8 degree ++ u8 list ++ u16 start) = _
  simp only [parseListSpans, u8, u16, List.cons_append, List.nil_append, toNat_ofNat8 w.1.1, toNat_ofNat8 w.1.2,
    nat16_u16 w.2]

theorem readLevel (port : Domain) (tag : Byte) (tap first width : Nat) :
    Statement (.readLevel port tag tap first width) := by
  intro _ _ _ _ h w
  simp only [commandParts, Option.some.injEq, Prod.mk.injEq] at h
  obtain ⟨rfl, rfl, rfl, rfl⟩ := h
  simp only [Instr.wellFormed, Bool.and_eq_true] at w
  refine ⟨by simp [u8, u16], ?_⟩
  show parseReadLevel port tag (u8 tap ++ u16 first ++ u8 width) = _
  simp only [parseReadLevel, u8, u16, List.cons_append, List.nil_append, toNat_ofNat8 w.1.1, nat16_u16 w.1.2,
    toNat_ofNat8 w.2]

theorem setDegree (port : Domain) (tag : Byte) (degree : Nat) (changes : List (Nat × Int)) :
    Statement (.setDegree port tag degree changes) := by
  intro _ _ _ _ h w
  simp only [commandParts, Option.some.injEq, Prod.mk.injEq] at h
  obtain ⟨rfl, rfl, rfl, rfl⟩ := h
  simp only [Instr.wellFormed, changesFit, Bool.and_eq_true, decide_eq_true_eq] at w
  obtain ⟨h1, h2⟩ := parseChanges_octets changes w.2.2
  have h3 : changes.length ≤ 18 := w.2.1
  constructor
  · have h4 : (u8 degree).length = 1 := rfl
    rw [List.length_append, h2, h4]
    omega
  · show parseSetDegree port tag (u8 degree ++ _) = _
    simp only [u8, List.cons_append, List.nil_append, parseSetDegree]
    simp only [u8, List.cons_append, List.nil_append] at h1
    rw [h1, toNat_ofNat8 w.1]
    simp [h3]

theorem readDegree (port : Domain) (tag : Byte) (degree : Nat) :
    Statement (.readDegree port tag degree) := by
  intro _ _ _ _ h w
  simp only [commandParts, Option.some.injEq, Prod.mk.injEq] at h
  obtain ⟨rfl, rfl, rfl, rfl⟩ := h
  simp only [Instr.wellFormed] at w
  refine ⟨by simp [u8], ?_⟩
  show parse1 (.readDegree port tag) (u8 degree) = _
  simp [parse1, u8, toNat_ofNat8 w]

theorem clearTrip (port : Domain) (tag : Byte) (degree : Nat) :
    Statement (.clearTrip port tag degree) := by
  intro _ _ _ _ h w
  simp only [commandParts, Option.some.injEq, Prod.mk.injEq] at h
  obtain ⟨rfl, rfl, rfl, rfl⟩ := h
  simp only [Instr.wellFormed] at w
  refine ⟨by simp [u8], ?_⟩
  show parse1 (.clearTrip port tag) (u8 degree) = _
  simp [parse1, u8, toNat_ofNat8 w]

theorem retryLink (port : Domain) (tag : Byte) (link : Nat) :
    Statement (.retryLink port tag link) := by
  intro _ _ _ _ h w
  simp only [commandParts, Option.some.injEq, Prod.mk.injEq] at h
  obtain ⟨rfl, rfl, rfl, rfl⟩ := h
  simp only [Instr.wellFormed] at w
  refine ⟨by simp [u8], ?_⟩
  show parse1 (.retryLink port tag) (u8 link) = _
  simp [parse1, u8, toNat_ofNat8 w]

theorem readExcursions (port : Domain) (tag : Byte) (degree : Nat) :
    Statement (.readExcursions port tag degree) := by
  intro _ _ _ _ h w
  simp only [commandParts, Option.some.injEq, Prod.mk.injEq] at h
  obtain ⟨rfl, rfl, rfl, rfl⟩ := h
  simp only [Instr.wellFormed] at w
  refine ⟨by simp [u8], ?_⟩
  show parse1 (.readExcursions port tag) (u8 degree) = _
  simp [parse1, u8, toNat_ofNat8 w]

theorem rearmExcursions (port : Domain) (tag : Byte) (degree : Nat) :
    Statement (.rearmExcursions port tag degree) := by
  intro _ _ _ _ h w
  simp only [commandParts, Option.some.injEq, Prod.mk.injEq] at h
  obtain ⟨rfl, rfl, rfl, rfl⟩ := h
  simp only [Instr.wellFormed] at w
  refine ⟨by simp [u8], ?_⟩
  show parse1 (.rearmExcursions port tag) (u8 degree) = _
  simp [parse1, u8, toNat_ofNat8 w]

theorem fetchNotice (port : Domain) (tag : Byte) :
    Statement (.fetchNotice port tag) := by
  intro _ _ _ _ h _
  simp only [commandParts, Option.some.injEq, Prod.mk.injEq] at h
  obtain ⟨rfl, rfl, rfl, rfl⟩ := h
  exact ⟨by decide, rfl⟩

theorem readPort (port : Domain) (tag : Byte) :
    Statement (.readPort port tag) := by
  intro _ _ _ _ h _
  simp only [commandParts, Option.some.injEq, Prod.mk.injEq] at h
  obtain ⟨rfl, rfl, rfl, rfl⟩ := h
  exact ⟨by decide, rfl⟩

theorem clearFlags (port : Domain) (tag : Byte) (flags : Nat) :
    Statement (.clearFlags port tag flags) := by
  intro _ _ _ _ h w
  simp only [commandParts, Option.some.injEq, Prod.mk.injEq] at h
  obtain ⟨rfl, rfl, rfl, rfl⟩ := h
  simp only [Instr.wellFormed] at w
  refine ⟨by simp [u8], ?_⟩
  show parse1 (.clearFlags port tag) (u8 flags) = _
  simp [parse1, u8, toNat_ofNat8 w]

theorem setMask (port : Domain) (tag : Byte) (flags : Nat) :
    Statement (.setMask port tag flags) := by
  intro _ _ _ _ h w
  simp only [commandParts, Option.some.injEq, Prod.mk.injEq] at h
  obtain ⟨rfl, rfl, rfl, rfl⟩ := h
  simp only [Instr.wellFormed] at w
  refine ⟨by simp [u8], ?_⟩
  show parse1 (.setMask port tag) (u8 flags) = _
  simp [parse1, u8, toNat_ofNat8 w]

theorem setAllNotices (port : Domain) (tag : Byte) (option : Nat) :
    Statement (.setAllNotices port tag option) := by
  intro _ _ _ _ h w
  simp only [commandParts, Option.some.injEq, Prod.mk.injEq] at h
  obtain ⟨rfl, rfl, rfl, rfl⟩ := h
  simp only [Instr.wellFormed] at w
  refine ⟨by simp [u8], ?_⟩
  show parse1 (.setAllNotices port tag) (u8 option) = _
  simp [parse1, u8, toNat_ofNat8 w]

theorem resetPort (port : Domain) (tag : Byte) :
    Statement (.resetPort port tag) := by
  intro _ _ _ _ h _
  simp only [commandParts, Option.some.injEq, Prod.mk.injEq] at h
  obtain ⟨rfl, rfl, rfl, rfl⟩ := h
  exact ⟨by decide, rfl⟩

theorem readNode (port : Domain) (tag : Byte) :
    Statement (.readNode port tag) := by
  intro _ _ _ _ h _
  simp only [commandParts, Option.some.injEq, Prod.mk.injEq] at h
  obtain ⟨rfl, rfl, rfl, rfl⟩ := h
  exact ⟨by decide, rfl⟩

theorem headerWord (word : BitVec 16) : Statement (.headerWord word) := by
  intro _ _ _ _ h
  simp [commandParts] at h

theorem readingWord (word : BitVec 16) : Statement (.readingWord word) := by
  intro _ _ _ _ h
  simp [commandParts] at h

theorem sweepTimeout : Statement .sweepTimeout := by
  intro _ _ _ _ h
  simp [commandParts] at h

theorem done (link : LinkId) (seq : BitVec 8) : Statement (.done link seq) := by
  intro _ _ _ _ h
  simp [commandParts] at h

theorem fault (link : LinkId) (seq : BitVec 8) (cause : Nat) : Statement (.fault link seq cause) := by
  intro _ _ _ _ h
  simp [commandParts] at h

theorem replyTimeout (link : LinkId) : Statement (.replyTimeout link) := by
  intro _ _ _ _ h
  simp [commandParts] at h

theorem discardedFrame (link : LinkId) (octets : List Byte) : Statement (.discardedFrame link octets) := by
  intro _ _ _ _ h
  simp [commandParts] at h

theorem grant (degree : Degree) : Statement (.grant degree) := by
  intro _ _ _ _ h
  simp [commandParts] at h

theorem passResult (degree : Degree) : Statement (.passResult degree) := by
  intro _ _ _ _ h
  simp [commandParts] at h

theorem declaration (slot : SlotIx) (gen : BitVec 8) : Statement (.declaration slot gen) := by
  intro _ _ _ _ h
  simp [commandParts] at h

theorem reservationExpiry (slot : SlotIx) : Statement (.reservationExpiry slot) := by
  intro _ _ _ _ h
  simp [commandParts] at h

theorem lineEvent (degree : Degree) (high : Bool) : Statement (.lineEvent degree high) := by
  intro _ _ _ _ h
  simp [commandParts] at h

theorem tripHandOff (degree : Degree) : Statement (.tripHandOff degree) := by
  intro _ _ _ _ h
  simp [commandParts] at h

theorem holdExpiry (degree : Degree) : Statement (.holdExpiry degree) := by
  intro _ _ _ _ h
  simp [commandParts] at h

theorem coldReset : Statement .coldReset := by
  intro _ _ _ _ h
  simp [commandParts] at h

theorem warmReset : Statement .warmReset := by
  intro _ _ _ _ h
  simp [commandParts] at h

theorem leaveReset (order : List ResetWork) : Statement (.leaveReset order) := by
  intro _ _ _ _ h
  simp [commandParts] at h

theorem nodeTimeAdvance : Statement .nodeTimeAdvance := by
  intro _ _ _ _ h
  simp [commandParts] at h

end Encoding

end Sys2Proof.Laws
end

