-- ==== Sys2Proof/Laws/Records.lean ====
section
/-! SUPPORT. Laws/Records.lean: what reading a record, a port or a list gives after the operations that write
it, what the checks of a command decide, and the one shape of a grant event. -/

-- One proof at a time: proofs elaborated side by side wait for each other, a thread of 256 MB each, and a
-- burst of them passes the check's memory limit.
set_option Elab.async false

namespace Sys2Proof.Machine
open Sys2Proof

/-! ## Vectors -/

/-- One place of a vector after another place is written. -/
theorem get_set {α : Type} {n : Nat} (v : Vector α n) (i j : Fin n) (x : α) :
    (v.set i x)[j] = if j = i then x else v[j] := by
  show (v.set i.val x)[j.val] = _
  rw [Vector.getElem_set]
  by_cases h : i = j
  · simp [h]
  · have h' : i.val ≠ j.val := fun e => h (Fin.ext e)
    rw [if_neg h', if_neg (fun e => h e.symm)]
    rfl

theorem get_set_self {α : Type} {n : Nat} (v : Vector α n) (i : Fin n) (x : α) : (v.set i x)[i] = x := by
  rw [get_set, if_pos rfl]

theorem get_set_ne {α : Type} {n : Nat} (v : Vector α n) {i j : Fin n} (x : α) (h : j ≠ i) :
    (v.set i x)[j] = v[j] := by rw [get_set, if_neg h]

/-! ## Records -/

theorem State.conn_putConn (s : State) (i j : SlotIx) (c : Option Conn) :
    (s.putConn i c).conn j = if j = i then c else s.conn j := by
  show ((s.table.set i { s.table[i] with conn := c })[j]).conn = _
  rw [get_set]
  by_cases h : j = i
  · rw [if_pos h, if_pos h]
  · rw [if_neg h, if_neg h]; rfl

theorem State.gen_putConn (s : State) (i j : SlotIx) (c : Option Conn) :
    (s.putConn i c).table[j].gen = s.table[j].gen := by
  show ((s.table.set i { s.table[i] with conn := c })[j]).gen = _
  rw [get_set]
  by_cases h : j = i
  · rw [if_pos h, h]
  · rw [if_neg h]

/-- A handle finds a connection exactly when its slot holds it under its generation (R25, R50). -/
theorem State.find_eq_some (s : State) (h : Handle) (c : Conn) :
    s.find h = some c ↔ s.table[h.slot].gen = h.gen ∧ s.conn h.slot = some c := by
  unfold State.find
  split
  · next e => exact ⟨fun k => ⟨e, k⟩, fun k => k.2⟩
  · next e => exact ⟨fun k => (nomatch k), fun k => absurd k.1 e⟩

theorem State.find_handleAt (s : State) (i : SlotIx) : s.find (s.handleAt i) = s.conn i := by
  simp only [State.find, State.handleAt, if_pos]

theorem State.manages_iff (s : State) (p : Domain) (e : Endpoint) :
    s.manages p e = true ↔ s.managers[e.index] = some p := by simp [State.manages]

theorem Conn.names_iff (c : Conn) (e : Endpoint) :
    c.names e = true ↔ c.route.source = e ∨ c.route.sink = e := by simp [Conn.names]

/-- The use count is above 0 exactly when some connection names the endpoint (R18, R22). -/
theorem State.useCount_pos_iff (s : State) (e : Endpoint) : 0 < s.useCount e ↔ s.inUse e := by
  rw [State.useCount, List.length_pos_iff_exists_mem]
  constructor
  · rintro ⟨i, h⟩
    have hi := (List.mem_filter.mp h).2
    cases hc : s.conn i with
    | none => rw [hc] at hi; cases hi
    | some c => rw [hc] at hi; exact ⟨i, c, hc, (Conn.names_iff c e).mp hi⟩
  · rintro ⟨i, c, hc, hn⟩
    refine ⟨i, List.mem_filter.mpr ⟨List.mem_finRange i, ?_⟩⟩
    rw [hc]
    exact (Conn.names_iff c e).mpr hn

/-- The slots of the records that sink on a degree. -/
theorem State.mem_sinking (s : State) (d : Degree) (i : SlotIx) :
    i ∈ s.sinking d ↔ ∃ c, s.conn i = some c ∧ c.route.sinkDegree = some d := by
  simp only [State.sinking, slots, List.mem_filter, List.mem_finRange, true_and]
  cases s.conn i <;> simp

/-! ## Ports -/

theorem State.port_mapPort (s : State) (p q : Domain) (f : Port → Port) :
    (s.mapPort p f).ports[q] = if q = p then f s.ports[p] else s.ports[q] := get_set ..

/-- A notice joins a queue that has room, or sets OVERFLOW (R192). -/
theorem Port.join_eq (n : Notice) (q : Port) :
    Port.join n q = if q.queue.length < 16 then { q with queue := q.queue ++ [n] }
      else { q with flags := { q.flags with overflow := true } } := rfl

/-- A notice leaves a queue within its room. -/
theorem Port.join_length (n : Notice) (q : Port) (h : q.queue.length ≤ 16) : (Port.join n q).queue.length ≤ 16 := by
  rw [Port.join_eq]
  split
  · simp only [List.length_append, List.length_singleton]; omega
  · exact h

theorem State.port_tell (s : State) (p q : Domain) (n : Notice) :
    (s.tell p n).ports[q] = if q = p then Port.join n s.ports[p] else s.ports[q] := State.port_mapPort ..

theorem State.port_setFlag (s : State) (p q : Domain) (f : FlagSet) :
    (s.setFlag p f).ports[q] =
      if q = p then { s.ports[p] with flags := s.ports[p].flags.union f } else s.ports[q] := State.port_mapPort ..

/-- What a reply leaves at its port: the slot, and nothing else (R186). -/
theorem State.port_reply (s : State) (p q : Domain) (tag : Byte) (a : Answer) :
    (s.reply p tag a).ports[q] =
      if q = p then { s.ports[p] with slot := .ready ⟨tag, a.code, a.results⟩ } else s.ports[q] :=
  State.port_mapPort ..

/-! ## Lists in order -/

theorem mem_insertBy {α : Type} (key : α → Nat) (x y : α) (l : List α) : y ∈ insertBy key x l ↔ y = x ∨ y ∈ l := by
  induction l with
  | nil => simp [insertBy]
  | cons z l ih =>
    unfold insertBy
    split
    · simp
    · simp only [List.mem_cons, ih]
      constructor
      · rintro (h | h | h)
        · exact .inr (.inl h)
        · exact .inl h
        · exact .inr (.inr h)
      · rintro (h | h | h)
        · exact .inr (.inl h)
        · exact .inl h
        · exact .inr (.inr h)

/-- A span that overlaps no span of an ordered list, and is not empty, stands in it in order (R3, R5). -/
theorem insertBy_before {α : Type} (span : α → Span) (x : α) (w : 0 < (span x).width) (l : List α)
    (o : l.Pairwise fun a b => Span.before (span a) (span b))
    (c : ∀ y ∈ l, Span.overlaps (span x) (span y) = false) :
    (insertBy (fun a => (span a).first) x l).Pairwise fun a b => Span.before (span a) (span b) := by
  induction l with
  | nil => exact List.pairwise_singleton ..
  | cons y l ih =>
    have hy := c y (List.mem_cons_self ..)
    have o' := List.pairwise_cons.mp o
    simp only [Span.overlaps, decide_eq_false_iff_not] at hy
    unfold insertBy
    split
    · next h =>
      refine List.pairwise_cons.mpr ⟨fun z hz => ?_, o⟩
      rcases List.mem_cons.mp hz with rfl | hz
      · simp only [Span.before]; omega
      · have hb := o'.1 z hz
        simp only [Span.before] at hb ⊢
        omega
    · next h =>
      refine List.pairwise_cons.mpr ⟨fun z hz => ?_, ih o'.2 fun z hz => c z (List.mem_cons_of_mem _ hz)⟩
      rcases (mem_insertBy _ _ _ _).mp hz with rfl | hz
      · simp only [Span.before]; omega
      · exact o'.1 z hz

/-! ## Grants -/

/-- All that taking a grant can do (R40, R58): nothing, or the one entry's record enters its ramp. -/
theorem State.takeGrant_cases (s : State) (d : Degree) (h : Handle) :
    s.takeGrant d h = s ∨
    ∃ c, s.find h = some c ∧
      (c.state = .pendingUp ∧ s.takeGrant d h =
        ((s.mapRamps d fun r => (r.dequeue h).hold h none).putConn h.slot
          (some { c with state := .rampUp, shadow := .att 250 })).mark (degreeLink d) ∨
       c.state = .pendingDown ∧ s.takeGrant d h =
        (s.mapRamps d fun r => (r.dequeue h).hold h none).putConn h.slot (some { c with state := .rampDown })) := by
  unfold State.takeGrant
  cases hf : s.find h with
  | none => exact .inl rfl
  | some c =>
    cases hs : c.state
    case pendingUp => exact .inr ⟨c, rfl, .inl ⟨hs, by simp [hs]⟩⟩
    case pendingDown => exact .inr ⟨c, rfl, .inr ⟨hs, by simp [hs]⟩⟩
    all_goals exact .inl (by simp [hs])

/-- What every grant taken keeps, a grant event keeps (R57, R58). -/
theorem State.grantEvent_keeps (P : State → Prop) (d : Degree) (step : ∀ s h, P s → s.canGrant d = true → P (s.takeGrant d h))
    (s : State) (hs : P s) : P (s.grantEvent d) := by
  unfold State.grantEvent
  generalize s.ramps[d].unoffered = l
  induction l generalizing s with
  | nil => exact hs
  | cons h l ih =>
    rw [List.foldl_cons]
    split
    · next g => exact ih _ (step s h hs g)
    · exact ih _ hs

/-- With no conditions of a grant met, a grant event changes nothing (R57). -/
theorem State.grantEvent_none (s : State) (d : Degree) (h : s.canGrant d = false) : s.grantEvent d = s := by
  unfold State.grantEvent
  generalize s.ramps[d].unoffered = l
  induction l with
  | nil => rfl
  | cons x l ih => rw [List.foldl_cons, if_neg (by simp [h]), ih]

end Sys2Proof.Machine
end

