-- ==== Sys2Proof/Laws/Timers.lean ====
section
/-! SUPPORT. Laws/Timers.lean: what the taking of an expiry can do, in one lemma for each timer, and node time's
advance by the reset that holds the part (R177). -/

-- One proof at a time: proofs elaborated side by side wait for each other, a thread of 256 MB each, and a
-- burst of them passes the check's memory limit.
set_option Elab.async false

namespace Sys2Proof.Machine
open Sys2Proof

/-- A timer runs out at the one count that equals its expiry. -/
theorem expired_iff {now expiry : Time} : expired now expiry = true ↔ now = expiry := by simp [expired]

/-- A reservation is taken for a PROPOSED record whose expiry node time stands at, and for no other. -/
theorem State.takeReservation_cases (s : State) (i : SlotIx) :
    s.takeReservation i = s ∨ ∃ c, s.conn i = some c ∧ c.state = .proposed ∧ c.expiry = some s.nodeTime ∧
      s.takeReservation i = (s.expireReservation i c).finish := by
  unfold State.takeReservation
  split
  · exact .inl rfl
  · next c hc =>
    split
    · exact .inl rfl
    · next e he =>
      split
      · next h => exact .inr ⟨c, hc, h.1, by rw [he, expired_iff.1 h.2], rfl⟩
      · exact .inl rfl

/-- The sweep timer is taken at its expiry, and the request fails. -/
theorem State.takeSweepExpiry_cases (s : State) :
    s.takeSweepExpiry = s ∨ s.mon.timer = some s.nodeTime ∧ s.takeSweepExpiry = s.failRequest .timeout := by
  unfold State.takeSweepExpiry
  split
  · exact .inl rfl
  · next e he =>
    split
    · next h => exact .inr ⟨by rw [he, expired_iff.1 h], rfl⟩
    · exact .inl rfl

/-- A reply timer is taken at its expiry with a batch in flight, and the link fails. -/
theorem State.takeReplyExpiry_cases (s : State) (l : LinkId) :
    s.takeReplyExpiry l = s ∨ ∃ b, s.links[l].inFlight = some b ∧ s.links[l].timer = some s.nodeTime ∧
      s.takeReplyExpiry l = s.failLink l b .timeout := by
  unfold State.takeReplyExpiry
  split
  · next b e hb he =>
    split
    · next h => exact .inr ⟨b, hb, by rw [he, expired_iff.1 h], rfl⟩
    · exact .inl rfl
  · exact .inl rfl

/-- A hold timer is taken at its expiry in HOLDING with no hand-off waiting, and the end of the trip waits. -/
theorem State.takeHoldExpiry_cases (s : State) (d : Degree) :
    s.takeHoldExpiry d = s ∨ s.trips[d].state = .holding ∧ s.tripReqs[d] = none ∧ s.trips[d].timer = some s.nodeTime ∧
      s.takeHoldExpiry d = { s with tripReqs := s.tripReqs.set d (some .clear) } := by
  unfold State.takeHoldExpiry
  split
  · exact .inl rfl
  · next e he =>
    split
    · next h => exact .inr ⟨h.1, h.2.1, by rw [he, expired_iff.1 h.2.2], rfl⟩
    · exact .inl rfl

/-- Node time's advance with no reset, under WARMn alone, and under COLDn. -/
theorem execNodeTimeAdvance_running {s : State} (h : s.held = none) :
    execNodeTimeAdvance s = .next s.takeExpiries.tick := by simp [execNodeTimeAdvance, h]
theorem execNodeTimeAdvance_warm {s : State} (h : s.held = some .warm) : execNodeTimeAdvance s = .next s.tick := by
  simp [execNodeTimeAdvance, h]
theorem execNodeTimeAdvance_cold {s : State} (h : s.held = some .cold) : execNodeTimeAdvance s = .next s := by
  simp [execNodeTimeAdvance, h]

/-! ## The fields of a tick -/

@[simp] theorem State.tick_nodeTime (s : State) : s.tick.nodeTime = s.nodeTime + 1 := rfl
@[simp] theorem State.tick_table (s : State) : s.tick.table = s.table := rfl
@[simp] theorem State.tick_map (s : State) : s.tick.map = s.map := rfl
@[simp] theorem State.tick_holders (s : State) : s.tick.holders = s.holders := rfl
@[simp] theorem State.tick_managers (s : State) : s.tick.managers = s.managers := rfl
@[simp] theorem State.tick_settings (s : State) : s.tick.settings = s.settings := rfl
@[simp] theorem State.tick_ramps (s : State) : s.tick.ramps = s.ramps := rfl
@[simp] theorem State.tick_mon (s : State) : s.tick.mon = s.mon := rfl
@[simp] theorem State.tick_links (s : State) : s.tick.links = s.links := rfl
@[simp] theorem State.tick_actives (s : State) : s.tick.actives = s.actives := rfl
@[simp] theorem State.tick_trips (s : State) : s.tick.trips = s.trips := rfl
@[simp] theorem State.tick_ports (s : State) : s.tick.ports = s.ports := rfl
@[simp] theorem State.tick_held (s : State) : s.tick.held = s.held := rfl
@[simp] theorem State.tick_tripReqs (s : State) : s.tick.tripReqs = s.tripReqs := rfl
@[simp] theorem State.tick_pending (s : State) : s.tick.pending = s.pending := rfl

end Sys2Proof.Machine
end

