-- ==== Sys2Proof/Tests/Slice0.lean ====
section
/-! SUPPORT. Tests/Slice0.lean: the smoke test of the well-formedness checks, figures of the manual worked
through the model's own definitions, and for every statement a state that meets its hypotheses. -/

-- One proof at a time: proofs elaborated side by side wait for each other, a thread of 256 MB each, and a
-- burst of them passes the check's memory limit.
set_option Elab.async false

namespace Sys2Proof.Tests
open Sys2Proof Sys2Proof.Machine

/-! ## Well-formedness: an ill-formed term for each check -/

theorem test_claim_endpoint_refused : (Instr.claim 0 1 256).wellFormed = false := by decide
theorem test_handOver_domain_refused : (Instr.handOver 0 1 4 256).wellFormed = false := by decide
theorem test_handOver_endpoint_refused : (Instr.handOver 0 1 256 0).wellFormed = false := by decide
theorem test_unclaim_endpoint_refused : (Instr.unclaim 0 1 256).wellFormed = false := by decide
theorem test_propose_source_refused : (Instr.propose 0 1 256 1 0 4 10 0 0 0).wellFormed = false := by decide
theorem test_propose_sink_refused : (Instr.propose 0 1 0 256 0 4 10 0 0 0).wellFormed = false := by decide
theorem test_propose_first_refused : (Instr.propose 0 1 0 1 65536 4 10 0 0 0).wellFormed = false := by decide
theorem test_propose_width_refused : (Instr.propose 0 1 0 1 0 256 10 0 0 0).wellFormed = false := by decide
theorem test_propose_hold_refused : (Instr.propose 0 1 0 1 0 4 256 0 0 0).wellFormed = false := by decide
theorem test_propose_auto_refused : (Instr.propose 0 1 0 1 0 4 10 256 0 0).wellFormed = false := by decide
theorem test_propose_level_refused : (Instr.propose 0 1 0 1 0 4 10 0 (-32769) 0).wellFormed = false := by decide
theorem test_propose_notify_refused : (Instr.propose 0 1 0 1 0 4 10 0 0 256).wellFormed = false := by decide
theorem test_accept_slot_refused : (Instr.accept 0 1 256 0).wellFormed = false := by decide
theorem test_decline_slot_refused : (Instr.decline 0 1 256 0).wellFormed = false := by decide
theorem test_activate_slot_refused : (Instr.activate 0 1 256 0).wellFormed = false := by decide
theorem test_release_slot_refused : (Instr.release 0 1 256 0).wellFormed = false := by decide
theorem test_setTarget_slot_refused : (Instr.setTarget 0 1 256 0 0).wellFormed = false := by decide
theorem test_setTarget_level_refused : (Instr.setTarget 0 1 0 0 32768).wellFormed = false := by decide
theorem test_setDropAtten_slot_refused : (Instr.setDropAtten 0 1 256 0 0).wellFormed = false := by decide
theorem test_setDropAtten_atten_refused : (Instr.setDropAtten 0 1 0 0 32768).wellFormed = false := by decide
theorem test_readConn_slot_refused : (Instr.readConn 0 1 256 0).wellFormed = false := by decide
theorem test_listSpans_degree_refused : (Instr.listSpans 0 1 256 0 0).wellFormed = false := by decide
theorem test_listSpans_list_refused : (Instr.listSpans 0 1 0 256 0).wellFormed = false := by decide
theorem test_listSpans_start_refused : (Instr.listSpans 0 1 0 0 65536).wellFormed = false := by decide
theorem test_readLevel_tap_refused : (Instr.readLevel 0 1 256 0 4).wellFormed = false := by decide
theorem test_readLevel_first_refused : (Instr.readLevel 0 1 0 65536 4).wellFormed = false := by decide
theorem test_readLevel_width_refused : (Instr.readLevel 0 1 0 0 256).wellFormed = false := by decide
theorem test_setDegree_degree_refused : (Instr.setDegree 0 1 256 []).wellFormed = false := by decide
theorem test_setDegree_code_refused : (Instr.setDegree 0 1 0 [(256, 0)]).wellFormed = false := by decide
theorem test_setDegree_value_refused : (Instr.setDegree 0 1 0 [(0, 32768)]).wellFormed = false := by decide
theorem test_setDegree_length_refused :
    (Instr.setDegree 0 1 0 (List.replicate 19 (0, 0))).wellFormed = false := by decide
theorem test_readDegree_degree_refused : (Instr.readDegree 0 1 256).wellFormed = false := by decide
theorem test_clearTrip_degree_refused : (Instr.clearTrip 0 1 256).wellFormed = false := by decide
theorem test_retryLink_link_refused : (Instr.retryLink 0 1 256).wellFormed = false := by decide
theorem test_readExcursions_degree_refused : (Instr.readExcursions 0 1 256).wellFormed = false := by decide
theorem test_rearmExcursions_degree_refused : (Instr.rearmExcursions 0 1 256).wellFormed = false := by decide
theorem test_clearFlags_refused : (Instr.clearFlags 0 1 256).wellFormed = false := by decide
theorem test_setMask_refused : (Instr.setMask 0 1 256).wellFormed = false := by decide
theorem test_setAllNotices_refused : (Instr.setAllNotices 0 1 256).wellFormed = false := by decide
theorem test_fault_cause_refused : (Instr.fault 0 0 16).wellFormed = false := by decide
theorem test_leaveReset_order_refused : (Instr.leaveReset [.choice, .choice]).wellFormed = false := by decide
theorem test_propose_accepted : (Instr.propose 0 1 0 1 100 4 10 1 (-100) 7).wellFormed = true := by decide

/-! ## Figures of the manual -/

/-- R184: the CRC over no octets, and over 0x31 to 0x39. -/
theorem test_crc_of_none : crc16 [] = 0xFFFF := by decide
theorem test_crc_of_nine :
    crc16 [0x31, 0x32, 0x33, 0x34, 0x35, 0x36, 0x37, 0x38, 0x39] = 0x29B1 := by decide +kernel

/-- R184: the nine octets with 0x29 and 0xB1 pass the check. -/
theorem test_crc_checks :
    crcGood [0x31, 0x32, 0x33, 0x34, 0x35, 0x36, 0x37, 0x38, 0x39, 0x29, 0xB1] = true := by decide +kernel

/-- Readings from cell 0 on, 0 elsewhere, for the figures of section 6.2 moved to cell 0. -/
theorem test_spanLevel_six : spanLevel [0, -112, -109, -110, -107, 0] ⟨0, 6⟩ = -110 := by decide
theorem test_spanLevel_two : spanLevel [15, 16] ⟨0, 2⟩ = 15 := by decide
theorem test_spanLevel_negative_two : spanLevel [-80, -81] ⟨0, 2⟩ = -81 := by decide
theorem test_spanLevel_no_reading : spanLevel [0, saturate 0x8000, -90, 0] ⟨0, 4⟩ = -345 := by decide

/-- The equalisation figures of section 6.3. -/
theorem test_equal_truncates : equalStep (-7) .default = -3 := by decide
theorem test_equal_limits : equalStep 25 .default = 10 := by decide
theorem test_equal_floor : equalStep 5 { Settings.default with gain := 1 } = 1 := by decide
theorem test_equal_deadband : equalStep (-3) .default = 0 := by decide
theorem test_equal_underpower : equalPower (-30) (4 + equalStep (-30) .default) .default = .underpower := by decide
theorem test_equal_overpower : equalPower 20 (245 + equalStep 20 .default) .default = .overpower := by decide
theorem test_equal_exact_zero : equalPower (-5) (2 + equalStep (-5) .default) .default = .normal := by decide

/-- Section 11.9: port 2, its queue not empty and so its line asserted, shows 0x2D BUSY and 0x2E READY. -/
theorem test_status_busy :
    statusOctet 2 { Port.cleared with slot := .busy .sweepTimeout, queue := [⟨.tripOn, none, some 2, none, 0⟩] } =
      0x2D := by decide
theorem test_status_ready :
    statusOctet 2 { Port.cleared with slot := .ready ⟨7, .ok, []⟩, queue := [⟨.tripOn, none, some 2, none, 0⟩] } =
      0x2E := by decide

/-- R189, bit by bit: SET_TARGET 0x25 of 5:12 to −100 is read back from its parameters. -/
theorem test_parse_setTarget :
    parseCommand 1 0x25 9 [0x05, 0x0C, 0xFF, 0x9C] = .command (.setTarget 1 9 5 12 (-100)) := by decide
theorem test_parse_propose :
    parseCommand 0 0x20 1 [0x00, 0x01, 0x00, 0xF0, 0x04, 0x0A, 0x01, 0xFF, 0x9C, 0x03] =
      .command (.propose 0 1 0 1 240 4 10 1 (-100) 3) := by decide
theorem test_parse_setDegree :
    parseCommand 3 0x31 1 [0x01, 0x01, 0x00, 0x20, 0x07, 0xFF, 0xB0] =
      .command (.setDegree 3 1 1 [(1, 32), (7, -80)]) := by decide
theorem test_parse_unknown : parseCommand 0 0x14 1 [] = .unknown := by decide
theorem test_parse_short : parseCommand 0 0x10 1 [] = .badLength := by decide

/-- R142: a drop entry of 300/4 to L9 at 45, and a BLOCKED select entry of 140/4. -/
theorem test_entry_drop : (Entry.drop ⟨32, 1⟩ ⟨300, 4⟩ 9 (.att 45)).octets = [1, 1, 44, 4, 9, 45] := by decide
theorem test_entry_blocked : (Entry.select ⟨31, 1⟩ ⟨140, 4⟩ 4 .blocked).octets = [0, 0, 140, 4, 255, 0] := by decide

/-- R170: the clamps of section 10.5. -/
theorem test_clamp_ramp_slots : clampInt (fieldRange 2).1 (fieldRange 2).2 9 = 4 := by decide
theorem test_clamp_threshold : clampInt (fieldRange 7).1 (fieldRange 7).2 (-80) = -100 := by decide
theorem test_clamp_hold : clampInt (fieldRange 12).1 (fieldRange 12).2 12000 = 10000 := by decide

/-! ## States that meet the hypotheses of the statements -/

/-- An idle node: D0 and L0 managed by domain 0, D1 and L1 by domain 1, every link READY and idle. -/
def node : State :=
  { State.reset with
    managers := (((State.reset.managers.set 0 (some 0)).set 1 (some 1)).set 4 (some 0)).set 5 (some 1)
    links := Vector.replicate 5 ⟨.ready, none, 1, none, none, .none, false⟩ }

/-- A connection of domain 0, with every notice option on. -/
def conn (r : Route) (st : CState) (shadow : Setpoint) : Conn :=
  ⟨r, ⟨100, 4⟩, st, 0, some 1, none, false, some (-100), some 30, ⟨true, true, true⟩, shadow, some .lit,
    some ⟨false, false⟩, some .normal, none⟩

/-- The node with a connection in slot 5, generation 3. -/
def withConn (c : Conn) : State := { node with table := node.table.set 5 ⟨3, some c⟩ }

/-- An ADD from L0 and an EXPRESS from D0, both sinking on D1, and a DROP from D0 to L1. -/
def addConn (st : CState) (shadow : Setpoint) : Conn := conn (.add 0 1) st shadow
def expressConn (st : CState) (shadow : Setpoint) : Conn := conn (.express 0 1) st shadow
def dropConn (st : CState) (shadow : Setpoint) : Conn := conn (.drop 0 1) st shadow

/-- A state takes a command at a port whose slot is not BUSY. -/
theorem takes_free {s : State} {p : Domain} {i : Instr} (h : s.held = none) (b : s.ports[p].slot.isBusy = false)
    (c : Instr.codingOk i = true) : s.takes p i := ⟨h, .inr ⟨b, c⟩⟩

/-- A state takes the command that its port's slot is BUSY with. -/
theorem takes_busy {s : State} {p : Domain} {i : Instr} (h : s.held = none) (b : s.ports[p].slot = .busy i) :
    s.takes p i := ⟨h, .inl b⟩

/-- A state with a command waiting. -/
theorem witness_stepTakesTheFront :
    ({ node with pending := [.sweepTimeout] } : State).pending = .sweepTimeout :: [] ∧ node.pending = [] := ⟨rfl, rfl⟩

theorem witness_notTaken :
    ({ node with held := some .warm } : State).held ≠ none ∧ Instr.actsInReset (.claim 0 1 4) = false ∧
    commandPort (.claim 0 1 4) = some (0, 1) ∧
    ({ node with ports := node.ports.set 0 { Port.cleared with slot := .busy (.readNode 0 9) } } : State).ports[(0 : Fin 4)].slot =
      .busy (.readNode 0 9) ∧ Instr.readNode 0 9 ≠ .claim 0 1 4 := by
  refine ⟨by decide, rfl, rfl, rfl, by decide⟩

/-- CLAIM: the first code out of range, and the last endpoint unassigned, the requester's and another's. -/
theorem witness_claim :
    node.takes 0 (.claim 0 1 20) ∧ 19 < 20 ∧ Endpoint.ofCode 19 = some (.port 15) ∧
    node.managers[(Endpoint.port 15).index] = none ∧ Endpoint.ofCode 0 = some (.degree 0) ∧
    node.managers[(Endpoint.degree 0).index] = some 0 ∧ node.managers[(Endpoint.degree 1).index] = some 1 := by
  exact ⟨takes_free rfl rfl rfl, by decide, rfl, rfl, rfl, rfl, rfl⟩

theorem node_conn (i : SlotIx) : node.conn i = none := by simp [State.conn, node, State.reset]

theorem node_not_inUse (e : Endpoint) : ¬ node.inUse e := by
  rintro ⟨i, c, h, _⟩
  simp [node_conn] at h

theorem witness_handOver :
    node.takes 0 (.handOver 0 1 0 4) ∧ 3 < 4 ∧ Endpoint.ofCode 0 = some (.degree 0) ∧
    node.managers[(Endpoint.degree 0).index] = some 0 ∧ ¬ node.inUse (.degree 0) ∧ (1 : Domain) ≠ 0 ∧
    (withConn (expressConn .proposed .blocked)).managers[(Endpoint.degree 0).index] = some 0 ∧
    (withConn (expressConn .proposed .blocked)).inUse (.degree 0) ∧
    node.managers[(Endpoint.degree 1).index] ≠ some 0 := by
  refine ⟨takes_free rfl rfl rfl, by decide, rfl, rfl, node_not_inUse _, by decide, rfl,
    ⟨5, expressConn .proposed .blocked, rfl, .inl rfl⟩, by decide⟩

theorem witness_unclaim :
    node.takes 0 (.unclaim 0 1 20) ∧ node.takes 0 (.unclaim 0 1 19) ∧ Endpoint.ofCode 19 = some (.port 15) ∧
    node.managers[(Endpoint.port 15).index] ≠ some 0 ∧ Endpoint.ofCode 4 = some (.port 0) ∧
    node.managers[(Endpoint.port 0).index] = some 0 ∧ ¬ node.inUse (.port 0) ∧
    (withConn (addConn .proposed .blocked)).managers[(Endpoint.port 0).index] = some 0 ∧
    (withConn (addConn .proposed .blocked)).inUse (.port 0) :=
  ⟨takes_free rfl rfl rfl, takes_free rfl rfl rfl, rfl, by decide, rfl, rfl, node_not_inUse _, rfl,
    ⟨5, addConn .proposed .blocked, rfl, .inl rfl⟩⟩

theorem witness_readEndpoints : node.takes 0 (.readEndpoints 0 1) := takes_free rfl rfl rfl

/-! ### Proposals -/

/-- The node with an entry in the egress list of D1, and one with an entry in the ingress list of D0. -/
def withEgress (sp : Span) : State := { node with map := node.map.set 1 ⟨[⟨sp, ⟨9, 1⟩⟩], [], [], 4⟩ }
def withIngress (sp : Span) : State := { node with map := node.map.set 0 ⟨[], [⟨sp, [⟨9, 1⟩]⟩], [], 0⟩ }

/-- The proposals of the witnesses: an ADD from L0, and a DROP to L1, of 100/4 with the sides of domain 0. -/
def addProposal (auto : Nat) : Instr := .propose 0 1 4 1 100 4 10 auto (-100) 7
def dropProposal : Instr := .propose 0 1 0 5 100 4 10 0 30 7

theorem witness_propose_endpoint_checks :
    node.takes 0 (addProposal 0) ∧ node.mapOk ∧ Endpoint.ofCode 20 = none ∧ Endpoint.ofCode 19 = some (.port 15) ∧
    Span.legal ⟨100, 1⟩ = false ∧ Span.legal ⟨382, 2⟩ = true ∧ Span.legal ⟨383, 2⟩ = false ∧
    Route.ofEndpoints (.port 0) (.port 1) = none ∧ Route.ofEndpoints (.degree 0) (.degree 0) = none := by
  refine ⟨takes_free rfl rfl rfl, ?_, rfl, rfl, by decide, by decide, by decide, rfl, by decide⟩
  unfold State.mapOk Span.before
  decide

theorem witness_propose_authority :
    Route.ofEndpoints (.port 15) (.degree 3) = some (.add 15 3) ∧ node.managers[(Endpoint.port 15).index] ≠ some 0 ∧
    node.managers[(Endpoint.degree 3).index] ≠ some 0 ∧
    Route.ofEndpoints (.port 0) (.degree 3) = some (.add 0 3) ∧ node.managers[(Endpoint.port 0).index] = some 0 ∧
    node.managers[(Endpoint.degree 3).index] = none ∧
    Route.ofEndpoints (.port 15) (.degree 0) = some (.add 15 0) ∧ node.managers[(Endpoint.degree 0).index] = some 0 ∧
    node.managers[(Endpoint.port 15).index] = none := by decide

theorem witness_propose_table_full :
    ∀ i : SlotIx, ({ node with table := Vector.replicate 128 ⟨1, some (addConn .armed .blocked)⟩ } : State).conn i ≠ none := by
  intro i
  simp [State.conn]

theorem witness_propose_port_busy :
    ¬ ({ node with holders := node.holders.set 0 ⟨some ⟨9, 1⟩, none⟩ } : State).sideFree (.add 0 1) := by
  simp [State.sideFree, node]

theorem witness_propose_span_conflict :
    (withEgress ⟨103, 4⟩).mapOk ∧ (withEgress ⟨103, 4⟩).sideFree (.add 0 1) ∧
    ¬ (withEgress ⟨103, 4⟩).egressClear (.add 0 1) ⟨100, 4⟩ := by
  refine ⟨by unfold State.mapOk Span.before; decide, rfl, fun h => ?_⟩
  exact absurd (h 1 rfl ⟨⟨103, 4⟩, ⟨9, 1⟩⟩ (by decide)) (by decide)

theorem witness_propose_guard_conflict :
    (withEgress ⟨104, 4⟩).sideFree (.add 0 1) ∧ (withEgress ⟨104, 4⟩).egressClear (.add 0 1) ⟨100, 4⟩ ∧
    ¬ (withEgress ⟨104, 4⟩).guardKept (.add 0 1) ⟨100, 4⟩ := by
  refine ⟨rfl, fun d h e m => ?_, fun h => ?_⟩
  · cases h; revert e; decide
  · exact absurd ((h 1 rfl ⟨⟨104, 4⟩, ⟨9, 1⟩⟩ (by decide)).2 (by decide)) (by decide)

/-- The node whose D1 has one free cell fewer than a span of 4 needs. -/
def fullDegree : State := { node with settings := node.settings.set 1 { Settings.default with loadLimit := 3 } }

theorem witness_propose_load_limit :
    fullDegree.sideFree (.add 0 1) ∧ fullDegree.egressClear (.add 0 1) ⟨100, 4⟩ ∧
    fullDegree.guardKept (.add 0 1) ⟨100, 4⟩ ∧ ¬ fullDegree.loadFits (.add 0 1) ⟨100, 4⟩ := by
  refine ⟨rfl, fun d h e m => ?_, fun d h e m => ?_, fun h => absurd (h 1 rfl) (by decide)⟩
  · cases h; revert e; decide
  · cases h; revert e; decide

theorem witness_propose_ingress_conflict :
    (withIngress ⟨103, 4⟩).sideFree (.drop 0 1) ∧ (withIngress ⟨103, 4⟩).egressClear (.drop 0 1) ⟨100, 4⟩ ∧
    (withIngress ⟨103, 4⟩).guardKept (.drop 0 1) ⟨100, 4⟩ ∧ (withIngress ⟨103, 4⟩).loadFits (.drop 0 1) ⟨100, 4⟩ ∧
    ¬ (withIngress ⟨103, 4⟩).ingressFits (.drop 0 1) ⟨100, 4⟩ := by
  refine ⟨rfl, fun _ h => (nomatch h), fun _ h => (nomatch h), fun _ h => (nomatch h), fun h => ?_⟩
  exact absurd ((h 0 rfl).1 ⟨⟨103, 4⟩, [⟨9, 1⟩]⟩ (by decide) (by decide)) (by decide)

theorem node_admissible : node.admissible (.add 0 1) ⟨100, 4⟩ := by
  refine ⟨rfl, fun d h e m => ?_, fun d h e m => ?_, fun d h => ?_, fun _ h => (nomatch h)⟩
  · cases h; revert e; decide
  · cases h; revert e; decide
  · cases h; decide

theorem node_lowestFree : node.lowestFree 0 := ⟨node_conn 0, fun _ h => absurd h (Nat.not_lt_zero _)⟩

theorem witness_proposeAdmits :
    node.takes 0 (addProposal 0) ∧ node.takes 0 (addProposal 1) ∧ some (1 : Domain) ≠ none ∧
    Endpoint.ofCode 4 = some (.port 0) ∧ Endpoint.ofCode 1 = some (.degree 1) ∧
    Route.ofEndpoints (.port 0) (.degree 1) = some (.add 0 1) ∧ Span.legal ⟨100, 4⟩ = true ∧
    (∃ q : Domain, q ≠ 0 ∧ some (1 : Domain) = some q ∧ (node.managers[(Endpoint.port 0).index] = some 0 ∧
      node.managers[(Endpoint.degree 1).index] = some q)) ∧ node.lowestFree 0 ∧
    node.admissible (.add 0 1) ⟨100, 4⟩ :=
  ⟨takes_free rfl rfl rfl, takes_free rfl rfl rfl, by decide, rfl, rfl, rfl, by decide, ⟨1, by decide, rfl, rfl, rfl⟩,
    node_lowestFree, node_admissible⟩

theorem witness_proposeActivates :
    node.takes 0 (.propose 0 1 4 0 100 4 10 1 (-100) 7) ∧ Route.ofEndpoints (.port 0) (.degree 0) = some (.add 0 0) ∧
    node.managers[(Endpoint.port 0).index] = some 0 ∧ node.managers[(Endpoint.degree 0).index] = some 0 ∧
    node.lowestFree 0 ∧ node.admissible (.add 0 0) ⟨100, 4⟩ := by
  refine ⟨takes_free rfl rfl rfl, rfl, rfl, rfl, node_lowestFree, rfl, fun d h e m => ?_, fun d h e m => ?_,
    fun d h => ?_, fun _ h => (nomatch h)⟩
  · cases h; revert e; decide
  · cases h; revert e; decide
  · cases h; decide

/-- The level at the edges of its two ranges, and a DROP that activates at once. -/
theorem witness_proposeActivates_clauses :
    Route.ofEndpoints (.degree 0) (.port 0) = some (.drop 0 0) ∧ (Route.drop 0 0).sinkDegree = none ∧
    (Route.drop 0 0).sourceDegree = some 0 ∧ (Route.add 0 0).sinkDegree = some 0 ∧ ¬ ((50 : Int) < 50) ∧ (50 : Int) < 51 ∧
    node.admissible (.drop 0 0) ⟨100, 4⟩ := by
  refine ⟨rfl, rfl, rfl, rfl, by decide, by decide, rfl, fun _ h => (nomatch h), fun _ h => (nomatch h),
    fun _ h => (nomatch h), fun d h => ?_⟩
  cases h
  decide

theorem witness_accept_decline :
    (withConn (addConn .proposed .blocked)).takes 1 (.accept 1 1 5 3) ∧
    (withConn (addConn .proposed .blocked)).takes 1 (.decline 1 1 5 3) ∧
    (withConn (addConn .proposed .blocked)).table[(5 : SlotIx)] = ⟨3, some (addConn .proposed .blocked)⟩ ∧
    (addConn .proposed .blocked).peer = some 1 ∧ (addConn .proposed .blocked).state = .proposed :=
  ⟨takes_free rfl rfl rfl, takes_free rfl rfl rfl, rfl, rfl, rfl⟩

/-- R35, R88: ACCEPT of an auto-activate proposal starts its tracking, declared DARK. -/
theorem test_accept_tracks :
    (match exec (.accept 1 1 5 3) (withConn { addConn .proposed .blocked with autoActivate := true }) with
      | .next t => t.tracks | _ => []) = [⟨⟨5, 3⟩, ⟨.add, 1⟩, ⟨100, 4⟩, .dark, 0, 0⟩] := by decide +kernel

/-- A proposal whose reservation ends at node time 10. -/
def reserved : Conn := { addConn .proposed .blocked with expiry := some 10 }

theorem witness_reservationExpiry :
    (withConn reserved).conn 5 = some reserved ∧ reserved.expiry = some 10 ∧ reserved.state = .proposed ∧
    ({ withConn reserved with nodeTime := 10 } : State).nodeTime = 10 ∧
    ({ withConn reserved with nodeTime := 9 } : State).nodeTime ≠ 10 := by
  refine ⟨rfl, rfl, rfl, by decide, by decide⟩

theorem witness_handleChecks :
    node.takes 1 (.accept 1 1 128 0) ∧ 127 < 128 ∧ node.conn 127 = none ∧
    (withConn (addConn .armed .blocked)).table[(5 : SlotIx)] = ⟨3, some (addConn .armed .blocked)⟩ ∧
    (withConn (addConn .armed .blocked)).table[(5 : SlotIx)].gen ≠ 2 ∧ (addConn .armed .blocked).peer ≠ some 0 ∧
    (addConn .armed .blocked).state ≠ .proposed ∧
    (withConn (addConn .armed .blocked)).takes 3 (.activate 3 1 5 3) ∧
    (withConn (addConn .armed .blocked)).managers[(addConn .armed .blocked).route.source.index] ≠ some 3 ∧
    (withConn (addConn .armed .blocked)).managers[(addConn .armed .blocked).route.sink.index] ≠ some 3 ∧
    (withConn (addConn .draining .blocked)).managers[(addConn .draining .blocked).route.sink.index] = some 1 ∧
    (addConn .draining .blocked).state = .draining :=
  ⟨takes_free rfl rfl rfl, by decide, node_conn 127, rfl, by decide, by decide, by decide, takes_free rfl rfl rfl,
    by decide, by decide, rfl, rfl⟩

theorem witness_activate :
    (withConn (expressConn .armed .blocked)).takes 0 (.activate 0 1 5 3) ∧
    (withConn (expressConn .armed .blocked)).table[(5 : SlotIx)] = ⟨3, some (expressConn .armed .blocked)⟩ ∧
    (withConn (expressConn .armed .blocked)).managers[(expressConn .armed .blocked).route.source.index] = some 0 ∧
    (withConn (dropConn .armed .blocked)).takes 0 (.activate 0 1 5 3) :=
  ⟨takes_free rfl rfl rfl, rfl, rfl, takes_free rfl rfl rfl⟩

/-- RELEASE finds a record in each state, settled BLOCKED or not, and a grant possible or not. -/
theorem witness_release (st : CState) (v : Setpoint) :
    (withConn (addConn st v)).takes 1 (.release 1 1 5 3) ∧
    (withConn (addConn st v)).table[(5 : SlotIx)] = ⟨3, some (addConn st v)⟩ ∧ (addConn st v).state = st ∧
    (addConn st v).route.sinkDegree = some 1 ∧ (dropConn st v).route.sinkDegree = none ∧
    (withConn (addConn st v)).managers[(addConn st v).route.sink.index] = some 1 :=
  ⟨takes_free rfl rfl rfl, rfl, rfl, rfl, rfl, rfl⟩

theorem witness_release_settled_and_granted :
    (withConn (addConn .suspended .blocked)).settled 5 (addConn .suspended .blocked) = true ∧
    ({ withConn (addConn .suspended .blocked) with actives := node.actives.set 5 (.att 60) } : State).settled 5
      (addConn .suspended .blocked) = false ∧
    (withConn (addConn .inService (.att 60))).canGrant 1 = true ∧
    (withConn (addConn .inService (.att 60))).ramps[(1 : Degree)].queue = [] ∧
    ({ withConn (addConn .inService (.att 60)) with links := State.reset.links } : State).canGrant 1 = false := by
  decide

theorem witness_setTarget :
    (withConn (dropConn .armed .blocked)).takes 0 (.setTarget 0 1 5 3 (-301)) ∧
    (withConn (addConn .armed .blocked)).takes 1 (.setTarget 1 1 5 3 51) ∧
    (withConn (addConn .armed .blocked)).manager 1 = some 1 ∧ (withConn (addConn .armed .blocked)).manager 1 ≠ some 0 :=
  ⟨takes_free rfl rfl rfl, takes_free rfl rfl rfl, rfl, by decide⟩

/-- The drop connection in service, in the drop list of its degree. -/
def dropNode : State :=
  { withConn (dropConn .inService (.att 30)) with
    map := node.map.set 0 ⟨[], [⟨⟨100, 4⟩, [⟨5, 3⟩]⟩], [⟨⟨100, 4⟩, 1, ⟨5, 3⟩⟩], 0⟩ }

theorem witness_setDropAtten :
    dropNode.takes 1 (.setDropAtten 1 1 5 3 251) ∧ dropNode.table[(5 : SlotIx)] = ⟨3, some (dropConn .inService (.att 30))⟩ ∧
    dropNode.managers[(Endpoint.port 1).index] = some 1 ∧ dropNode.managers[(Endpoint.port 1).index] ≠ some 0 ∧
    dropNode.links[degreeLink 0].state = .ready ∧ dropNode.links[degreeLink 0].inFlight = none ∧
    dropNode.actives[(5 : SlotIx)] ≠ .att 250 ∧
    (⟨⟨100, 4⟩, 1, ⟨5, 3⟩⟩ : DropEntry) ∈ dropNode.map[(0 : Degree)].drops :=
  ⟨takes_free rfl rfl rfl, rfl, rfl, by decide, rfl, rfl, by decide, by decide⟩

theorem witness_readings :
    (withConn (addConn .inService (.att 60))).takes 3 (.readConn 3 1 5 3) ∧ node.takes 3 (.listSpans 3 1 3 2 383) ∧
    node.takes 3 (.readDegree 3 1 4) ∧ node.takes 3 (.readPort 3 1) ∧ node.takes 3 (.readNode 3 1) ∧
    node.takes 3 (.readLevel 3 1 11 382 2) ∧ node.takes 3 (.readExcursions 3 1 4) :=
  ⟨takes_free rfl rfl rfl, takes_free rfl rfl rfl, takes_free rfl rfl rfl, takes_free rfl rfl rfl,
    takes_free rfl rfl rfl, takes_free rfl rfl rfl, takes_free rfl rfl rfl⟩

/-- Each list has an entry from the start cell on, and nine spans leave one above the eight returned. -/
theorem witness_listSpans :
    (withEgress ⟨103, 4⟩).takes 3 (.listSpans 3 1 1 0 103) ∧
    ((withEgress ⟨103, 4⟩).map[(1 : Degree)].egress.filter fun e => 103 ≤ e.span.first).length = 1 ∧
    ((withIngress ⟨103, 4⟩).map[(0 : Degree)].ingress.filter fun e => 0 ≤ e.span.first).length = 1 ∧
    (dropNode.map[(0 : Degree)].drops.filter fun e => 0 ≤ e.span.first).length = 1 ∧
    (let nine : List EgressEntry := (List.range 9).map fun k => ⟨⟨10 * k, 4⟩, ⟨9, 1⟩⟩
     ({ node with map := node.map.set 1 ⟨nine, [], [], 36⟩ } : State).mapOk ∧ (nine.drop 8).length = 1) := by
  refine ⟨takes_free rfl rfl rfl, by decide, by decide, by decide, ?_, rfl⟩
  unfold State.mapOk Span.before
  decide

/-! ### The monitor port -/

/-- A request of E1 under tag 6, and its sweep in progress with `n` cells received. -/
def requested : State :=
  { node with mon := { Mon.cleared with state := .requested, tap := ⟨.egress, 1⟩, tag := 6, timer := some 500 } }
def receiving (n : Fin 384) : State :=
  { node with mon := { Mon.cleared with
      state := .receiving, tap := ⟨.egress, 1⟩, tag := 6, timer := some 500, count := n, sample := some ⟨1, true⟩ } }

theorem witness_header :
    node.mon.state = .idle ∧ node.mon.timer = none ∧ requested.mon.state = .requested ∧
    ((0x0069 : BitVec 16).toNat % 16 = requested.mon.tap.code.val ∧ (0x0069 : BitVec 16).toNat / 16 % 16 = requested.mon.tag.toNat) ∧
    ¬ ((0x0068 : BitVec 16).toNat % 16 = requested.mon.tap.code.val) ∧ (receiving 0).mon.state = .receiving ∧
    requested.mon.timer = some 500 ∧ requested.nodeTime ≠ 500 ∧
    ({ requested with nodeTime := 500 } : State).nodeTime = 500 := by decide

theorem witness_readingWord :
    (receiving 382).held = none ∧ (receiving 382).mon.state = .receiving ∧ (receiving 382).mon.count.val + 1 < 384 ∧
    (receiving 383).mon.count.val = 383 ∧ node.mon.state ≠ .receiving ∧ (receiving 383).usable 1 = true ∧
    (receiving 383).usable 0 = true ∧ ({ receiving 383 with switchGen := Vector.replicate 4 2 } : State).usable 1 = false := by
  decide

/-- A sample of a READY and idle link whose generation still stands, and one whose generation has passed. -/
theorem witness_sweep_usable :
    (∃ k : LinkSample, (receiving 383).mon.sample = some k ∧ k.idle = true ∧
      k.gen = (receiving 383).switchGen[(receiving 383).mon.tap.degree]) ∧
    ¬ ∃ k : LinkSample, ({ receiving 383 with switchGen := Vector.replicate 4 2 } : State).mon.sample = some k ∧
      k.idle = true ∧ k.gen = ({ receiving 383 with switchGen := Vector.replicate 4 2 } : State).switchGen[(1 : Degree)] := by
  refine ⟨⟨⟨1, true⟩, rfl, rfl, rfl⟩, fun ⟨k, h, _, g⟩ => ?_⟩
  cases h
  revert g
  decide

/-- A sweep of E1 covers a connection in service, and a sweep of A1 has an entry to evaluate. -/
theorem witness_sweep_clauses :
    ({ receiving 383 with table := node.table.set 5 ⟨3, some (addConn .inService (.att 60))⟩ } : State).conn 5 =
      some (addConn .inService (.att 60)) ∧ (addConn .inService (.att 60)).route.sinkDegree = some 1 ∧
    (receiving 383).mon.tap = ⟨.egress, 1⟩ ∧
    ({ receiving 383 with mon := { (receiving 383).mon with tap := ⟨.add, 1⟩ } } : State).mon.tap.kind ≠ .egress ∧
    (addConn .inService (.att 60)).route.tap = ⟨.add, 1⟩ := by
  refine ⟨rfl, rfl, rfl, by decide, rfl⟩

/-- A span level exists for every legal span. -/
theorem witness_spanLevel : Span.legal ⟨300, 6⟩ = true ∧ (List.replicate 384 (-110 : Int)).length = 384 ∧
    Span.legal ⟨382, 2⟩ = true := ⟨by decide, List.length_replicate, by decide⟩

theorem witness_readLevel :
    node.banks[(11 : Fin 12)] = none ∧
    ({ node with banks := node.banks.set 11 (some ⟨[], 7, some 3, some true⟩) } : State).banks[(11 : Fin 12)] =
      some ⟨[], 7, some 3, some true⟩ ∧ 11 < 12 ∧ Span.legal ⟨0, 17⟩ = false := by decide

/-! ### Source light, power loop and log -/

/-- A declaration that waits for the connection in slot 5, behind one for another. -/
def declared (c : Conn) (l : Light) : State :=
  { withConn c with declReqs := [⟨⟨9, 1⟩, .lit, -100⟩, ⟨⟨5, 3⟩, l, -400⟩] }

theorem witness_declaration (c : Conn) (l : Light) :
    (declared c l).declReqs = [⟨⟨9, 1⟩, .lit, -100⟩] ++ ⟨⟨5, 3⟩, l, -400⟩ :: [] ∧
    (⟨9, 1⟩ : Handle) ≠ ⟨5, 3⟩ ∧ (declared c l).find ⟨5, 3⟩ = some c ∧ (declared c l).find ⟨9, 1⟩ = none ∧
    (declared c l).held = none := ⟨rfl, by decide, rfl, rfl, rfl⟩

/-- The routes, states and causes the clauses of DECLARATION speak of. -/
theorem witness_declaration_clauses :
    (dropConn .inService (.att 30)).route.sinkDegree = none ∧ (addConn .rampUp (.att 90)).route.sinkDegree = some 1 ∧
    ({ addConn .suspended .blocked with causes := some ⟨true, true⟩ } : Conn).causes = some ⟨true, true⟩ ∧
    (declared { addConn .suspended .blocked with causes := some ⟨true, false⟩ } .lit).canGrant 1 = true ∧
    (declared { addConn .suspended .blocked with causes := some ⟨true, false⟩ } .lit).ramps[(1 : Degree)].queue = [] ∧
    (addConn .suspended .blocked).notify.suspend = true ∧ (1 : Domain) ∈ (addConn .suspended .blocked).domains ∧
    ({ declared { addConn .suspended .blocked with causes := some ⟨true, false⟩ } .lit with
        links := State.reset.links } : State).canGrant 1 = false := by decide

theorem witness_equalisation :
    (addConn .inService (.att 62)).target = some (-100) ∧ (addConn .inService (.att 62)).shadow = .att 62 ∧
    1 ≤ Settings.default.gain ∧ 1 ≤ Settings.default.maxStep ∧ (-3 : Int).natAbs ≤ Settings.default.deadband ∧
    Settings.default.deadband < (4 : Int).natAbs := by decide

/-- The ends of the ramps: at the deadband below the target, at full opening, and at 250 on the way down. -/
theorem witness_ramp :
    (-100 : Int) - Settings.default.deadband ≤ -103 ∧ (-104 : Int) < -100 - Settings.default.deadband ∧
    (addConn .rampUp (.att 0)).shadow = .att 0 ∧ (addConn .rampDown (.att 250)).shadow = .att 250 ∧
    (addConn .rampDown (.att 249)).shadow = .att 249 := by decide

/-- A pass result that waits for the connection in slot 5. -/
def resulted (c : Conn) (r : PassResult) : State := { withConn c with passReqs := node.passReqs.set 1 [r] }

theorem witness_passResult (c : Conn) (r : PassResult) :
    (resulted c r).passReqs[(1 : Degree)] = r :: [] ∧ node.passReqs[(0 : Degree)] = [] ∧
    (resulted c r).find ⟨5, 3⟩ = some c ∧ (resulted c r).held = none := ⟨rfl, rfl, rfl, rfl⟩

theorem witness_passResult_clauses :
    (rampUpPass .default ⟨5, 3⟩ (addConn .rampUp (.att 90)) (-101)).toState = some .inService ∧
    (rampUpPass .default ⟨5, 3⟩ (addConn .rampUp (.att 90)) (-200)).toState = none ∧
    (rampDownPass .default ⟨5, 3⟩ (addConn .rampDown (.att 250)) (-300)).toState = some .draining ∧
    (rampDownPass .default ⟨5, 3⟩ (addConn .rampDown (.att 250)) (-300)).shadow = .blocked ∧
    (equalise .default ⟨5, 3⟩ (addConn .inService (.att 60)) (-60)).error = some 40 ∧
    (equalise .default ⟨5, 3⟩ (addConn .inService (.att 60)) (-60)).shadow = .att 70 ∧
    (addConn .inService (.att 60)).route.sinkDegree = some 1 ∧
    (equalise .default ⟨5, 3⟩ (addConn .inService (.att 245)) (-60)).power = some .overpower ∧
    (let s : State := { resulted (addConn .inService (.att 60))
        (equalise .default ⟨5, 3⟩ (addConn .inService (.att 60)) (-60)) with
        map := node.map.set 1 ⟨[⟨⟨100, 4⟩, ⟨5, 3⟩⟩], [], [], 4⟩ }
     s.links[degreeLink 1].state = .ready ∧ s.links[degreeLink 1].inFlight = none ∧ s.actives[(5 : SlotIx)] ≠ .att 70 ∧
     (⟨(addConn .inService (.att 60)).span, ⟨5, 3⟩⟩ : EgressEntry) ∈ s.map[(1 : Degree)].egress) := by decide

/-- A grant request that waits, its entry marked and its slot held under offer number 4. -/
def offered (c : Conn) : State :=
  { withConn c with
    grantReqs := node.grantReqs.set 1 [⟨⟨5, 3⟩, 4⟩]
    ramps := node.ramps.set 1 ⟨[⟨⟨5, 3⟩, some 4⟩], [⟨⟨5, 3⟩, some 4⟩], 5⟩ }

theorem witness_grant :
    (offered (addConn .pendingUp .blocked)).grantReqs[(1 : Degree)] = ⟨⟨5, 3⟩, 4⟩ :: [] ∧
    (offered (addConn .pendingUp .blocked)).find ⟨5, 3⟩ = some (addConn .pendingUp .blocked) ∧
    (⟨⟨5, 3⟩, some 4⟩ : QueueEntry) ∈ (offered (addConn .pendingUp .blocked)).ramps[(1 : Degree)].queue ∧
    (offered (addConn .pendingUp .blocked)).links[degreeLink 1].state = .ready ∧
    (offered (addConn .pendingUp .blocked)).trips[(1 : Degree)].state = .clear ∧
    ({ offered (addConn .pendingUp .blocked) with links := State.reset.links } : State).links[degreeLink 1].state ≠ .ready ∧
    node.grantReqs[(0 : Degree)] = [] := by decide

/-- A stale offer number, a record that no longer waits, and one that is gone. -/
theorem witness_grant_stale :
    (⟨⟨5, 3⟩, some 3⟩ : QueueEntry) ∉ (offered (addConn .pendingUp .blocked)).ramps[(1 : Degree)].queue ∧
    (addConn .suspended .blocked).state ≠ .pendingUp ∧ (addConn .suspended .blocked).state ≠ .pendingDown ∧
    (offered (addConn .pendingUp .blocked)).find ⟨5, 2⟩ = none := by decide

theorem witness_excursion :
    node.logs[(1 : Degree)].armed = true ∧ node.settings[(1 : Degree)].logThreshold ≤ (30 : Int).natAbs ∧
    (29 : Int).natAbs < node.settings[(1 : Degree)].logThreshold ∧ node.logs[(1 : Degree)].entries.length ≤ 4 ∧
    node.settings[(1 : Degree)].logMode = .continuous ∧ node.manager 1 = some 1 ∧
    node.settings[(1 : Degree)].logPrescale ≤ node.logs[(1 : Degree)].prescale + 1 ∧
    node.ports[(1 : Domain)].queue.length < 16 := by decide

/-- A ONE_SHOT log of three and of four entries. -/
def oneShot (n : Nat) : State :=
  { node with
    settings := node.settings.set 1 { Settings.default with logMode := .oneShot, logPrescale := 15 }
    logs := node.logs.set 1 ⟨List.replicate n ⟨⟨5, 3⟩, 40, .absolute, 9⟩, true, 0, some 9⟩ }

theorem witness_excursion_oneShot :
    (oneShot 3).settings[(1 : Degree)].logMode = .oneShot ∧ (oneShot 3).logs[(1 : Degree)].entries.length = 3 ∧
    (oneShot 4).logs[(1 : Degree)].entries.length = 4 ∧
    (oneShot 3).settings[(1 : Degree)].logPrescale > (oneShot 3).logs[(1 : Degree)].prescale + 1 := by decide

theorem witness_rearm :
    (oneShot 3).takes 3 (.readExcursions 3 1 1) ∧ node.takes 1 (.rearmExcursions 1 1 1) ∧ node.takes 1 (.rearmExcursions 1 1 4) ∧ node.manager 1 = some 1 ∧
    node.manager 3 ≠ some 1 := ⟨takes_free rfl rfl rfl, takes_free rfl rfl rfl, takes_free rfl rfl rfl, rfl, by decide⟩

/-! ### Switch links -/

/-- A link with a batch in flight that carries the connection in slot 5. -/
def sent (st : LinkState) (kind : BatchKind) (v : Setpoint) : Link :=
  ⟨st, some ⟨kind, 17, [.select ⟨5, 3⟩ ⟨100, 4⟩ 4 v]⟩, 18, some 200, none, .none, false⟩

/-- The connection in slot 5 with a batch of its value in flight on SL1. -/
def inFlight (c : Conn) (st : LinkState) (kind : BatchKind) (v : Setpoint) : State :=
  { withConn c with links := node.links.set 1 (sent st kind v) }

theorem witness_done (c : Conn) (st : LinkState) (kind : BatchKind) (v : Setpoint) :
    (inFlight c st kind v).links[(1 : LinkId)].inFlight = some ⟨kind, 17, [.select ⟨5, 3⟩ ⟨100, 4⟩ 4 v]⟩ ∧
    (inFlight c st kind v).conn 5 = some c ∧
    ActiveAfter (inFlight c st kind v) ⟨kind, 17, [.select ⟨5, 3⟩ ⟨100, 4⟩ 4 v]⟩ 5 v ∧
    (inFlight c st kind v).links[(1 : LinkId)].unanswered = none ∧ (inFlight c st kind v).links[(1 : LinkId)].state = st ∧
    (inFlight c st kind v).manager 1 = some 1 := by
  refine ⟨rfl, rfl, .inl ⟨⟨_, List.mem_singleton.2 rfl, rfl⟩, fun e he _ => ?_⟩, rfl, rfl, rfl⟩
  rw [List.mem_singleton.1 he]
  rfl

/-- A START batch of the matrix link carries its ports, and a link held unanswered keeps a draining record. -/
theorem witness_done_clauses :
    State.reset.links[slm].inFlight = some ⟨.start, 0, startPortEntries⟩ ∧
    Entry.port 15 none none ∈ startPortEntries ∧
    ({ inFlight (addConn .draining .blocked) .ready .update .blocked with
        links := node.links.set 1 { sent .ready .update .blocked with
          unanswered := some [.select ⟨5, 3⟩ ⟨100, 4⟩ 4 .blocked] } } : State).links[(1 : LinkId)].unanswered =
      some [.select ⟨5, 3⟩ ⟨100, 4⟩ 4 .blocked] ∧
    (addConn .draining .blocked).route.link = (1 : LinkId) := by
  refine ⟨rfl, by decide, rfl, rfl⟩

/-- R127: a select entry of higher cells stands before a drop entry of lower ones, and lower before higher. -/
theorem witness_entry_order :
    Entry.before (.select ⟨5, 3⟩ ⟨100, 4⟩ 4 .blocked) (.drop ⟨6, 1⟩ ⟨20, 4⟩ 1 (.att 30)) ∧
    Entry.before (.select ⟨5, 3⟩ ⟨100, 4⟩ 4 .blocked) (.select ⟨7, 1⟩ ⟨104, 4⟩ 0 .blocked) ∧
    ¬ Entry.before (.drop ⟨6, 1⟩ ⟨20, 4⟩ 1 (.att 30)) (.select ⟨5, 3⟩ ⟨100, 4⟩ 4 .blocked) := by
  refine ⟨.inl ⟨rfl, rfl⟩, .inr ⟨rfl, _, _, rfl, rfl, by unfold Span.before; decide⟩, fun h => ?_⟩
  rcases h with h | h
  · exact nomatch h.1
  · exact nomatch h.1

theorem witness_discarded :
    node.links[(1 : LinkId)].inFlight = none ∧ (15 : Nat) < 16 ∧ crcGood [] = false ∧
    crcGood (withCrc [0x83, 0x11]) = true ∧ (withCrc [0x83, 0x11]).head? ≠ some 0x81 ∧
    (withCrc [0x81, 0x11, 0x00]).length ≠ 4 ∧ (withCrc [0x82, 0x11]).length ≠ 5 := by decide +kernel

theorem witness_linkFailures :
    (inFlight (addConn .inService (.att 60)) .ready .update (.att 60)).links[(1 : LinkId)].timer = some 200 ∧
    (15 : Nat) ≤ 15 ∧ (inFlight (addConn .inService (.att 60)) .ready .update (.att 60)).nodeTime ≠ 200 ∧
    ({ inFlight (addConn .inService (.att 60)) .ready .update (.att 60) with nodeTime := 200 } : State).nodeTime = 200 ∧
    node.links[(1 : LinkId)].inFlight = none := by decide

theorem witness_retryLink :
    node.takes 1 (.retryLink 1 1 5) ∧ node.takes 1 (.retryLink 1 1 1) ∧ node.manager 1 = some 1 ∧ node.manager 0 ≠ some 1 ∧
    node.links[(1 : LinkId)].state ≠ .faulted ∧
    ({ node with links := node.links.set 1 ⟨.faulted, none, 3, none, some [], .timeout, false⟩ } : State).links[(1 : LinkId)].state =
      .faulted ∧ (∀ d : Degree, slm = degreeLink d → node.manager d = some 1) :=
  ⟨takes_free rfl rfl rfl, takes_free rfl rfl rfl, rfl, by decide, by decide, rfl, by decide⟩

/-! ### Trips and settings -/

/-- D1 in a trip state with a line and a mode, and a hand-off that waits. -/
def tripped (st : TripState) (line : LineLevel) (mode : TripMode) (timer : Option Time) (w : Option TripChange) : State :=
  { node with
    trips := node.trips.set 1 ⟨st, line, timer⟩
    settings := node.settings.set 1 { Settings.default with mode := mode }
    tripReqs := node.tripReqs.set 1 w }

theorem witness_tripEvents :
    node.tripReqs[(1 : Degree)] = none ∧ node.trips[(1 : Degree)].line = .inactive ∧ node.held = none ∧
    (tripped .holding .inactive .follow (some 100) none).trips[(1 : Degree)].timer = some 100 ∧
    (tripped .holding .inactive .follow (some 100) none).trips[(1 : Degree)].state = .holding ∧
    (tripped .holding .inactive .follow (some 100) none).tripReqs[(1 : Degree)] = none ∧
    (tripped .holding .inactive .follow (some 100) none).nodeTime ≠ 100 ∧
    ({ tripped .holding .inactive .follow (some 100) none with nodeTime := 100 } : State).nodeTime = 100 := by decide

theorem witness_tripHandOff :
    node.tripReqs[(1 : Degree)] = none ∧
    (tripped .clear .active .latched none (some .trip)).tripReqs[(1 : Degree)] = some .trip ∧
    (tripped .tripped .inactive .follow none (some .hold)).tripReqs[(1 : Degree)] = some .hold ∧
    (tripped .holding .inactive .follow none (some .clear)).tripReqs[(1 : Degree)] = some .clear := by decide

theorem witness_clearTrip :
    node.takes 1 (.clearTrip 1 1 4) ∧ node.takes 1 (.clearTrip 1 1 1) ∧ node.manager 1 = some 1 ∧ node.manager 0 ≠ some 1 ∧
    (tripped .tripped .inactive .latched none none).settings[(1 : Degree)].mode = .latched ∧
    (tripped .tripped .inactive .latched none none).trips[(1 : Degree)].state = .tripped ∧
    (tripped .tripped .inactive .latched none none).trips[(1 : Degree)].line = .inactive ∧
    (tripped .tripped .active .latched none none).trips[(1 : Degree)].line = .active ∧
    node.trips[(1 : Degree)].state ≠ .tripped :=
  ⟨takes_free rfl rfl rfl, takes_free rfl rfl rfl, rfl, by decide, rfl, rfl, rfl, rfl, by decide⟩

theorem witness_setDegree :
    node.takes 1 (.setDegree 1 1 4 []) ∧ node.takes 1 (.setDegree 1 1 1 [(1, 32), (3, 20)]) ∧
    node.tripReqs[(1 : Degree)] = none ∧ node.manager 1 = some 1 ∧ node.manager 0 ≠ some 1 ∧
    ChangesValid [(17, 16), (10, 1), (0, -1)] ∧ ¬ ChangesValid [(18, 0)] ∧ ¬ ChangesValid [(10, 2)] ∧
    ¬ ChangesValid [(3, 1), (3, 2)] := by
  unfold ChangesValid
  exact ⟨takes_free rfl rfl rfl, takes_free rfl rfl rfl, by decide, by decide, by decide, by decide, by decide, by decide,
    by decide⟩

/-- A hand-off that waits when the manager, or another domain, sends SET_DEGREE. -/
theorem witness_setDegree_hand_off :
    (tripped .clear .active .latched none (some .trip)).tripReqs[(1 : Degree)] ≠ none ∧
    (tripped .clear .active .latched none (some .trip)).takes 1 (.setDegree 1 1 1 [(12, 5)]) ∧
    (tripped .clear .active .latched none (some .trip)).manager 1 = some 1 ∧
    (tripped .clear .active .latched none (some .trip)).manager 1 ≠ some 0 ∧
    (tripped .clear .active .latched none (some .trip)).held = none :=
  ⟨by decide, takes_free rfl rfl rfl, rfl, by decide, rfl⟩

theorem witness_setDegreeEffects :
    node.ports[(1 : Domain)].slot.isBusy = false ∧ node.manager 1 = some 1 ∧ node.tripReqs[(1 : Degree)] = none ∧
    (tripped .tripped .inactive .latched none none).settings[(1 : Degree)].hold = 100 ∧
    ({ tripped .tripped .inactive .latched none none with
        settings := node.settings.set 1 { Settings.default with hold := 0 } } : State).settings[(1 : Degree)].hold = 0 ∧
    (tripped .holding .inactive .follow (some 9) none).settings[(1 : Degree)].mode = .follow ∧
    node.settings[(1 : Degree)].activeLevel = .low ∧ node.tripPins[(1 : Degree)] = true ∧
    node.trips[(1 : Degree)].line = .inactive ∧ node.trips[(1 : Degree)].state = .clear := by decide

/-- Two slots held and one record waiting. -/
def waiting : State :=
  { withConn (addConn .pendingUp .blocked) with
    ramps := node.ramps.set 1 ⟨[⟨⟨5, 3⟩, none⟩], [⟨⟨8, 1⟩, none⟩, ⟨⟨9, 1⟩, none⟩], 0⟩ }

theorem witness_setDegree_raises_slots :
    (3 : Int) ≤ 4 ∧ (waiting.settings[(1 : Degree)].rampSlots : Int) < 3 ∧
    waiting.ramps[(1 : Degree)].queue = ⟨⟨5, 3⟩, none⟩ :: [] ∧
    waiting.find ⟨5, 3⟩ = some (addConn .pendingUp .blocked) ∧ (addConn .pendingUp .blocked).state = .pendingUp ∧
    waiting.links[degreeLink 1].state = .ready ∧ waiting.trips[(1 : Degree)].state = .clear ∧
    (waiting.ramps[(1 : Degree)].holders.length : Int) < 3 := by decide

/-! ### Ports -/

/-- A notice, and a port 1 with `n` of them. -/
def aNotice : Notice := ⟨.tripOn, none, some 1, none, 7⟩
def queued (n : Nat) : State :=
  { node with ports := node.ports.set 1 { Port.cleared with queue := List.replicate n aNotice } }

theorem witness_portCommands :
    (queued 1).takes 1 (.fetchNotice 1 1) ∧ (queued 1).ports[(1 : Domain)].queue = aNotice :: [] ∧
    node.ports[(1 : Domain)].queue = [] ∧ node.takes 1 (.clearFlags 1 1 31) ∧ node.takes 1 (.setMask 1 1 31) ∧
    node.takes 1 (.setAllNotices 1 1 1) ∧ node.ports[(1 : Domain)].slot.isBusy = false ∧ (31 : Nat) < 32 ∧
    (1 : Nat) < 2 ∧ (7 : Nat) < 8 ∧ node.takes 1 (.resetPort 1 1) :=
  ⟨takes_free rfl rfl rfl, rfl, rfl, takes_free rfl rfl rfl, takes_free rfl rfl rfl, takes_free rfl rfl rfl, rfl,
    by decide, by decide, by decide, takes_free rfl rfl rfl⟩

/-- R183: a POWER_LIMIT notice with a handle and a negative value, the last in its queue. -/
theorem test_notice_octets :
    (Notice.octets ⟨.powerLimit, some ⟨5, 3⟩, none, some (-30), 7⟩ 0) = [10, 5, 5, 3, 0, 0xFF, 0xE2, 0, 0, 0, 7, 0] := by
  decide

/-- A BUSY slot takes the command it holds. -/
theorem witness_busy_takes :
    ({ node with ports := node.ports.set 1 { Port.cleared with slot := .busy (.readNode 1 9) } } : State).takes 1
      (.readNode 1 9) := takes_busy rfl rfl

theorem witness_noticeDelivery :
    (addConn .inService (.att 60)).peer ≠ some (addConn .inService (.att 60)).proposer ∧
    (queued 15).ports[(1 : Domain)].queue.length = 15 ∧ (queued 16).ports[(1 : Domain)].queue.length = 16 ∧
    (addConn .inService (.att 60)).peer = some 1 ∧ (addConn .inService (.att 60)).notify.power = true ∧
    ({ addConn .inService (.att 60) with notify := ⟨false, false, false⟩ } : Conn).notify.ramp = false ∧
    (queued 1).ports[(1 : Domain)].allNotices = false := by decide

theorem witness_transactions :
    node.held = none ∧ node.ports[(2 : Domain)].transaction = .idle ∧
    ({ node with ports := node.ports.set 2 { Port.cleared with slot := .ready ⟨1, .ok, []⟩ } } : State).ports[(2 : Domain)].slot =
      .ready ⟨1, .ok, []⟩ ∧ (∀ r : Reply, node.ports[(2 : Domain)].slot ≠ .ready r) ∧
    ({ node with ports := node.ports.set 2 { Port.cleared with slot := .busy .sweepTimeout } } : State).ports[(2 : Domain)].slot.isBusy =
      true ∧ node.ports[(2 : Domain)].slot.isBusy = false ∧ [0x10, 0x01, 0x00, 0x01, 0x04].length < 6 ∧ (0xC3 : Byte) ≠ 0xC1 ∧
    (0xC3 : Byte) ≠ 0xC2 := by
  refine ⟨rfl, rfl, rfl, fun r h => ?_, rfl, rfl, by decide, by decide, by decide⟩
  cases h

/-- R185, R187: a frame that fails, one whose code 0x14 the catalogue does not list, and one of CLAIM with no
parameter and of SET_DEGREE with 3. -/
theorem witness_portAnswers :
    PortAnswers [0x10, 1] .frameError ∧ PortAnswers (withCrc [0x14, 1, 0, 0]) .unknownCommand ∧
    PortAnswers (withCrc [0x10, 1, 0, 0]) .badParam ∧ PortAnswers (withCrc [0x31, 1, 0, 3, 0, 0, 0]) .badParam := by
  unfold PortAnswers FrameFails
  refine ⟨.inl ⟨by decide, rfl⟩, .inr ⟨by decide +kernel, .inl ⟨by decide +kernel, rfl⟩⟩,
    .inr ⟨by decide +kernel, .inr ⟨(0x10, [1]), by decide +kernel, by decide +kernel, by decide +kernel, rfl⟩⟩,
    .inr ⟨by decide +kernel, .inr ⟨(0x31, (List.range 19).map fun k => 1 + 3 * k), by decide +kernel, by decide +kernel,
      by decide +kernel, rfl⟩⟩⟩

/-- A port whose transaction stands where it stands. -/
def wired (x : Transaction) : State := { node with ports := node.ports.set 2 { Port.cleared with transaction := x } }

theorem witness_octets :
    node.ports[(2 : Domain)].transaction = .idle ∧ (wired .selected).ports[(2 : Domain)].transaction ≠ .idle ∧
    (wired (.command [0x10])).ports[(2 : Domain)].transaction = .command [0x10] ∧ [(0x10 : Byte)].length < 6 ∧
    (wired (.read [0x01, 0x00])).ports[(2 : Domain)].transaction = .read (0x01 :: [0x00]) ∧
    (wired (.read [])).ports[(2 : Domain)].transaction = .read [] ∧
    (wired .abandoned).ports[(2 : Domain)].transaction = .abandoned ∧ (wired .abandoned).held = none ∧
    ({ wired .abandoned with held := some .warm } : State).held ≠ none ∧
    (wired .selected).held ≠ some .cold ∧
    (∃ frame, commandFrame (.setMask 2 1 31) = some frame ∧
      (wired (.command frame)).ports[(2 : Domain)].transaction = .command frame ∧
      (wired (.command frame)).ports[(2 : Domain)].slot.isBusy = false) ∧
    (∃ frame, commandFrame (.claim 2 1 19) = some frame) :=
  ⟨rfl, by decide, rfl, by decide, rfl, rfl, rfl, rfl, by decide, by decide, ⟨_, rfl, rfl, rfl⟩, ⟨_, rfl⟩⟩

theorem witness_framesReach :
    commandParts (.claim 2 1 19) = some (2, 0x10, 1, [19]) ∧ (Instr.claim 2 1 19).wellFormed = true ∧
    Instr.codingOk (.claim 2 1 19) = true ∧ commandParts (.setMask 2 1 31) = some (2, 0x43, 1, [31]) ∧
    (Instr.setMask 2 1 31).wellFormed = true ∧ Instr.codingOk (.setMask 2 1 31) = true ∧
    commandParts (.setMask 2 1 32) = some (2, 0x43, 1, [32]) ∧ (Instr.setMask 2 1 32).wellFormed = true ∧
    Instr.codingOk (.setMask 2 1 32) = false ∧ node.held = none ∧
    node.ports[(2 : Domain)].transaction = .idle ∧ node.ports[(2 : Domain)].slot.isBusy = false :=
  ⟨rfl, rfl, rfl, rfl, rfl, rfl, rfl, rfl, rfl, rfl, rfl, rfl⟩

theorem witness_refusals :
    commandPort (.claim 0 1 20) = some (0, 1) ∧ node.takes 0 (.claim 0 1 20) ∧
    ∀ d : Degree, node.tripReqs[d] = none := ⟨rfl, takes_free rfl rfl rfl, by decide⟩

/-! ### Resets and the laws -/

theorem witness_resets :
    node.held ≠ some .cold ∧ node.tripPins = Vector.replicate 4 true ∧
    (∀ p : Domain, node.ports[p].transaction = .idle) ∧ node.held = none ∧
    ({ node with held := some .warm } : State).held = some .warm ∧ ({ node with held := some .cold } : State).held = some .cold ∧
    (tripped .tripped .inactive .follow none none).trips[(1 : Degree)].state = .tripped ∧
    (withConn (addConn .proposed .blocked)).conn 5 = some (addConn .proposed .blocked) :=
  ⟨by decide, rfl, by decide, rfl, rfl, rfl, rfl, rfl⟩

/-- The laws that a step keeps hold of a node with a connection in service on a clear degree. -/
theorem witness_laws :
    (queued 16).queuesOk ∧ node.settingsOk ∧ (withEgress ⟨103, 4⟩).mapOk ∧ step node = .next node := by
  refine ⟨?_, ?_, by unfold State.mapOk Span.before; decide, rfl⟩
  · unfold State.queuesOk; decide
  · unfold State.settingsOk; decide

/-- A SUSPENDED record under a trip in force keeps the laws of darkness. -/
def darkNode : State :=
  { node with
    table := node.table.set 5 ⟨3, some { addConn .suspended .blocked with causes := some ⟨false, true⟩ }⟩
    trips := node.trips.set 1 ⟨.tripped, .active, none⟩ }

theorem darkNode_conn (i : SlotIx) (c : Conn) (h : darkNode.conn i = some c) :
    c = { addConn .suspended .blocked with causes := some ⟨false, true⟩ } := by
  by_cases hi : i = 5
  · subst hi
    exact (Option.some.inj h).symm
  · have h' : darkNode.conn i = node.conn i := by
      have : (5 : Nat) ≠ i.val := fun e => hi (Fin.ext e.symm)
      simp [State.conn, darkNode, this]
    rw [h', node_conn] at h
    cases h

theorem witness_darkOk : darkNode.darkOk ∧ darkNode.tripInForce 1 = true ∧ step darkNode = .next darkNode := by
  refine ⟨⟨fun i c h _ => ?_, fun i c d h _ _ => ?_, fun d r h => ?_, fun d h => ?_, fun h => absurd rfl h⟩,
    by decide, rfl⟩
  · rw [darkNode_conn i c h]; rfl
  · rw [darkNode_conn i c h]; exact .inr (.inr (.inr ⟨rfl, rfl⟩))
  · revert r; revert d; decide
  · revert d; decide

/-- A node that every law holds of: the connection in slot 5 waits for a ramp slot of D1, whose link is
STARTING with a batch in flight, and stands in its places of the map. -/
def lawful : State :=
  { inFlight (addConn .pendingUp .blocked) .starting (.resync true) .blocked with
    map := node.map.set 1 ⟨[⟨⟨100, 4⟩, ⟨5, 3⟩⟩], [], [], 4⟩
    holders := node.holders.set 0 ⟨some ⟨5, 3⟩, none⟩
    ramps := node.ramps.set 1 ⟨[⟨⟨5, 3⟩, none⟩], [], 0⟩
    tracks := [⟨⟨5, 3⟩, ⟨.add, 1⟩, ⟨100, 4⟩, .lit, 0, 0⟩] }

theorem lawful_conn (i : SlotIx) (c : Conn) :
    lawful.conn i = some c ↔ i = 5 ∧ c = addConn .pendingUp .blocked := by
  by_cases hi : i = 5
  · subst hi
    exact ⟨fun h => ⟨rfl, (Option.some.inj h).symm⟩, fun h => by rw [h.2]; rfl⟩
  · have h' : lawful.conn i = none := by
      have : (5 : Nat) ≠ i.val := fun e => hi (Fin.ext e.symm)
      simp [State.conn, lawful, inFlight, withConn, node, State.reset, this]
    rw [h']
    exact ⟨fun h => (nomatch h), fun h => absurd h.1 hi⟩

theorem lawful_find (h : Handle) (c : Conn) :
    lawful.find h = some c ↔ h = ⟨5, 3⟩ ∧ c = addConn .pendingUp .blocked := by
  obtain ⟨i, g⟩ := h
  unfold State.find
  by_cases hi : i = 5
  · subst hi
    by_cases hg : g = 3
    · subst hg
      exact ⟨fun h => ⟨rfl, ((lawful_conn 5 c).1 h).2⟩, fun h => (lawful_conn 5 c).2 ⟨rfl, h.2⟩⟩
    · have : ¬ lawful.table[(5 : SlotIx)].gen = g := fun e => hg (e.symm.trans rfl)
      rw [if_neg this]
      exact ⟨fun h => (nomatch h), fun h => absurd (Handle.mk.inj h.1).2 hg⟩
  · refine ⟨fun h => ?_, fun h => absurd (Handle.mk.inj h.1).1 hi⟩
    split at h
    · exact absurd ((lawful_conn i c).1 h).1 hi
    · exact nomatch h

theorem lawful_sinksIn (d : Degree) (h : Handle) (a b : CState) :
    lawful.sinksIn d h a b ↔ h = ⟨5, 3⟩ ∧ d = 1 ∧ (a = .pendingUp ∨ b = .pendingUp) := by
  unfold State.sinksIn
  constructor
  · rintro ⟨c, hf, hd, hs⟩
    obtain ⟨rfl, rfl⟩ := (lawful_find h c).1 hf
    exact ⟨rfl, (Option.some.inj hd).symm, hs.imp Eq.symm Eq.symm⟩
  · rintro ⟨rfl, rfl, hs⟩
    exact ⟨_, (lawful_find _ _).2 ⟨rfl, rfl⟩, rfl, hs.imp Eq.symm Eq.symm⟩

theorem lawful_lists (d : Degree) : lawful.map[d].ingress = [] ∧ lawful.map[d].drops = [] := by revert d; decide

theorem lawful_idle (d : Degree) (h : d ≠ 1) : lawful.ramps[d] = ⟨[], [], 0⟩ ∧ lawful.map[d] = DegreeMap.empty := by
  revert h; revert d; decide

theorem witness_rampsOk : lawful.rampsOk ∧ lawful.passesOk := by
  refine ⟨fun d => ?_, fun d r h => by revert r; revert d; decide⟩
  refine ⟨by revert d; decide, by revert d; decide, by revert d; decide, by revert d; decide, fun h => ?_, fun h => ?_,
    fun h n => ?_⟩
  all_goals by_cases hd : d = 1
  all_goals first | (subst hd) | (rw [(lawful_idle d hd).1])
  · rw [lawful_sinksIn]
    exact ⟨fun ⟨e, he, hh⟩ => ⟨hh.symm.trans (by rw [List.mem_singleton.1 he]), rfl, .inl rfl⟩,
      fun hh => ⟨⟨⟨5, 3⟩, none⟩, List.mem_singleton.2 rfl, hh.1.symm⟩⟩
  · rw [lawful_sinksIn]
    exact ⟨fun ⟨_, he, _⟩ => (nomatch he), fun hh => absurd hh.2.1 hd⟩
  · rw [lawful_sinksIn]
    exact ⟨fun he => (nomatch he), fun hh => absurd hh.2.2 (by decide)⟩
  · rw [lawful_sinksIn]
    exact ⟨fun he => (nomatch he), fun hh => absurd hh.2.1 hd⟩
  · exact ⟨fun he => (nomatch he), fun he => by cases List.mem_singleton.1 he⟩
  · exact ⟨fun he => (nomatch he), fun he => (nomatch he)⟩

theorem witness_recordsOk : lawful.recordsOk ∧ lawful.dropsOk ∧ lawful.mapOk := by
  refine ⟨⟨fun d => ⟨by revert d; decide, by revert d; decide, fun h sp => ?_, by revert d; decide, by revert d; decide,
    fun h sp => ?_, by revert d; decide, fun h sp l => ?_⟩, fun l h => ⟨?_, ?_⟩⟩, fun d => ?_, ?_⟩
  · by_cases hd : d = 1
    · subst hd
      constructor
      · intro he
        cases List.mem_singleton.1 he
        exact ⟨_, (lawful_find _ _).2 ⟨rfl, rfl⟩, rfl, rfl⟩
      · rintro ⟨c, hf, -, rfl⟩
        obtain ⟨rfl, rfl⟩ := (lawful_find h c).1 hf
        exact List.mem_singleton.2 rfl
    · rw [(lawful_idle d hd).2]
      refine ⟨fun he => (nomatch he), fun ⟨c, hf, hk, _⟩ => ?_⟩
      obtain ⟨rfl, rfl⟩ := (lawful_find h c).1 hf
      exact absurd (Option.some.inj hk).symm hd
  · rw [(lawful_lists d).1]
    refine ⟨fun ⟨_, hu, _⟩ => (nomatch hu), fun ⟨c, hf, hk, _⟩ => ?_⟩
    · obtain ⟨rfl, rfl⟩ := (lawful_find h c).1 hf
      exact nomatch hk
  · rw [(lawful_lists d).2]
    refine ⟨fun he => (nomatch he), fun ⟨c, hf, hk, _⟩ => ?_⟩
    · obtain ⟨rfl, rfl⟩ := (lawful_find h c).1 hf
      exact nomatch hk
  · by_cases hl : l = 0
    · subst hl
      constructor
      · intro he
        cases Option.some.inj he
        exact ⟨_, 1, (lawful_find _ _).2 ⟨rfl, rfl⟩, rfl⟩
      · rintro ⟨c, d, hf, -⟩
        rw [((lawful_find h c).1 hf).1]
        rfl
    · have : lawful.holders[l].add = none := by revert hl; revert l; decide
      rw [this]
      refine ⟨fun he => (nomatch he), fun ⟨c, d, hf, hk⟩ => ?_⟩
      obtain ⟨rfl, rfl⟩ := (lawful_find h c).1 hf
      exact absurd (Route.add.inj hk).1.symm hl
  · have : lawful.holders[l].drop = none := by revert l; decide
    rw [this]
    refine ⟨fun he => (nomatch he), fun ⟨c, d, hf, hk⟩ => ?_⟩
    obtain ⟨rfl, rfl⟩ := (lawful_find h c).1 hf
    exact nomatch hk
  · rw [(lawful_lists d).2]
    exact .nil
  · unfold State.mapOk Span.before; decide

theorem witness_assignedOk : lawful.assignedOk := by
  intro i c h
  obtain ⟨rfl, rfl⟩ := (lawful_conn i c).1 h
  exact .inl ⟨rfl, rfl⟩

theorem witness_timersOk : lawful.timersOk ∧ lawful.settingsOk ∧ lawful.links[(1 : LinkId)].inFlight ≠ none := by
  refine ⟨⟨fun i c h hs => ?_, fun e h => (nomatch (h : none = some e)), fun l h => ?_, fun d h => ?_,
    fun h => nomatch (h : none = some ResetKind.cold)⟩, ?_, by decide⟩
  · rw [((lawful_conn i c).1 h).2] at hs
    cases hs
  · have hl : l = 1 := by revert h; revert l; decide
    subst hl
    exact ⟨rfl, 200, rfl, by decide⟩
  · revert h; revert d; decide
  · unfold State.settingsOk; decide

theorem witness_tracksOk : lawful.tracksOk ∧ lawful.declsOk := by
  refine ⟨⟨by decide, fun h => ⟨fun ⟨e, he, hh⟩ => ?_, fun ⟨c, hf, _⟩ => ?_⟩, fun e he c hf => ?_, fun i c h => ?_⟩,
    fun r hr => nomatch hr⟩
  · rw [List.mem_singleton.1 he] at hh
    exact ⟨_, (lawful_find _ _).2 ⟨hh.symm, rfl⟩, by decide, by decide⟩
  · exact ⟨_, List.mem_singleton.2 rfl, ((lawful_find h c).1 hf).1.symm⟩
  · rw [((lawful_find _ c).1 hf).2, List.mem_singleton.1 he]
    exact ⟨rfl, rfl⟩
  · rw [((lawful_conn i c).1 h).2]
    decide

/-- Every law together, in a state whose next step is a DONE that settles its link. -/
theorem witness_step_laws :
    let s : State := { lawful with pending := [.done 1 17] }
    s.settingsOk ∧ s.rampsOk ∧ s.passesOk ∧ s.recordsOk ∧ s.dropsOk ∧ s.assignedOk ∧ s.timersOk ∧ s.mapOk ∧
    s.tracksOk ∧ s.declsOk ∧ s.pending = .done 1 17 :: [] ∧ ∃ t, step s = .next t :=
  ⟨witness_timersOk.2.1, witness_rampsOk.1, witness_rampsOk.2, witness_recordsOk.1, witness_recordsOk.2.1, witness_assignedOk,
    witness_timersOk.1, witness_recordsOk.2.2, witness_tracksOk.1, witness_tracksOk.2, rfl, _, rfl⟩

/-- The batch in flight of the lawful node is of its link, and names a record. -/
theorem witness_batchesOk : lawful.batchesOk ∧
    ∀ (l : LinkId) (b : Batch) (e : Entry) (h : Handle), lawful.links[l].inFlight = some b → e ∈ b.entries →
      e.handle? = some h → lawful.find h ≠ none := by
  have key : ∀ (l : LinkId) (b : Batch) (e : Entry), lawful.links[l].inFlight = some b → e ∈ b.entries →
      l = 1 ∧ e = .select ⟨5, 3⟩ ⟨100, 4⟩ 4 .blocked := by
    intro l b e hb he
    have hl : l = 1 := by
      have : lawful.links[l].inFlight ≠ none := fun h => by rw [h] at hb; cases hb
      revert this; clear hb; revert l; decide
    subst hl
    cases Option.some.inj hb
    exact ⟨rfl, List.mem_singleton.1 he⟩
  refine ⟨fun l b e hb he => ?_, fun l b e h hb he hh => ?_⟩
  · obtain ⟨rfl, rfl⟩ := key l b e hb he
    refine ⟨fun h c _ hf => ?_, fun k x y he => nomatch he⟩
    rw [((lawful_find h c).1 hf).2]
    rfl
  · obtain ⟨rfl, rfl⟩ := key l b e hb he
    cases Option.some.inj hh
    rw [(lawful_find _ _).2 ⟨rfl, rfl⟩]
    exact fun h => nomatch h

theorem witness_darkOk_lawful : lawful.darkOk := by
  refine ⟨fun i c h _ => ?_, fun i c d h hd ht => ?_, fun d r h => ?_, fun d h => ?_, fun h => absurd rfl h⟩
  · rw [((lawful_conn i c).1 h).2]; rfl
  · exfalso; revert ht; clear hd; revert d; decide
  · revert r; revert d; decide
  · revert d; decide

/-- The same node with every link READY and idle and nothing to send, and a RELEASE that waits for its step. -/
def idleNode : State := { lawful with links := node.links, pending := [.release 0 1 5 3] }
theorem witness_sentOk :
    idleNode.sentOk ∧ idleNode.recordsOk ∧ idleNode.rampsOk ∧ idleNode.darkOk ∧ idleNode.batchesOk ∧
    idleNode.links[(1 : LinkId)].state = .ready ∧ idleNode.links[(1 : LinkId)].inFlight = none ∧
    ∃ t, step idleNode = .next t := by
  refine ⟨fun _ => ?_, witness_recordsOk.1, witness_rampsOk.1, witness_darkOk_lawful, fun l b e hb => ?_, rfl, rfl, _, rfl⟩
  · decide +kernel
  · exfalso
    have : idleNode.links[l].inFlight = none := by clear hb; revert l; decide
    rw [this] at hb
    cases hb

/-- The offers of the scheduler as a STARTING link becomes READY: the hypotheses of DONE's clause. -/
theorem witness_done_offers :
    degreeLink 1 = (1 : LinkId) ∧ lawful.links[(1 : LinkId)].state = .starting ∧ lawful.trips[(1 : Degree)].state = .clear ∧
    lawful.ramps[(1 : Degree)].queue = [⟨⟨5, 3⟩, none⟩] := by decide

/-- Node time: nothing is due at 0, and at 10 a reservation is. -/
theorem witness_nodeTime :
    node.held = none ∧ node.nothingDue ∧ ({ withConn reserved with nodeTime := 10 } : State).conn 5 = some reserved ∧
    reserved.expiry = some ({ withConn reserved with nodeTime := 10 } : State).nodeTime := by
  refine ⟨rfl, ⟨fun i c h => ?_, by decide, by decide, by decide⟩, rfl, rfl⟩
  rw [node_conn] at h
  cases h

/-- A warm reset that ends with a ramp, a waiting record and a tracked source kept, and a trip in force. -/
theorem witness_leaveReset_warm :
    ({ withConn (addConn .rampUp (.att 90)) with held := some .warm } : State).held = some .warm ∧
    (addConn .rampUp (.att 90)).source = some .lit ∧ (addConn .rampUp (.att 90)).route.sinkDegree = some 1 ∧
    (tripped .tripped .active .latched none none).trips[(1 : Degree)].state ≠ .clear ∧
    (tripped .tripped .active .latched none none).manager 1 = some 1 := by decide

/-- A record of a degree's list that stays, its trip line INACTIVE; and one whose degree trips as the reset ends. -/
def warmHeld (high : Bool) : State :=
  { withConn (addConn .inService (.att 60)) with
    held := some .warm, tripPins := node.tripPins.set 1 high
    map := node.map.set 1 ⟨[⟨⟨100, 4⟩, ⟨5, 3⟩⟩], [], [], 4⟩ }
theorem witness_leaveReset_resync :
    (warmHeld true).find ⟨5, 3⟩ = some (addConn .inService (.att 60)) ∧
    (∃ x ∈ (warmHeld true).map[(1 : Degree)].egress, x.handle = ⟨5, 3⟩) ∧
    (warmHeld false).trips[(1 : Degree)].state ≠ .tripped ∧ slm ≠ degreeLink 1 := by
  refine ⟨rfl, ⟨_, List.mem_singleton.2 rfl, rfl⟩, by decide, by decide⟩

/-- The trips that a re-read line ends or starts, and MON as a warm reset leaves it. -/
def warmTripped (st : TripState) : State :=
  { withConn { addConn .suspended .blocked with causes := some ⟨false, true⟩ } with
    held := some .warm, trips := node.trips.set 1 ⟨st, .active, none⟩
    settings := node.settings.set 1 { Settings.default with mode := .follow, hold := 0 } }
theorem witness_leaveReset_trips :
    (warmHeld false).mon.state = .idle ∧ (warmTripped .tripped).trips[(1 : Degree)].state ≠ .clear ∧
    ((warmTripped .tripped).conn 5).map (·.causes) = some (some ⟨false, true⟩) ∧ (warmHeld true).manager 1 = some 1 := by
  decide

/-- R157: a FOLLOW trip of hold 0 ends as its line is read INACTIVE, and its record waits for a grant. -/
theorem test_leaveReset_releases :
    (match exec (.leaveReset []) (warmTripped .tripped) with
      | .next t => some ((t.conn 5).map (·.state), t.trips[(1 : Degree)].state, t.ramps[(1 : Degree)].queue) | _ => none) =
      some (some .pendingUp, .clear, [⟨⟨5, 3⟩, none⟩]) := by decide +kernel

/-- R86, R204: MON chooses as the reset ends: A1, tap code 5, of the kept record, under tag 0. -/
theorem test_leaveReset_choice :
    (match exec (.leaveReset []) (warmHeld true) with
      | .next t => some (t.mon.state, t.mon.tap.code, t.mon.tag) | _ => none) =
      some (.requested, 5, 0) := by decide +kernel

/-- R141, R204: the resync carries the kept shadow, and BLOCKED where the line's trip is taken first. -/
theorem test_resync_kept :
    (match exec (.leaveReset []) (warmHeld true) with
      | .next t => (t.links[(1 : LinkId)].inFlight).map (·.entries) | _ => none) =
      some [.select ⟨5, 3⟩ ⟨100, 4⟩ 4 (.att 60)] := by decide +kernel
theorem test_resync_trip_first :
    (match exec (.leaveReset [.line 1]) (warmHeld false) with
      | .next t => (t.links[(1 : LinkId)].inFlight).map (·.entries) | _ => none) =
      some [.select ⟨5, 3⟩ ⟨100, 4⟩ 4 .blocked] := by decide +kernel

/-- R74, R75, R78: taps that are wanted and a boost degree, and the same with the link busy. -/
theorem witness_wanted :
    (withConn (addConn .rampUp (.att 90))).wanted ⟨.add, 1⟩ = true ∧
    (withConn (expressConn .suspended .blocked)).wanted ⟨.ingress, 0⟩ = true ∧
    (withConn (addConn .armed .blocked)).wanted ⟨.add, 1⟩ = false ∧
    (withConn (addConn .rampUp (.att 90))).wanted ⟨.egress, 1⟩ = true ∧
    (withConn (addConn .rampUp (.att 90))).boosts 1 = true ∧ (withConn (addConn .inService (.att 60))).boosts 1 = false ∧
    (inFlight (addConn .rampUp (.att 90)) .ready .update (.att 90)).wanted ⟨.egress, 1⟩ = false := by decide +kernel

/-- R76: the activation of an ADD, a change of its state, makes MON in IDLE request A1, tap code 5. -/
theorem witness_prompt :
    node.mon.state = .idle ∧ requested.mon.state ≠ .idle ∧
    ∃ t, exec (.activate 0 1 5 3) (withConn (addConn .armed .blocked)) = .next t ∧
      (t.conn 5).map (·.state) = some .suspended ∧ t.mon.state = .requested ∧ t.mon.tap.code = 5 :=
  ⟨rfl, by decide, _, rfl, by decide +kernel, by decide +kernel, by decide +kernel⟩

/-- R44, R46: a SUSPENDED record that is released with its active setpoint BLOCKED is freed in the step. -/
theorem witness_freed :
    (addConn .suspended .blocked).state ≠ .proposed ∧
    ∃ t, exec (.release 1 1 5 3) (withConn (addConn .suspended .blocked)) = .next t ∧ t.conn 5 = none ∧
      (1 : Domain) ∈ (addConn .suspended .blocked).domains := ⟨by decide, _, rfl, by decide +kernel, by decide⟩

/-- An active setpoint that differs from the one a batch in flight carries. -/
theorem witness_activesChange :
    (inFlight (addConn .rampUp (.att 250)) .ready .update (.att 250)).actives[(5 : SlotIx)] ≠ .att 250 ∧
    ∃ t, exec (.done 1 17) (inFlight (addConn .rampUp (.att 250)) .ready .update (.att 250)) = .next t ∧
      t.actives[(5 : SlotIx)] = .att 250 := ⟨by decide, _, rfl, by decide +kernel⟩

/-! ## One step of a command or event, with what the manual gives for it -/

/-- A part of the next state. -/
def after {α : Type} (i : Instr) (s : State) (f : State → α) : Option α :=
  match exec i s with
  | .next t => some (f t)
  | _ => none

/-- R139, R131: the DONE of the START batch makes SL2 READY with nothing in flight. -/
theorem test_done_of_start :
    after (.done 2 0) State.reset (fun t => (t.links[(2 : LinkId)].state, t.links[(2 : LinkId)].inFlight)) =
      some (.ready, none) := by decide +kernel

/-- R134: SL2's START batch of node time 0 is due at 200 and fails the link with TIMEOUT. -/
theorem test_replyTimeout_of_start :
    after (.replyTimeout 2) { State.reset with nodeTime := 200 }
      (fun t => (t.links[(2 : LinkId)].state, t.links[(2 : LinkId)].lastFailure)) = some (.faulted, .timeout) := by
  decide +kernel

/-- R134, R177: node time does not go past the START batches' expiry with them in flight. -/
theorem test_tick_takes_what_is_due :
    after .nodeTimeAdvance { State.reset with nodeTime := 200 }
      (fun t => (t.nodeTime, t.links[(2 : LinkId)].lastFailure, t.links[slm].lastFailure)) =
      some (201, .timeout, .timeout) := by decide +kernel

/-- R61, R58: the link's DONE offers the waiting record a slot by a request, under offer number 0. -/
theorem test_done_offers :
    after (.done 1 17) lawful (fun t => (t.grantReqs[(1 : Degree)], t.ramps[(1 : Degree)].holders)) =
      some ([⟨⟨5, 3⟩, 0⟩], [⟨⟨5, 3⟩, some 0⟩]) := by decide +kernel

/-- R24, R29: the first admission takes slot 0 under generation 1 and sends PROPOSAL_IN to the peer. -/
theorem test_propose_first_handle :
    after (addProposal 0) node (fun t => (t.ports[(0 : Domain)].slot, t.ports[(1 : Domain)].queue)) =
      some (.ready ⟨1, .ok, [0, 1]⟩, [⟨.proposalIn, some ⟨0, 1⟩, none, none, 0⟩]) := by decide +kernel

/-- R58, R123: a grant lights a record at 250, and its link carries it: add input, 250. -/
theorem test_grant_lights :
    after (.grant 1)
      { offered (addConn .pendingUp .blocked) with map := node.map.set 1 ⟨[⟨⟨100, 4⟩, ⟨5, 3⟩⟩], [], [], 4⟩ }
      (fun t => ((t.conn 5).map (fun c => (c.state, c.shadow)), (t.links[(1 : LinkId)].inFlight).map (·.entries))) =
      some (some (.rampUp, .att 250), some [.select ⟨5, 3⟩ ⟨100, 4⟩ 4 (.att 250)]) := by decide +kernel

/-- R37, R147: a trip suspends a record in service and tells the degree's manager before its domains. -/
theorem test_trip_suspends :
    after (.tripHandOff 1)
      { withConn (addConn .inService (.att 60)) with tripReqs := node.tripReqs.set 1 (some .trip) }
      (fun t => ((t.conn 5).map (fun c => (c.state, c.shadow)), (t.ports[(1 : Domain)].queue).map (·.kind))) =
      some (some (.suspended, .blocked), [.tripOn, .suspended]) := by decide +kernel

/-- R146, R147: a low line is ACTIVE at its default level, and its trip waits at CNM. -/
theorem test_lineEvent_low :
    after (.lineEvent 3 false) node (fun t => (t.trips[(3 : Degree)].line, t.tripReqs[(3 : Degree)])) =
      some (.active, some .trip) := by decide +kernel

/-- R94, R38, R55: LIT frees a dark record to PENDING_UP, and with a free slot it ramps at 250 in the step. -/
theorem test_declaration_lit :
    after (.declaration 5 3)
      (declared { addConn .suspended .blocked with causes := some ⟨true, false⟩ } .lit)
      (fun t => (t.conn 5).map (fun c => (c.state, c.shadow))) = some (some (.rampUp, .att 250)) := by decide +kernel

/-- R68: a header of E1 (code 9) under tag 6 is accepted; R72: one under tag 5 is not. -/
theorem test_header_accepted :
    after (.headerWord 0x0069) requested (fun t => (t.mon.state, t.mon.sample)) =
      some (.receiving, some ⟨1, true⟩) := by decide +kernel
theorem test_header_mismatch :
    after (.headerWord 0x0059) requested (fun t => t.mon.lastFailure) = some (.mismatch ⟨.egress, 1⟩) := by
  decide +kernel

/-- Section 10.5: load limit 32 above 40 committed cells is stored as 40, gain 20 as 16, and OK_CLAMPED answers. -/
theorem test_setDegree_clamps :
    after (.setDegree 1 1 1 [(1, 32), (3, 20), (12, 12000), (8, 0)])
      { node with map := node.map.set 1 ⟨[], [], [], 40⟩ }
      (fun t => (t.settings[(1 : Degree)].loadLimit, t.settings[(1 : Degree)].gain, t.settings[(1 : Degree)].hold,
        t.settings[(1 : Degree)].darkCount)) = some (40, 16, 10000, 1) := by decide +kernel

/-- Section 7.10, step 11: the resync's DONE confirms BLOCKED and frees the DRAINING record. -/
theorem test_done_frees :
    after (.done 1 17) (inFlight (addConn .draining .blocked) .starting (.resync true) .blocked)
      (fun t => (t.conn 5, (t.ports[(1 : Domain)].queue).map (·.kind))) =
      some (none, [.released, .linkReady]) := by decide +kernel

end Sys2Proof.Tests
end

