-- ==== Sys2Proof/Proofs/Tables.lean ====
section
/-! Proofs/Tables.lean: what reading a record gives after the table is written, a slot allocated or a record freed. -/

set_option Elab.async false

namespace Sys2Proof.Machine
open Sys2Proof

/-! ## Finding a record after its table is written -/

theorem State.conn_of_table {s t : State} (h : t.table = s.table) (i : SlotIx) : t.conn i = s.conn i := by
  simp only [State.conn, h]

theorem State.handleAt_of_table {s t : State} (h : t.table = s.table) (i : SlotIx) : t.handleAt i = s.handleAt i := by
  simp only [State.handleAt, h]

theorem State.find_of_table {s t : State} (h : t.table = s.table) (k : Handle) : t.find k = s.find k := by
  simp only [State.find, State.conn, h]

/-- A handle that finds a connection is the handle of its slot (R25). -/
theorem State.handleAt_of_find {s : State} {h : Handle} {c : Conn} (e : s.find h = some c) : s.handleAt h.slot = h := by
  obtain ⟨hg, -⟩ := (s.find_eq_some h c).mp e
  rw [State.handleAt, hg]

theorem State.find_putConn (s : State) (i : SlotIx) (c : Option Conn) (h : Handle) :
    (s.putConn i c).find h = if h = s.handleAt i then c else if h.slot = i then none else s.find h := by
  unfold State.find
  rw [State.gen_putConn, State.conn_putConn]
  by_cases hs : h.slot = i
  · subst hs
    by_cases hg : s.table[h.slot].gen = h.gen
    · simp [-Fin.getElem_fin, State.handleAt, hg]
    · have hne : h ≠ s.handleAt h.slot := fun e => hg (congrArg Handle.gen e).symm
      rw [if_neg hg, if_neg hne, if_pos rfl]
  · have hne : h ≠ s.handleAt i := fun e => hs (congrArg Handle.slot e)
    rw [if_neg hne, if_neg hs, if_neg hs]

/-- A slot that is written has a handle of its own: every other handle finds what it found. -/
theorem State.find_putConn_other {s : State} {i : SlotIx} {a : Conn} (hi : s.conn i = some a) (c : Option Conn)
    {h : Handle} (hne : h ≠ s.handleAt i) : (s.putConn i c).find h = s.find h := by
  rw [State.find_putConn, if_neg hne]
  split
  · next hs =>
    subst hs
    cases hf : s.find h with
    | none => rfl
    | some b => exact absurd (State.handleAt_of_find hf).symm hne
  · rfl

theorem State.conn_allocate (s : State) (i j : SlotIx) (c : Conn) :
    (s.allocate i c).conn j = if j = i then some c else s.conn j := by
  show ((s.table.set i ⟨s.table[i].gen + 1, some c⟩)[j]).conn = _
  rw [get_set]
  split <;> rfl

/-- The handle of a slot that is allocated has the next generation (R24). -/
theorem State.handleAt_allocate (s : State) (i j : SlotIx) (c : Conn) :
    (s.allocate i c).handleAt j = if j = i then ⟨i, s.table[i].gen + 1⟩ else s.handleAt j := by
  show Handle.mk j ((s.table.set i ⟨s.table[i].gen + 1, some c⟩)[j]).gen = _
  rw [get_set]
  split
  · next h => rw [h]
  · rfl

theorem State.find_allocate (s : State) (i : SlotIx) (c : Conn) (h : Handle) :
    (s.allocate i c).find h =
      if h = ⟨i, s.table[i].gen + 1⟩ then some c else if h.slot = i then none else s.find h := by
  have ht : ∀ j : SlotIx, (s.allocate i c).table[j] = if j = i then ⟨s.table[i].gen + 1, some c⟩ else s.table[j] :=
    fun j => get_set ..
  unfold State.find
  rw [State.conn_allocate, ht]
  by_cases hs : h.slot = i
  · subst hs
    rw [if_pos rfl, if_pos rfl, if_pos rfl]
    by_cases hg : s.table[h.slot].gen + 1 = h.gen
    · rw [if_pos hg, if_pos (by rw [hg])]
    · have hne : h ≠ ⟨h.slot, s.table[h.slot].gen + 1⟩ := fun e => hg (congrArg Handle.gen e).symm
      rw [if_neg hg, if_neg hne]
  · have hne : h ≠ ⟨i, s.table[i].gen + 1⟩ := fun e => hs (congrArg Handle.slot e)
    rw [if_neg hs, if_neg hs, if_neg hne, if_neg hs]

/-! ## The tables of shared operations -/

theorem State.table_freeRecord (s : State) (i : SlotIx) (c : Conn) :
    (s.freeRecord i c).table = (s.putConn i none).table := by
  unfold State.freeRecord
  split <;> simp [-Fin.getElem_fin]

theorem State.actives_freeRecord (s : State) (i : SlotIx) (c : Conn) :
    (s.freeRecord i c).actives = s.actives.set i .blocked := by
  unfold State.freeRecord
  split <;> simp [-Fin.getElem_fin]

theorem State.map_freeRecord (s : State) (i : SlotIx) (c : Conn) :
    (s.freeRecord i c).map = (s.leaveMap (s.handleAt i) c.route c.span).map := by
  unfold State.freeRecord
  split <;> simp [-Fin.getElem_fin]

theorem State.holders_freeRecord (s : State) (i : SlotIx) (c : Conn) :
    (s.freeRecord i c).holders = (s.leaveMap (s.handleAt i) c.route c.span).holders := by
  unfold State.freeRecord
  split <;> simp [-Fin.getElem_fin]

theorem State.tracks_freeRecord (s : State) (i : SlotIx) (c : Conn) :
    (s.freeRecord i c).tracks = s.tracks.filter (·.handle.slot ≠ i) := by
  unfold State.freeRecord
  split <;> simp [-Fin.getElem_fin]

/-- A PROPOSED record set no matrix entry, and freeing it marks no link (R34, R45). -/
theorem State.freeRecord_proposed {s : State} {i : SlotIx} {c : Conn} (h : c.state = .proposed) :
    (s.freeRecord i c).matrix = s.matrix ∧ (s.freeRecord i c).links = s.links := by
  unfold State.freeRecord
  simp [-Fin.getElem_fin, h]

theorem State.freeRecord_past {s : State} {i : SlotIx} {c : Conn} (h : c.state ≠ .proposed) :
    (s.freeRecord i c).matrix = (s.clearMatrix c.route).matrix ∧
    (s.freeRecord i c).links = (s.clearMatrix c.route).links := by
  unfold State.freeRecord
  cases c.route <;> simp [-Fin.getElem_fin, h, State.clearMatrix, State.mapMatrix, State.mark]

theorem State.conn_freeRecord (s : State) (i j : SlotIx) (c : Conn) :
    (s.freeRecord i c).conn j = if j = i then none else s.conn j := by
  rw [State.conn_of_table (s.table_freeRecord i c), State.conn_putConn]

theorem State.handleAt_freeRecord (s : State) (i j : SlotIx) (c : Conn) :
    (s.freeRecord i c).handleAt j = s.handleAt j := by
  rw [State.handleAt_of_table (s.table_freeRecord i c), State.handleAt, State.gen_putConn, State.handleAt]

theorem State.handleAt_putConn (s : State) (i j : SlotIx) (c : Option Conn) :
    (s.putConn i c).handleAt j = s.handleAt j := by
  rw [State.handleAt, State.gen_putConn, State.handleAt]

/-- What leaves the lists of the map with a connection (R17). -/
theorem State.egress_leaveMap (s : State) (h : Handle) (r : Route) (sp : Span) (d : Degree) (e : EgressEntry) :
    e ∈ (s.leaveMap h r sp).map[d].egress ↔
      e ∈ s.map[d].egress ∧ (r.sinkDegree = some d → e.handle ≠ h) := by
  cases r with
  | add l k =>
    simp only [State.leaveMap, State.mapHolders_map, State.mapMap_map, get_set, Route.sinkDegree, Option.some.injEq]
    by_cases hd : d = k
    · subst hd; simp [DegreeMap.leaveEgress]
    · simp [hd, Ne.symm hd]
  | drop k l =>
    simp only [State.leaveMap, State.mapHolders_map, State.mapMap_map, get_set, Route.sinkDegree]
    by_cases hd : d = k
    · subst hd; simp [DegreeMap.leaveIngress, DegreeMap.leaveDrop]
    · simp [hd]
  | express a b =>
    simp only [State.leaveMap, State.mapMap_map, get_set, Route.sinkDegree, Option.some.injEq]
    by_cases ha : d = a <;> by_cases hd : d = b
    · subst hd; subst ha; simp [DegreeMap.leaveIngress, DegreeMap.leaveEgress]
    · subst ha; simp [DegreeMap.leaveIngress, hd, Ne.symm hd]
    · subst hd; simp [DegreeMap.leaveEgress, ha]
    · simp [ha, hd, Ne.symm hd]

theorem State.drops_leaveMap (s : State) (h : Handle) (r : Route) (sp : Span) (d : Degree) (e : DropEntry) :
    e ∈ (s.leaveMap h r sp).map[d].drops ↔
      e ∈ s.map[d].drops ∧ ((∃ l, r = .drop d l) → e.handle ≠ h) := by
  cases r with
  | add l k =>
    simp only [State.leaveMap, State.mapHolders_map, State.mapMap_map, get_set]
    by_cases hd : d = k
    · subst hd; simp [DegreeMap.leaveEgress]
    · simp [hd]
  | drop k l =>
    simp only [State.leaveMap, State.mapHolders_map, State.mapMap_map, get_set]
    by_cases hd : d = k
    · subst hd; simp [DegreeMap.leaveIngress, DegreeMap.leaveDrop]
    · simp [hd, Ne.symm hd]
  | express a b =>
    simp only [State.leaveMap, State.mapMap_map, get_set]
    by_cases ha : d = a <;> by_cases hd : d = b
    · subst hd; subst ha; simp [DegreeMap.leaveIngress, DegreeMap.leaveEgress]
    · subst ha; simp [DegreeMap.leaveIngress, hd]
    · subst hd; simp [DegreeMap.leaveEgress, ha]
    · simp [ha, hd]

end Sys2Proof.Machine
end

