-- ==== Sys2Proof/Proofs/LinkEntries.lean ====
section
/-! Proofs/LinkEntries.lean: the entries of a link, whose they are, and when none is left to send. -/

set_option Elab.async false

namespace Sys2Proof.Machine
open Sys2Proof

/-! ## The entries of a link -/

@[simp] theorem linkDegree_degreeLink (d : Degree) : linkDegree (degreeLink d) = some d := by
  simp [linkDegree, degreeLink]

@[simp] theorem linkDegree_slm : linkDegree slm = none := rfl

theorem degreeLink_ne_slm (d : Degree) : degreeLink d ≠ slm := by
  intro h
  have := congrArg linkDegree h
  simp at this

theorem degreeLink_inj {a b : Degree} (h : degreeLink a = degreeLink b) : a = b := by
  have := congrArg linkDegree h
  simpa using this

/-- A link is SLM's or a degree's. -/
theorem link_cases (l : LinkId) : l = slm ∨ ∃ d, l = degreeLink d := by
  by_cases h : l.val < 4
  · exact .inr ⟨⟨l.val, h⟩, rfl⟩
  · exact .inl (Fin.ext (by have := l.isLt; simp only [slm]; show l.val = 4; omega))

theorem linkDegree_eq_some {l : LinkId} {d : Degree} : linkDegree l = some d ↔ l = degreeLink d := by
  constructor
  · intro h
    obtain rfl | ⟨k, rfl⟩ := link_cases l
    · simp at h
    · simp at h; rw [h]
  · rintro rfl; simp

theorem linkDegree_eq_none {l : LinkId} : linkDegree l = none ↔ l = slm := by
  constructor
  · intro h
    obtain rfl | ⟨k, rfl⟩ := link_cases l
    · rfl
    · simp at h
  · rintro rfl; rfl

/-- A connection's entry is carried by the link of its sink degree, or by its source degree's for a DROP (R123). -/
theorem Route.link_of_sink {r : Route} {d : Degree} (h : r.sinkDegree = some d) : r.link = degreeLink d := by
  cases r <;> simp_all [Route.sinkDegree, Route.link]

/-- A degree's lists name a handle: its entry is one of the degree's link (R123). -/
def State.lists (s : State) (d : Degree) (h : Handle) : Prop :=
  (∃ x ∈ s.map[d].egress, x.handle = h) ∨ ∃ x ∈ s.map[d].drops, x.handle = h

theorem State.mem_degreeEntries (s : State) (d : Degree) (x : Entry × Bool) :
    x ∈ s.degreeEntries d ↔
      ∃ h c, s.lists d h ∧ s.find h = some c ∧ x = (c.entry h, c.shadow != s.actives[h.slot]) := by
  simp only [State.degreeEntries, List.mem_filterMap, List.mem_append, List.mem_map, Option.map_eq_some_iff]
  constructor
  · rintro ⟨h, hl, c, hc, rfl⟩
    exact ⟨h, c, hl, hc, rfl⟩
  · rintro ⟨h, c, hl, hc, rfl⟩
    exact ⟨h, hl, c, hc, rfl⟩

theorem State.linkEntries_degree (s : State) (d : Degree) : s.linkEntries (degreeLink d) = s.degreeEntries d := by
  simp [State.linkEntries]

/-- Nothing is left to send on a degree's link: every listed record's shadow is its active setpoint (R127). -/
theorem State.updateEntries_degree_nil (s : State) (d : Degree) :
    s.updateEntries (degreeLink d) = [] ↔
      ∀ h c, s.lists d h → s.find h = some c → c.shadow = s.actives[h.slot] := by
  simp only [State.updateEntries, State.linkEntries_degree, List.map_eq_nil_iff, List.filter_eq_nil_iff,
    State.mem_degreeEntries]
  constructor
  · intro hn h c hl hc
    simpa [-Fin.getElem_fin] using hn _ ⟨h, c, hl, hc, rfl⟩
  · rintro hn x ⟨h, c, hl, hc, rfl⟩
    simpa [-Fin.getElem_fin] using hn h c hl hc

/-- Nothing is left to send on SLM: every port entry's halves are their active values (R125, R127). -/
theorem State.updateEntries_slm_nil (s : State) :
    s.updateEntries slm = [] ↔
      ∀ l : LocalPort, s.matrix[l].addShadow = s.matrix[l].addActive ∧ s.matrix[l].dropShadow = s.matrix[l].dropActive := by
  simp [-Fin.getElem_fin, State.updateEntries, State.linkEntries, State.portEntries, List.filter_eq_nil_iff]

/-- What is left to send on a link follows from the records, the map, the actives and the matrix. -/
theorem State.updateEntries_congr {s t : State} (ht : t.table = s.table) (hm : t.map = s.map)
    (ha : t.actives = s.actives) (hx : t.matrix = s.matrix) (l : LinkId) : t.updateEntries l = s.updateEntries l := by
  simp only [State.updateEntries, State.linkEntries, State.degreeEntries, State.portEntries, State.find, State.conn,
    ht, hm, ha, hx]

theorem State.resyncEntries_congr {s t : State} (ht : t.table = s.table) (hm : t.map = s.map)
    (ha : t.actives = s.actives) (hx : t.matrix = s.matrix) (l : LinkId) : t.resyncEntries l = s.resyncEntries l := by
  simp only [State.resyncEntries, State.linkEntries, State.degreeEntries, State.portEntries, State.find, State.conn,
    ht, hm, ha, hx]

/-- The entries left to send are among those of a RESYNC. -/
theorem State.mem_resync_of_update {s : State} {l : LinkId} {e : Entry} (h : e ∈ s.updateEntries l) :
    e ∈ s.resyncEntries l := by
  simp only [State.updateEntries, State.resyncEntries, List.mem_map, List.mem_filter] at h ⊢
  obtain ⟨x, ⟨hx, -⟩, rfl⟩ := h
  exact ⟨x, hx, rfl⟩

@[simp] theorem Conn.entry_handle (c : Conn) (h : Handle) : (c.entry h).handle? = some h := by
  unfold Conn.entry
  cases c.route <;> rfl

/-! ## The laws that sending rests on -/

/-- Every entry of an egress or drop list names a record that belongs in it (R3, R6). -/
def State.listedOk (s : State) : Prop :=
  ∀ d : Degree, (∀ x ∈ s.map[d].egress, ∃ c, s.find x.handle = some c ∧ c.route.sinkDegree = some d) ∧
    ∀ x ∈ s.map[d].drops, ∃ c l, s.find x.handle = some c ∧ c.route = .drop d l

theorem State.listedOk_of_recordsOk {s : State} (h : s.recordsOk) : s.listedOk := by
  intro d
  obtain ⟨-, -, heg, -, -, -, -, hdr⟩ := h.1 d
  refine ⟨fun x hx => ?_, fun x hx => ?_⟩
  · obtain ⟨c, hc, hs, -⟩ := (heg x.handle x.span).mp hx
    exact ⟨c, hc, hs⟩
  · obtain ⟨c, hc, hr, -⟩ := (hdr x.handle x.span x.port).mp hx
    exact ⟨c, x.port, hc, hr⟩

/-- A listed handle finds a record of the degree's link. -/
theorem State.listedOk.link {s : State} (hl : s.listedOk) {d : Degree} {h : Handle} (hh : s.lists d h) :
    ∃ c, s.find h = some c ∧ c.route.link = degreeLink d := by
  obtain ⟨x, hx, rfl⟩ | ⟨x, hx, rfl⟩ := hh
  · obtain ⟨c, hc, hs⟩ := (hl d).1 x hx
    exact ⟨c, hc, Route.link_of_sink hs⟩
  · obtain ⟨c, l, hc, hr⟩ := (hl d).2 x hx
    exact ⟨c, hc, by rw [hr]; rfl⟩

/-- A batch's entries are of one link: those of a record that exists are of a record of the link, and only SLM
carries port entries. -/
def State.owns (s : State) (l : LinkId) (es : List Entry) : Prop :=
  ∀ e ∈ es, (∀ (h : Handle) (c : Conn), e.handle? = some h → s.find h = some c → c.route.link = l) ∧
    ∀ (k : LocalPort) (x y : Option Degree), e = .port k x y → l = slm

theorem State.batchesOk_iff (s : State) :
    s.batchesOk ↔ ∀ (l : LinkId) (b : Batch), s.links[l].inFlight = some b → s.owns l b.entries :=
  ⟨fun h l b hb e he => h l b e hb he, fun h l b e hb he => h l b hb e he⟩

theorem State.owns_resync {s : State} (hl : s.listedOk) (l : LinkId) : s.owns l (s.resyncEntries l) := by
  intro e he
  simp only [State.resyncEntries, List.mem_map] at he
  obtain ⟨x, hx, rfl⟩ := he
  obtain rfl | ⟨d, rfl⟩ := link_cases l
  · simp only [State.linkEntries, linkDegree_slm, State.portEntries, List.mem_map] at hx
    obtain ⟨p, -, rfl⟩ := hx
    exact ⟨fun _ _ hh => (nomatch hh), fun _ _ _ _ => rfl⟩
  · rw [State.linkEntries_degree, State.mem_degreeEntries] at hx
    obtain ⟨h, c, hh, hc, rfl⟩ := hx
    refine ⟨fun h' c' he' hc' => ?_, fun k x y hp => ?_⟩
    · rw [Conn.entry_handle, Option.some.injEq] at he'
      subst he'
      obtain ⟨a, ha, hlink⟩ := hl.link hh
      rw [hc'] at ha
      cases ha
      exact hlink
    · have := congrArg Entry.handle? hp
      rw [Conn.entry_handle] at this
      cases this

theorem State.owns_update {s : State} (hl : s.listedOk) (l : LinkId) : s.owns l (s.updateEntries l) :=
  fun e he => State.owns_resync hl l e (State.mem_resync_of_update he)

theorem State.owns_start (s : State) (l : LinkId) : s.owns l (startEntries l) := by
  intro e he
  unfold startEntries at he
  split at he
  · rw [List.mem_singleton] at he
    subst he
    exact ⟨fun _ _ hh => (nomatch hh), fun _ _ _ hp => (nomatch hp)⟩
  · next hd =>
    simp only [startPortEntries, List.mem_map] at he
    obtain ⟨p, -, rfl⟩ := he
    exact ⟨fun _ _ hh => (nomatch hh), fun _ _ _ _ => linkDegree_eq_none.mp (by simpa using hd)⟩

/-- In the course of a step: a link is marked, or as an idle READY link it has nothing left to send (R126). -/
def State.sentAt (s : State) (l : LinkId) : Prop :=
  s.links[l].pendingMark = true ∨
    (s.links[l].state = .ready → s.links[l].inFlight = none → s.updateEntries l = [])

/-- A queue of RSC holds records sinking on its degree alone (R53). -/
def State.queuedOk (s : State) : Prop :=
  ∀ (d : Degree), ∀ e ∈ s.ramps[d].queue, ∀ c, s.find e.handle = some c → c.route.sinkDegree = some d

theorem State.queuedOk_of_rampsOk {s : State} (h : s.rampsOk) : s.queuedOk := by
  intro d e he c hc
  obtain ⟨-, -, -, -, hq, -⟩ := h d
  obtain ⟨c', hc', hd, -⟩ := (hq e.handle).mp ⟨e, he, rfl⟩
  rw [hc] at hc'
  cases hc'
  exact hd

/-- A trip leaves the record of a sinking connection so (R147, R148). -/
def Conn.tripDark (c : Conn) : Prop :=
  c.state = .proposed ∨ c.state = .armed ∨ c.state = .draining ∨ (c.state = .suspended ∧ c.causes.any (·.trip) = true)

/-- A degree's trip, while in force, leaves every record sinking on it dark (R148). -/
def State.tripOkAt (s : State) (d : Degree) : Prop :=
  s.tripInForce d = true → ∀ (i : SlotIx) (c : Conn), s.conn i = some c → c.route.sinkDegree = some d → c.tripDark

theorem State.tripOk_iff (s : State) : s.tripOk ↔ ∀ d, s.tripOkAt d :=
  ⟨fun h d hf i c hc hd => h i c d hc hd hf, fun h i c d hc hd hf => h d hf i c hc hd⟩

end Sys2Proof.Machine
end

