-- ==== Sys2Proof/Proofs/Edits.lean ====
section
/-! Proofs/Edits.lean: the edits a step is made of, and what each keeps of the table and the lists. -/

set_option Elab.async false

namespace Sys2Proof.Machine
open Sys2Proof

/-! ## The edits a step is made of -/

/-- What waits in the ports' queues still waits, and OVERFLOW once set is set (R192). -/
def PortsGrow (s t : State) : Prop :=
  ∀ q : Domain, (∀ n ∈ s.ports[q].queue, n ∈ t.ports[q].queue) ∧
    (s.ports[q].flags.overflow = true → t.ports[q].flags.overflow = true)

theorem PortsGrow.of_eq {s t : State} (h : t.ports = s.ports) : PortsGrow s t := fun q => by
  rw [h]; exact ⟨fun _ hn => hn, id⟩

theorem PortsGrow.trans {s t u : State} (a : PortsGrow s t) (b : PortsGrow t u) : PortsGrow s u := fun q =>
  ⟨fun n hn => (b q).1 n ((a q).1 n hn), fun h => (b q).2 ((a q).2 h)⟩

/-- A handle waits in the ramp queue of a degree (R53). -/
def State.waits (s : State) (d : Degree) (h : Handle) : Prop := ∃ e ∈ s.ramps[d].queue, e.handle = h

/-- An edit beside the records, the map, the actives, the matrix and the links. Its queues gain no record but one
that sinks on the degree, and no degree for which the trip law is to be kept (`T`) comes under a trip by it. -/
structure Aside (T : Degree → Prop) (s t : State) : Prop where
  table : t.table = s.table
  map : t.map = s.map
  actives : t.actives = s.actives
  matrix : t.matrix = s.matrix
  links : t.links = s.links
  nodeTime : t.nodeTime = s.nodeTime
  queues : ∀ d h, t.waits d h → s.waits d h ∨ ∃ c, s.find h = some c ∧ c.route.sinkDegree = some d
  trips : ∀ d, T d → t.tripInForce d = true → s.tripInForce d = true
  ports : PortsGrow s t

/-- An edit of the links and the matrix alone: a batch sent is of its own link, a link with nothing left to send is
marked or keeps nothing, and none becomes READY. -/
structure Relinked (s t : State) : Prop where
  table : t.table = s.table
  map : t.map = s.map
  actives : t.actives = s.actives
  ramps : t.ramps = s.ramps
  nodeTime : t.nodeTime = s.nodeTime
  trips : t.trips = s.trips
  ports : t.ports = s.ports
  batch : ∀ (l : LinkId) (b : Batch), t.links[l].inFlight = some b → s.links[l].inFlight = some b ∨ (s.listedOk → s.owns l b.entries)
  sent : ∀ l, s.sentAt l → t.sentAt l
  ready : ∀ l : LinkId, t.links[l].state = .ready → s.links[l].state = .ready

/-- A record is rewritten: its route and its domains stay, it does not return to PROPOSED where `U` asks for it, and it
keeps the laws of darkness, R27 where `L` asks for it and R148 for the degrees of `T`. -/
structure Redrawn (L : Prop) (T : Degree → Prop) (U : Prop) (s : State) (c c' : Conn) : Prop where
  route : c'.route = c.route
  domains : c'.domains = c.domains
  past : U → c.state ≠ .proposed → c'.state ≠ .proposed
  blocked : L → (c.state.blocked = true → c.shadow = .blocked) → c'.state.blocked = true → c'.shadow = .blocked
  trip : ∀ d, T d → c.route.sinkDegree = some d → s.tripInForce d = true → c.tripDark → c'.tripDark

/-- One edit of a step. A record rewritten with another shadow has its link marked in the edit (R126); a record freed
is PROPOSED, in a step that returns none to PROPOSED (`U`), or its domains are told RELEASED (R46). -/
inductive Edit (L : Prop) (T : Degree → Prop) (U : Prop) (s : State) : State → Prop
  | aside {t : State} (h : Aside T s t) : Edit L T U s t
  | relink {t : State} (h : Relinked s t) : Edit L T U s t
  | rewrite {i : SlotIx} {c c' : Conn} (hi : s.conn i = some c) (r : Redrawn L T U s c c')
      (shadow : L → (c.state.blocked = true → c.shadow = .blocked) → c'.shadow = c.shadow) :
      Edit L T U s (s.putConn i (some c'))
  | reshade {i : SlotIx} {c c' : Conn} (hi : s.conn i = some c) (r : Redrawn L T U s c c') :
      Edit L T U s ((s.putConn i (some c')).mark c.route.link)
  | free (hU : U) {i : SlotIx} {c : Conn} (hi : s.conn i = some c) (hc : c.state = .proposed) :
      Edit L T U s (s.freeRecord i c)
  | release {i : SlotIx} {c : Conn} (hi : s.conn i = some c) :
      Edit L T U s ((s.freeRecord i c).tellConn (s.handleAt i) c .released none)

/-- An edit, or a grant to a handle that waits (R40, R58). -/
inductive Move (L : Prop) (T : Degree → Prop) (U : Prop) (s : State) : State → Prop
  | edit {t : State} (e : Edit L T U s t) : Move L T U s t
  | grant {d : Degree} {h : Handle} (w : s.waits d h) : Move L T U s (s.takeGrant d h)

/-- Edits one after another. -/
abbrev Edits (L : Prop) (T : Degree → Prop) (U : Prop) : State → State → Prop := Relation.ReflTransGen (Edit L T U)

/-- Edits and grants one after another. -/
abbrev Moves (L : Prop) (T : Degree → Prop) (U : Prop) : State → State → Prop := Relation.ReflTransGen (Move L T U)

theorem Edits.moves {L : Prop} {T : Degree → Prop} {U : Prop} {s t : State} (h : Edits L T U s t) : Moves L T U s t :=
  Relation.ReflTransGen.mono (fun _ _ e => Move.edit e) _ _ h

/-- What every move keeps, moves one after another keep. -/
theorem Moves.keeps {L : Prop} {T : Degree → Prop} {U : Prop} {P : State → Prop} (step : ∀ s t, Move L T U s t → P s → P t)
    {s t : State} (h : Moves L T U s t) (hs : P s) : P t := by
  induction h with
  | refl => exact hs
  | tail _ m ih => exact step _ _ m ih

/-! ## What an edit does to the table -/

/-- The table after a move: as it was, one record rewritten, or one freed. -/
inductive RowStep (L : Prop) (T : Degree → Prop) (U : Prop) (s t : State) : Prop
  | same (h : t.table = s.table)
  | redrawn (i : SlotIx) (c c' : Conn) (hi : s.conn i = some c) (r : Redrawn L T U s c c')
      (h : t.table = (s.putConn i (some c')).table)
  | freed (i : SlotIx) (c : Conn) (hi : s.conn i = some c) (h : t.table = (s.putConn i none).table)

/-- The record a grant leaves keeps every law (R40). -/
theorem Redrawn.grantUp {L : Prop} {T : Degree → Prop} {U : Prop} {s : State} {c : Conn} (hc : c.state = .pendingUp) :
    Redrawn L T U s c { c with state := .rampUp, shadow := .att 250 } where
  route := rfl
  domains := rfl
  past _ _ := by simp
  blocked _ _ h := by simp [CState.blocked] at h
  trip _ _ _ _ h := by simp [Conn.tripDark, hc] at h

theorem Redrawn.grantDown {L : Prop} {T : Degree → Prop} {U : Prop} {s : State} {c : Conn} (hc : c.state = .pendingDown) :
    Redrawn L T U s c { c with state := .rampDown } where
  route := rfl
  domains := rfl
  past _ _ := by simp
  blocked _ _ h := by simp [CState.blocked] at h
  trip _ _ _ _ h := by simp [Conn.tripDark, hc] at h

theorem Edit.row {L : Prop} {T : Degree → Prop} {U : Prop} {s t : State} (e : Edit L T U s t) : RowStep L T U s t := by
  cases e with
  | aside h => exact .same h.table
  | relink h => exact .same h.table
  | rewrite hi r _ => exact .redrawn _ _ _ hi r rfl
  | reshade hi r => exact .redrawn _ _ _ hi r rfl
  | free _ hi _ => exact .freed _ _ hi (State.table_freeRecord ..)
  | release hi => exact .freed _ _ hi (by rw [(State.tellConn_frame ..).1, State.table_freeRecord])

theorem Move.row {L : Prop} {T : Degree → Prop} {U : Prop} {s t : State} (m : Move L T U s t) : RowStep L T U s t := by
  cases m with
  | edit e => exact e.row
  | @grant d h w =>
    obtain he | ⟨c, hc, ⟨hs, he⟩ | ⟨hs, he⟩⟩ := s.takeGrant_cases d h
    · exact .same (by rw [he])
    · exact .redrawn h.slot c _ ((s.find_eq_some h c).mp hc).2 (.grantUp hs) (by rw [he]; rfl)
    · exact .redrawn h.slot c _ ((s.find_eq_some h c).mp hc).2 (.grantDown hs) (by rw [he]; rfl)

variable {L : Prop} {T : Degree → Prop} {U : Prop} {s t : State}

/-- A record found after a move was found before it, or rewritten in it, its route kept (R123). -/
theorem RowStep.find (r : RowStep L T U s t) {h : Handle} {c' : Conn} (hf : t.find h = some c') :
    ∃ c, s.find h = some c ∧ c'.route = c.route ∧ (c' = c ∨ Redrawn L T U s c c') := by
  cases r with
  | same ht => exact ⟨c', by rw [← State.find_of_table ht, hf], rfl, .inl rfl⟩
  | redrawn i c a hi ra ht =>
    rw [State.find_of_table ht, State.find_putConn] at hf
    split at hf
    · next hh =>
      cases hf
      exact ⟨c, by rw [hh, State.find_handleAt, hi], ra.route, .inr ra⟩
    · split at hf
      · cases hf
      · exact ⟨c', hf, rfl, .inl rfl⟩
  | freed i c hi ht =>
    rw [State.find_of_table ht, State.find_putConn] at hf
    split at hf
    · cases hf
    · split at hf
      · cases hf
      · exact ⟨c', hf, rfl, .inl rfl⟩

/-- The record of a slot after a move was there before it, or was rewritten in it. -/
theorem RowStep.conn (r : RowStep L T U s t) {i : SlotIx} {c' : Conn} (hc : t.conn i = some c') :
    ∃ c, s.conn i = some c ∧ c'.route = c.route ∧ (c' = c ∨ Redrawn L T U s c c') := by
  rw [← State.find_handleAt] at hc
  have hg : t.handleAt i = s.handleAt i := by
    cases r with
    | same ht => exact State.handleAt_of_table ht i
    | redrawn j c a hj ra ht => rw [State.handleAt_of_table ht, State.handleAt_putConn]
    | freed j c hj ht => rw [State.handleAt_of_table ht, State.handleAt_putConn]
  have := r.find hc
  rwa [hg, State.find_handleAt] at this

theorem RowStep.handleAt (r : RowStep L T U s t) (i : SlotIx) : t.handleAt i = s.handleAt i := by
  cases r with
  | same ht => exact State.handleAt_of_table ht i
  | redrawn j c a hj ra ht => rw [State.handleAt_of_table ht, State.handleAt_putConn]
  | freed j c hj ht => rw [State.handleAt_of_table ht, State.handleAt_putConn]

/-- R27 is kept by every move of the lawful kind. -/
theorem RowStep.blockedOk (r : RowStep L T U s t) (hL : L) (hb : s.blockedOk) : t.blockedOk := by
  intro i c' hc' hs
  obtain ⟨c, hc, -, rfl | ra⟩ := r.conn hc'
  · exact hb i c' hc hs
  · exact ra.blocked hL (hb i c hc) hs

/-- R148 is kept for a degree that no trip takes anew. -/
theorem RowStep.tripOkAt (r : RowStep L T U s t) {d : Degree} (hT : T d)
    (hf : t.tripInForce d = true → s.tripInForce d = true) (h : s.tripOkAt d) : t.tripOkAt d := by
  intro ht i c' hc' hd
  obtain ⟨c, hc, hr, rfl | ra⟩ := r.conn hc'
  · exact h (hf ht) i c' hc hd
  · rw [hr] at hd
    exact ra.trip d hT hd (hf ht) (h (hf ht) i c hc hd)

/-! ## What every move keeps -/

theorem Edit.tripInForce (e : Edit L T U s t) {d : Degree} (hT : T d) (h : t.tripInForce d = true) :
    s.tripInForce d = true := by
  cases e with
  | aside a => exact a.trips d hT h
  | relink a => simpa only [State.tripInForce, a.trips] using h
  | rewrite hi r _ => exact h
  | reshade hi r => exact h
  | free _ hi _ => simpa [-Fin.getElem_fin, State.tripInForce] using h
  | release hi => simpa [-Fin.getElem_fin, State.tripInForce] using h

theorem Move.tripInForce (m : Move L T U s t) {d : Degree} (hT : T d) (h : t.tripInForce d = true) :
    s.tripInForce d = true := by
  cases m with
  | edit e => exact e.tripInForce hT h
  | grant w => simpa [-Fin.getElem_fin, State.tripInForce] using h

theorem Moves.blockedOk (m : Moves True T U s t) (h : s.blockedOk) : t.blockedOk :=
  m.keeps (fun _ _ m => m.row.blockedOk trivial) h

theorem Moves.tripOkAt (m : Moves L T U s t) {d : Degree} (hT : T d) (h : s.tripOkAt d) : t.tripOkAt d :=
  m.keeps (P := fun s => s.tripOkAt d) (fun _ _ m h => m.row.tripOkAt hT (m.tripInForce hT) h) h

theorem Moves.find (m : Moves L T U s t) {h : Handle} {c' : Conn} (hf : t.find h = some c') :
    ∃ c, s.find h = some c ∧ c'.route = c.route := by
  induction m generalizing c' with
  | refl => exact ⟨c', hf, rfl⟩
  | tail _ m ih =>
    obtain ⟨b, hb, hr, -⟩ := m.row.find hf
    obtain ⟨c, hc, hr'⟩ := ih hb
    exact ⟨c, hc, hr.trans hr'⟩

/-- The map after an edit: as it was, or without the handle of a record freed. -/
theorem State.lists_freeRecord {s : State} {i : SlotIx} {c : Conn} {d : Degree} {h : Handle}
    (hl : (s.freeRecord i c).lists d h) : s.lists d h := by
  simp only [State.lists, State.map_freeRecord, State.egress_leaveMap, State.drops_leaveMap] at hl
  obtain ⟨x, ⟨hx, -⟩, rfl⟩ | ⟨x, ⟨hx, -⟩, rfl⟩ := hl
  · exact .inl ⟨x, hx, rfl⟩
  · exact .inr ⟨x, hx, rfl⟩

theorem State.lists_of_map {s t : State} (h : t.map = s.map) (d : Degree) (k : Handle) :
    t.lists d k ↔ s.lists d k := by simp only [State.lists, h]

/-- A record freed leaves every list that its handle stands in, and no other record is touched. -/
theorem State.listedOk_freeRecord {s t : State} (h : s.listedOk) {i : SlotIx} {c : Conn} (hi : s.conn i = some c)
    (ht : t.table = (s.freeRecord i c).table) (hm : t.map = (s.freeRecord i c).map) : t.listedOk := by
  have kept : ∀ {k : Handle} {a : Conn}, s.find k = some a → k ≠ s.handleAt i → t.find k = some a := by
    intro k a hk hne
    rw [State.find_of_table ht, State.find_of_table (s.table_freeRecord i c), State.find_putConn_other hi _ hne, hk]
  have own : ∀ {k : Handle} {a : Conn}, s.find k = some a → k = s.handleAt i → a = c := by
    rintro k a hk rfl
    rw [State.find_handleAt, hi] at hk
    exact (Option.some.inj hk).symm
  intro d
  refine ⟨fun x hx => ?_, fun x hx => ?_⟩
  · rw [hm, State.map_freeRecord, State.egress_leaveMap] at hx
    obtain ⟨a, ha, hd⟩ := (h d).1 x hx.1
    exact ⟨a, kept ha fun e => hx.2 (own ha e ▸ hd) e, hd⟩
  · rw [hm, State.map_freeRecord, State.drops_leaveMap] at hx
    obtain ⟨a, l, ha, hr⟩ := (h d).2 x hx.1
    exact ⟨a, l, kept ha fun e => hx.2 ⟨l, own ha e ▸ hr⟩ e, hr⟩

theorem State.listedOk_of_find {s t : State} (h : s.listedOk) (hm : t.map = s.map)
    (hf : ∀ k a, s.find k = some a → ∃ a', t.find k = some a' ∧ a'.route = a.route) : t.listedOk := by
  intro d
  rw [hm]
  refine ⟨fun x hx => ?_, fun x hx => ?_⟩
  · obtain ⟨a, ha, hd⟩ := (h d).1 x hx
    obtain ⟨a', ha', hr⟩ := hf _ _ ha
    exact ⟨a', ha', by rw [hr, hd]⟩
  · obtain ⟨a, l, ha, hd⟩ := (h d).2 x hx
    obtain ⟨a', ha', hr⟩ := hf _ _ ha
    exact ⟨a', l, ha', by rw [hr, hd]⟩

/-- A record rewritten is found under the same handles, with its route. -/
theorem State.find_redrawn {s t : State} {i : SlotIx} {c c' : Conn} (hi : s.conn i = some c) (hr : c'.route = c.route)
    (ht : t.table = (s.putConn i (some c')).table) (k : Handle) (a : Conn) (ha : s.find k = some a) :
    ∃ a', t.find k = some a' ∧ a'.route = a.route := by
  rw [State.find_of_table ht]
  by_cases hk : k = s.handleAt i
  · rw [hk, State.find_handleAt, hi] at ha
    cases ha
    exact ⟨c', by rw [State.find_putConn, if_pos hk], hr⟩
  · exact ⟨a, by rw [State.find_putConn_other hi _ hk, ha], rfl⟩

theorem Edit.listedOk (e : Edit L T U s t) (h : s.listedOk) : t.listedOk := by
  cases e with
  | aside a => exact State.listedOk_of_find h a.map fun k b hb => ⟨b, by rw [State.find_of_table a.table, hb], rfl⟩
  | relink a => exact State.listedOk_of_find h a.map fun k b hb => ⟨b, by rw [State.find_of_table a.table, hb], rfl⟩
  | rewrite hi r _ => exact State.listedOk_of_find h rfl (State.find_redrawn hi r.route rfl)
  | reshade hi r => exact State.listedOk_of_find h rfl (State.find_redrawn hi r.route rfl)
  | free _ hi _ => exact State.listedOk_freeRecord h hi rfl rfl
  | release hi => exact State.listedOk_freeRecord h hi (State.tellConn_frame ..).1 (State.tellConn_frame ..).2.1

theorem Move.listedOk (m : Move L T U s t) (h : s.listedOk) : t.listedOk := by
  cases m with
  | edit e => exact e.listedOk h
  | @grant d k w =>
    obtain he | ⟨c, hc, ⟨hs, he⟩ | ⟨hs, he⟩⟩ := s.takeGrant_cases d k
    · rwa [he]
    · rw [he]
      exact State.listedOk_of_find h rfl
        (State.find_redrawn ((s.find_eq_some k c).mp hc).2 (Redrawn.grantUp (L := L) (T := T) (U := U) (s := s) hs).route rfl)
    · rw [he]
      exact State.listedOk_of_find h rfl
        (State.find_redrawn ((s.find_eq_some k c).mp hc).2 (Redrawn.grantDown (L := L) (T := T) (U := U) (s := s) hs).route rfl)

theorem Moves.listedOk (m : Moves L T U s t) (h : s.listedOk) : t.listedOk := m.keeps (fun _ _ m => m.listedOk) h

end Sys2Proof.Machine
end

