-- ==== Sys2Proof/Proofs/Kept.lean ====
section
/-! Proofs/Kept.lean: what the edits of a step keep: batches of their own links, what differs marked, records freed told. -/

set_option Elab.async false

namespace Sys2Proof.Machine
open Sys2Proof

/-! ## Notices -/

/-- A notice waits at a port, or the port's queue overflowed (R192). -/
def Heard (t : State) (q : Domain) (n : Notice) : Prop := n ∈ t.ports[q].queue ∨ t.ports[q].flags.overflow = true

theorem Heard.grow {s t : State} {q : Domain} {n : Notice} (h : Heard s q n) (g : PortsGrow s t) : Heard t q n :=
  h.imp ((g q).1 n) (g q).2

theorem Port.join_grows (n : Notice) (q : Port) :
    (∀ m ∈ q.queue, m ∈ (Port.join n q).queue) ∧ (q.flags.overflow = true → (Port.join n q).flags.overflow = true) := by
  rw [Port.join_eq]
  split
  · exact ⟨fun m hm => List.mem_append_left _ hm, id⟩
  · exact ⟨fun m hm => hm, fun _ => rfl⟩

theorem State.tell_grows (s : State) (p : Domain) (n : Notice) : PortsGrow s (s.tell p n) := by
  intro q
  rw [State.port_tell]
  split
  · next h => rw [h]; exact Port.join_grows n _
  · exact ⟨fun _ hm => hm, id⟩

theorem State.tell_heard (s : State) (p : Domain) (n : Notice) : Heard (s.tell p n) p n := by
  unfold Heard
  rw [State.port_tell, if_pos rfl, Port.join_eq]
  split
  · exact .inl (List.mem_append_right _ (List.mem_singleton_self n))
  · exact .inr rfl

theorem State.setFlag_grows (s : State) (p : Domain) (f : FlagSet) : PortsGrow s (s.setFlag p f) := by
  intro q
  rw [State.port_setFlag]
  split
  · next h => rw [h]; exact ⟨fun _ hm => hm, fun ho => by simp [-Fin.getElem_fin, FlagSet.union, ho]⟩
  · exact ⟨fun _ hm => hm, id⟩

theorem PortsGrow.foldl {α : Type} (f : State → α → State) (h : ∀ s a, PortsGrow s (f s a)) (l : List α) (s : State) :
    PortsGrow s (l.foldl f s) := by
  induction l generalizing s with
  | nil => exact .of_eq rfl
  | cons a l ih => exact (h s a).trans (ih _)

theorem State.tellManager_grows (s : State) (d : Degree) (n : Notice) : PortsGrow s (s.tellManager d n) := by
  unfold State.tellManager
  split
  · exact s.tell_grows _ n
  · exact .of_eq rfl

theorem State.flagManager_grows (s : State) (d : Degree) (f : FlagSet) : PortsGrow s (s.flagManager d f) := by
  unfold State.flagManager
  split
  · exact s.setFlag_grows _ f
  · exact .of_eq rfl

theorem State.tellOption_grows (s : State) (p : Option Domain) (n : Notice) : PortsGrow s (s.tellOption p n) := by
  cases p with
  | none => exact .of_eq rfl
  | some p => exact s.tell_grows p n

theorem State.tellAll_grows (s : State) (n : Notice) : PortsGrow s (s.tellAll n) :=
  .foldl _ (fun s p => s.tell_grows p n) _ s

theorem State.flagAll_grows (s : State) (f : FlagSet) : PortsGrow s (s.flagAll f) :=
  .foldl _ (fun s p => s.setFlag_grows p f) _ s

/-- One domain of a connection is told, where the notify set or the all-notices option lets the notice through (R193). -/
def State.tellGated (s : State) (h : Handle) (c : Conn) (kind : NoticeKind) (value : Option Int) (p : Domain) : State :=
  if c.notify.opens kind || s.ports[p].allNotices then s.tell p (s.notice kind (some h) none value) else s

theorem State.tellConn_eq (s : State) (h : Handle) (c : Conn) (kind : NoticeKind) (value : Option Int) :
    s.tellConn h c kind value = c.domains.foldl (fun s p => s.tellGated h c kind value p) s := rfl

theorem State.tellGated_grows (s : State) (h : Handle) (c : Conn) (kind : NoticeKind) (value : Option Int) (p : Domain) :
    PortsGrow s (s.tellGated h c kind value p) := by
  unfold State.tellGated
  split
  · exact s.tell_grows p _
  · exact .of_eq rfl

theorem State.tellGated_nodeTime (s : State) (h : Handle) (c : Conn) (kind : NoticeKind) (value : Option Int)
    (p : Domain) : (s.tellGated h c kind value p).nodeTime = s.nodeTime := by
  unfold State.tellGated
  split <;> simp

theorem State.tellConn_grows (s : State) (h : Handle) (c : Conn) (kind : NoticeKind) (value : Option Int) :
    PortsGrow s (s.tellConn h c kind value) :=
  .foldl _ (fun s p => s.tellGated_grows h c kind value p) _ s

/-- A notice that the notify set lets through reaches every domain of the connection (R46, R193). -/
theorem State.tellConn_heard (s : State) (h : Handle) (c : Conn) {kind : NoticeKind} (value : Option Int)
    (ho : c.notify.opens kind = true) {q : Domain} (hq : q ∈ c.domains) :
    Heard (s.tellConn h c kind value) q ⟨kind, some h, none, value, s.nodeTime⟩ := by
  rw [State.tellConn_eq]
  revert hq
  generalize c.domains = l
  induction l generalizing s with
  | nil => intro hq; cases hq
  | cons p l ih =>
    intro hq
    rw [List.foldl_cons]
    by_cases hl : q ∈ l
    · have := ih (s.tellGated h c kind value p) hl
      rwa [State.tellGated_nodeTime] at this
    · obtain rfl : q = p := (List.mem_cons.mp hq).resolve_right hl
      refine Heard.grow ?_ (.foldl _ (fun s p => s.tellGated_grows h c kind value p) l _)
      unfold State.tellGated
      rw [if_pos (by simp [ho])]
      exact s.tell_heard q _

/-! ## Links after a mark -/

theorem State.link_mapLink (s : State) (l k : LinkId) (f : Link → Link) :
    (s.mapLink l f).links[k] = if k = l then f s.links[l] else s.links[k] := get_set ..

theorem State.link_mark (s : State) (l k : LinkId) :
    (s.mark l).links[k] = if k = l then { s.links[l] with pendingMark := true } else s.links[k] := get_set ..

theorem State.inFlight_mark (s : State) (l k : LinkId) : (s.mark l).links[k].inFlight = s.links[k].inFlight := by
  rw [State.link_mark]
  split
  · next h => rw [h]
  · rfl

theorem State.state_mark (s : State) (l k : LinkId) : (s.mark l).links[k].state = s.links[k].state := by
  rw [State.link_mark]
  split
  · next h => rw [h]
  · rfl

theorem State.unanswered_mark (s : State) (l k : LinkId) : (s.mark l).links[k].unanswered = s.links[k].unanswered := by
  rw [State.link_mark]
  split
  · next h => rw [h]
  · rfl

theorem State.pendingMark_mark (s : State) (l k : LinkId) (h : s.links[k].pendingMark = true) :
    (s.mark l).links[k].pendingMark = true := by
  rw [State.link_mark]
  split
  · rfl
  · exact h

/-- A record freed touches the matrix only with SLM marked (R45). -/
theorem State.freeRecord_matrix (s : State) (i : SlotIx) (c : Conn) :
    ((s.freeRecord i c).matrix = s.matrix ∧ (s.freeRecord i c).links = s.links) ∨
      (s.freeRecord i c).links = (s.mark slm).links := by
  by_cases h : c.state = .proposed
  · exact .inl (State.freeRecord_proposed h)
  · obtain ⟨hm, hl⟩ := State.freeRecord_past (s := s) (i := i) h
    rw [hm, hl]
    cases c.route with
    | add l d => exact .inr rfl
    | drop d l => exact .inr rfl
    | express a b => exact .inl ⟨rfl, rfl⟩

theorem State.freeRecord_links (s : State) (i : SlotIx) (c : Conn) :
    (s.freeRecord i c).links = s.links ∨ (s.freeRecord i c).links = (s.mark slm).links :=
  (s.freeRecord_matrix i c).imp_left (·.2)

/-! ## What every move keeps of the links, the queues and the ports -/

section
variable {L : Prop} {T : Degree → Prop} {U : Prop} {s t : State}

theorem Edit.inFlight (e : Edit L T U s t) (hl : s.listedOk) {l : LinkId} {b : Batch} (hb : t.links[l].inFlight = some b) :
    s.links[l].inFlight = some b ∨ s.owns l b.entries := by
  cases e with
  | aside a => rw [a.links] at hb; exact .inl hb
  | relink a => exact (a.batch l b hb).imp_right fun h => h hl
  | rewrite hi r _ => exact .inl hb
  | reshade hi r => exact .inl (by rwa [State.inFlight_mark] at hb)
  | @free _ i c hi _ =>
    obtain he | he := s.freeRecord_links i c
    · exact .inl (by rwa [he] at hb)
    · exact .inl (by rwa [he, State.inFlight_mark] at hb)
  | @release i c hi =>
    rw [(State.tellConn_frame ..).2.2.2.2.2.2.2.2.2.1] at hb
    obtain he | he := s.freeRecord_links i c
    · exact .inl (by rwa [he] at hb)
    · exact .inl (by rwa [he, State.inFlight_mark] at hb)

theorem State.takeGrant_inFlight (s : State) (d : Degree) (h : Handle) (l : LinkId) :
    (s.takeGrant d h).links[l].inFlight = s.links[l].inFlight := by
  obtain he | ⟨c, -, ⟨-, he⟩ | ⟨-, he⟩⟩ := s.takeGrant_cases d h
  · rw [he]
  · rw [he, State.inFlight_mark]; rfl
  · rw [he]; rfl

theorem State.takeGrant_linkState (s : State) (d : Degree) (h : Handle) (l : LinkId) :
    (s.takeGrant d h).links[l].state = s.links[l].state := by
  obtain he | ⟨c, -, ⟨-, he⟩ | ⟨-, he⟩⟩ := s.takeGrant_cases d h
  · rw [he]
  · rw [he, State.state_mark]; rfl
  · rw [he]; rfl

/-- A batch that is of its own link stays so: no record changes its route (R123). -/
theorem RowStep.owns (r : RowStep L T U s t) {l : LinkId} {es : List Entry} (h : s.owns l es) : t.owns l es := by
  intro e he
  refine ⟨fun k c hk hc => ?_, (h e he).2⟩
  obtain ⟨a, ha, hr, -⟩ := r.find hc
  rw [hr]
  exact (h e he).1 k a hk ha

theorem Move.batchesOk (m : Move L T U s t) (hl : s.listedOk) (hb : s.batchesOk) : t.batchesOk := by
  rw [State.batchesOk_iff] at hb ⊢
  intro l b ht
  refine m.row.owns ?_
  cases m with
  | edit e => exact (e.inFlight hl ht).elim (hb l b) id
  | grant w => exact hb l b (by rwa [State.takeGrant_inFlight] at ht)

theorem Moves.batchesOk (m : Moves L T U s t) (hl : s.listedOk) (hb : s.batchesOk) : t.batchesOk :=
  (m.keeps (P := fun s => s.listedOk ∧ s.batchesOk) (fun _ _ m h => ⟨m.listedOk h.1, m.batchesOk h.1 h.2⟩) ⟨hl, hb⟩).2

theorem Edit.ready (e : Edit L T U s t) {l : LinkId} (h : t.links[l].state = .ready) : s.links[l].state = .ready := by
  cases e with
  | aside a => rwa [a.links] at h
  | relink a => exact a.ready l h
  | rewrite hi r _ => exact h
  | reshade hi r => rwa [State.state_mark] at h
  | @free _ i c _ _ =>
    obtain he | he := s.freeRecord_links i c
    · rwa [he] at h
    · rwa [he, State.state_mark] at h
  | @release i c hi =>
    rw [(State.tellConn_frame ..).2.2.2.2.2.2.2.2.2.1] at h
    obtain he | he := s.freeRecord_links i c
    · rwa [he] at h
    · rwa [he, State.state_mark] at h

/-- No move makes a link READY: that is a DONE's (R131). -/
theorem Moves.ready (m : Moves L T U s t) {l : LinkId} (h : t.links[l].state = .ready) : s.links[l].state = .ready := by
  induction m with
  | refl => exact h
  | tail _ m ih =>
    cases m with
    | edit e => exact ih (e.ready h)
    | grant w => exact ih (by rwa [State.takeGrant_linkState] at h)

/-! ### Queues -/

theorem Edit.waits (e : Edit L T U s t) {d : Degree} {h : Handle} (w : t.waits d h) :
    s.waits d h ∨ ∃ c, s.find h = some c ∧ c.route.sinkDegree = some d := by
  cases e with
  | aside a => exact a.queues d h w
  | relink a => exact .inl (by simpa only [State.waits, a.ramps] using w)
  | rewrite hi r _ => exact .inl w
  | reshade hi r => exact .inl w
  | free _ hi _ => exact .inl (by simpa [-Fin.getElem_fin, State.waits] using w)
  | release hi => exact .inl (by simpa [-Fin.getElem_fin, State.waits] using w)

theorem State.waits_mapRamps (s : State) (d k : Degree) (f : Ramps → Ramps) (h : Handle) :
    (s.mapRamps d f).waits k h ↔ if k = d then ∃ e ∈ (f s.ramps[d]).queue, e.handle = h else s.waits k h := by
  simp only [State.waits, State.mapRamps_ramps, get_set]
  split <;> rfl

theorem State.takeGrant_waits {s : State} {d k : Degree} {x h : Handle} (w : (s.takeGrant d x).waits k h) :
    s.waits k h := by
  have dequeued : ∀ t : State, t.ramps = (s.mapRamps d fun r => (r.dequeue x).hold x none).ramps → t.waits k h →
      s.waits k h := by
    intro t ht w
    have w' : (s.mapRamps d fun r => (r.dequeue x).hold x none).waits k h := by
      simpa only [State.waits, ht] using w
    rw [State.waits_mapRamps] at w'
    split at w'
    · next hk =>
      obtain ⟨e, he, rfl⟩ := w'
      exact hk ▸ ⟨e, (List.mem_filter.mp he).1, rfl⟩
    · exact w'
  obtain he | ⟨c, -, ⟨-, he⟩ | ⟨-, he⟩⟩ := s.takeGrant_cases d x
  · rwa [he] at w
  · exact dequeued _ (by rw [he]; rfl) w
  · exact dequeued _ (by rw [he]; rfl) w

theorem State.queuedOk_iff (s : State) :
    s.queuedOk ↔ ∀ d h c, s.waits d h → s.find h = some c → c.route.sinkDegree = some d :=
  ⟨fun q d h c ⟨e, he, hh⟩ hc => q d e he c (hh ▸ hc), fun q d e he c hc => q d e.handle c ⟨e, he, rfl⟩ hc⟩

theorem Move.queuedOk (m : Move L T U s t) (hq : s.queuedOk) : t.queuedOk := by
  rw [State.queuedOk_iff] at hq ⊢
  intro d h c' w hc'
  obtain ⟨c, hc, hr, -⟩ := m.row.find hc'
  rw [hr]
  cases m with
  | edit e =>
    obtain w' | ⟨a, ha, hd⟩ := e.waits w
    · exact hq d h c w' hc
    · rw [hc] at ha
      cases ha
      exact hd
  | grant _ => exact hq d h c (State.takeGrant_waits w) hc

theorem Moves.queuedOk (m : Moves L T U s t) (hq : s.queuedOk) : t.queuedOk := m.keeps (fun _ _ m => m.queuedOk) hq

/-! ### Sending -/

/-- A link that is no less marked, no more idle and has no more to send than before. -/
theorem State.sentAt_of {s t : State} {l : LinkId} (hm : s.links[l].pendingMark = true → t.links[l].pendingMark = true)
    (hr : t.links[l].state = .ready → s.links[l].state = .ready)
    (hi : t.links[l].inFlight = none → s.links[l].inFlight = none)
    (hn : s.updateEntries l = [] → t.updateEntries l = []) (h : s.sentAt l) : t.sentAt l :=
  h.imp hm fun h hs hf => hn (h (hr hs) (hi hf))

theorem State.sentAt_of_links {s t : State} {l : LinkId} (hl : t.links = s.links)
    (hn : s.updateEntries l = [] → t.updateEntries l = []) (h : s.sentAt l) : t.sentAt l :=
  State.sentAt_of (by rw [hl]; exact id) (by rw [hl]; exact id) (by rw [hl]; exact id) hn h

theorem State.sentAt_of_mark {s t : State} {l k : LinkId} (hl : t.links = (s.mark k).links)
    (hn : l ≠ k → s.updateEntries l = [] → t.updateEntries l = []) (h : s.sentAt l) : t.sentAt l := by
  by_cases hk : l = k
  · exact .inl (by rw [hl, State.link_mark, if_pos hk])
  · exact State.sentAt_of (by rw [hl]; exact s.pendingMark_mark k l) (by rw [hl, State.state_mark]; exact id)
      (by rw [hl, State.inFlight_mark]; exact id) (hn hk) h

/-- One record rewritten leaves nothing to send on a link that is not its own, and on its own when its shadow is
kept. -/
theorem State.updateEntries_redrawn {s t : State} {i : SlotIx} {c c' : Conn} (hl : s.listedOk) (hi : s.conn i = some c)
    (ht : t.table = (s.putConn i (some c')).table) (hm : t.map = s.map) (ha : t.actives = s.actives)
    (hx : t.matrix = s.matrix) (l : LinkId) (hc : l = c.route.link → c'.shadow = c.shadow)
    (h : s.updateEntries l = []) : t.updateEntries l = [] := by
  obtain rfl | ⟨d, rfl⟩ := link_cases l
  · rw [State.updateEntries_slm_nil] at h ⊢
    rwa [hx]
  · rw [State.updateEntries_degree_nil] at h ⊢
    intro k a hk ha'
    rw [State.lists_of_map hm] at hk
    rw [ha]
    rw [State.find_of_table ht] at ha'
    by_cases hki : k = s.handleAt i
    · rw [State.find_putConn, if_pos hki] at ha'
      cases ha'
      have hf : s.find k = some c := by rw [hki, State.find_handleAt, hi]
      obtain ⟨b, hb, hlink⟩ := hl.link hk
      rw [hf] at hb
      cases hb
      rw [hc hlink.symm]
      exact h k c hk hf
    · rw [State.find_putConn_other hi _ hki] at ha'
      exact h k a hk ha'

/-- A record rewritten with its shadow kept leaves every link as much sent as it was. -/
theorem State.sentAt_rewritten {s t : State} {i : SlotIx} {c c' : Conn} (hl : s.listedOk) (hi : s.conn i = some c)
    (ht : t.table = (s.putConn i (some c')).table) (hm : t.map = s.map) (ha : t.actives = s.actives)
    (hx : t.matrix = s.matrix) (hk : t.links = s.links) (hs : c'.shadow = c.shadow) {l : LinkId} (h : s.sentAt l) :
    t.sentAt l :=
  State.sentAt_of_links hk (State.updateEntries_redrawn hl hi ht hm ha hx l fun _ => hs) h

/-- A record rewritten with its link marked leaves every link as much sent or marked as it was (R126). -/
theorem State.sentAt_reshaded {s t : State} {i : SlotIx} {c c' : Conn} (hl : s.listedOk) (hi : s.conn i = some c)
    (ht : t.table = (s.putConn i (some c')).table) (hm : t.map = s.map) (ha : t.actives = s.actives)
    (hx : t.matrix = s.matrix) (hk : t.links = (s.mark c.route.link).links) {l : LinkId} (h : s.sentAt l) :
    t.sentAt l :=
  State.sentAt_of_mark hk (fun hne => State.updateEntries_redrawn hl hi ht hm ha hx l fun e => absurd e hne) h

/-- A record freed leaves no more to send on any link that the matrix does not change. -/
theorem State.updateEntries_freed {s : State} {i : SlotIx} {c : Conn} (l : LinkId)
    (hx : l = slm → (s.freeRecord i c).matrix = s.matrix) (h : s.updateEntries l = []) :
    (s.freeRecord i c).updateEntries l = [] := by
  obtain rfl | ⟨d, rfl⟩ := link_cases l
  · rw [State.updateEntries_slm_nil] at h ⊢
    rwa [hx rfl]
  · rw [State.updateEntries_degree_nil] at h ⊢
    intro k a hk ha
    rw [State.find_of_table (s.table_freeRecord i c), State.find_putConn] at ha
    split at ha
    · cases ha
    · split at ha
      · cases ha
      · next hs =>
        rw [State.actives_freeRecord, get_set_ne _ _ hs]
        exact h k a (State.lists_freeRecord hk) ha

theorem State.sentAt_freed {s t : State} {i : SlotIx} {c : Conn} (l : LinkId)
    (ht : t.table = (s.freeRecord i c).table) (hm : t.map = (s.freeRecord i c).map)
    (ha : t.actives = (s.freeRecord i c).actives) (hx : t.matrix = (s.freeRecord i c).matrix)
    (hl : t.links = (s.freeRecord i c).links) (h : s.sentAt l) : t.sentAt l := by
  obtain ⟨hmat, hlinks⟩ | hlinks := s.freeRecord_matrix i c
  · refine State.sentAt_of_links (hl.trans hlinks) (fun hn => ?_) h
    rw [State.updateEntries_congr ht hm ha hx]
    exact State.updateEntries_freed l (fun _ => hmat) hn
  · refine State.sentAt_of_mark (hl.trans hlinks) (fun hne hn => ?_) h
    rw [State.updateEntries_congr ht hm ha hx]
    exact State.updateEntries_freed l (fun e => absurd e hne) hn

theorem Edit.sentAt (e : Edit True T U s t) (hl : s.listedOk) (hb : s.blockedOk) {l : LinkId} (h : s.sentAt l) :
    t.sentAt l := by
  cases e with
  | aside a =>
    exact State.sentAt_of_links a.links (by rw [State.updateEntries_congr a.table a.map a.actives a.matrix]; exact id) h
  | relink a => exact a.sent l h
  | @rewrite i c c' hi r hs =>
    exact State.sentAt_rewritten hl hi (by rfl) (by rfl) (by rfl) (by rfl) (by rfl) (hs trivial (hb i c hi)) h
  | @reshade i c c' hi r =>
    exact State.sentAt_reshaded hl hi (by rfl) (by rfl) (by rfl) (by rfl) (by rfl) h
  | @free _ i c _ _ => exact State.sentAt_freed (i := i) (c := c) l rfl rfl rfl rfl rfl h
  | @release i c _ => exact State.sentAt_freed (i := i) (c := c) l (by simp) (by simp) (by simp) (by simp) (by simp) h

theorem Move.sentAt (m : Move True T U s t) (hl : s.listedOk) (hb : s.blockedOk) (hq : s.queuedOk) {l : LinkId}
    (h : s.sentAt l) : t.sentAt l := by
  cases m with
  | edit e => exact e.sentAt hl hb h
  | @grant d k w =>
    obtain he | ⟨c, hc, ⟨hs, he⟩ | ⟨hs, he⟩⟩ := s.takeGrant_cases d k
    · rwa [he]
    · have hlink : c.route.link = degreeLink d :=
        Route.link_of_sink ((State.queuedOk_iff s).mp hq d k c w hc)
      rw [he]
      exact State.sentAt_reshaded (c' := { c with state := .rampUp, shadow := .att 250 }) hl
        ((s.find_eq_some k c).mp hc).2 (by rfl) (by rfl) (by rfl) (by rfl) (by rw [hlink]; rfl) h
    · rw [he]
      exact State.sentAt_rewritten (c' := { c with state := .rampDown }) hl ((s.find_eq_some k c).mp hc).2
        (by rfl) (by rfl) (by rfl) (by rfl) (by rfl) rfl h

/-- The laws under which moves leave nothing unsent. -/
structure State.Tidy (s : State) : Prop where
  listed : s.listedOk
  blocked : s.blockedOk
  queued : s.queuedOk

theorem Moves.tidy (m : Moves True T U s t) (h : s.Tidy) : t.Tidy :=
  ⟨m.listedOk h.listed, m.blockedOk h.blocked, m.queuedOk h.queued⟩

theorem Moves.sentAt (m : Moves True T U s t) (h : s.Tidy) {l : LinkId} (hs : s.sentAt l) : t.sentAt l :=
  (m.keeps (P := fun s => s.Tidy ∧ s.sentAt l)
    (fun _ _ m h => ⟨Moves.tidy (.single m) h.1, m.sentAt h.1.listed h.1.blocked h.1.queued h.2⟩) ⟨h, hs⟩).2

theorem Edits.sentAt (m : Edits True T U s t) (hl : s.listedOk) (hb : s.blockedOk) {l : LinkId} (hs : s.sentAt l) :
    t.sentAt l := by
  induction m with
  | refl => exact hs
  | tail m e ih => exact e.sentAt ((Edits.moves m).listedOk hl) ((Edits.moves m).blockedOk hb) ih

/-! ### Records freed and told -/

/-- Every record of `s` is still there, or its domains have been sent RELEASED (R46). Where PROPOSED records go
untold (`U`) it is said of the records past PROPOSED, and they stay past it. -/
def Accounted (U : Prop) (s t : State) : Prop :=
  t.nodeTime = s.nodeTime ∧ ∀ (k : SlotIx) (c : Conn), s.conn k = some c → (U → c.state ≠ .proposed) →
    (t.handleAt k = s.handleAt k ∧ ∃ c', t.conn k = some c' ∧ (U → c'.state ≠ .proposed) ∧ c'.domains = c.domains) ∨
      ∀ q ∈ c.domains, Heard t q ⟨.released, some (s.handleAt k), none, none, s.nodeTime⟩

theorem Accounted.refl (U : Prop) (s : State) : Accounted U s s := ⟨rfl, fun _ c hc hp => .inl ⟨rfl, c, hc, hp, rfl⟩⟩

theorem Edit.portsGrow (e : Edit L T U s t) : PortsGrow s t := by
  cases e with
  | aside a => exact a.ports
  | relink a => exact .of_eq a.ports
  | rewrite hi r _ => exact .of_eq rfl
  | reshade hi r => exact .of_eq rfl
  | free _ hi _ => exact .of_eq (by simp)
  | @release i c hi => exact (PortsGrow.of_eq (by simp)).trans (State.tellConn_grows _ _ _ _ _)

theorem Move.portsGrow (m : Move L T U s t) : PortsGrow s t := by
  cases m with
  | edit e => exact e.portsGrow
  | grant w => exact .of_eq (by simp)

theorem Edit.nodeTime (e : Edit L T U s t) : t.nodeTime = s.nodeTime := by
  cases e with
  | aside a => exact a.nodeTime
  | relink a => exact a.nodeTime
  | rewrite hi r _ => rfl
  | reshade hi r => rfl
  | free _ hi _ => simp
  | release hi => simp

theorem Move.nodeTime (m : Move L T U s t) : t.nodeTime = s.nodeTime := by
  cases m with
  | edit e => exact e.nodeTime
  | grant w => simp

/-- A record before a move is there afterwards, or the move is the one that frees it and tells its domains. -/
theorem Move.released (m : Move L T U s t) {k : SlotIx} {c : Conn} (hc : s.conn k = some c)
    (hp : U → c.state ≠ .proposed) :
    (∃ c', t.conn k = some c' ∧ (U → c'.state ≠ .proposed) ∧ c'.domains = c.domains) ∨
      ∀ q ∈ c.domains, Heard t q ⟨.released, some (s.handleAt k), none, none, s.nodeTime⟩ := by
  have redrawn : ∀ {u : State} {i : SlotIx} {a a' : Conn}, s.conn i = some a → Redrawn L T U s a a' →
      u.table = (s.putConn i (some a')).table →
      ∃ c', u.conn k = some c' ∧ (U → c'.state ≠ .proposed) ∧ c'.domains = c.domains := by
    intro u i a a' hi r hu
    by_cases hk : k = i
    · subst hk
      rw [hc] at hi
      cases hi
      exact ⟨a', by rw [State.conn_of_table hu, State.conn_putConn, if_pos rfl], fun hu => r.past hu (hp hu), r.domains⟩
    · exact ⟨c, by rw [State.conn_of_table hu, State.conn_putConn, if_neg hk, hc], hp, rfl⟩
  cases m with
  | edit e =>
    cases e with
    | aside a => exact .inl ⟨c, by rw [State.conn_of_table a.table, hc], hp, rfl⟩
    | relink a => exact .inl ⟨c, by rw [State.conn_of_table a.table, hc], hp, rfl⟩
    | rewrite hi r _ => exact .inl (redrawn hi r rfl)
    | reshade hi r => exact .inl (redrawn hi r rfl)
    | @free hu i a hi hpr =>
      have hk : k ≠ i := by
        rintro rfl
        rw [hc] at hi
        cases hi
        exact hp hu hpr
      exact .inl ⟨c, by rw [State.conn_freeRecord, if_neg hk, hc], hp, rfl⟩
    | @release i a hi =>
      by_cases hk : k = i
      · subst hk
        rw [hc] at hi
        cases hi
        refine .inr fun q hq => ?_
        have := (s.freeRecord k c).tellConn_heard (s.handleAt k) c (kind := .released) none rfl hq
        rwa [show (s.freeRecord k c).nodeTime = s.nodeTime by simp] at this
      · exact .inl ⟨c, by rw [State.conn_of_table (State.tellConn_frame ..).1, State.conn_freeRecord, if_neg hk, hc], hp, rfl⟩
  | @grant d h w =>
    obtain he | ⟨a, ha, ⟨hs, he⟩ | ⟨hs, he⟩⟩ := s.takeGrant_cases d h
    · exact .inl ⟨c, by rw [he, hc], hp, rfl⟩
    · exact .inl (redrawn ((s.find_eq_some h a).mp ha).2 (.grantUp hs) (by rw [he]; rfl))
    · exact .inl (redrawn ((s.find_eq_some h a).mp ha).2 (.grantDown hs) (by rw [he]; rfl))

theorem Move.accounted {s₀ : State} (m : Move L T U s t) (h : Accounted U s₀ s) : Accounted U s₀ t := by
  refine ⟨m.nodeTime.trans h.1, fun k c hc hp => ?_⟩
  obtain ⟨hk, a, ha, hpa, hd⟩ | hh := h.2 k c hc hp
  · obtain ⟨b, hb, hpb, hdb⟩ | hh := m.released ha hpa
    · exact .inl ⟨(m.row.handleAt k).trans hk, b, hb, hpb, hdb.trans hd⟩
    · exact .inr fun q hq => by
        have := hh q (hd ▸ hq)
        rwa [hk, h.1] at this
  · exact .inr fun q hq => (hh q hq).grow m.portsGrow

theorem Moves.accounted (m : Moves L T U s t) : Accounted U s t :=
  m.keeps (P := Accounted U s) (fun _ _ m => m.accounted) (.refl U s)

end

end Sys2Proof.Machine
end

