-- ==== Sys2Proof/Proofs/LinkEdits.lean ====
section
/-! Proofs/LinkEdits.lean: the operations beside the records and on the links, as edits. -/

set_option Elab.async false

namespace Sys2Proof.Machine
open Sys2Proof

section
variable {L : Prop} {T : Degree → Prop} {U : Prop}

/-! ## Operations beside the records -/

/-- An edit of pieces that no law of sending, darkness or release reads, the ports growing at most. -/
theorem Aside.quiet {s t : State} (table : t.table = s.table) (map : t.map = s.map) (actives : t.actives = s.actives)
    (matrix : t.matrix = s.matrix) (links : t.links = s.links) (nodeTime : t.nodeTime = s.nodeTime)
    (ramps : t.ramps = s.ramps) (trips : t.trips = s.trips) (ports : PortsGrow s t) : Aside T s t :=
  ⟨table, map, actives, matrix, links, nodeTime, fun _ _ w => .inl (by simpa only [State.waits, ramps] using w),
    fun _ _ h => by simpa only [State.tripInForce, trips] using h, ports⟩

theorem State.tell_edit (s : State) (p : Domain) (n : Notice) : Edit L T U s (s.tell p n) :=
  .aside (.quiet (by simp) (by simp) (by simp) (by simp) (by simp) (by simp) (by simp) (by simp) (s.tell_grows p n))

theorem State.tellManager_edit (s : State) (d : Degree) (n : Notice) : Edit L T U s (s.tellManager d n) :=
  .aside (.quiet (by simp) (by simp) (by simp) (by simp) (by simp) (by simp) (by simp) (by simp)
    (s.tellManager_grows d n))

theorem State.flagManager_edit (s : State) (d : Degree) (f : FlagSet) : Edit L T U s (s.flagManager d f) :=
  .aside (.quiet (by simp) (by simp) (by simp) (by simp) (by simp) (by simp) (by simp) (by simp)
    (s.flagManager_grows d f))

theorem State.tellOption_edit (s : State) (p : Option Domain) (n : Notice) : Edit L T U s (s.tellOption p n) :=
  .aside (.quiet (by simp) (by simp) (by simp) (by simp) (by simp) (by simp) (by simp) (by simp)
    (s.tellOption_grows p n))

theorem State.tellAll_edit (s : State) (n : Notice) : Edit L T U s (s.tellAll n) :=
  .aside (.quiet (by simp) (by simp) (by simp) (by simp) (by simp) (by simp) (by simp) (by simp) (s.tellAll_grows n))

theorem State.flagAll_edit (s : State) (f : FlagSet) : Edit L T U s (s.flagAll f) :=
  .aside (.quiet (by simp) (by simp) (by simp) (by simp) (by simp) (by simp) (by simp) (by simp) (s.flagAll_grows f))

theorem State.tellConn_edit (s : State) (h : Handle) (c : Conn) (kind : NoticeKind) (value : Option Int) :
    Edit L T U s (s.tellConn h c kind value) :=
  .aside (.quiet (by simp) (by simp) (by simp) (by simp) (by simp) (by simp) (by simp) (by simp)
    (s.tellConn_grows h c kind value))

/-- A reply goes into the slot alone (R186). -/
theorem State.reply_grows (s : State) (p : Domain) (tag : Byte) (a : Answer) : PortsGrow s (s.reply p tag a) := by
  intro q
  rw [State.port_reply]
  split
  · next h => rw [h]; exact ⟨fun _ hm => hm, id⟩
  · exact ⟨fun _ hm => hm, id⟩

theorem State.reply_edit (s : State) (p : Domain) (tag : Byte) (a : Answer) : Edit L T U s (s.reply p tag a) :=
  .aside (.quiet (by simp) (by simp) (by simp) (by simp) (by simp) (by simp) (by simp) (by simp)
    (s.reply_grows p tag a))

theorem State.prompt_edit (s : State) : Edit L T U s s.prompt :=
  .aside (.quiet (by simp) (by simp) (by simp) (by simp) (by simp) (by simp) (by simp) (by simp) (.of_eq (by simp)))

theorem State.choice_edit (s : State) : Edit L T U s s.choice :=
  .aside (.quiet (by simp) (by simp) (by simp) (by simp) (by simp) (by simp) (by simp) (by simp) (.of_eq (by simp)))

theorem State.startTrack_edit (s : State) (h : Handle) (c : Conn) : Edit L T U s (s.startTrack h c) :=
  .aside (.quiet rfl rfl rfl rfl rfl rfl rfl rfl (.of_eq rfl))

theorem State.handOff_grows (s : State) (d : Degree) (h : Handle) (e : Int) : PortsGrow s (s.handOff d h e) := by
  have captured : PortsGrow s (s.capture d h e) := by
    unfold State.capture
    dsimp only
    split
    · exact PortsGrow.trans (.of_eq (by rfl)) (State.tellManager_grows _ _ _)
    · exact .of_eq rfl
  have disarmed : ∀ u : State, PortsGrow u (u.disarm d) := fun u =>
    PortsGrow.trans (.of_eq (by rfl)) (State.flagManager_grows _ _ _)
  unfold State.handOff
  split
  · exact .of_eq rfl
  · split
    · exact captured
    · split
      · exact captured
      · split
        · exact captured.trans (disarmed _)
        · exact disarmed s

theorem State.handOff_edit (s : State) (d : Degree) (h : Handle) (e : Int) : Edit L T U s (s.handOff d h e) :=
  .aside (.quiet (by simp) (by simp) (by simp) (by simp) (by simp) (by simp) (by simp) (by simp)
    (s.handOff_grows d h e))

/-! ## Folds -/

theorem Moves.foldl {α : Type} (f : State → α → State) (h : ∀ s a, Moves L T U s (f s a)) (l : List α) (s : State) :
    Moves L T U s (l.foldl f s) := by
  induction l generalizing s with
  | nil => exact .refl
  | cons a l ih => exact (h s a).trans (ih _)

theorem Edits.foldl {α : Type} (f : State → α → State) (h : ∀ s a, Edits L T U s (f s a)) (l : List α) (s : State) :
    Edits L T U s (l.foldl f s) := by
  induction l generalizing s with
  | nil => exact .refl
  | cons a l ih => exact (h s a).trans (ih _)

/-! ## Operations on the links -/

theorem Relinked.refl (s : State) : Relinked s s :=
  ⟨rfl, rfl, rfl, rfl, rfl, rfl, rfl, fun _ _ h => .inl h, fun _ h => h, fun _ h => h⟩

/-- One link is changed: it sends no batch but an own one, and it is marked, not READY, busy, or as it was. -/
theorem State.mapLink_relinked {s : State} {l : LinkId} {f : Link → Link}
    (batch : ∀ b, (f s.links[l]).inFlight = some b → s.links[l].inFlight = some b ∨ (s.listedOk → s.owns l b.entries))
    (sent : (f s.links[l]).pendingMark = true ∨ (f s.links[l]).state ≠ .ready ∨ (f s.links[l]).inFlight ≠ none)
    (ready : (f s.links[l]).state = .ready → s.links[l].state = .ready) : Relinked s (s.mapLink l f) where
  table := rfl
  map := rfl
  actives := rfl
  ramps := rfl
  nodeTime := rfl
  trips := rfl
  ports := rfl
  batch k b hb := by
    rw [State.link_mapLink] at hb
    split at hb
    · next h => rw [h]; exact batch b hb
    · exact .inl hb
  sent k h := by
    by_cases hk : k = l
    · subst hk
      rw [State.sentAt, State.link_mapLink, if_pos rfl]
      obtain hm | hr | hi := sent
      · exact .inl hm
      · exact .inr fun e => absurd e hr
      · exact .inr fun _ e => absurd e hi
    · have hl : (s.mapLink l f).links[k] = s.links[k] := by rw [State.link_mapLink, if_neg hk]
      exact State.sentAt_of (by rw [hl]; exact id) (by rw [hl]; exact id) (by rw [hl]; exact id)
        (by rw [State.updateEntries_congr (t := s.mapLink l f) (s := s) rfl rfl rfl rfl]; exact id) h
  ready k h := by
    rw [State.link_mapLink] at h
    split at h
    · next hk => rw [hk]; exact ready h
    · exact h

theorem State.mark_edit (s : State) (l : LinkId) : Edit L T U s (s.mark l) :=
  .relink (State.mapLink_relinked (fun _ h => .inl h) (.inl rfl) id)

/-- The matrix is changed with SLM marked (R34, R45). -/
theorem State.mapMatrix_edit (s : State) (p : LocalPort) (f : MatrixEntry → MatrixEntry) :
    Edit L T U s (s.mapMatrix p f) :=
  .relink {
    table := rfl, map := rfl, actives := rfl, ramps := rfl, nodeTime := rfl, trips := rfl, ports := rfl
    batch := fun l b h => .inl (by
      rwa [show (s.mapMatrix p f).links = (s.mark slm).links from rfl, State.inFlight_mark] at h)
    sent := fun l h => State.sentAt_of_mark (s := s) (k := slm) rfl (fun hne hn => by
      obtain rfl | ⟨d, rfl⟩ := link_cases l
      · exact absurd rfl hne
      · rw [State.updateEntries_degree_nil] at hn ⊢
        exact hn) h
    ready := fun l h => by
      rwa [show (s.mapMatrix p f).links = (s.mark slm).links from rfl, State.state_mark] at h }

theorem State.setMatrix_edits (s : State) (r : Route) : Edits L T U s (s.setMatrix r) := by
  cases r with
  | add l d => exact .single (by unfold State.setMatrix; exact s.mapMatrix_edit l _)
  | drop d l => exact .single (by unfold State.setMatrix; exact s.mapMatrix_edit l _)
  | express a b => exact .refl

/-- The link after a batch is sent on it (R127, R130, R134). -/
theorem State.link_sendBatch (s : State) (l k : LinkId) (kind : BatchKind) (es : List Entry) :
    (s.sendBatch l kind es).links[k] =
      if k = l then
        { s.links[l] with inFlight := some ⟨kind, s.links[l].seq, es⟩, seq := s.links[l].seq + 1,
                          timer := some (s.nodeTime + BitVec.ofNat 32 (s.replyPeriod l)) }
      else s.links[k] := by
  have sent : (s.sendBatch l kind es).links = (s.mapLink l fun k =>
      { k with inFlight := some ⟨kind, k.seq, es⟩, seq := k.seq + 1,
               timer := some (s.nodeTime + BitVec.ofNat 32 (s.replyPeriod l)) }).links := by
    unfold State.sendBatch
    dsimp only
    split <;> rfl
  rw [sent, State.link_mapLink]

theorem State.sendBatch_relinked {s : State} {l : LinkId} {kind : BatchKind} {es : List Entry}
    (own : s.listedOk → s.owns l es) : Relinked s (s.sendBatch l kind es) where
  table := by simp
  map := by simp
  actives := by simp
  ramps := by simp
  nodeTime := by simp
  trips := by simp
  ports := by simp
  batch k b hb := by
    rw [State.link_sendBatch] at hb
    split at hb
    · next h =>
      cases hb
      rw [h]
      exact .inr own
    · exact .inl hb
  sent k h := by
    by_cases hk : k = l
    · exact .inr fun _ hi => by
        rw [State.link_sendBatch, if_pos hk] at hi
        cases hi
    · have hl : (s.sendBatch l kind es).links[k] = s.links[k] := by rw [State.link_sendBatch, if_neg hk]
      exact State.sentAt_of (by rw [hl]; exact id) (by rw [hl]; exact id) (by rw [hl]; exact id)
        (by rw [State.updateEntries_congr (t := s.sendBatch l kind es) (s := s) (by simp) (by simp) (by simp) (by simp)]
            exact id) h
  ready k h := by
    rw [State.link_sendBatch] at h
    split at h
    · next hk => rw [hk]; exact h
    · exact h

theorem State.sendIfPending_relinked (s : State) (l : LinkId) : Relinked s (s.sendIfPending l) := by
  unfold State.sendIfPending
  split
  · exact State.sendBatch_relinked fun hl => State.owns_update hl l
  · exact .refl s

theorem State.sendIfPending_edit (s : State) (l : LinkId) : Edit L T U s (s.sendIfPending l) :=
  .relink (s.sendIfPending_relinked l)

/-- An examined link has nothing left to send while it is idle and READY (R127). -/
theorem State.sent_sendIfPending (s : State) (l : LinkId) (hr : (s.sendIfPending l).links[l].state = .ready)
    (hi : (s.sendIfPending l).links[l].inFlight = none) : (s.sendIfPending l).updateEntries l = [] := by
  rw [State.updateEntries_congr (s := s) (by simp) (by simp) (by simp) (by simp)]
  unfold State.sendIfPending at hr hi
  split at hi
  · rw [State.link_sendBatch, if_pos rfl] at hi
    cases hi
  · next hn =>
    rw [if_neg hn] at hr
    exact by_contra fun he => hn ⟨hr, hi, he⟩

/-- The examination of a link: a mark cleared, and what differs sent (R126). -/
theorem State.flushLink_relinked (s : State) (l : LinkId) : Relinked s (s.flushLink l) := by
  unfold State.flushLink
  split
  · next hm =>
    generalize hw : (s.mapLink l fun k => { k with pendingMark := false }) = w
    have wl : ∀ k : LinkId, w.links[k].inFlight = s.links[k].inFlight ∧ w.links[k].state = s.links[k].state := by
      intro k
      rw [← hw, State.link_mapLink]
      split
      · next h => rw [h]; exact ⟨rfl, rfl⟩
      · exact ⟨rfl, rfl⟩
    have wt : w.table = s.table ∧ w.map = s.map ∧ w.actives = s.actives ∧ w.matrix = s.matrix ∧ w.ramps = s.ramps ∧
        w.nodeTime = s.nodeTime ∧ w.trips = s.trips ∧ w.ports = s.ports := by rw [← hw]; simp
    obtain ⟨table, map, actives, matrix, ramps, nodeTime, trips, ports⟩ := wt
    have r := w.sendIfPending_relinked l
    refine ⟨r.table.trans table, r.map.trans map, r.actives.trans actives, r.ramps.trans ramps,
      r.nodeTime.trans nodeTime, r.trips.trans trips, r.ports.trans ports, fun k b hb => ?_, fun k h => ?_, fun k h => ?_⟩
    · refine (r.batch k b hb).imp (fun h => by rwa [(wl k).1] at h) fun h hl => ?_
      have := h (State.listedOk_of_find hl map fun x a ha => ⟨a, by rw [State.find_of_table table, ha], rfl⟩)
      simpa only [State.owns, State.find_of_table table] using this
    · by_cases hk : k = l
      · subst hk
        exact .inr fun hr hi => w.sent_sendIfPending k hr hi
      · refine r.sent k (State.sentAt_of (fun h => ?_) (by rw [(wl k).2]; exact id) (by rw [(wl k).1]; exact id)
          (by rw [State.updateEntries_congr table map actives matrix]; exact id) h)
        rw [← hw, State.link_mapLink, if_neg hk]
        exact h
    · have := r.ready k h
      rwa [(wl k).2] at this
  · exact .refl s

theorem State.flushLinks_edits (s : State) : Edits L T U s s.flushLinks :=
  .foldl _ (fun s l => .single (.relink (s.flushLink_relinked l))) _ s

theorem State.finish_edits (s : State) : Edits L T U s s.finish := s.flushLinks_edits.tail (State.prompt_edit _)

theorem State.failLink_edits (s : State) (l : LinkId) (b : Batch) (f : LinkFailure) : Edits L T U s (s.failLink l b f) := by
  have failed : Edit L T U s (s.mapLink l fun k => k.failed b f) :=
    .relink (State.mapLink_relinked (fun _ h => nomatch h) (.inr (.inl (by simp [Link.failed])))
      (by simp [Link.failed]))
  refine .trans ((Relation.ReflTransGen.single failed).trans ?_) (.single (State.prompt_edit _))
  unfold State.tellLinkFault
  split
  · exact .tail (.single (State.tellManager_edit ..)) (State.flagManager_edit ..)
  · exact .tail (.single (State.tellAll_edit ..)) (State.flagAll_edit ..)

theorem State.resync_edits (s : State) (l : LinkId) (byRetry : Bool) : Edits L T U s (s.resync l byRetry) := by
  refine .tail (.single (.relink (State.mapLink_relinked (l := l) (f := fun k => { k with state := .starting })
    (fun _ h => .inl h) (.inr (.inl (by simp))) (by simp)))) (.relink (State.sendBatch_relinked fun hl => ?_))
  rw [← State.resyncEntries_congr (t := s.mapLink l fun k => { k with state := .starting }) (s := s) rfl rfl rfl rfl]
  exact State.owns_resync hl l

theorem State.sendStart_edit (s : State) (l : LinkId) : Edit L T U s (s.sendBatch l .start (startEntries l)) :=
  .relink (State.sendBatch_relinked fun _ => s.owns_start l)

/-- After the examination of the five links, none has anything left to send (R126, R127). -/
theorem State.sent_flushLinks (s : State) (h : ∀ l, s.sentAt l) (l : LinkId) (hr : s.flushLinks.links[l].state = .ready)
    (hi : s.flushLinks.links[l].inFlight = none) : s.flushLinks.updateEntries l = [] := by
  have key : ∀ (ls : List LinkId) (s : State), (∀ l, s.sentAt l) → ∀ l,
      (l ∉ ls → s.links[l].pendingMark = false ∨ (s.links[l].state = .ready → s.links[l].inFlight = none →
        s.updateEntries l = [])) →
      (ls.foldl State.flushLink s).links[l].state = .ready → (ls.foldl State.flushLink s).links[l].inFlight = none →
      (ls.foldl State.flushLink s).updateEntries l = [] := by
    intro ls
    induction ls with
    | nil =>
      intro s hs l hl hr hi
      obtain hm | hm := hs l
      · obtain hn | hn := hl (List.not_mem_nil)
        · rw [hm] at hn; cases hn
        · exact hn hr hi
      · exact hm hr hi
    | cons k ks ih =>
      intro s hs l hl hr hi
      refine ih (s.flushLink k) (fun l => (s.flushLink_relinked k).sent l (hs l)) l (fun hn => ?_) hr hi
      by_cases hk : l = k
      · subst hk
        by_cases hm : s.links[l].pendingMark = true
        · refine .inr ?_
          unfold State.flushLink
          rw [if_pos hm]
          exact State.sent_sendIfPending _ l
        · unfold State.flushLink
          rw [if_neg hm]
          exact .inl (by simpa using hm)
      · have hkept := hl (by simp [hk, hn])
        have hlink : (s.flushLink k).links[l] = s.links[l] := by
          unfold State.flushLink
          split
          · unfold State.sendIfPending
            split
            · rw [State.link_sendBatch, if_neg hk, State.link_mapLink, if_neg hk]
            · rw [State.link_mapLink, if_neg hk]
          · rfl
        rw [hlink, State.updateEntries_congr (t := s.flushLink k) (s := s) (by simp) (by simp) (by simp) (by simp)]
        exact hkept
  exact key _ s h l (fun hn => absurd (List.mem_finRange l) hn) hr hi

end

end Sys2Proof.Machine
end

