-- ==== Sys2Proof/Proofs/RecordMoves.lean ====
section
/-! Proofs/RecordMoves.lean: the operations on the records, the queues and the trips, as moves. -/

set_option Elab.async false

namespace Sys2Proof.Machine
open Sys2Proof

section
variable {L : Prop} {T : Degree → Prop} {U : Prop} {s t u : State}

/-! ## Moves in a row -/

theorem Edit.moves (e : Edit L T U s t) : Moves L T U s t := .single (.edit e)

theorem Moves.andThen (m : Moves L T U s t) (e : Edit L T U t u) : Moves L T U s u := m.tail (.edit e)

/-- An edit of what waits at CNM, of MON, of the banks, of the settings or of the switch generations. -/
theorem Edit.beside (table : t.table = s.table) (map : t.map = s.map) (actives : t.actives = s.actives)
    (matrix : t.matrix = s.matrix) (links : t.links = s.links) (nodeTime : t.nodeTime = s.nodeTime)
    (ramps : t.ramps = s.ramps) (trips : t.trips = s.trips) (ports : t.ports = s.ports) : Edit L T U s t :=
  .aside (.quiet table map actives matrix links nodeTime ramps trips (.of_eq ports))

/-! ## RSC -/

/-- RSC's state of a degree is changed: its queue gains only records that sink on the degree. -/
theorem State.mapRamps_edit {d : Degree} {f : Ramps → Ramps}
    (h : ∀ e ∈ (f s.ramps[d]).queue, s.waits d e.handle ∨
      ∃ c, s.find e.handle = some c ∧ c.route.sinkDegree = some d) : Edit L T U s (s.mapRamps d f) :=
  .aside {
    table := rfl, map := rfl, actives := rfl, matrix := rfl, links := rfl, nodeTime := rfl
    ports := .of_eq rfl
    trips := fun _ _ h => h
    queues := fun k x w => by
      rw [State.waits_mapRamps] at w
      split at w
      · next hk =>
        obtain ⟨e, he, rfl⟩ := w
        exact hk ▸ h e he
      · exact .inl w }

/-- RSC's state of a degree is changed, its queue gaining nothing. -/
theorem State.mapRamps_sub {d : Degree} {f : Ramps → Ramps}
    (h : ∀ e ∈ (f s.ramps[d]).queue, ∃ e' ∈ s.ramps[d].queue, e'.handle = e.handle) : Edit L T U s (s.mapRamps d f) :=
  State.mapRamps_edit fun e he => .inl (h e he)

/-- The records that a grant would take (R40). -/
def State.pends (s : State) (h : Handle) : Prop :=
  ∃ c, s.find h = some c ∧ (c.state = .pendingUp ∨ c.state = .pendingDown)

theorem State.takeGrant_of_not_pends {d : Degree} {h : Handle} (n : ¬ s.pends h) : s.takeGrant d h = s := by
  obtain he | ⟨c, hc, ⟨hs, -⟩ | ⟨hs, -⟩⟩ := s.takeGrant_cases d h
  · exact he
  · exact absurd ⟨c, hc, .inl hs⟩ n
  · exact absurd ⟨c, hc, .inr hs⟩ n

/-- A handle that is still to be granted after a grant to another, or to itself: it waits, or pends no more. -/
theorem State.takeGrant_rest {d : Degree} {x h : Handle} (w : s.waits d h ∨ ¬ s.pends h) :
    (s.takeGrant d x).waits d h ∨ ¬ (s.takeGrant d x).pends h := by
  have granted : ∀ {c c' : Conn} {t : State}, s.find x = some c → c'.state ≠ .pendingUp → c'.state ≠ .pendingDown →
      t.table = (s.putConn x.slot (some c')).table →
      t.ramps = (s.mapRamps d fun r => (r.dequeue x).hold x none).ramps → t.waits d h ∨ ¬ t.pends h := by
    intro c c' t hx hu hd ht hr
    obtain ⟨hg, hi⟩ := (s.find_eq_some x c).mp hx
    have hxi : x = s.handleAt x.slot := by cases x; exact congrArg _ hg.symm
    by_cases hh : h = x
    · refine .inr fun ⟨a, ha, hs⟩ => ?_
      rw [State.find_of_table ht, State.find_putConn, if_pos (hh.trans hxi)] at ha
      cases ha
      exact hs.elim hu hd
    · refine w.imp (fun w => ?_) fun n ⟨a, ha, hs⟩ => n ⟨a, ?_, hs⟩
      · have : (s.mapRamps d fun r => (r.dequeue x).hold x none).waits d h := by
          rw [State.waits_mapRamps, if_pos rfl]
          obtain ⟨e, he, rfl⟩ := w
          exact ⟨e, List.mem_filter.mpr ⟨he, by simpa using hh⟩, rfl⟩
        simpa only [State.waits, hr] using this
      · rwa [State.find_of_table ht, State.find_putConn_other hi _ (fun e => hh (e.trans hxi.symm))] at ha
  obtain he | ⟨c, hc, ⟨-, he⟩ | ⟨-, he⟩⟩ := s.takeGrant_cases d x
  · rwa [he]
  · rw [he]
    exact granted (c' := { c with state := .rampUp, shadow := .att 250 }) hc (by simp) (by simp) rfl rfl
  · rw [he]
    exact granted (c' := { c with state := .rampDown }) hc (by simp) (by simp) rfl rfl

/-- A grant event is grants to handles that wait (R57, R58). -/
theorem State.grantEvent_moves (s : State) (d : Degree) : Moves L T U s (s.grantEvent d) := by
  have key : ∀ (l : List Handle) (s : State), (∀ h ∈ l, s.waits d h ∨ ¬ s.pends h) →
      Moves L T U s (l.foldl (fun s h => if s.canGrant d then s.takeGrant d h else s) s) := by
    intro l
    induction l with
    | nil => exact fun _ _ => .refl
    | cons x l ih =>
      intro s hl
      rw [List.foldl_cons]
      split
      · refine .trans ?_ (ih _ fun h hh => State.takeGrant_rest (hl h (List.mem_cons_of_mem _ hh)))
        obtain w | n := hl x (List.mem_cons_self ..)
        · exact .single (.grant w)
        · rw [State.takeGrant_of_not_pends n]
      · exact ih s fun h hh => hl h (List.mem_cons_of_mem _ hh)
  refine key _ s fun h hh => .inl ?_
  obtain ⟨e, he, rfl⟩ := List.mem_map.mp hh
  exact ⟨e, (List.mem_filter.mp he).1, rfl⟩

theorem State.joinQueue_moves {d : Degree} {h : Handle} {c : Conn} (hc : s.find h = some c)
    (hd : c.route.sinkDegree = some d) : Moves L T U s (s.joinQueue d h) := by
  refine (State.mapRamps_edit fun e he => ?_).moves.trans (State.grantEvent_moves _ d)
  obtain he | he := List.mem_append.mp he
  · exact .inl ⟨e, he, rfl⟩
  · cases List.mem_singleton.mp he
    exact .inr ⟨c, hc, hd⟩

theorem State.freeRamp_moves (s : State) (d : Degree) (h : Handle) : Moves L T U s (s.freeRamp d h) :=
  (State.mapRamps_sub fun e he => ⟨e, he, rfl⟩).moves.trans (State.grantEvent_moves _ d)

theorem State.leaveQueue_moves (s : State) (d : Degree) (h : Handle) : Moves L T U s (s.leaveQueue d h) := by
  unfold State.leaveQueue
  split
  · exact .refl
  · split
    · exact (State.mapRamps_sub fun e he => ⟨e, (List.mem_filter.mp he).1, rfl⟩).moves
    · exact (State.mapRamps_sub fun e he => ⟨e, (List.mem_filter.mp he).1, rfl⟩).moves.trans
        (State.grantEvent_moves _ d)

theorem State.notTaken_moves (s : State) (d : Degree) (r : GrantReq) : Moves L T U s (s.notTaken d r) := by
  refine (State.mapRamps_sub fun e he => ?_).moves.trans (State.grantEvent_moves _ d)
  obtain ⟨e', he', rfl⟩ := List.mem_map.mp he
  exact ⟨e', he', by split <;> rfl⟩

theorem State.answerGrant_moves (s : State) (d : Degree) (r : GrantReq) : Moves L T U s (s.answerGrant d r) := by
  unfold State.answerGrant
  split
  · next h =>
    simp only [State.takesGrant, Bool.and_eq_true, List.any_eq_true, beq_iff_eq] at h
    obtain ⟨e, he, hh, -⟩ := h.1.1.2
    exact .single (.grant ⟨e, he, hh⟩)
  · exact s.notTaken_moves d r

/-- RSC's state of a degree after an offer to a handle, under the next offer number (R58). -/
def Ramps.offered (r : Ramps) (h : Handle) : Ramps :=
  { (r.hold h (some r.offerCount)) with
    queue := r.queue.map fun e => if e.handle = h then { e with offer := some r.offerCount } else e
    offerCount := r.offerCount + 1 }

theorem State.offerOne_eq (s : State) (d : Degree) (h : Handle) :
    s.offerOne d h = { (s.mapRamps d fun r => r.offered h) with
      grantReqs := s.grantReqs.set d (s.grantReqs[d] ++ [⟨h, s.ramps[d].offerCount⟩]) } := rfl

theorem State.offerOne_edits (s : State) (d : Degree) (h : Handle) : Edits L T U s (s.offerOne d h) := by
  rw [State.offerOne_eq]
  refine .tail (b := s.mapRamps d fun r => r.offered h) (.single (State.mapRamps_sub fun e he => ?_))
    (.beside rfl rfl rfl rfl rfl rfl rfl rfl rfl)
  obtain ⟨e', he', rfl⟩ := List.mem_map.mp he
  exact ⟨e', he', by split <;> rfl⟩

theorem State.offerEvent_edits (s : State) (d : Degree) : Edits L T U s (s.offerEvent d) :=
  .foldl _ (fun s h => by split; exacts [s.offerOne_edits d h, .refl]) _ s

/-! ## Records -/

/-- A record put in DRAINING keeps every law (R37, R43). -/
theorem Redrawn.draining (c : Conn) : Redrawn L T U s c { c with state := .draining, shadow := .blocked } where
  route := rfl
  domains := rfl
  past _ _ := by simp
  blocked _ _ _ := rfl
  trip _ _ _ _ _ := .inr (.inr (.inl rfl))

/-- A record past PROPOSED that is in none of the states of R148 goes to one past PROPOSED, its shadow BLOCKED if R27
asks for it. -/
theorem Redrawn.ofLit {c c' : Conn} (route : c'.route = c.route) (domains : c'.domains = c.domains)
    (past : c'.state ≠ .proposed) (lit : ¬ c.tripDark)
    (blocked : L → (c.state.blocked = true → c.shadow = .blocked) → c'.state.blocked = true → c'.shadow = .blocked) :
    Redrawn L T U s c c' :=
  ⟨route, domains, fun _ _ => past, blocked, fun _ _ _ _ h => absurd h lit⟩

/-- A record keeps its state, its shadow and its causes. -/
theorem Redrawn.sameState {c c' : Conn} (route : c'.route = c.route) (domains : c'.domains = c.domains)
    (state : c'.state = c.state) (shadow : c'.shadow = c.shadow) (causes : c'.causes = c.causes) :
    Redrawn L T U s c c' where
  route := route
  domains := domains
  past _ h := by rwa [state]
  blocked _ h hb := by rw [shadow]; exact h (by rwa [← state])
  trip _ _ _ _ h := by simpa only [Conn.tripDark, state, causes] using h

theorem State.drainTest_edits (s : State) (i : SlotIx) : Edits L T U s (s.drainTest i) := by
  unfold State.drainTest
  split
  · exact .refl
  · next c hc =>
    split
    · exact .single (.release hc)
    · exact .refl

theorem State.drain_edits {i : SlotIx} {c : Conn} (hi : s.conn i = some c) : Edits L T U s (s.drain i c) := by
  unfold State.drain
  dsimp only
  refine .trans ?_ (State.drainTest_edits _ i)
  split
  · next hb => exact .single (.rewrite hi (.draining c) fun _ _ => hb.symm)
  · exact .single (.reshade hi (.draining c))

/-- A record in none of the states of R148 is suspended (R37). -/
theorem Redrawn.suspendedBy {c : Conn} (lit : ¬ c.tripDark) (k : Cause) : Redrawn L T U s c (c.suspendedBy k) :=
  .ofLit rfl rfl (by simp [Conn.suspendedBy]) lit fun _ _ _ => rfl

theorem Redrawn.suspendedLit {c : Conn} (lit : ¬ c.tripDark) (k : Cause) (p : Option PowerCond) :
    Redrawn L T U s c { c.suspendedBy k with power := p } :=
  .ofLit rfl rfl (by simp [Conn.suspendedBy]) lit fun _ _ _ => rfl

/-- A cause added to a SUSPENDED record leaves its other cause (R37). -/
theorem Redrawn.causeAdded {c : Conn} (hs : c.state = .suspended) (k : Cause) :
    Redrawn L T U s c { c with causes := some ((c.causes.getD .empty).insert k) } where
  route := rfl
  domains := rfl
  past _ h := h
  blocked _ h hb := h hb
  trip _ _ _ _ h := by
    have hc : c.causes.any (·.trip) = true := by simpa [Conn.tripDark, hs] using h
    cases hcs : c.causes with
    | none => rw [hcs] at hc; cases hc
    | some a =>
      rw [hcs] at hc
      cases k <;> simp_all [Conn.tripDark, Causes.insert]

theorem State.addCause_moves (s : State) (i : SlotIx) (k : Cause) : Moves L T U s (s.addCause i k) := by
  unfold State.addCause
  split
  · exact .refl
  next c hi =>
  split
  · exact .refl
  next d hd =>
  dsimp only
  split
  · exact .refl
  · exact .refl
  · exact .refl
  · next hs => exact (Edit.rewrite hi (.causeAdded hs k) fun _ _ => rfl).moves
  · next hs =>
    refine .trans (Moves.andThen ?_ (State.tellConn_edit _ _ _ _ _)) (State.leaveQueue_moves _ d _)
    exact (Edit.rewrite hi (.suspendedBy (by simp [Conn.tripDark, hs]) k) fun _ hb =>
      (hb (by simp [hs, CState.blocked])).symm).moves
  · next hs =>
    refine .trans (Moves.andThen ?_ (State.tellConn_edit _ _ _ _ _)) (State.freeRamp_moves _ d _)
    exact (Edit.reshade hi (.suspendedLit (by simp [Conn.tripDark, hs]) k _)).moves
  · next hs =>
    refine Moves.andThen ?_ (State.tellConn_edit _ _ _ _ _)
    exact (Edit.reshade hi (.suspendedLit (by simp [Conn.tripDark, hs]) k _)).moves
  · exact (Edit.reshade hi (.draining c)).moves.trans (State.leaveQueue_moves _ d _)
  · exact (Edit.reshade hi (.draining c)).moves.trans (State.freeRamp_moves _ d _)

/-- A cause removed from a SUSPENDED record: TRIP stays where the trip law asks for it (R38, R148). -/
theorem State.removeCause_moves (s : State) (i : SlotIx) (k : Cause)
    (ended : k = .trip → ∀ (c : Conn) (d : Degree), s.conn i = some c → c.route.sinkDegree = some d → T d →
      s.tripInForce d = false) : Moves L T U s (s.removeCause i k) := by
  unfold State.removeCause
  split
  · exact .refl
  next c hi =>
  split
  · exact .refl
  next d hd =>
  dsimp only
  have kept : ∀ k', T k' → c.route.sinkDegree = some k' → s.tripInForce k' = true → c.state = .suspended → c.tripDark →
      ((c.causes.getD .empty).erase k).trip = true := by
    intro k' hT hk' hf hs h
    have hc : c.causes.any (·.trip) = true := by simpa [Conn.tripDark, hs] using h
    cases hcs : c.causes with
    | none => rw [hcs] at hc; cases hc
    | some a =>
      rw [hcs] at hc
      cases k with
      | sourceDark => simpa [Causes.erase] using hc
      | trip => rw [ended rfl c k' hi hk' hT] at hf; cases hf
  split
  · next hs =>
    obtain ⟨hs, -⟩ := hs
    split
    · next hempty =>
      have r : Redrawn L T U s c { c with state := .pendingUp, causes := some ((c.causes.getD .empty).erase k) } :=
        ⟨rfl, rfl, fun _ _ => by simp, fun _ h _ => h (by simp [hs, CState.blocked]), fun k' hT hk' hf h => by
          have := kept k' hT hk' hf hs h
          rw [hempty] at this
          cases this⟩
      refine .trans (Moves.andThen (Edit.rewrite hi r fun _ _ => rfl).moves (State.tellConn_edit _ _ _ _ _))
        (State.joinQueue_moves (c := { c with state := .pendingUp, causes := some ((c.causes.getD .empty).erase k) })
          ?_ hd)
      rw [State.find_of_table (State.tellConn_frame ..).1, State.find_putConn, if_pos rfl]
    · refine (Edit.rewrite (c' := { c with causes := some ((c.causes.getD .empty).erase k) }) hi
        ⟨rfl, rfl, fun _ h => h, fun _ h hb => h hb, fun k' hT hk' hf h => ?_⟩ fun _ _ => rfl).moves
      exact .inr (.inr (.inr ⟨hs, by simpa using kept k' hT hk' hf hs h⟩))
  · exact .refl

/-- A record that was ARMED, or enters ARMED in the step, is activated (R35, R36). -/
theorem State.activateRecord_edits {i : SlotIx} {c : Conn} (hi : s.conn i = some c) (hs : c.state = .armed) :
    Edits L T U s (s.activateRecord i c) := by
  unfold State.activateRecord
  dsimp only
  split
  · next d hd =>
    refine .tail (.single (.rewrite hi (c' := { c with
      state := .suspended, source := some .dark, causes := some ⟨true, s.tripInForce d⟩, power := some .normal,
      lastLevel := none }) ⟨rfl, rfl, fun _ _ => by simp, fun _ h _ => h (by simp [hs, CState.blocked]),
      fun k _ hk hf _ => ?_⟩ fun _ _ => rfl)) (State.startTrack_edit _ _ _)
    rw [hd] at hk
    cases hk
    exact .inr (.inr (.inr ⟨rfl, by simpa using hf⟩))
  · next hd =>
    exact .tail (.single (.reshade hi (c' := { c with
      state := .inService, source := some .dark, shadow := .att (c.dropAtten.getD 0) })
      ⟨rfl, rfl, fun _ _ => by simp, fun _ _ h => by simp [CState.blocked] at h,
        fun k _ hk _ _ => by rw [hd] at hk; cases hk⟩)) (State.startTrack_edit _ _ _)

/-- A PROPOSED record, or one that enters ARMED as it is admitted, is armed (R34). -/
theorem State.armRecord_edits {i : SlotIx} {c : Conn} (hi : s.conn i = some c)
    (hs : c.state = .proposed ∨ c.state = .armed) : Edits L T U s (s.armRecord i c) := by
  unfold State.armRecord
  dsimp only
  have hb : c.state.blocked = true := by obtain h | h := hs <;> simp [h, CState.blocked]
  have armed : Edits L T U s ((s.putConn i (some { c with state := .armed, expiry := none })).setMatrix c.route) :=
    .trans (.single (.rewrite hi (c' := { c with state := .armed, expiry := none })
      ⟨rfl, rfl, fun _ _ => by simp, fun _ h _ => h hb, fun _ _ _ _ _ => .inr (.inl rfl)⟩ fun _ _ => rfl))
      (State.setMatrix_edits _ _)
  split
  · refine .trans armed (State.activateRecord_edits ?_ rfl)
    rw [State.conn_of_table (State.setMatrix_frame ..).1, State.conn_putConn, if_pos rfl]
  · exact armed

theorem State.releaseRecord_moves {i : SlotIx} {c : Conn} (p : Domain) (hU : U) (hi : s.conn i = some c) :
    Moves L T U s (s.releaseRecord p i c) := by
  unfold State.releaseRecord
  dsimp only
  split
  · next hs => exact Moves.andThen (Edit.free hU hi hs).moves (State.tellOption_edit _ _ _)
  · exact (Edit.release hi).moves
  · exact (State.drain_edits hi).moves
  · next hs =>
    split
    · next d hd =>
      refine .trans (.trans (Edit.rewrite hi (.draining c) fun _ hb => (hb (by simp [hs, CState.blocked])).symm).moves
        (State.leaveQueue_moves _ d _)) (State.drainTest_edits _ i).moves
    · exact .refl
  · next hs =>
    exact (Edit.rewrite (c' := { c with state := .rampDown }) hi (.ofLit rfl rfl (by simp)
      (by simp [Conn.tripDark, hs]) fun _ _ h => by simp [CState.blocked] at h) fun _ _ => rfl).moves
  · next hs =>
    split
    · next d hd =>
      refine .trans (Edit.rewrite (c' := { c with state := .pendingDown }) hi (.ofLit rfl rfl (by simp)
        (by simp [Conn.tripDark, hs]) fun _ _ h => by simp [CState.blocked] at h) fun _ _ => rfl).moves
        (State.joinQueue_moves (c := { c with state := .pendingDown }) ?_ hd)
      rw [State.find_putConn, if_pos rfl]
    · exact (State.drain_edits hi).moves
  · exact .refl
  · exact .refl
  · exact .refl

/-! ## Requests of the other blocks -/

theorem State.tellPower_edits (s : State) (h : Handle) (c : Conn) (r : PassResult) :
    Edits L T U s (s.tellPower h c r) := by
  unfold State.tellPower
  split
  · exact .refl
  · split
    · exact .refl
    · exact .single (State.tellConn_edit _ _ _ _ _)

/-- A state that a pass covers is none of those that R27 makes BLOCKED. -/
theorem CState.blocked_of_covered {k : CState} (h : k.covered = true) : k.blocked = false := by
  cases k <;> first | rfl | cases h

theorem Conn.not_tripDark_of_covered {c : Conn} (h : c.state.covered = true) : ¬ c.tripDark := by
  rintro (hs | hs | hs | ⟨hs, -⟩) <;> (rw [hs] at h; cases h)

/-- What an applied pass result must be for the laws of darkness (R27, R98, R148). -/
structure PassResult.Lawful (r : PassResult) (L : Prop) (T : Degree → Prop) (U : Prop) (c : Conn) : Prop where
  past : U → c.state ≠ .proposed → r.toState ≠ some .proposed
  blocked : L → r.computedFor.covered = true ∧ ∀ k : CState, r.toState = some k → k.blocked = true → r.shadow = .blocked
  trip : ∀ d, T d → r.computedFor.covered = true

theorem Redrawn.applied {c : Conn} {r : PassResult} (hs : c.state = r.computedFor) (law : r.Lawful L T U c) :
    Redrawn L T U s c (c.apply r) where
  route := rfl
  domains := rfl
  past hU h := by
    cases ht : r.toState with
    | none => simpa [Conn.apply, ht] using h
    | some k => simpa [Conn.apply, ht] using fun e => law.past hU h (by rw [ht, e])
  blocked hL _ hb := by
    obtain ⟨hc, hk⟩ := law.blocked hL
    cases ht : r.toState with
    | none =>
      have hn : c.state.blocked = false := CState.blocked_of_covered (by rwa [hs])
      simp [Conn.apply, ht, hn] at hb
    | some k => exact hk k ht (by simpa [Conn.apply, ht] using hb)
  trip d hT _ _ h := absurd h (Conn.not_tripDark_of_covered (by rw [hs]; exact law.trip d hT))

theorem State.applyResult_moves {i : SlotIx} {c : Conn} {r : PassResult} (passed : Degree) (hi : s.conn i = some c)
    (hs : c.state = r.computedFor) (law : r.Lawful L T U c) : Moves L T U s (s.applyResult passed i c r) := by
  unfold State.applyResult
  dsimp only
  have applied : Moves L T U s (if r.shadow = c.shadow then s.putConn i (some (c.apply r))
      else (s.putConn i (some (c.apply r))).mark c.route.link) := by
    split
    · next h => exact (Edit.rewrite hi (.applied hs law) fun _ _ => h).moves
    · exact (Edit.reshade hi (.applied hs law)).moves
  refine applied.trans ?_
  generalize (if r.shadow = c.shadow then s.putConn i (some (c.apply r))
      else (s.putConn i (some (c.apply r))).mark c.route.link) = u
  split
  · refine .trans (.trans (State.tellConn_edit _ _ _ _ _).moves (State.tellPower_edits _ _ _ _).moves)
      (State.freeRamp_moves _ _ _)
  · exact .trans (State.freeRamp_moves _ _ _) (State.drainTest_edits _ _).moves
  · split
    · exact Moves.andThen (State.tellPower_edits _ _ _ _).moves (State.handOff_edit _ _ _ _)
    · exact (State.tellPower_edits _ _ _ _).moves
  · exact .refl

theorem State.applyDeclaration_moves {i : SlotIx} {c : Conn} {r : DeclReq} (hi : s.conn i = some c) :
    Moves L T U s (s.applyDeclaration i c r) := by
  unfold State.applyDeclaration
  dsimp only
  have declared : Moves L T U s (s.putConn i (some { c with source := some r.light })) :=
    (Edit.rewrite (c' := { c with source := some r.light }) hi (.sameState rfl rfl rfl rfl rfl) fun _ _ => rfl).moves
  refine declared.trans ?_
  split
  · split
    · exact .refl
    · exact .trans (State.addCause_moves _ i _) (State.drainTest_edits _ i).moves
  · exact State.removeCause_moves _ i _ fun h => by cases h
  · exact (State.tellConn_edit _ _ _ _ _).moves
  · exact (State.tellConn_edit _ _ _ _ _).moves

/-! ## Trips -/

/-- TRU's items of a degree change; a trip that comes into force is not of `T`'s degrees. -/
theorem State.mapTrip_edit {d : Degree} {f : Trip → Trip}
    (h : T d → (f s.trips[d]).state ≠ .clear → s.tripInForce d = true) : Edit L T U s (s.mapTrip d f) :=
  .aside {
    table := rfl, map := rfl, actives := rfl, matrix := rfl, links := rfl, nodeTime := rfl
    ports := .of_eq rfl
    queues := fun _ _ w => .inl w
    trips := fun k hT hf => by
      rw [State.tripInForce, State.mapTrip_trips, get_set] at hf
      split at hf
      · next hk =>
        subst hk
        exact h hT (by simpa using hf)
      · exact hf }

theorem Moves.conn (m : Moves L T U s t) {i : SlotIx} {c' : Conn} (hc : t.conn i = some c') :
    ∃ c, s.conn i = some c ∧ c'.route = c.route := by
  induction m generalizing c' with
  | refl => exact ⟨c', hc, rfl⟩
  | tail _ m ih =>
    obtain ⟨b, hb, hr, -⟩ := m.row.conn hc
    obtain ⟨c, hc, hr'⟩ := ih hb
    exact ⟨c, hc, hr.trans hr'⟩

theorem State.enterTripped_moves {d : Degree} (h : T d → s.tripInForce d = true) :
    Moves L T U s (s.enterTripped d) := by
  unfold State.enterTripped
  dsimp only
  refine .trans (.trans ?_ (Moves.foldl _ (fun s i => s.addCause_moves i .trip) _ _))
    (Moves.foldl _ (fun s i => (s.drainTest_edits i).moves) _ _)
  exact Moves.andThen (Moves.andThen (State.mapTrip_edit fun hT _ => h hT).moves (State.tellManager_edit _ _ _))
    (State.flagManager_edit _ _ _)

theorem State.enterHolding_edit {d : Degree} (h : T d → s.tripInForce d = true) : Edit L T U s (s.enterHolding d) :=
  State.mapTrip_edit fun hT _ => h hT

theorem State.endTrip_moves (s : State) (d : Degree) : Moves L T U s (s.endTrip d) := by
  unfold State.endTrip
  dsimp only
  generalize hu : (s.mapTrip d fun t => { t with state := .clear, timer := none }).tellManager d _ = u
  have htab : u.table = s.table := by rw [← hu]; simp
  have ended : Moves L T U s u := by
    rw [← hu]
    exact Moves.andThen (State.mapTrip_edit fun _ h => absurd rfl h).moves (State.tellManager_edit _ _ _)
  have clear : u.tripInForce d = false := by
    rw [← hu, State.tripInForce, (State.tellManager_frame ..).2.2.2.2.2.2.2.2.2.2.2.2.2.1, State.mapTrip_trips,
      get_set_self]
    rfl
  have key : ∀ (l : List SlotIx) (t : State), (∀ i ∈ l, i ∈ s.sinking d) → t.tripInForce d = false → Moves L T U u t →
      Moves L T U t (l.foldl (fun s i => s.removeCause i .trip) t) := by
    intro l
    induction l with
    | nil => exact fun _ _ _ _ => .refl
    | cons i l ih =>
      intro t hl hf m
      have m' : Moves L T U t (t.removeCause i .trip) := State.removeCause_moves t i .trip fun _ c k hc hk _ => by
        obtain ⟨a, ha, hr⟩ := m.conn hc
        obtain ⟨b, hb, hd⟩ := (s.mem_sinking d i).mp (hl i (List.mem_cons_self ..))
        rw [State.conn_of_table htab, hb] at ha
        cases ha
        rw [hr, hd] at hk
        cases hk
        exact hf
      refine m'.trans (ih _ (fun j hj => hl j (List.mem_cons_of_mem _ hj)) ?_ (m.trans m'))
      simpa only [State.tripInForce, State.removeCause_frame] using hf
  exact ended.trans ((key _ u (fun _ h => h) clear .refl).trans (State.offerEvent_edits _ d).moves)

/-- A change of trip state that brings none of `T`'s degrees under a trip anew (R146). -/
theorem State.applyTrip_moves {d : Degree} {ch : TripChange} (h : ch ≠ .clear → T d → s.tripInForce d = true) :
    Moves L T U s (s.applyTrip d ch) := by
  cases ch with
  | trip => exact State.enterTripped_moves (h (by simp))
  | hold => exact (State.enterHolding_edit (h (by simp))).moves
  | clear => exact s.endTrip_moves d

theorem State.takeHandOff_moves {d : Degree}
    (h : ∀ ch, s.tripReqs[d] = some ch → ch ≠ .clear → T d → s.tripInForce d = true) :
    Moves L T U s (s.takeHandOff d) := by
  unfold State.takeHandOff
  split
  · exact .refl
  · next ch hc =>
    exact .trans (Edit.beside (s := s) (t := { s with tripReqs := s.tripReqs.set d none }) rfl rfl rfl rfl rfl rfl rfl rfl
      rfl).moves (State.applyTrip_moves (h ch hc))

theorem State.setLine_edit (s : State) (d : Degree) (line : LineLevel) : Edit L T U s (s.setLine d line) :=
  State.mapTrip_edit fun _ h => by simpa [State.tripInForce] using h

theorem State.tripInForce_setLine (s : State) (d k : Degree) (line : LineLevel) :
    (s.setLine d line).tripInForce k = s.tripInForce k := by
  rw [State.tripInForce, State.setLine, State.mapTrip_trips, get_set]
  split
  · next h => rw [h]; rfl
  · rfl

theorem State.reread_moves {d : Degree}
    (h : ∀ ch, s.lineChange d (s.readLine d) = some ch → ch ≠ .clear → T d → s.tripInForce d = true) :
    Moves L T U s (s.reread d) := by
  unfold State.reread
  split
  · exact .refl
  · split
    · next ch hc =>
      refine (s.setLine_edit d _).moves.trans (State.applyTrip_moves fun hne hT => ?_)
      rw [State.tripInForce_setLine]
      exact h ch hc hne hT
    · exact (s.setLine_edit d _).moves

theorem State.tripInForce_of_ne {d : Degree} (h : s.trips[d].state ≠ .clear) : s.tripInForce d = true := by
  simpa only [State.tripInForce, bne_iff_ne, ne_eq] using h

theorem State.modeChange_moves (s : State) (d : Degree) : Moves L T U s (s.modeChange d) := by
  unfold State.modeChange
  dsimp only
  split
  · split
    · next h =>
      split
      · exact s.endTrip_moves d
      · exact (State.enterHolding_edit fun _ => State.tripInForce_of_ne (by rw [h.1]; simp)).moves
    · exact .refl
  · split
    · next h => exact (State.mapTrip_edit fun _ _ => State.tripInForce_of_ne (by rw [h]; simp)).moves
    · exact .refl

theorem State.settingEffects_moves {d : Degree} (old : Settings)
    (h : ∀ ch, s.lineChange d (s.readLine d) = some ch → ch ≠ .clear → T d → s.tripInForce d = true) :
    Moves L T U s (s.settingEffects d old) := by
  unfold State.settingEffects
  dsimp only
  have reread : Moves L T U s (if old.activeLevel = s.settings[d].activeLevel then s else s.reread d) := by
    split
    · exact .refl
    · exact State.reread_moves h
  refine reread.trans ?_
  generalize (if old.activeLevel = s.settings[d].activeLevel then s else s.reread d) = u
  have mode : Moves L T U u (if old.mode = u.settings[d].mode then u else u.modeChange d) := by
    split
    · exact .refl
    · exact u.modeChange_moves d
  refine mode.trans ?_
  generalize (if old.mode = u.settings[d].mode then u else u.modeChange d) = v
  split
  · exact State.grantEvent_moves _ d
  · exact .refl

end

end Sys2Proof.Machine
end

