-- ==== Sys2Proof/Proofs/Courses.lean ====
section
/-! Proofs/Courses.lean: the course of an ordinary step: moves, what differs sent, requests as the rules give them. -/

set_option Elab.async false

namespace Sys2Proof.Machine
open Sys2Proof

section
variable {s t u : State}

/-! ## What waits at CNM -/

theorem State.requestsOk_of (h : s.requestsOk) (passes : t.passReqs = s.passReqs) (hands : t.tripReqs = s.tripReqs)
    (trips : t.trips = s.trips) (settings : t.settings = s.settings) (held : t.held = s.held) : t.requestsOk := by
  simpa only [State.requestsOk, passes, hands, trips, settings, held] using h

/-- No HOLDING waits for a degree but in TRIPPED under FOLLOW (R149): a degree that is given no new hand-off and keeps
its trip state and its mode keeps the law. -/
theorem State.requestsOk_of_degree (h : s.requestsOk) (passes : t.passReqs = s.passReqs) (d : Degree)
    (hands : ∀ k, k ≠ d → t.tripReqs[k] = s.tripReqs[k]) (trips : ∀ k, k ≠ d → t.trips[k].state = s.trips[k].state)
    (modes : ∀ k, k ≠ d → t.settings[k].mode = s.settings[k].mode) (held : t.held = none)
    (own : t.tripReqs[d] = some .hold → t.trips[d].state = .tripped ∧ t.settings[d].mode = .follow) : t.requestsOk := by
  refine ⟨by simpa only [passes] using h.1, fun k hk => ?_, fun hh => absurd held hh⟩
  by_cases hkd : k = d
  · subst hkd
    exact own hk
  · rw [hands k hkd] at hk
    rw [trips k hkd, modes k hkd]
    exact h.2.1 k hk

/-! ## The examination at the end of a step -/

theorem Moves.sentOk_finish {T : Degree → Prop} {U : Prop} (m : Moves True T U s t) (ht : s.Tidy)
    (hs : ∀ l, s.sentAt l) : t.finish.sentOk := by
  intro _ l hr hi
  rw [State.updateEntries_congr (t := t.finish) (s := t.flushLinks) (by simp) (by simp) (by simp) (by simp)]
  have hl : t.finish.links = t.flushLinks.links := (State.prompt_frame _).2.2.2.2.2.2.2.2.1
  rw [hl] at hr hi
  exact t.sent_flushLinks (fun l => m.sentAt ht (hs l)) l hr hi

theorem State.sentAt_of_sentOk (h : s.sentOk) (held : s.held = none) (l : LinkId) : s.sentAt l := .inr (h held l)

/-- A state with the same links and nothing more to send has nothing left to send. -/
theorem State.sentOk_of (h : s.sentOk) (held : t.held = none → s.held = none) (links : t.links = s.links)
    (sent : ∀ l, s.updateEntries l = [] → t.updateEntries l = []) : t.sentOk := by
  intro hh l hr hi
  rw [links] at hr hi
  exact sent l (h (held hh) l hr hi)

/-- One link that is not READY, or busy, and every other as it was. -/
theorem State.sentOk_of_link (h : s.sentOk) (held : t.held = none → s.held = none) (l : LinkId)
    (others : ∀ k, k ≠ l → t.links[k] = s.links[k]) (own : t.links[l].state ≠ .ready ∨ t.links[l].inFlight ≠ none)
    (table : t.table = s.table) (map : t.map = s.map) (actives : t.actives = s.actives) (matrix : t.matrix = s.matrix) :
    t.sentOk := by
  intro hh k hr hi
  by_cases hk : k = l
  · subst hk
    exact own.elim (absurd hr) (absurd hi)
  · rw [others k hk] at hr hi
    rw [State.updateEntries_congr table map actives matrix]
    exact h (held hh) k hr hi

/-! ## Courses -/

/-- What the most of the steps are: moves that keep every law of darkness and send what differs, and requests at CNM
as the rules give them. -/
structure Course (s t : State) : Prop where
  moves : Moves True (fun _ => True) True s t
  sent : s.Tidy → s.sentOk → t.sentOk
  requests : s.requestsOk → t.requestsOk

theorem Course.refl (s : State) : Course s s := ⟨.refl, fun _ h => h, fun h => h⟩

theorem Course.trans (a : Course s t) (b : Course t u) : Course s u :=
  ⟨Relation.ReflTransGen.trans a.moves b.moves, fun ht hs => b.sent (a.moves.tidy ht) (a.sent ht hs),
    fun h => b.requests (a.requests h)⟩

/-- An edit beside the records and the links. -/
theorem Course.aside (a : Aside (fun _ => True) s t) (held : t.held = s.held) (requests : s.requestsOk → t.requestsOk) :
    Course s t where
  moves := (Edit.aside a).moves
  sent _ h := State.sentOk_of h (by rw [held]; exact id) a.links fun l hl => by
    rwa [State.updateEntries_congr a.table a.map a.actives a.matrix]
  requests := requests

/-- Moves and then the end of a CNM step. -/
theorem Course.finished (m : Moves True (fun _ => True) True s t) (held : s.held = none)
    (requests : s.requestsOk → t.requestsOk) : Course s t.finish where
  moves := Relation.ReflTransGen.trans m t.finish_edits.moves
  sent ht hs := m.sentOk_finish ht (State.sentAt_of_sentOk hs held)
  requests h := State.requestsOk_of (requests h) (by simp) (by simp) (by simp) (by simp) (by simp)

/-- A reply placed. -/
theorem Course.reply (c : Course s t) (p : Domain) (tag : Byte) (a : Answer) : Course s (t.reply p tag a) :=
  c.trans <| .aside (.quiet (by simp) (by simp) (by simp) (by simp) (by simp) (by simp) (by simp) (by simp)
    (t.reply_grows p tag a)) (by simp) fun h => State.requestsOk_of h (by simp) (by simp) (by simp) (by simp) (by simp)

/-- A record rewritten with its state, its shadow and its causes kept. -/
theorem Course.rewritten {i : SlotIx} {c c' : Conn} (hi : s.conn i = some c) (route : c'.route = c.route)
    (domains : c'.domains = c.domains) (state : c'.state = c.state) (shadow : c'.shadow = c.shadow)
    (causes : c'.causes = c.causes) : Course s (s.putConn i (some c')) where
  moves := (Edit.rewrite hi (.sameState route domains state shadow causes) fun _ _ => shadow).moves
  sent ht h := State.sentOk_of h (fun h => h) rfl fun l hl =>
    State.updateEntries_redrawn ht.listed hi rfl rfl rfl rfl l (fun _ => shadow) hl
  requests h := State.requestsOk_of h rfl rfl rfl rfl rfl

theorem State.failLink_links (s : State) (l : LinkId) (b : Batch) (f : LinkFailure) :
    (s.failLink l b f).links = (s.mapLink l fun k => k.failed b f).links := by
  unfold State.failLink State.tellLinkFault
  split <;> simp

@[simp] theorem State.tellLinkFault_frame (s : State) (l : LinkId) (f : LinkFailure) :
    (s.tellLinkFault l f).table = s.table ∧ (s.tellLinkFault l f).map = s.map ∧
    (s.tellLinkFault l f).actives = s.actives ∧ (s.tellLinkFault l f).matrix = s.matrix ∧
    (s.tellLinkFault l f).passReqs = s.passReqs ∧ (s.tellLinkFault l f).tripReqs = s.tripReqs ∧
    (s.tellLinkFault l f).trips = s.trips ∧ (s.tellLinkFault l f).settings = s.settings ∧
    (s.tellLinkFault l f).held = s.held := by
  unfold State.tellLinkFault
  split <;> simp

/-- A link fails (R133 to R135). -/
theorem Course.failed (s : State) (l : LinkId) (b : Batch) (f : LinkFailure) : Course s (s.failLink l b f) where
  moves := (s.failLink_edits l b f).moves
  sent _ h := State.sentOk_of_link h (by simp [State.failLink]) l
    (fun k hk => by rw [State.failLink_links, State.link_mapLink, if_neg hk])
    (.inl (by rw [State.failLink_links, State.link_mapLink, if_pos rfl]; simp [Link.failed])) (by simp [State.failLink])
    (by simp [State.failLink]) (by simp [State.failLink]) (by simp [State.failLink])
  requests h := State.requestsOk_of h (by simp [State.failLink]) (by simp [State.failLink]) (by simp [State.failLink])
    (by simp [State.failLink]) (by simp [State.failLink])

/-- A RESYNC batch is sent (R138). -/
theorem Course.resynced (s : State) (l : LinkId) (byRetry : Bool) : Course s (s.resync l byRetry) where
  moves := (s.resync_edits l byRetry).moves
  sent _ h := State.sentOk_of_link h (by simp [State.resync]) l
    (fun k hk => by rw [State.resync, State.link_sendBatch, if_neg hk, State.link_mapLink, if_neg hk])
    (.inr (by rw [State.resync, State.link_sendBatch, if_pos rfl]; simp)) (by simp [State.resync])
    (by simp [State.resync]) (by simp [State.resync]) (by simp [State.resync])
  requests h := State.requestsOk_of h (by simp [State.resync]) (by simp [State.resync]) (by simp [State.resync])
    (by simp [State.resync]) (by simp [State.resync])

theorem Course.choice (s : State) : Course s s.choice :=
  .aside (.quiet (by simp) (by simp) (by simp) (by simp) (by simp) (by simp) (by simp) (by simp) (.of_eq (by simp)))
    (by simp) fun h => State.requestsOk_of h (by simp) (by simp) (by simp) (by simp) (by simp)

theorem Course.prompt (s : State) : Course s s.prompt := by
  unfold State.prompt
  split
  · exact .choice s
  · exact .refl s

/-- An edit of pieces that no law reads. -/
theorem Course.beside (table : t.table = s.table) (map : t.map = s.map) (actives : t.actives = s.actives)
    (matrix : t.matrix = s.matrix) (links : t.links = s.links) (nodeTime : t.nodeTime = s.nodeTime)
    (ramps : t.ramps = s.ramps) (trips : t.trips = s.trips) (ports : PortsGrow s t) (held : t.held = s.held)
    (passes : t.passReqs = s.passReqs) (hands : t.tripReqs = s.tripReqs) (settings : t.settings = s.settings) :
    Course s t :=
  .aside (.quiet table map actives matrix links nodeTime ramps trips ports) held fun h =>
    State.requestsOk_of h passes hands trips settings held

/-! ## The monitor port -/

theorem Course.failRequest (s : State) (f : Tap → MonFailure) : Course s (s.failRequest f) := by
  unfold State.failRequest
  dsimp only
  refine .trans (t := { s with
    mon := { s.mon with
      state := .idle, timer := none, count := 0, buffer := [], sample := none, lastFailure := f s.mon.tap } })
    (.beside rfl rfl rfl rfl rfl rfl rfl rfl (.of_eq rfl) rfl rfl rfl rfl) (.trans ?_ (.choice _))
  exact .beside (by simp) (by simp) (by simp) (by simp) (by simp) (by simp) (by simp) (by simp)
    (State.flagAll_grows _ _) (by simp) (by simp) (by simp) (by simp)

/-- What a pass computes is for a state a pass covers, and ends in a dark state at BLOCKED alone (R98, R114). -/
theorem passResultOf_lawful {st : Settings} {h : Handle} {c : Conn} {level : Int} {r : PassResult}
    (hr : passResultOf st h c level = some r) : r.computedFor.covered = true ∧
      ∀ k : CState, r.toState = some k → k.blocked = true → r.shadow = .blocked := by
  unfold passResultOf at hr
  split at hr
  · cases hr
    exact ⟨rfl, fun k hk => by cases hk⟩
  · cases hr
    unfold rampUpPass
    dsimp only
    split
    · exact ⟨rfl, fun k hk hb => by cases hk; cases hb⟩
    · split
      · exact ⟨rfl, fun k hk hb => by cases hk; cases hb⟩
      · exact ⟨rfl, fun k hk => by cases hk⟩
  · cases hr
    unfold rampDownPass
    split
    · exact ⟨rfl, fun k hk => by cases hk⟩
    · exact ⟨rfl, fun k hk hb => rfl⟩
  · cases hr

/-- A pass sends CNM what the rules give (R100). -/
theorem Course.runPass (s : State) (d : Degree) (readings : List Int) : Course s (s.runPass d readings) := by
  refine .aside (.quiet rfl rfl rfl rfl rfl rfl rfl rfl (.of_eq rfl)) rfl fun h => ⟨fun k r hr => ?_, h.2.1, h.2.2⟩
  have hr' : r ∈ (s.passReqs.set d (s.passReqs[d] ++ (s.sinking d).filterMap fun i =>
      (s.conn i).bind fun c => passResultOf s.settings[d] (s.handleAt i) c (spanLevel readings c.span)))[k] := hr
  rw [get_set] at hr'
  split at hr'
  · obtain hr' | hr' := List.mem_append.mp hr'
    · exact h.1 d r hr'
    · obtain ⟨i, -, hi⟩ := List.mem_filterMap.mp hr'
      obtain ⟨c, -, hc⟩ := Option.bind_eq_some_iff.mp hi
      exact passResultOf_lawful hc
  · exact h.1 k r hr'

theorem Course.completeSweep (s : State) (readings : List Int) : Course s (s.completeSweep readings) := by
  unfold State.completeSweep
  dsimp only
  refine .trans (t := { s with
    banks := s.banks.set s.mon.tap.code (some (s.newBank readings))
    mon := { s.mon with
      state := .idle, timer := none, count := Config.openCount s.freeCount, buffer := [], sample := none }
    freeCount := s.freeCount + 1 })
    (.beside rfl rfl rfl rfl rfl rfl rfl rfl (.of_eq rfl) rfl rfl rfl rfl) (.trans ?_ (.choice _))
  unfold State.handOn
  split
  · split
    · exact .runPass _ _ _
    · exact .refl _
  · exact .beside rfl rfl rfl rfl rfl rfl rfl rfl (.of_eq rfl) rfl rfl rfl rfl

/-! ## The trip unit -/

theorem State.lineChange_hold {d : Degree} {line : LineLevel} (h : s.lineChange d line = some .hold) :
    s.trips[d].state = .tripped ∧ s.settings[d].mode = .follow := by
  unfold State.lineChange at h
  split at h
  · cases h
  · cases h
  · cases h
  · next hs =>
    split at h
    · cases h
    · next hm => exact ⟨hs, hm⟩
  · cases h

/-- A line is sampled: what it hands over fits the degree's state and mode (R146, R149). -/
theorem Course.sampleLine (s : State) (d : Degree) (held : s.held = none) : Course s (s.sampleLine d) := by
  unfold State.sampleLine
  split
  · exact .refl s
  have hands : ∀ k : Degree, k ≠ d → (s.tripReqs.set d (s.lineChange d (s.readLine d)))[k] = s.tripReqs[k] :=
    fun k hk => get_set_ne _ _ hk
  have trips : ∀ k : Degree, (s.setLine d (s.readLine d)).trips[k].state = s.trips[k].state := fun k => by
    rw [State.setLine, State.mapTrip_trips, get_set]
    split
    · next h => rw [h]
    · rfl
  refine .aside ⟨rfl, rfl, rfl, rfl, rfl, rfl, fun _ _ w => .inl w, fun k _ hf => ?_, .of_eq rfl⟩ rfl fun h =>
    State.requestsOk_of_degree h rfl d hands (fun k _ => trips k) (fun _ _ => rfl) held fun hh => ?_
  · exact (s.tripInForce_setLine d k _).symm.trans hf
  · have hh' : (s.tripReqs.set d (s.lineChange d (s.readLine d)))[d] = some .hold := hh
    rw [get_set_self] at hh'
    obtain ⟨hs, hm⟩ := State.lineChange_hold hh'
    exact ⟨(trips d).trans hs, hm⟩

/-- The expiry of a hold timer waits as the end of the trip (R150). -/
theorem Course.takeHoldExpiry (s : State) (d : Degree) (held : s.held = none) : Course s (s.takeHoldExpiry d) := by
  obtain he | ⟨-, -, -, he⟩ := s.takeHoldExpiry_cases d
  · rw [he]
    exact .refl s
  · rw [he]
    refine .aside (.quiet rfl rfl rfl rfl rfl rfl rfl rfl (.of_eq rfl)) rfl fun h =>
      State.requestsOk_of_degree h rfl d (fun k hk => get_set_ne _ _ hk) (fun _ _ => rfl) (fun _ _ => rfl) held
        fun hh => ?_
    have hh' : (s.tripReqs.set d (some .clear))[d] = some .hold := hh
    rw [get_set_self] at hh'
    cases hh'

/-! ## Expiries -/

theorem State.expireReservation_moves {i : SlotIx} {c : Conn} (hi : s.conn i = some c) (hs : c.state = .proposed) :
    Moves True (fun _ => True) True s (s.expireReservation i c) :=
  .trans (Edit.free trivial hi hs).moves (Moves.foldl _ (fun t q => (State.tell_edit t q _).moves) _ _)

@[simp] theorem State.expireReservation_frame (s : State) (i : SlotIx) (c : Conn) :
    (s.expireReservation i c).passReqs = s.passReqs ∧ (s.expireReservation i c).tripReqs = s.tripReqs ∧
    (s.expireReservation i c).trips = s.trips ∧ (s.expireReservation i c).settings = s.settings ∧
    (s.expireReservation i c).held = s.held := by
  unfold State.expireReservation
  refine ⟨?_, ?_, ?_, ?_, ?_⟩
  all_goals
    refine (foldl_keeps _ _ ?_ _ _).trans (by simp)
    intro s q
    simp

theorem Course.takeReservation (s : State) (i : SlotIx) (held : s.held = none) : Course s (s.takeReservation i) := by
  obtain he | ⟨c, hc, hs, -, he⟩ := s.takeReservation_cases i
  · rw [he]
    exact .refl s
  · rw [he]
    exact .finished (State.expireReservation_moves hc hs) held fun h =>
      State.requestsOk_of h (by simp) (by simp) (by simp) (by simp) (by simp)

theorem Course.takeSweepExpiry (s : State) : Course s s.takeSweepExpiry := by
  obtain he | ⟨-, he⟩ := s.takeSweepExpiry_cases
  · rw [he]
    exact .refl s
  · rw [he]
    exact .failRequest s _

theorem Course.takeReplyExpiry (s : State) (l : LinkId) : Course s (s.takeReplyExpiry l) := by
  obtain he | ⟨b, -, -, he⟩ := s.takeReplyExpiry_cases l
  · rw [he]
    exact .refl s
  · rw [he]
    exact .failed s l b _

end

end Sys2Proof.Machine
end

