-- ==== Sys2Proof/Proofs/Shapes.lean ====
section
/-! Proofs/Shapes.lean: the shape of every command and event. -/

set_option Elab.async false

namespace Sys2Proof.Machine
open Sys2Proof

section
variable {s t u : State}

/-! ## The ports' own work -/

/-- The wires of a port and the commands a port carries out leave every piece that a law reads. -/
structure Wires (s t : State) : Prop where
  table : t.table = s.table
  map : t.map = s.map
  actives : t.actives = s.actives
  matrix : t.matrix = s.matrix
  links : t.links = s.links
  ramps : t.ramps = s.ramps
  trips : t.trips = s.trips
  settings : t.settings = s.settings
  held : t.held = s.held
  passes : t.passReqs = s.passReqs
  hands : t.tripReqs = s.tripReqs

theorem Wires.refl (s : State) : Wires s s := ⟨rfl, rfl, rfl, rfl, rfl, rfl, rfl, rfl, rfl, rfl, rfl⟩

theorem Wires.trans (a : Wires s t) (b : Wires t u) : Wires s u :=
  ⟨b.table.trans a.table, b.map.trans a.map, b.actives.trans a.actives, b.matrix.trans a.matrix, b.links.trans a.links,
    b.ramps.trans a.ramps, b.trips.trans a.trips, b.settings.trans a.settings, b.held.trans a.held,
    b.passes.trans a.passes, b.hands.trans a.hands⟩

theorem Wires.mapPort (s : State) (p : Domain) (f : Port → Port) : Wires s (s.mapPort p f) :=
  ⟨rfl, rfl, rfl, rfl, rfl, rfl, rfl, rfl, rfl, rfl, rfl⟩

theorem Wires.reply (w : Wires s t) (p : Domain) (tag : Byte) (a : Answer) : Wires s (t.reply p tag a) :=
  w.trans (.mapPort t p _)

theorem Wires.portBody {i : Instr} {body : State → State × Answer} (h : portBody i = some body) :
    Wires s (body s).1 := by
  cases i <;> cases h
  case fetchNotice p tag =>
    unfold fetchNoticeBody
    split
    · exact .refl s
    · exact ⟨rfl, rfl, rfl, rfl, rfl, rfl, rfl, rfl, rfl, rfl, rfl⟩
  case readPort => exact .refl s
  all_goals exact ⟨rfl, rfl, rfl, rfl, rfl, rfl, rfl, rfl, rfl, rfl, rfl⟩

theorem Wires.dispatch (s : State) (p : Domain) (tag : Byte) (i : Instr) : Wires s (s.dispatch p tag i) := by
  unfold State.dispatch
  split
  · next body h => exact (Wires.portBody h).reply p tag _
  · exact .mapPort s p _

theorem Wires.takeFrame (s : State) (p : Domain) (frame : List Byte) : Wires s (s.takeFrame p frame) := by
  unfold State.takeFrame
  dsimp only
  split
  · split
    · exact (Wires.refl s).reply ..
    · exact (Wires.refl s).reply ..
    · split
      · exact .dispatch s p _ _
      · exact (Wires.refl s).reply ..
  · exact (Wires.refl s).reply ..

theorem Wires.selectPort (s : State) (p : Domain) : Wires s (s.selectPort p) := by
  unfold State.selectPort
  split
  · exact .mapPort s p _
  · exact .refl s

theorem Wires.clockOctet (s : State) (p : Domain) (b : Byte) : Wires s (s.clockOctet p b) := by
  unfold State.clockOctet
  split
  case h_1 => exact .refl s
  case h_7 =>
    split
    · exact .mapPort s p _
    · exact ⟨rfl, rfl, rfl, rfl, rfl, rfl, rfl, rfl, rfl, rfl, rfl⟩
  all_goals exact .mapPort s p _

theorem Wires.deselectPort (s : State) (p : Domain) : Wires s (s.deselectPort p) := by
  unfold State.deselectPort
  dsimp only
  split
  · exact (Wires.mapPort s p _).trans (.takeFrame _ p _)
  · exact .mapPort s p _

theorem Wires.portEvent (s : State) (p : Domain) (e : PortEvent) : Wires s (s.portEvent p e) := by
  have clocked : ∀ (bs : List Byte) (s : State), Wires s (bs.foldl (fun s b => s.clockOctet p b) s) := by
    intro bs
    induction bs with
    | nil => exact .refl
    | cons b bs ih => exact fun s => (Wires.clockOctet s p b).trans (ih _)
  unfold State.portEvent
  split
  · exact .selectPort s p
  · exact .clockOctet s p _
  · exact .deselectPort s p
  · exact ((Wires.selectPort s p).trans (clocked _ _)).trans (.deselectPort _ p)

/-! ## Commands and events -/

theorem runCommand_run {p : Domain} {tag : Byte} {i : Instr} {body : State → State × Answer}
    (h : runCommand p tag i body s = .next t) :
    t = s ∨ s.held = none ∧ t = (body s).1.reply p tag (body s).2 ∨ t = s.reply p tag (.plain .badParam) := by
  by_cases hh : s.held = none
  · obtain he | he | he := runCommand_cases p tag i body s
    · rw [he] at h; cases h; exact .inl rfl
    · rw [he] at h; cases h; exact .inr (.inl ⟨hh, rfl⟩)
    · rw [he] at h; cases h; exact .inr (.inr rfl)
  · rw [runCommand_held hh] at h
    cases h
    exact .inl rfl

theorem Course.command {p : Domain} {tag : Byte} {i : Instr} {body : State → State × Answer}
    (h : runCommand p tag i body s = .next t) (hb : s.held = none → Course s (body s).1) : Course s t := by
  obtain rfl | ⟨hh, rfl⟩ | rfl := runCommand_run h
  · exact .refl _
  · exact (hb hh).reply ..
  · exact (Course.refl s).reply ..

theorem Wires.command {p : Domain} {tag : Byte} {i : Instr} {body : State → State × Answer}
    (h : runCommand p tag i body s = .next t) (hb : Wires s (body s).1) : Wires s t := by
  obtain rfl | ⟨-, rfl⟩ | rfl := runCommand_run h
  · exact .refl _
  · exact hb.reply ..
  · exact (Wires.refl s).reply ..

theorem whileRunning_run {f : State → State} (h : whileRunning s f = .next t) :
    t = s ∨ s.held = none ∧ t = f s := by
  by_cases hh : s.held = none
  · rw [whileRunning_running hh] at h
    cases h
    exact .inr ⟨hh, rfl⟩
  · rw [whileRunning_held hh] at h
    cases h
    exact .inl rfl

theorem Course.running {f : State → State} (h : whileRunning s f = .next t) (hf : s.held = none → Course s (f s)) :
    Course s t := by
  obtain rfl | ⟨hh, rfl⟩ := whileRunning_run h
  · exact .refl _
  · exact hf hh

/-- The checks of a command that names a handle: refused, or the record's (R25). -/
theorem withHandle_cases (s : State) (slot : Nat) (gen : BitVec 8) (k : SlotIx → Conn → State × Answer) :
    (∃ code, withHandle s slot gen k = refuse s code) ∨
      ∃ i c, s.find ⟨i, gen⟩ = some c ∧ withHandle s slot gen k = k i c := by
  unfold withHandle
  split
  · exact .inl ⟨_, rfl⟩
  · next i _ =>
    split
    · exact .inl ⟨_, rfl⟩
    · next c hc => exact .inr ⟨i, c, hc, rfl⟩

theorem Course.withHandle {slot : Nat} {gen : BitVec 8} {k : SlotIx → Conn → State × Answer}
    (h : ∀ i c, s.conn i = some c → Course s (k i c).1) : Course s (withHandle s slot gen k).1 := by
  obtain ⟨code, he⟩ | ⟨i, c, hc, he⟩ := withHandle_cases s slot gen k
  · rw [he]
    exact .refl s
  · rw [he]
    exact h i c ((s.find_eq_some _ c).mp hc).2

theorem Course.withManagedDegree {p : Domain} {degree : Nat} {k : Degree → State × Answer}
    (h : ∀ d, Course s (k d).1) : Course s (withManagedDegree s p degree k).1 := by
  unfold Machine.withManagedDegree
  split
  · exact .refl s
  · split
    · exact h _
    · exact .refl s

/-- Moves that leave what waits at CNM, the trips and the settings, and then the end of a CNM step. -/
theorem Course.ended (m : Moves True (fun _ => True) True s t) (held : s.held = none) (passes : t.passReqs = s.passReqs)
    (hands : t.tripReqs = s.tripReqs) (trips : t.trips = s.trips) (settings : t.settings = s.settings)
    (held' : t.held = s.held) : Course s t.finish :=
  .finished m held fun h => State.requestsOk_of h passes hands trips settings held'

/-! ### On connections -/

theorem Course.acceptBody (p : Domain) (slot : Nat) (gen : BitVec 8) (held : s.held = none) :
    Course s (acceptBody p slot gen s).1 :=
  .withHandle fun i c hi => by
    split
    · exact .refl s
    · split
      · exact .refl s
      · next hs =>
        dsimp only
        exact .ended (Moves.andThen (State.armRecord_edits hi (.inl (by simpa using hs))).moves
          (State.tell_edit _ _ _)) held (by simp) (by simp) (by simp) (by simp) (by simp)

theorem Course.declineBody (p : Domain) (slot : Nat) (gen : BitVec 8) (held : s.held = none) :
    Course s (declineBody p slot gen s).1 :=
  .withHandle fun i c hi => by
    split
    · exact .refl s
    · split
      · exact .refl s
      · next hs =>
        dsimp only
        exact .ended (Moves.andThen (Edit.free trivial hi (by simpa using hs)).moves (State.tell_edit _ _ _)) held
          (by simp) (by simp) (by simp) (by simp) (by simp)

theorem Course.activateBody (p : Domain) (slot : Nat) (gen : BitVec 8) (held : s.held = none) :
    Course s (activateBody p slot gen s).1 :=
  .withHandle fun i c hi => by
    split
    · exact .refl s
    · split
      · exact .refl s
      · next hs =>
        dsimp only
        exact .ended (State.activateRecord_edits hi (by simpa using hs)).moves held
          (by simp) (by simp) (by simp) (by simp) (by simp)

@[simp] theorem State.drain_frame (s : State) (i : SlotIx) (c : Conn) :
    (s.drain i c).passReqs = s.passReqs ∧ (s.drain i c).tripReqs = s.tripReqs ∧ (s.drain i c).trips = s.trips ∧
    (s.drain i c).settings = s.settings ∧ (s.drain i c).held = s.held := by
  unfold State.drain
  dsimp only
  split <;> simp

@[simp] theorem State.releaseRecord_frame (s : State) (p : Domain) (i : SlotIx) (c : Conn) :
    (s.releaseRecord p i c).passReqs = s.passReqs ∧ (s.releaseRecord p i c).tripReqs = s.tripReqs ∧
    (s.releaseRecord p i c).trips = s.trips ∧ (s.releaseRecord p i c).settings = s.settings ∧
    (s.releaseRecord p i c).held = s.held := by
  unfold State.releaseRecord
  dsimp only
  split <;> try split
  all_goals simp

theorem Course.releaseBody (p : Domain) (slot : Nat) (gen : BitVec 8) (held : s.held = none) :
    Course s (releaseBody p slot gen s).1 :=
  .withHandle fun i c hi => by
    split
    · exact .refl s
    · split
      · exact .refl s
      · dsimp only
        exact .ended (State.releaseRecord_moves p trivial hi) held
          (by simp) (by simp) (by simp) (by simp) (by simp)

theorem Course.setTargetBody (p : Domain) (slot : Nat) (gen : BitVec 8) (level : Int) :
    Course s (setTargetBody p slot gen level s).1 :=
  .withHandle fun i c hi => by
    split
    · exact .refl s
    · split
      · exact .refl s
      · exact .rewritten hi rfl rfl rfl rfl rfl

theorem Course.setDropAttenBody (p : Domain) (slot : Nat) (gen : BitVec 8) (atten : Int) (held : s.held = none) :
    Course s (setDropAttenBody p slot gen atten s).1 :=
  .withHandle fun i c hi => by
    split
    · split
      · exact .refl s
      · dsimp only
        split
        · exact .rewritten hi rfl rfl rfl rfl rfl
        · exact .rewritten hi rfl rfl rfl rfl rfl
        · next hs =>
          dsimp only
          exact .ended (Edit.reshade hi (c' := { c with
            dropAtten := some (clampInt 0 250 atten).toNat, shadow := .att (clampInt 0 250 atten).toNat })
            (.ofLit rfl rfl (by simp [hs]) (by simp [Conn.tripDark, hs])
              fun _ _ hb => by simp [hs, CState.blocked] at hb)).moves held
            (by simp) (by simp) (by simp) (by simp) (by simp)
        · exact .refl s
    · exact .refl s

/-! ### On degrees, endpoints and links -/

/-! ### On degrees, endpoints and links -/

/-- The trips after a degree's has ended (R152). -/
theorem State.trips_endTrip (s : State) (d : Degree) :
    (s.endTrip d).trips = (s.mapTrip d fun t => { t with state := .clear, timer := none }).trips := by
  unfold State.endTrip
  dsimp only
  rw [(State.offerEvent_frame _ _).2.2.2.2.2.2.2.2.2.2.2.2.1]
  exact (foldl_keeps (·.trips) _ (by intro s i; simp) _ _).trans (by simp)

/-- The trips after a degree has entered TRIPPED (R147). -/
theorem State.trips_enterTripped (s : State) (d : Degree) :
    (s.enterTripped d).trips = (s.mapTrip d fun t => { t with state := .tripped, timer := none }).trips := by
  unfold State.enterTripped
  dsimp only
  exact (foldl_keeps (·.trips) _ (by intro s i; simp) _ _).trans
    ((foldl_keeps (·.trips) _ (by intro s i; simp) _ _).trans (by simp))

/-- A change of a degree's trip state leaves the other degrees' (R146). -/
theorem State.trip_applyTrip (s : State) {d k : Degree} (ch : TripChange) (h : k ≠ d) :
    (s.applyTrip d ch).trips[k] = s.trips[k] := by
  cases ch with
  | trip => rw [State.applyTrip, State.trips_enterTripped, State.mapTrip_trips, get_set_ne _ _ h]
  | hold => rw [State.applyTrip, State.enterHolding, State.mapTrip_trips, get_set_ne _ _ h]
  | clear => rw [State.applyTrip, State.trips_endTrip, State.mapTrip_trips, get_set_ne _ _ h]

theorem Course.clearTripBody (p : Domain) (degree : Nat) (held : s.held = none) :
    Course s (clearTripBody p degree s).1 :=
  .withManagedDegree fun d => by
    split
    · next hc =>
      dsimp only
      refine .finished (s.endTrip_moves d) held fun h => State.requestsOk_of_degree h (by simp) d
        (fun k _ => by simp) (fun k hk => ?_) (fun k _ => by simp) (by simp [held]) fun hh => ?_
      · rw [State.trips_endTrip, State.mapTrip_trips, get_set_ne _ _ hk]
      · have hm := (h.2.1 d (by simpa [-Fin.getElem_fin] using hh)).2
        rw [hc.1] at hm
        cases hm
    · exact .refl s

theorem Course.rearmBody (p : Domain) (degree : Nat) : Course s (rearmBody p degree s).1 :=
  .withManagedDegree fun d => by
    dsimp only
    split
    · exact .beside rfl rfl rfl rfl rfl rfl rfl rfl (.of_eq rfl) rfl rfl rfl rfl
    · refine .beside rfl rfl rfl rfl rfl rfl rfl rfl (fun q => ?_) rfl rfl rfl rfl
      rw [State.port_mapPort]
      split
      · next h => rw [h]; exact ⟨fun _ hn => hn, by simp [FlagSet.diff, FlagSet.onlyExcursionFull, FlagSet.none]⟩
      · exact ⟨fun _ hn => hn, id⟩

theorem Course.claimBody (p : Domain) (endpoint : Nat) : Course s (claimBody p endpoint s).1 := by
  unfold Machine.claimBody
  split
  · exact .refl s
  · split
    · exact .beside rfl rfl rfl rfl rfl rfl rfl rfl (.of_eq rfl) rfl rfl rfl rfl
    · split <;> exact .refl s

theorem Course.handOverBody (p : Domain) (endpoint domain : Nat) : Course s (handOverBody p endpoint domain s).1 := by
  unfold Machine.handOverBody
  split
  · next e q _ _ =>
    split
    · exact .refl s
    · split
      · exact .refl s
      · split
        · exact .refl s
        · dsimp only
          exact .beside (by simp) (by simp) (by simp) (by simp) (by simp) (by simp) (by simp) (by simp)
            (PortsGrow.trans (.of_eq (by rfl)) (State.tell_grows _ _ _)) (by simp) (by simp) (by simp) (by simp)
  · exact .refl s

theorem Course.unclaimBody (p : Domain) (endpoint : Nat) : Course s (unclaimBody p endpoint s).1 := by
  unfold Machine.unclaimBody
  split
  · exact .refl s
  · split
    · exact .refl s
    · split
      · exact .refl s
      · exact .beside rfl rfl rfl rfl rfl rfl rfl rfl (.of_eq rfl) rfl rfl rfl rfl

theorem Course.retryLinkBody (p : Domain) (link : Nat) : Course s (retryLinkBody p link s).1 := by
  unfold Machine.retryLinkBody
  split
  · exact .refl s
  · split
    · exact .refl s
    · split
      · exact .refl s
      · exact (Course.resynced s _ true).trans (.prompt _)

theorem readConnBody_state (slot : Nat) (gen : BitVec 8) (s : State) : (readConnBody slot gen s).1 = s := by
  obtain ⟨code, he⟩ | ⟨i, c, -, he⟩ := withHandle_cases s slot gen fun i c => (s, ⟨.ok, s.connResults (s.handleAt i) c⟩)
  · rw [readConnBody, he]; rfl
  · rw [readConnBody, he]

theorem listSpansBody_state (degree list start : Nat) (s : State) : (listSpansBody degree list start s).1 = s := by
  unfold listSpansBody
  split
  · rfl
  · split
    · rfl
    · split <;> rfl

theorem readLevelBody_state (tap first width : Nat) (s : State) : (readLevelBody tap first width s).1 = s := by
  unfold readLevelBody
  split
  · rfl
  · split
    · rfl
    · split <;> rfl

theorem readDegreeBody_state (degree : Nat) (s : State) : (readDegreeBody degree s).1 = s := by
  unfold readDegreeBody
  split <;> rfl

theorem readExcursionsBody_state (degree : Nat) (s : State) : (readExcursionsBody degree s).1 = s := by
  unfold readExcursionsBody
  split <;> rfl

/-! ### Events -/

theorem Course.takeFault (s : State) (l : LinkId) (seq : BitVec 8) (cause : Nat) : Course s (s.takeFault l seq cause) := by
  unfold State.takeFault
  split
  · exact .refl s
  · split
    · exact .failed s l _ _
    · exact .refl s

/-- A DONE changes nothing, or completes the batch in flight (R130, R131). -/
theorem State.takeDone_cases (s : State) (l : LinkId) (seq : BitVec 8) :
    s.takeDone l seq = s ∨ ∃ b, s.links[l].inFlight = some b ∧ s.takeDone l seq = s.completeBatch l b := by
  unfold State.takeDone
  split
  · exact .inl rfl
  · next b hb =>
    split
    · exact .inr ⟨b, hb, rfl⟩
    · exact .inl rfl

theorem Course.headerWord {w : BitVec 16} (h : execHeaderWord w s = .next t) : Course s t :=
  .running h fun _ => by
    split
    · exact .refl s
    · exact .failRequest s _
    · split
      · exact .beside rfl rfl rfl rfl rfl rfl rfl rfl (.of_eq rfl) rfl rfl rfl rfl
      · exact .failRequest s _

theorem Course.readingWord {w : BitVec 16} (h : execReadingWord w s = .next t) : Course s t :=
  .running h fun _ => by
    split
    · split
      · exact .beside rfl rfl rfl rfl rfl rfl rfl rfl (.of_eq rfl) rfl rfl rfl rfl
      · exact .completeSweep s _
    · exact .refl s

@[simp] theorem State.notTaken_frame (s : State) (d : Degree) (r : GrantReq) :
    (s.notTaken d r).passReqs = s.passReqs ∧ (s.notTaken d r).tripReqs = s.tripReqs ∧
    (s.notTaken d r).trips = s.trips ∧ (s.notTaken d r).settings = s.settings ∧ (s.notTaken d r).held = s.held := by
  simp [State.notTaken]

theorem Course.grant {d : Degree} (h : execGrant d s = .next t) : Course s t :=
  .running h fun held => by
    split
    · exact .refl s
    · next r rest _ =>
      refine .ended (.trans (Edit.beside (s := s) (t := { s with grantReqs := s.grantReqs.set d rest }) rfl rfl rfl rfl
        rfl rfl rfl rfl rfl).moves (State.answerGrant_moves _ d r)) held ?_ ?_ ?_ ?_ ?_
      all_goals
        unfold State.answerGrant
        split <;> simp

@[simp] theorem State.applyDeclaration_frame (s : State) (i : SlotIx) (c : Conn) (r : DeclReq) :
    (s.applyDeclaration i c r).passReqs = s.passReqs ∧ (s.applyDeclaration i c r).tripReqs = s.tripReqs ∧
    (s.applyDeclaration i c r).trips = s.trips ∧ (s.applyDeclaration i c r).settings = s.settings ∧
    (s.applyDeclaration i c r).held = s.held := by
  unfold State.applyDeclaration
  dsimp only
  split
  · split <;> simp
  all_goals simp

theorem Course.declaration {i : SlotIx} {gen : BitVec 8} (h : execDeclaration i gen s = .next t) : Course s t :=
  .running h fun held => by
    dsimp only
    split
    · exact .refl s
    · next r _ =>
      have taken : Course s { s with declReqs := s.declReqs.eraseP (·.handle == ⟨i, gen⟩) } :=
        .beside rfl rfl rfl rfl rfl rfl rfl rfl (.of_eq rfl) rfl rfl rfl rfl
      split
      · exact taken
      · next c hc =>
        exact taken.trans (.ended (State.applyDeclaration_moves ((State.find_eq_some _ _ c).mp hc).2) held (by simp)
          (by simp) (by simp) (by simp) (by simp))

theorem Course.lineEvent {d : Degree} {high : Bool} (h : execLineEvent d high s = .next t) : Course s t :=
  Course.trans (t := { s with tripPins := s.tripPins.set d high })
    (.beside rfl rfl rfl rfl rfl rfl rfl rfl (.of_eq rfl) rfl rfl rfl rfl)
    (.running h fun held => .sampleLine _ d held)

theorem Course.takeExpiries (s : State) (held : s.held = none) : Course s s.takeExpiries := by
  have key : ∀ {α : Type} (f : State → α → State), (∀ s a, s.held = none → Course s (f s a) ∧ (f s a).held = none) →
      ∀ (l : List α) (s : State), s.held = none → Course s (l.foldl f s) ∧ (l.foldl f s).held = none := by
    intro α f hf l
    induction l with
    | nil => exact fun s hs => ⟨.refl s, hs⟩
    | cons a l ih =>
      intro s hs
      obtain ⟨c, h1⟩ := hf s a hs
      obtain ⟨c', h2⟩ := ih _ h1
      exact ⟨c.trans c', h2⟩
  obtain ⟨reservations, held1⟩ := key State.takeReservation (fun s i hs => ⟨.takeReservation s i hs, by
    obtain he | ⟨c, -, -, -, he⟩ := s.takeReservation_cases i <;> rw [he] <;> simp [hs]⟩) slots s held
  have sweep := Course.takeSweepExpiry (slots.foldl State.takeReservation s)
  have held2 : (slots.foldl State.takeReservation s).takeSweepExpiry.held = none := by
    obtain he | ⟨-, he⟩ := (slots.foldl State.takeReservation s).takeSweepExpiry_cases <;> rw [he] <;>
      simp [held1, State.failRequest]
  obtain ⟨replies, held3⟩ := key State.takeReplyExpiry (fun s l hs => ⟨.takeReplyExpiry s l, by
    obtain he | ⟨b, -, -, he⟩ := s.takeReplyExpiry_cases l <;> rw [he] <;> simp [hs, State.failLink]⟩)
    (List.finRange 5) _ held2
  obtain ⟨holds, -⟩ := key State.takeHoldExpiry (fun s d hs => ⟨.takeHoldExpiry s d hs, by
    obtain he | ⟨-, -, -, he⟩ := s.takeHoldExpiry_cases d <;> rw [he] <;> simp [hs]⟩) (List.finRange 4) _ held3
  exact ((reservations.trans sweep).trans replies).trans holds

/-! ## The shapes of a step -/

/-- What a step does to the rest of the state, by the kind of its command or event: a course, or one of the ten that
a law looks into. -/
inductive Shape (i : Instr) (s t : State) : Prop
  | course (c : Course s t)
  | wires (w : Wires s t)
  | admitted (held : s.held = none) {k : SlotIx} {c : Conn} (free : s.conn k = none)
      (peer : c.peer = none → c.state = .armed) (new : c.state = .proposed ∨ c.state = .armed) (dark : c.shadow = .blocked)
      {p : Domain} {tag : Byte} {a : Answer} (ht : t = (s.enterRecord k c).finish.reply p tag a)
  | completed (held : s.held = none) {l : LinkId} {b : Batch} (hb : s.links[l].inFlight = some b)
      (ht : t = s.completeBatch l b)
  | passed (held : s.held = none) {d : Degree} {r : PassResult} {rest : List PassResult} (hr : s.passReqs[d] = r :: rest)
      (ht : t = (({ s with passReqs := s.passReqs.set d rest } : State).takeResult d r).finish)
  | handed (held : s.held = none) {d : Degree} (ht : t = (s.takeHandOff d).finish)
  | degreeSet (held : s.held = none) {d : Degree} {p : Domain} {changes : List (Nat × Int)} {tag : Byte} {a : Answer}
      (ht : t = (storeDegree p d changes (s.takeHandOff d)).1.finish.reply p tag a)
  | chilled (hi : i = .coldReset) (ht : t = s.enterCold)
  | warmed (held : s.held = none) (ht : t = s.enterWarm)
  | left {kind : ResetKind} {order : List ResetWork} (held : s.held = some kind) (ht : t = s.leave kind order)
  | ticked {u : State} (c : Course s u) (ht : t = u.tick)

/-- PROPOSE changes nothing, or admits a record (R9, R16). -/
theorem proposeBody_cases (p : Domain) (source sink first width hold auto : Nat) (level : Int) (notify : Nat) (s : State) :
    (proposeBody p source sink first width hold auto level notify s).1 = s ∨
      ∃ i c, s.conn i = none ∧ (c.peer = none → c.state = .armed) ∧ (c.state = .proposed ∨ c.state = .armed) ∧
        c.shadow = .blocked ∧ (proposeBody p source sink first width hold auto level notify s).1 =
          (s.enterRecord i c).finish := by
  unfold proposeBody
  split
  · exact .inl rfl
  · next r _ =>
    split
    · exact .inl rfl
    · next peer _ =>
      split
      · next i _ hi =>
        dsimp only
        refine .inr ⟨i, newConn s.nodeTime p peer r ⟨first, width⟩ hold auto level notify, ?_, ?_, ?_, by rfl, by rfl⟩
        · have := List.find?_some hi
          simpa using this
        · rintro (rfl : peer = none)
          rfl
        · cases peer
          · exact .inr rfl
          · exact .inl rfl
      · exact .inl rfl
      · exact .inl rfl

/-- SET_DEGREE changes nothing, or is a CNM step (R146, R169). -/
theorem setDegreeBody_cases (p : Domain) (degree : Nat) (changes : List (Nat × Int)) (s : State) :
    (setDegreeBody p degree changes s).1 = s ∨ ∃ d, degreeOfCode degree = some d ∧
      (setDegreeBody p degree changes s).1 = (storeDegree p d changes (s.takeHandOff d)).1.finish := by
  cases hd : degreeOfCode degree with
  | none => exact .inl (by rw [setDegreeBody, hd]; rfl)
  | some d =>
    have he : setDegreeBody p degree changes s =
        if s.tripReqs[d].isSome || (storeDegree p d changes (s.takeHandOff d)).2.carriedOut then
          ((storeDegree p d changes (s.takeHandOff d)).1.finish, (storeDegree p d changes (s.takeHandOff d)).2)
        else storeDegree p d changes (s.takeHandOff d) := by rw [setDegreeBody, hd]
    rw [he]
    split
    · refine .inr ⟨d, rfl, ?_⟩
      dsimp only
    · next hn =>
      simp only [Bool.or_eq_true, not_or, Bool.not_eq_true, Option.isSome_eq_false_iff, Option.isNone_iff_eq_none] at hn
      have untaken : s.takeHandOff d = s := by rw [State.takeHandOff, hn.1]
      rw [untaken] at hn ⊢
      refine .inl ?_
      have hr := hn.2
      unfold storeDegree at hr ⊢
      split
      · rfl
      · split
        · rfl
        · next h1 h2 =>
          rw [if_neg h1, if_neg h2] at hr
          simp [Answer.carriedOut, okOrClamped] at hr

theorem Shape.running {i : Instr} {f : State → State} (h : whileRunning s f = .next t)
    (hf : s.held = none → Shape i s (f s)) : Shape i s t := by
  obtain rfl | ⟨hh, rfl⟩ := whileRunning_run h
  · exact .course (.refl _)
  · exact hf hh

theorem Shape.takeDone {i : Instr} (held : s.held = none) (l : LinkId) (seq : BitVec 8) : Shape i s (s.takeDone l seq) := by
  obtain he | ⟨b, hb, he⟩ := s.takeDone_cases l seq
  · rw [he]
    exact .course (.refl s)
  · exact .completed held hb he

/-- Every command and event has one of the shapes. -/
theorem exec_shape {i : Instr} (h : exec i s = .next t) : Shape i s t := by
  cases i with
  | commandTransaction p e => cases h; exact .wires (.portEvent s p e)
  | claim p tag e => exact .course (.command h fun _ => .claimBody p e)
  | handOver p tag e q => exact .course (.command h fun _ => .handOverBody p e q)
  | unclaim p tag e => exact .course (.command h fun _ => .unclaimBody p e)
  | readEndpoints p tag => exact .course (.command (body := fun s => (s, ⟨.ok, s.endpointResults⟩)) h fun _ => .refl s)
  | propose p tag source sink first width hold auto level notify =>
    obtain rfl | ⟨hh, rfl⟩ | rfl := runCommand_run h
    · exact .course (.refl _)
    · obtain he | ⟨i, c, hi, hp, hs, hd, he⟩ := proposeBody_cases p source sink first width hold auto level notify s
      · rw [he]
        exact .course ((Course.refl s).reply ..)
      · rw [he]
        exact .admitted hh hi hp hs hd rfl
    · exact .course ((Course.refl s).reply ..)
  | accept p tag slot gen => exact .course (.command h fun hh => .acceptBody p slot gen hh)
  | decline p tag slot gen => exact .course (.command h fun hh => .declineBody p slot gen hh)
  | activate p tag slot gen => exact .course (.command h fun hh => .activateBody p slot gen hh)
  | release p tag slot gen => exact .course (.command h fun hh => .releaseBody p slot gen hh)
  | setTarget p tag slot gen level => exact .course (.command h fun _ => .setTargetBody p slot gen level)
  | setDropAtten p tag slot gen atten => exact .course (.command h fun hh => .setDropAttenBody p slot gen atten hh)
  | readConn p tag slot gen =>
    exact .course (.command h fun _ => by rw [readConnBody_state]; exact .refl s)
  | listSpans p tag degree list start =>
    exact .course (.command h fun _ => by rw [listSpansBody_state]; exact .refl s)
  | readLevel p tag tap first width =>
    exact .course (.command h fun _ => by rw [readLevelBody_state]; exact .refl s)
  | setDegree p tag degree changes =>
    obtain rfl | ⟨hh, rfl⟩ | rfl := runCommand_run h
    · exact .course (.refl _)
    · obtain he | ⟨d, -, he⟩ := setDegreeBody_cases p degree changes s
      · rw [he]
        exact .course ((Course.refl s).reply ..)
      · rw [he]
        exact .degreeSet hh rfl
    · exact .course ((Course.refl s).reply ..)
  | readDegree p tag degree => exact .course (.command h fun _ => by rw [readDegreeBody_state]; exact .refl s)
  | clearTrip p tag degree => exact .course (.command h fun hh => .clearTripBody p degree hh)
  | retryLink p tag link => exact .course (.command h fun _ => .retryLinkBody p link)
  | readExcursions p tag degree => exact .course (.command h fun _ => by rw [readExcursionsBody_state]; exact .refl s)
  | rearmExcursions p tag degree => exact .course (.command h fun _ => .rearmBody p degree)
  | fetchNotice p tag => exact .wires (.command h (.portBody (i := .fetchNotice p tag) rfl))
  | readPort p tag => exact .wires (.command h (.portBody (i := .readPort p tag) rfl))
  | clearFlags p tag flags => exact .wires (.command h (.portBody (i := .clearFlags p tag flags) rfl))
  | setMask p tag flags => exact .wires (.command h (.portBody (i := .setMask p tag flags) rfl))
  | setAllNotices p tag option => exact .wires (.command h (.portBody (i := .setAllNotices p tag option) rfl))
  | resetPort p tag => exact .wires (.command h (.portBody (i := .resetPort p tag) rfl))
  | readNode p tag => exact .course (.command (body := fun s => (s, ⟨.ok, s.nodeResults⟩)) h fun _ => .refl s)
  | headerWord w => exact .course (.headerWord h)
  | readingWord w => exact .course (.readingWord h)
  | sweepTimeout => exact .course (.running h fun _ => .takeSweepExpiry s)
  | done l seq => exact .running (f := fun s => s.takeDone l seq) h fun hh => .takeDone hh l seq
  | fault l seq cause => exact .course (.running (f := fun s => s.takeFault l seq cause) h fun _ => .takeFault s l seq cause)
  | replyTimeout l => exact .course (.running (f := fun s => s.takeReplyExpiry l) h fun _ => .takeReplyExpiry s l)
  | discardedFrame l octets =>
    change execDiscardedFrame l octets s = .next t at h
    exact .running h fun hh => by
      split
      · exact .takeDone hh l _
      · exact .course (.takeFault s l _ _)
      · exact .course (.refl s)
  | grant d => exact .course (.grant h)
  | passResult d =>
    change execPassResult d s = .next t at h
    exact .running h fun hh => by
      split
      · exact .course (.refl s)
      · next r rest hr => exact .passed hh hr rfl
  | declaration i gen => exact .course (.declaration h)
  | reservationExpiry i => exact .course (.running (f := fun s => s.takeReservation i) h fun hh => .takeReservation s i hh)
  | lineEvent d high => exact .course (.lineEvent h)
  | tripHandOff d =>
    change execTripHandOff d s = .next t at h
    exact .running h fun hh => by
      split
      · exact .handed hh rfl
      · exact .course (.refl s)
  | holdExpiry d => exact .course (.running (f := fun s => s.takeHoldExpiry d) h fun hh => .takeHoldExpiry s d hh)
  | coldReset =>
    cases h
    split
    · exact .course (.refl s)
    · exact .chilled rfl rfl
  | warmReset =>
    cases h
    split
    · exact .course (.refl s)
    · next hh => exact .warmed (by simpa using hh) rfl
  | leaveReset order =>
    change execLeaveReset order s = .next t at h
    unfold execLeaveReset at h
    split at h
    · cases h
      exact .course (.refl _)
    · next kind hk =>
      cases h
      exact .left hk rfl
  | nodeTimeAdvance =>
    change execNodeTimeAdvance s = .next t at h
    cases hh : s.held with
    | none =>
      rw [execNodeTimeAdvance_running hh] at h
      exact .ticked (.takeExpiries s hh) (Host.Outcome.next.inj h).symm
    | some kind =>
      cases kind with
      | warm =>
        rw [execNodeTimeAdvance_warm hh] at h
        cases h
        exact .ticked (.refl s) rfl
      | cold =>
        rw [execNodeTimeAdvance_cold hh] at h
        cases h
        exact .course (.refl _)

end

end Sys2Proof.Machine
end

