-- ==== Sys2Proof/Proofs/Releases.lean ====
section
/-! Proofs/Releases.lean: records freed are told (O59). -/

set_option Elab.async false

namespace Sys2Proof.Machine
open Sys2Proof

section
variable {L : Prop} {T : Degree → Prop} {U : Prop} {s t u : State}

/-! ## The moves of the steps that are no course -/

/-- The state in which an admitted record's effects begin: its slot allocated and the map entered (R16). -/
def State.entered (s : State) (i : SlotIx) (c : Conn) : State :=
  (s.allocate i c).enterMap ((s.allocate i c).handleAt i) c.route c.span

theorem State.conn_entered (s : State) (i j : SlotIx) (c : Conn) :
    (s.entered i c).conn j = if j = i then some c else s.conn j := by
  rw [State.entered, State.conn_of_table (State.enterMap_frame ..).1, State.conn_allocate]

theorem State.enterRecord_edits {i : SlotIx} {c : Conn} (peer : c.peer = none → c.state = .armed) :
    Edits L T U (s.entered i c) (s.enterRecord i c) := by
  unfold State.enterRecord
  dsimp only
  split
  · exact .single (State.tell_edit _ _ _)
  · next hp =>
    refine State.armRecord_edits (s := s.entered i c) ?_ (.inr (peer hp))
    rw [State.conn_entered, if_pos rfl]

/-- The state after steps 1 to 3 of a completed batch: the carried values active, the link completed (R131). -/
def State.batchDone (s : State) (l : LinkId) (b : Batch) : State :=
  (b.entries.foldl State.activate s).mapLink l Link.completed

theorem State.activate_select (s : State) (h : Handle) (sp : Span) (k : Fin 5) (v : Setpoint) :
    s.activate (.select h sp k v) = if (s.find h).isSome then { s with actives := s.actives.set h.slot v } else s := rfl

theorem State.activate_drop (s : State) (h : Handle) (sp : Span) (l : LocalPort) (v : Setpoint) :
    s.activate (.drop h sp l v) = if (s.find h).isSome then { s with actives := s.actives.set h.slot v } else s := rfl

@[simp] theorem State.activate_frame (s : State) (e : Entry) :
    (s.activate e).table = s.table ∧ (s.activate e).map = s.map ∧ (s.activate e).ramps = s.ramps ∧
    (s.activate e).links = s.links ∧ (s.activate e).nodeTime = s.nodeTime ∧ (s.activate e).trips = s.trips ∧
    (s.activate e).ports = s.ports ∧ (s.activate e).held = s.held ∧ (s.activate e).settings = s.settings ∧
    (s.activate e).passReqs = s.passReqs ∧ (s.activate e).tripReqs = s.tripReqs ∧
    (s.activate e).switchGen = s.switchGen ∧ (s.activate e).grantReqs = s.grantReqs := by
  cases e with
  | select h sp k v =>
    rw [State.activate_select]
    split <;> exact ⟨rfl, rfl, rfl, rfl, rfl, rfl, rfl, rfl, rfl, rfl, rfl, rfl, rfl⟩
  | drop h sp l v =>
    rw [State.activate_drop]
    split <;> exact ⟨rfl, rfl, rfl, rfl, rfl, rfl, rfl, rfl, rfl, rfl, rfl, rfl, rfl⟩
  | allBlocked => exact ⟨rfl, rfl, rfl, rfl, rfl, rfl, rfl, rfl, rfl, rfl, rfl, rfl, rfl⟩
  | port l a d => exact ⟨rfl, rfl, rfl, rfl, rfl, rfl, rfl, rfl, rfl, rfl, rfl, rfl, rfl⟩

theorem State.batchDone_frame (s : State) (l : LinkId) (b : Batch) :
    (s.batchDone l b).table = s.table ∧ (s.batchDone l b).map = s.map ∧ (s.batchDone l b).ramps = s.ramps ∧
    (s.batchDone l b).nodeTime = s.nodeTime ∧ (s.batchDone l b).trips = s.trips ∧
    (s.batchDone l b).ports = s.ports ∧ (s.batchDone l b).held = s.held ∧ (s.batchDone l b).settings = s.settings ∧
    (s.batchDone l b).passReqs = s.passReqs ∧ (s.batchDone l b).tripReqs = s.tripReqs ∧
    (s.batchDone l b).switchGen = s.switchGen ∧ (s.batchDone l b).grantReqs = s.grantReqs := by
  unfold State.batchDone
  refine ⟨foldl_keeps (·.table) _ ?_ _ _, foldl_keeps (·.map) _ ?_ _ _, foldl_keeps (·.ramps) _ ?_ _ _,
    foldl_keeps (·.nodeTime) _ ?_ _ _, foldl_keeps (·.trips) _ ?_ _ _, foldl_keeps (·.ports) _ ?_ _ _,
    foldl_keeps (·.held) _ ?_ _ _, foldl_keeps (·.settings) _ ?_ _ _, foldl_keeps (·.passReqs) _ ?_ _ _,
    foldl_keeps (·.tripReqs) _ ?_ _ _, foldl_keeps (·.switchGen) _ ?_ _ _, foldl_keeps (·.grantReqs) _ ?_ _ _⟩
  all_goals
    intro s e
    simp

theorem State.drainLink_edits (s : State) (l : LinkId) : Edits L T U s (s.drainLink l) := by
  unfold State.drainLink
  split
  · exact Edits.foldl _ State.drainTest_edits _ s
  · exact .refl

theorem State.linkReady_edits (s : State) (l : LinkId) (kind : BatchKind) : Edits L T U s (s.linkReady l kind) := by
  unfold State.linkReady
  split
  · dsimp only
    split
    · exact .tail (s.offerEvent_edits _) (State.tellManager_edit _ _ _)
    · exact s.offerEvent_edits _
  · split
    · exact .single (s.tellAll_edit _)
    · exact .refl

/-- What a completed batch sets off, up to the examination of its own link (R131, steps 4 and 5). -/
def State.batchSettled (s : State) (l : LinkId) (b : Batch) : State :=
  if s.links[l].state = .starting then ((s.batchDone l b).drainLink l).linkReady l b.kind
  else (s.batchDone l b).drainLink l

theorem State.completeBatch_eq (s : State) (l : LinkId) (b : Batch) :
    s.completeBatch l b = ((s.batchSettled l b).sendIfPending l).finish := rfl

theorem State.batchSettled_edits (s : State) (l : LinkId) (b : Batch) :
    Edits L T U (s.batchDone l b) (s.batchSettled l b) := by
  unfold State.batchSettled
  split
  · exact (State.drainLink_edits _ l).trans (State.linkReady_edits _ l _)
  · exact State.drainLink_edits _ l

theorem State.takeResult_moves {d : Degree} {r : PassResult}
    (law : ∀ c, s.find r.handle = some c → c.state = r.computedFor → r.Lawful L T U c) :
    Moves L T U s (s.takeResult d r) := by
  unfold State.takeResult
  split
  · exact .refl
  · next c hc =>
    split
    · next hs => exact State.applyResult_moves d ((s.find_eq_some _ c).mp hc).2 hs (law c hc hs)
    · exact .refl

/-- A pass result taken, its request gone (R41). -/
theorem State.passed_moves {d : Degree} {r : PassResult} {rest : List PassResult}
    (law : ∀ c, s.find r.handle = some c → c.state = r.computedFor → r.Lawful L T U c) :
    Moves L T U s (({ s with passReqs := s.passReqs.set d rest } : State).takeResult d r) :=
  .trans (Edit.beside (s := s) (t := { s with passReqs := s.passReqs.set d rest }) rfl rfl rfl rfl rfl rfl rfl rfl
    rfl).moves (State.takeResult_moves law)

theorem storeDegree_moves {p : Domain} {d : Degree} {changes : List (Nat × Int)} (h : ¬ T d) :
    Moves L T U s (storeDegree p d changes s).1 := by
  unfold storeDegree
  split
  · exact .refl
  · split
    · exact .refl
    · refine .trans (Edit.beside (s := s) (t := { s with
        settings := s.settings.set d (s.changedSettings d changes) }) rfl rfl rfl rfl rfl rfl rfl rfl rfl).moves ?_
      exact State.settingEffects_moves _ fun _ _ _ hT => absurd hT h

/-! ### Resets -/

theorem State.coldLine_moves {d : Degree} (h : ¬ T d) : Moves L T U s (s.coldLine d) := by
  unfold State.coldLine
  dsimp only
  split
  · exact .trans (s.setLine_edit d _).moves (State.enterTripped_moves fun hT => absurd hT h)
  · exact (s.setLine_edit d _).moves

theorem State.warmLine_moves {d : Degree} (h : ¬ T d) : Moves L T U s (s.warmLine d) := by
  unfold State.warmLine
  dsimp only
  have line : Moves L T U s (s.setLine d (s.readLine d)) := (s.setLine_edit d _).moves
  have hold : Moves L T U s (if s.settings[d].hold = 0 then (s.setLine d (s.readLine d)).endTrip d
      else (s.setLine d (s.readLine d)).enterHolding d) := by
    split
    · exact line.trans (State.endTrip_moves _ d)
    · exact line.andThen (State.enterHolding_edit fun hT => absurd hT h)
  split
  · exact line
  · exact line.trans (State.enterTripped_moves fun hT => absurd hT h)
  · exact line
  · split
    · exact line
    · exact hold
  · exact hold
  · exact line.trans (State.enterTripped_moves fun hT => absurd hT h)

/-- A piece of the work as a reset ends (R204): a line's leaves the trip law to its own degree. -/
theorem State.takeUp_moves {kind : ResetKind} {w : ResetWork} (h : ∀ d, w = .line d → ¬ T d) :
    Moves L T U s (s.takeUp kind w) := by
  cases w with
  | line d =>
    cases kind with
    | cold => exact State.coldLine_moves (h d rfl)
    | warm => exact State.warmLine_moves (h d rfl)
  | batch l =>
    cases kind with
    | cold => exact (s.sendStart_edit l).moves
    | warm => exact (s.resync_edits l false).moves
  | choice => exact s.prompt_edit.moves

theorem State.keptTripFlags_edits (s before : State) : Edits L T U s (s.keptTripFlags before) :=
  Edits.foldl _ (fun s d => by
    split
    · exact .single (s.flagManager_edit d _)
    · exact .refl) _ s

/-- The state in which the work of a reset's end begins: every link STARTING, and out of a warm reset RSC's and SLT's
state rebuilt (R64, R97, R139, R141). -/
def State.leaving (s : State) : ResetKind → State
  | .cold => s.startLinks
  | .warm => s.startLinks.rebuild

theorem State.leave_moves (s : State) (kind : ResetKind) (order : List ResetWork) :
    Moves L (fun _ => False) U (s.leaving kind) (s.leave kind order) := by
  have work : ∀ (ws : List ResetWork) (u : State), Moves L (fun _ => False) U u (ws.foldl (State.takeUp kind) u) :=
    Moves.foldl _ fun s w => State.takeUp_moves fun _ _ h => h
  cases kind with
  | cold => exact (work _ _).trans (State.flushLinks_edits _).moves
  | warm =>
    exact (work _ _).trans ((State.keptTripFlags_edits _ s).moves.trans (State.flushLinks_edits _).moves)

/-- A warm reset frees the PROPOSED records alone (R52). -/
theorem State.conn_warmFree (s : State) (i j : SlotIx) :
    (s.warmFree i).conn j = if j = i ∧ (s.conn i).any (·.state = .proposed) then none else s.conn j := by
  unfold State.warmFree
  split
  · next h => rw [h]; simp
  · next c h =>
    rw [h]
    split
    · next hs =>
      rw [State.conn_freeRecord]
      simp [hs]
    · next hs => simp [hs]

theorem State.conn_warmFrees (l : List SlotIx) (s : State) (j : SlotIx) :
    (l.foldl State.warmFree s).conn j =
      if j ∈ l ∧ (s.conn j).any (·.state = .proposed) then none else s.conn j := by
  induction l generalizing s with
  | nil => simp
  | cons i l ih =>
    rw [List.foldl_cons, ih, State.conn_warmFree]
    by_cases hj : j = i
    · subst hj
      by_cases hp : (s.conn j).any (·.state = .proposed) = true <;> simp [hp]
    · simp [hj]

theorem State.conn_enterWarm (s : State) (j : SlotIx) :
    s.enterWarm.conn j = if (s.conn j).any (·.state = .proposed) then none else s.conn j := by
  have table : s.enterWarm.table = (slots.foldl State.warmFree s).table := by
    unfold State.enterWarm
    generalize slots.foldl State.warmFree s = u
    rfl
  rw [State.conn_of_table table, State.conn_warmFrees]
  simp [slots]

/-! ## Releases -/

theorem Accounted.heard (a : Accounted U s t) {k : SlotIx} {c : Conn} (hc : s.conn k = some c)
    (hp : U → c.state ≠ .proposed) (ht : t.conn k = none) :
    ∀ q ∈ c.domains, Heard t q ⟨.released, some (s.handleAt k), none, none, s.nodeTime⟩ := by
  obtain ⟨-, c', hc', -⟩ | h := a.2 k c hc hp
  · rw [ht] at hc'
    cases hc'
  · exact h

/-- The moves of a step heard from the state they begin in, which holds the record under the same handle. -/
theorem Moves.heard {w : State} (m : Moves L T U w t) {k : SlotIx} {c : Conn} (hc : s.conn k = some c)
    (hw : w.conn k = s.conn k) (hh : w.handleAt k = s.handleAt k) (hn : w.nodeTime = s.nodeTime)
    (hp : U → c.state ≠ .proposed) (ht : t.conn k = none) :
    ∀ q ∈ c.domains, Heard t q ⟨.released, some (s.handleAt k), none, none, s.nodeTime⟩ := by
  have := m.accounted.heard (hw.trans hc) hp ht
  rwa [hh, hn] at this

theorem Moves.heard_of_table {w : State} (m : Moves L T U w t) {k : SlotIx} {c : Conn} (hc : s.conn k = some c)
    (htab : w.table = s.table) (hn : w.nodeTime = s.nodeTime) (hp : U → c.state ≠ .proposed) (ht : t.conn k = none) :
    ∀ q ∈ c.domains, Heard t q ⟨.released, some (s.handleAt k), none, none, s.nodeTime⟩ :=
  m.heard hc (State.conn_of_table htab k) (State.handleAt_of_table htab k) hn hp ht

end

/-- Settles O59, by the account every move keeps of the records, for each shape of a step. -/
theorem freedRecordsAreReleased : Obligations.FreedRecordsAreReleased := by
  unfold Obligations.FreedRecordsAreReleased
  intro i k c s t h hi hc hp ht
  have kept : t.conn k ≠ s.conn k := by rw [ht, hc]; simp
  cases exec_shape h with
  | course m => exact m.moves.heard_of_table hc rfl rfl (fun _ => hp) ht
  | wires w => exact absurd (State.conn_of_table w.table k) kept
  | @admitted _ j a free peer _ _ p tag ans he =>
    have hk : k ≠ j := by
      rintro rfl
      rw [free] at hc
      cases hc
    have m : Moves True (fun _ => True) True (s.entered j a) t := by
      rw [he]
      exact Edits.moves (((State.enterRecord_edits peer).trans (State.finish_edits _)).tail (State.reply_edit _ _ _ _))
    refine m.heard hc ?_ ?_ ?_ (fun _ => hp) ht
    · rw [State.conn_entered, if_neg hk]
    · rw [State.entered, State.handleAt_of_table (State.enterMap_frame ..).1, State.handleAt_allocate, if_neg hk]
    · simp [State.entered]
  | @completed _ l b _ he =>
    have m : Moves True (fun _ => True) True (s.batchDone l b) t := by
      rw [he, State.completeBatch_eq]
      exact Edits.moves ((State.batchSettled_edits s l b).trans (.head (State.sendIfPending_edit _ l) (State.finish_edits _)))
    obtain ⟨table, -, -, nodeTime, -⟩ := s.batchDone_frame l b
    exact m.heard_of_table hc table nodeTime (fun _ => hp) ht
  | @passed _ d r rest _ he =>
    have m : Moves False (fun _ => False) False s t := by
      rw [he]
      exact (State.passed_moves fun _ _ _ => ⟨False.elim, False.elim, fun _ => False.elim⟩).trans
        (State.finish_edits _).moves
    exact m.heard_of_table hc rfl rfl False.elim ht
  | @handed _ d he =>
    have m : Moves True (fun _ => False) True s t := by
      rw [he]
      exact (State.takeHandOff_moves fun _ _ _ => False.elim).trans (State.finish_edits _).moves
    exact m.heard_of_table hc rfl rfl (fun _ => hp) ht
  | @degreeSet _ d p changes tag a he =>
    have m : Moves True (fun _ => False) True s t := by
      rw [he]
      exact ((State.takeHandOff_moves fun _ _ _ => False.elim).trans (storeDegree_moves id)).trans
        (Edits.moves ((State.finish_edits _).tail (State.reply_edit _ _ _ _)))
    exact m.heard_of_table hc rfl rfl (fun _ => hp) ht
  | chilled he _ => exact absurd he hi
  | warmed _ he =>
    rw [he, State.conn_enterWarm, hc] at ht
    simp [hp] at ht
  | @left kind order _ he =>
    have m : Moves True (fun _ => False) True (s.leaving kind) t := by
      rw [he]
      exact s.leave_moves kind order
    exact m.heard_of_table hc (by cases kind <;> rfl) (by cases kind <;> rfl) (fun _ => hp) ht
  | @ticked u m he =>
    rw [he] at ht ⊢
    exact m.moves.heard_of_table hc rfl rfl (fun _ => hp) ht

end Sys2Proof.Machine
end

