-- ==== Sys2Proof/Proofs/Grants.lean ====
section
/-! Proofs/Grants.lean: what the grants of a step do to the other records, and what a cause added leaves. -/

set_option Elab.async false

namespace Sys2Proof.Machine
open Sys2Proof

section
variable {s t u : State}

/-! ## What the grants of a step do to the records -/

/-- A record as a grant may have taken it (R40). -/
def Taken (a b : Option Conn) : Prop :=
  b = a ∨ ∃ c, a = some c ∧ (c.state = .pendingUp ∧ b = some { c with state := .rampUp, shadow := .att 250 } ∨
    c.state = .pendingDown ∧ b = some { c with state := .rampDown })

/-- Every record is as it was, or a grant has taken it; the generations stay (R24, R58). -/
def Granted (s t : State) : Prop :=
  (∀ j : SlotIx, t.table[j].gen = s.table[j].gen) ∧ ∀ j : SlotIx, Taken (s.conn j) (t.conn j)

/-- A record that does not wait is not taken by a grant (R40). -/
theorem Taken.eq {a b : Option Conn} (h : Taken a b) (n : ∀ c, a = some c → c.state ≠ .pendingUp ∧ c.state ≠ .pendingDown) :
    b = a := by
  obtain h | ⟨c, hc, ⟨hs, -⟩ | ⟨hs, -⟩⟩ := h
  · exact h
  · exact absurd hs (n c hc).1
  · exact absurd hs (n c hc).2

theorem Taken.trans {a b c : Option Conn} (h : Taken a b) (k : Taken b c) : Taken a c := by
  obtain rfl | ⟨x, hx, ⟨hs, hb⟩ | ⟨hs, hb⟩⟩ := h
  · exact k
  · have := k.eq fun y hy => by
      rw [hb] at hy
      cases hy
      simp
    exact .inr ⟨x, hx, .inl ⟨hs, by rw [this, hb]⟩⟩
  · have := k.eq fun y hy => by
      rw [hb] at hy
      cases hy
      simp
    exact .inr ⟨x, hx, .inr ⟨hs, by rw [this, hb]⟩⟩

theorem Granted.of_table (h : t.table = s.table) : Granted s t :=
  ⟨fun j => by rw [h], fun j => .inl (State.conn_of_table h j)⟩

theorem Granted.refl (s : State) : Granted s s := .of_table rfl

theorem Granted.trans (a : Granted s t) (b : Granted t u) : Granted s u :=
  ⟨fun j => (b.1 j).trans (a.1 j), fun j => (a.2 j).trans (b.2 j)⟩

theorem Granted.conn (g : Granted s t) {j : SlotIx}
    (n : ∀ c, s.conn j = some c → c.state ≠ .pendingUp ∧ c.state ≠ .pendingDown) : t.conn j = s.conn j :=
  (g.2 j).eq n

theorem Granted.conn_some (g : Granted s t) {j : SlotIx} {c : Conn} (hc : s.conn j = some c) (up : c.state ≠ .pendingUp)
    (down : c.state ≠ .pendingDown) : t.conn j = some c := by
  rw [g.conn fun a ha => ?_, hc]
  rw [hc] at ha
  cases ha
  exact ⟨up, down⟩

/-- One record rewritten and then grants: the other records of the step are kept (R58). -/
theorem Granted.others (g : Granted t u) {k : SlotIx} (gens : ∀ j : SlotIx, t.table[j].gen = s.table[j].gen)
    (others : ∀ j, j ≠ k → t.conn j = s.conn j) : OthersKept s u k :=
  ⟨fun j => (g.1 j).trans (gens j), fun j hj => by
    have := g.2 j
    rwa [others j hj] at this⟩

theorem Granted.others_of_put (g : Granted t u) {k : SlotIx} {c : Option Conn} (h : t.table = (s.putConn k c).table) :
    OthersKept s u k :=
  g.others (fun j => by rw [h, State.gen_putConn]) fun j hj => by
    rw [State.conn_of_table h, State.conn_putConn, if_neg hj]

theorem State.takeGrant_granted (s : State) (d : Degree) (h : Handle) : Granted s (s.takeGrant d h) := by
  have put : ∀ {c a : Conn} {t : State}, s.find h = some c → t.table = (s.putConn h.slot (some a)).table →
      (c.state = .pendingUp ∧ some a = some { c with state := .rampUp, shadow := .att 250 } ∨
        c.state = .pendingDown ∧ some a = some { c with state := .rampDown }) → Granted s t := by
    intro c a t hc ht hs
    refine ⟨fun j => by rw [ht, State.gen_putConn], fun j => ?_⟩
    rw [State.conn_of_table ht, State.conn_putConn]
    split
    · next hj =>
      subst hj
      exact .inr ⟨c, ((s.find_eq_some h c).mp hc).2, hs⟩
    · exact .inl rfl
  obtain he | ⟨c, hc, ⟨hs, he⟩ | ⟨hs, he⟩⟩ := s.takeGrant_cases d h
  · rw [he]
    exact .refl s
  · rw [he]
    exact put hc rfl (.inl ⟨hs, rfl⟩)
  · rw [he]
    exact put hc rfl (.inr ⟨hs, rfl⟩)

theorem State.grantEvent_granted (s : State) (d : Degree) : Granted s (s.grantEvent d) :=
  State.grantEvent_keeps (Granted s) d (fun t h g _ => g.trans (t.takeGrant_granted d h)) s (.refl s)

theorem State.joinQueue_granted (s : State) (d : Degree) (h : Handle) : Granted s (s.joinQueue d h) :=
  .trans (.of_table (by rfl)) (State.grantEvent_granted _ d)

theorem State.freeRamp_granted (s : State) (d : Degree) (h : Handle) : Granted s (s.freeRamp d h) :=
  .trans (.of_table (by rfl)) (State.grantEvent_granted _ d)

theorem State.leaveQueue_granted (s : State) (d : Degree) (h : Handle) : Granted s (s.leaveQueue d h) := by
  unfold State.leaveQueue
  split
  · exact .refl s
  · split
    · exact .of_table rfl
    · exact .trans (.of_table (by rfl)) (State.grantEvent_granted _ d)

theorem State.notTaken_granted (s : State) (d : Degree) (r : GrantReq) : Granted s (s.notTaken d r) :=
  .trans (.of_table (by rfl)) (State.grantEvent_granted _ d)

/-! ## Causes -/

/-- The record that a request to add a cause leaves (R37). -/
def Conn.caused (c : Conn) (k : Cause) : Conn :=
  match c.state with
  | .suspended => { c with causes := some ((c.causes.getD .empty).insert k) }
  | .pendingUp => c.suspendedBy k
  | .rampUp => { c.suspendedBy k with power := some .normal }
  | .inService => { c.suspendedBy k with power := some .normal }
  | .pendingDown => { c with state := .draining, shadow := .blocked }
  | .rampDown => { c with state := .draining, shadow := .blocked }
  | _ => c

/-- All that a request to add a cause does to the table: its own record as R37 leaves it, and grants. -/
theorem State.addCause_granted {i : SlotIx} {c : Conn} {d : Degree} (k : Cause) (hi : s.conn i = some c)
    (hd : c.route.sinkDegree = some d) :
    ∃ w, w.table = (s.putConn i (some (c.caused k))).table ∧ Granted w (s.addCause i k) := by
  have same : c.caused k = c → s.table = (s.putConn i (some (c.caused k))).table := by
    intro e
    rw [e, State.putConn_table, ← hi]
    exact (Vector.set_getElem_self ..).symm
  unfold State.addCause
  rw [hi]
  dsimp only
  rw [hd]
  dsimp only
  cases hs : c.state <;> dsimp only
  case proposed => exact ⟨s, same (by simp [Conn.caused, hs]), .refl s⟩
  case armed => exact ⟨s, same (by simp [Conn.caused, hs]), .refl s⟩
  case draining => exact ⟨s, same (by simp [Conn.caused, hs]), .refl s⟩
  case suspended => exact ⟨_, by simp [Conn.caused, hs], .refl _⟩
  case pendingUp => exact ⟨_, by simp [Conn.caused, hs], State.leaveQueue_granted _ _ _⟩
  case rampUp => exact ⟨_, by simp [Conn.caused, hs], State.freeRamp_granted _ _ _⟩
  case inService => exact ⟨_, by simp [Conn.caused, hs], .refl _⟩
  case pendingDown => exact ⟨_, by simp [Conn.caused, hs], State.leaveQueue_granted _ _ _⟩
  case rampDown => exact ⟨_, by simp [Conn.caused, hs], State.freeRamp_granted _ _ _⟩

theorem Conn.caused_not_pending (c : Conn) (k : Cause) :
    (c.caused k).state ≠ .pendingUp ∧ (c.caused k).state ≠ .pendingDown := by
  cases hs : c.state <;> simp [Conn.caused, Conn.suspendedBy, hs]

/-- The record of a slot after a request to add a cause (R37). -/
theorem State.conn_addCause {i : SlotIx} {c : Conn} {d : Degree} (k : Cause) (hi : s.conn i = some c)
    (hd : c.route.sinkDegree = some d) : (s.addCause i k).conn i = some (c.caused k) := by
  obtain ⟨w, hw, g⟩ := State.addCause_granted k hi hd
  obtain ⟨up, down⟩ := c.caused_not_pending k
  refine g.conn_some ?_ up down
  rw [State.conn_of_table hw, State.conn_putConn, if_pos rfl]

theorem Conn.caused_tripDark (c : Conn) : (c.caused .trip).tripDark := by
  cases hs : c.state <;> simp [Conn.caused, Conn.suspendedBy, Conn.tripDark, Causes.insert, hs]

end

end Sys2Proof.Machine
end

