-- ==== Sys2Proof/Proofs/Dark.lean ====
section
/-! Proofs/Dark.lean: the laws of darkness (O55). -/

set_option Elab.async false

namespace Sys2Proof.Machine
open Sys2Proof

section
variable {L : Prop} {T : Degree → Prop} {U : Prop} {s t u : State}

/-! ## A degree that trips -/

/-- A record that is to be dark under its sink degree's trip stays so while the trip stands (R148). -/
theorem Moves.tripDark (m : Moves L T U s t) {d : Degree} (hT : T d) (hf : t.tripInForce d = true) {i : SlotIx}
    {c c' : Conn} (hc : s.conn i = some c) (hd : c.route.sinkDegree = some d) (dark : c.tripDark)
    (hc' : t.conn i = some c') : c'.tripDark := by
  induction m generalizing c' with
  | refl =>
    rw [hc] at hc'
    cases hc'
    exact dark
  | tail m₁ m₂ ih =>
    have hfb := m₂.tripInForce hT hf
    obtain ⟨a, ha, -, rfl | r⟩ := m₂.row.conn hc'
    · exact ih hfb ha
    · obtain ⟨a', ha', hr⟩ := Moves.conn m₁ ha
      rw [hc] at ha'
      cases ha'
      exact r.trip d hT (by rw [hr, hd]) hfb (ih hfb ha)

/-- TRIP requested of every record that may not be dark yet leaves all of a degree's dark (R147). -/
theorem State.addTrips_tripDark {d : Degree} (l : List SlotIx) (s : State) (hf : s.tripInForce d = true)
    (h : ∀ (i : SlotIx) (c : Conn), s.conn i = some c → c.route.sinkDegree = some d → i ∈ l ∨ c.tripDark) :
    ∀ (i : SlotIx) (c : Conn), (l.foldl (fun s i => s.addCause i .trip) s).conn i = some c →
      c.route.sinkDegree = some d → c.tripDark := by
  induction l generalizing s with
  | nil => exact fun i c hc hd => (h i c hc hd).resolve_left (by simp)
  | cons k l ih =>
    have m : Moves True (fun _ => True) True s (s.addCause k .trip) := s.addCause_moves k .trip
    have hf' : (s.addCause k .trip).tripInForce d = true := by
      simpa only [State.tripInForce, State.addCause_frame] using hf
    refine ih (s.addCause k .trip) hf' fun i c' hc' hd' => ?_
    obtain ⟨c, hc, hr⟩ := m.conn hc'
    have hd : c.route.sinkDegree = some d := by rw [← hr, hd']
    obtain hi | dark := h i c hc hd
    · obtain rfl | hi := List.mem_cons.mp hi
      · rw [State.conn_addCause .trip hc hd] at hc'
        cases hc'
        exact .inr c.caused_tripDark
      · exact .inl hi
    · exact .inr (m.tripDark trivial hf' hc hd dark hc')

/-- A degree that enters TRIPPED has every record sinking on it dark (R147, R148). -/
theorem State.enterTripped_tripOkAt (s : State) (d : Degree) : (s.enterTripped d).tripOkAt d := by
  intro hf i c' hc' hd'
  unfold State.enterTripped at hc' hf
  dsimp only at hc' hf
  generalize hw : ((s.mapTrip d fun t => { t with state := .tripped, timer := none }).tellManager d _).flagManager d _ = w
    at hc' hf
  have table : w.table = s.table := by rw [← hw]; simp
  have inForce : w.tripInForce d = true := by
    have trips : w.trips = (s.mapTrip d fun t => { t with state := .tripped, timer := none }).trips := by
      rw [← hw]
      simp
    rw [State.tripInForce, trips, State.mapTrip_trips, get_set_self]
    rfl
  have m : Moves True (fun _ => True) True ((s.sinking d).foldl (fun s i => s.addCause i .trip) w) _ :=
    Moves.foldl _ (fun s i => (s.drainTest_edits i).moves)
      ((s.sinking d).filter fun i => ¬ (s.conn i).any fun c => c.state == .draining) _
  obtain ⟨c, hc, hr⟩ := m.conn hc'
  have hd : c.route.sinkDegree = some d := by rw [← hr, hd']
  refine m.tripDark trivial hf hc hd ?_ hc'
  refine State.addTrips_tripDark (s.sinking d) w inForce (fun i a ha hda => .inl ?_) i c hc hd
  exact (s.mem_sinking d i).mpr ⟨a, by rw [← State.conn_of_table table, ha], hda⟩

/-! ## Darkness through the operations of a trip -/

theorem Moves.tripOk (m : Moves L (fun _ => True) U s t) (h : s.tripOk) : t.tripOk :=
  t.tripOk_iff.mpr fun d => m.tripOkAt trivial (s.tripOk_iff.mp h d)

/-- Moves that keep the trip law of every degree but one, which holds it afterwards. -/
theorem Moves.tripOk_of_one {d : Degree} (m : Moves L (· ≠ d) U s t) (h : s.tripOk) (own : t.tripOkAt d) : t.tripOk :=
  t.tripOk_iff.mpr fun k => by
    by_cases hk : k = d
    · exact hk ▸ own
    · exact m.tripOkAt hk (s.tripOk_iff.mp h k)

theorem State.enterTripped_tripOk {d : Degree} (h : s.tripOk) : (s.enterTripped d).tripOk :=
  Moves.tripOk_of_one (L := True) (U := True) (State.enterTripped_moves fun hT => absurd rfl hT) h
    (s.enterTripped_tripOkAt d)

/-- A change of trip state keeps the trip law; HOLDING is entered out of a trip in force (R147 to R149, R152). -/
theorem State.applyTrip_tripOk {d : Degree} {ch : TripChange} (h : s.tripOk)
    (hold : ch = .hold → s.tripInForce d = true) : (s.applyTrip d ch).tripOk := by
  cases ch with
  | trip => exact State.enterTripped_tripOk h
  | hold =>
    exact Moves.tripOk (L := True) (U := True) (State.enterHolding_edit fun _ => hold rfl).moves h
  | clear => exact Moves.tripOk (L := True) (U := True) (s.endTrip_moves d) h

theorem State.setLine_tripOk {d : Degree} {line : LineLevel} (h : s.tripOk) : (s.setLine d line).tripOk :=
  Moves.tripOk (L := True) (U := True) (s.setLine_edit d line).moves h

theorem State.reread_tripOk {d : Degree} (h : s.tripOk) : (s.reread d).tripOk := by
  unfold State.reread
  split
  · exact h
  · split
    · next ch hc =>
      refine State.applyTrip_tripOk (State.setLine_tripOk h) fun he => ?_
      rw [State.tripInForce_setLine]
      rw [he] at hc
      exact State.tripInForce_of_ne (by rw [(State.lineChange_hold hc).1]; simp)
    · exact State.setLine_tripOk h

theorem State.settingEffects_tripOk {d : Degree} (old : Settings) (h : s.tripOk) : (s.settingEffects d old).tripOk := by
  unfold State.settingEffects
  dsimp only
  have reread : (if old.activeLevel = s.settings[d].activeLevel then s else s.reread d).tripOk := by
    split
    · exact h
    · exact State.reread_tripOk h
  generalize (if old.activeLevel = s.settings[d].activeLevel then s else s.reread d) = u at reread ⊢
  have mode : (if old.mode = u.settings[d].mode then u else u.modeChange d).tripOk := by
    split
    · exact reread
    · exact Moves.tripOk (L := True) (U := True) (u.modeChange_moves d) reread
  generalize (if old.mode = u.settings[d].mode then u else u.modeChange d) = v at mode ⊢
  split
  · exact Moves.tripOk (L := True) (U := True) (v.grantEvent_moves d) mode
  · exact mode

/-- The work of a line keeps the trip law (R156, R157). -/
theorem State.takeUp_tripOk {kind : ResetKind} (w : ResetWork) (h : s.tripOk) : (s.takeUp kind w).tripOk := by
  cases w with
  | batch l => exact Moves.tripOk (L := True) (U := True) (State.takeUp_moves fun _ hw => nomatch hw) h
  | choice => exact Moves.tripOk (L := True) (U := True) (State.takeUp_moves fun _ hw => nomatch hw) h
  | line d =>
    have line : (s.setLine d (s.readLine d)).tripOk := State.setLine_tripOk h
    cases kind with
    | cold =>
      show (s.coldLine d).tripOk
      unfold State.coldLine
      dsimp only
      split
      · exact State.enterTripped_tripOk line
      · exact line
    | warm =>
      show (s.warmLine d).tripOk
      have hold : s.trips[d].state ≠ .clear → (if s.settings[d].hold = 0 then (s.setLine d (s.readLine d)).endTrip d
          else (s.setLine d (s.readLine d)).enterHolding d).tripOk := by
        intro hs
        split
        · exact State.applyTrip_tripOk (ch := .clear) line (by simp)
        · refine State.applyTrip_tripOk (ch := .hold) line fun _ => ?_
          rw [State.tripInForce_setLine]
          exact State.tripInForce_of_ne hs
      unfold State.warmLine
      dsimp only
      split
      · exact line
      · exact State.enterTripped_tripOk line
      · exact line
      · next hs _ =>
        split
        · exact line
        · exact hold (by rw [hs]; simp)
      · next hs _ => exact hold (by rw [hs]; simp)
      · exact State.enterTripped_tripOk line

/-! ## What waits at CNM -/

@[simp] theorem State.armRecord_held (s : State) (i : SlotIx) (c : Conn) : (s.armRecord i c).held = s.held := by simp

theorem State.enterRecord_frame (s : State) (i : SlotIx) (c : Conn) :
    (s.enterRecord i c).passReqs = s.passReqs ∧ (s.enterRecord i c).tripReqs = s.tripReqs ∧
    (s.enterRecord i c).trips = s.trips ∧ (s.enterRecord i c).settings = s.settings ∧
    (s.enterRecord i c).held = s.held := by
  unfold State.enterRecord
  dsimp only
  split <;> simp

theorem State.batchSettled_frame (s : State) (l : LinkId) (b : Batch) :
    (s.batchSettled l b).passReqs = s.passReqs ∧ (s.batchSettled l b).tripReqs = s.tripReqs ∧
    (s.batchSettled l b).trips = s.trips ∧ (s.batchSettled l b).settings = s.settings ∧
    (s.batchSettled l b).held = s.held := by
  obtain ⟨-, -, -, -, trips, -, held, settings, passes, hands, -⟩ := s.batchDone_frame l b
  have drained : ∀ u : State, (u.drainLink l).passReqs = u.passReqs ∧ (u.drainLink l).tripReqs = u.tripReqs ∧
      (u.drainLink l).trips = u.trips ∧ (u.drainLink l).settings = u.settings ∧ (u.drainLink l).held = u.held := by
    intro u
    unfold State.drainLink
    split
    · refine ⟨foldl_keeps (·.passReqs) _ ?_ _ _, foldl_keeps (·.tripReqs) _ ?_ _ _, foldl_keeps (·.trips) _ ?_ _ _,
        foldl_keeps (·.settings) _ ?_ _ _, foldl_keeps (·.held) _ ?_ _ _⟩
      all_goals
        intro s i
        simp
    · exact ⟨rfl, rfl, rfl, rfl, rfl⟩
  have ready : ∀ (u : State) (kind : BatchKind), (u.linkReady l kind).passReqs = u.passReqs ∧
      (u.linkReady l kind).tripReqs = u.tripReqs ∧ (u.linkReady l kind).trips = u.trips ∧
      (u.linkReady l kind).settings = u.settings ∧ (u.linkReady l kind).held = u.held := by
    intro u kind
    unfold State.linkReady
    split
    · dsimp only
      split <;> simp
    · split <;> simp
  unfold State.batchSettled
  split <;> simp [drained, ready, trips, held, settings, passes, hands]

theorem State.takeResult_frame (s : State) (d : Degree) (r : PassResult) :
    (s.takeResult d r).passReqs = s.passReqs ∧ (s.takeResult d r).tripReqs = s.tripReqs ∧
    (s.takeResult d r).trips = s.trips ∧ (s.takeResult d r).settings = s.settings ∧
    (s.takeResult d r).held = s.held := by
  have power : ∀ (u : State) (h : Handle) (c : Conn), (u.tellPower h c r).passReqs = u.passReqs ∧
      (u.tellPower h c r).tripReqs = u.tripReqs ∧ (u.tellPower h c r).trips = u.trips ∧
      (u.tellPower h c r).settings = u.settings ∧ (u.tellPower h c r).held = u.held := by
    intro u h c
    unfold State.tellPower
    split
    · exact ⟨rfl, rfl, rfl, rfl, rfl⟩
    · split <;> simp
  have applied : ∀ (i : SlotIx) (c : Conn), (s.applyResult d i c r).passReqs = s.passReqs ∧
      (s.applyResult d i c r).tripReqs = s.tripReqs ∧ (s.applyResult d i c r).trips = s.trips ∧
      (s.applyResult d i c r).settings = s.settings ∧ (s.applyResult d i c r).held = s.held := by
    intro i c
    unfold State.applyResult
    dsimp only
    have stored : ∀ p : Prop, [Decidable p] → ∀ k : LinkId,
        (if p then s.putConn i (some (c.apply r)) else (s.putConn i (some (c.apply r))).mark k).passReqs = s.passReqs ∧
        (if p then s.putConn i (some (c.apply r)) else (s.putConn i (some (c.apply r))).mark k).tripReqs = s.tripReqs ∧
        (if p then s.putConn i (some (c.apply r)) else (s.putConn i (some (c.apply r))).mark k).trips = s.trips ∧
        (if p then s.putConn i (some (c.apply r)) else (s.putConn i (some (c.apply r))).mark k).settings = s.settings ∧
        (if p then s.putConn i (some (c.apply r)) else (s.putConn i (some (c.apply r))).mark k).held = s.held := by
      intro p _ k
      split <;> simp
    generalize hu : (if r.shadow = c.shadow then s.putConn i (some (c.apply r))
      else (s.putConn i (some (c.apply r))).mark c.route.link) = u
    have hs := stored (r.shadow = c.shadow) c.route.link
    rw [hu] at hs
    split
    · simp [power, hs]
    · simp [hs]
    · split <;> simp [power, hs]
    · exact hs
  unfold State.takeResult
  split
  · exact ⟨rfl, rfl, rfl, rfl, rfl⟩
  · split
    · exact applied _ _
    · exact ⟨rfl, rfl, rfl, rfl, rfl⟩

theorem State.trip_mapTrip_other (s : State) {d k : Degree} (f : Trip → Trip) (h : k ≠ d) :
    (s.mapTrip d f).trips[k] = s.trips[k] := by rw [State.mapTrip_trips, get_set_ne _ _ h]

/-- What SET_DEGREE's effects leave: the requests at CNM, and the other degrees' settings and trips (R153, R154). -/
theorem State.settingEffects_frame (s : State) (d : Degree) (old : Settings) :
    (s.settingEffects d old).passReqs = s.passReqs ∧ (s.settingEffects d old).tripReqs = s.tripReqs ∧
    (s.settingEffects d old).settings = s.settings ∧ (s.settingEffects d old).held = s.held ∧
    ∀ k, k ≠ d → (s.settingEffects d old).trips[k] = s.trips[k] := by
  have line : ∀ (u : State) (x : LineLevel) k, k ≠ d → (u.setLine d x).trips[k] = u.trips[k] := fun u x k hk =>
    State.trip_mapTrip_other u _ hk
  have reread : ∀ u : State, (u.reread d).passReqs = u.passReqs ∧ (u.reread d).tripReqs = u.tripReqs ∧
      (u.reread d).settings = u.settings ∧ (u.reread d).held = u.held ∧
      ∀ k, k ≠ d → (u.reread d).trips[k] = u.trips[k] := by
    intro u
    unfold State.reread
    split
    · exact ⟨rfl, rfl, rfl, rfl, fun _ _ => rfl⟩
    · split
      · refine ⟨by simp [State.setLine], by simp [State.setLine], by simp [State.setLine], by simp [State.setLine],
          fun k hk => ?_⟩
        rw [State.trip_applyTrip _ _ hk, line _ _ _ hk]
      · exact ⟨rfl, rfl, rfl, rfl, line _ _⟩
  have mode : ∀ u : State, (u.modeChange d).passReqs = u.passReqs ∧ (u.modeChange d).tripReqs = u.tripReqs ∧
      (u.modeChange d).settings = u.settings ∧ (u.modeChange d).held = u.held ∧
      ∀ k, k ≠ d → (u.modeChange d).trips[k] = u.trips[k] := by
    intro u
    unfold State.modeChange
    dsimp only
    split
    · split
      · split
        · exact ⟨by simp, by simp, by simp, by simp, fun k hk => State.trip_applyTrip u .clear hk⟩
        · exact ⟨rfl, rfl, rfl, rfl, fun k hk => State.trip_applyTrip u .hold hk⟩
      · exact ⟨rfl, rfl, rfl, rfl, fun _ _ => rfl⟩
    · split
      · exact ⟨rfl, rfl, rfl, rfl, fun k hk => State.trip_mapTrip_other u _ hk⟩
      · exact ⟨rfl, rfl, rfl, rfl, fun _ _ => rfl⟩
  unfold State.settingEffects
  dsimp only
  generalize hu : (if old.activeLevel = s.settings[d].activeLevel then s else s.reread d) = u
  have hu' : u.passReqs = s.passReqs ∧ u.tripReqs = s.tripReqs ∧ u.settings = s.settings ∧ u.held = s.held ∧
      ∀ k, k ≠ d → u.trips[k] = s.trips[k] := by
    rw [← hu]
    split
    · exact ⟨rfl, rfl, rfl, rfl, fun _ _ => rfl⟩
    · exact reread s
  generalize hv : (if old.mode = u.settings[d].mode then u else u.modeChange d) = v
  have hv' : v.passReqs = u.passReqs ∧ v.tripReqs = u.tripReqs ∧ v.settings = u.settings ∧ v.held = u.held ∧
      ∀ k, k ≠ d → v.trips[k] = u.trips[k] := by
    rw [← hv]
    split
    · exact ⟨rfl, rfl, rfl, rfl, fun _ _ => rfl⟩
    · exact mode u
  obtain ⟨p1, h1, g1, e1, t1⟩ := hu'
  obtain ⟨p2, h2, g2, e2, t2⟩ := hv'
  have trips : ∀ k, k ≠ d → v.trips[k] = s.trips[k] := fun k hk => (t2 k hk).trans (t1 k hk)
  split
  · exact ⟨by simp [p1, p2], by simp [h1, h2], by simp [g1, g2], by simp [e1, e2], fun k hk =>
      (congrArg (·[k]) (State.grantEvent_frame v d).2.2.2.2.2.2.2.2.2.2.1).trans (trips k hk)⟩
  · exact ⟨p2.trans p1, h2.trans h1, g2.trans g1, e2.trans e1, trips⟩

/-! ## Darkness kept by every step -/

theorem Course.dark (c : Course s t) (h : s.darkOk) : t.darkOk :=
  ⟨c.moves.blockedOk h.1, c.moves.tripOk h.2.1, c.requests h.2.2⟩

/-- Moves and requests untouched keep the laws of darkness. -/
theorem Moves.dark (m : Moves True (fun _ => True) U s t) (h : s.darkOk) (passes : t.passReqs = s.passReqs)
    (hands : t.tripReqs = s.tripReqs) (trips : t.trips = s.trips) (settings : t.settings = s.settings)
    (held : t.held = s.held) : t.darkOk :=
  ⟨m.blockedOk h.1, m.tripOk h.2.1, State.requestsOk_of h.2.2 passes hands trips settings held⟩

theorem State.finish_dark (h : s.darkOk) : s.finish.darkOk :=
  Moves.dark (U := True) (s.finish_edits).moves h (by simp) (by simp) (by simp) (by simp) (by simp)

theorem State.reply_dark (h : s.darkOk) (p : Domain) (tag : Byte) (a : Answer) : (s.reply p tag a).darkOk :=
  ((Course.refl s).reply p tag a).dark h

/-- A hand-off taken (R146, R147): a change to HOLDING waited for a degree in TRIPPED. -/
theorem State.takeHandOff_dark {d : Degree} (h : s.darkOk) (held : s.held = none) : (s.takeHandOff d).darkOk := by
  obtain ⟨blocked, trip, requests⟩ := h
  have m : Moves True (· ≠ d) True s (s.takeHandOff d) := State.takeHandOff_moves fun _ _ _ hT => absurd rfl hT
  refine ⟨m.blockedOk blocked, ?_, ?_⟩
  · unfold State.takeHandOff
    split
    · exact trip
    · next ch hc =>
      refine State.applyTrip_tripOk (s := { s with tripReqs := s.tripReqs.set d none }) trip fun he => ?_
      rw [he] at hc
      exact State.tripInForce_of_ne (s := s) (by rw [(requests.2.1 d hc).1]; simp)
  · cases hc : s.tripReqs[d] with
    | none => rwa [State.takeHandOff, hc]
    | some ch =>
      have he : s.takeHandOff d = ({ s with tripReqs := s.tripReqs.set d none } : State).applyTrip d ch := by
        rw [State.takeHandOff, hc]
      have hands : (s.takeHandOff d).tripReqs = s.tripReqs.set d none := by rw [he]; simp
      refine State.requestsOk_of_degree requests (by simp) d (fun k hk => by rw [hands, get_set_ne _ _ hk])
        (fun k hk => by rw [he, State.trip_applyTrip _ _ hk]) (fun k _ => by simp) (by simp [held]) fun hh => ?_
      rw [hands, get_set_self] at hh
      cases hh

theorem State.tripReqs_takeHandOff (s : State) (d : Degree) : (s.takeHandOff d).tripReqs[d] = none := by
  cases hc : s.tripReqs[d] with
  | none => rwa [State.takeHandOff, hc]
  | some ch =>
    have hands : (s.takeHandOff d).tripReqs = s.tripReqs.set d none := by rw [State.takeHandOff, hc]; simp
    rw [hands, get_set_self]

/-- SET_DEGREE with no hand-off waiting (R169 to R173). -/
theorem storeDegree_dark {p : Domain} {d : Degree} {changes : List (Nat × Int)} (h : s.darkOk) (held : s.held = none)
    (none : s.tripReqs[d] = none) : (storeDegree p d changes s).1.darkOk := by
  obtain ⟨blocked, trip, requests⟩ := h
  have m : Moves True (· ≠ d) True s (storeDegree p d changes s).1 := storeDegree_moves fun hT => hT rfl
  refine ⟨m.blockedOk blocked, ?_, ?_⟩
  · unfold storeDegree
    split
    · exact trip
    · split
      · exact trip
      · exact State.settingEffects_tripOk (s := { s with settings := s.settings.set d (s.changedSettings d changes) }) _
          trip
  · unfold storeDegree
    split
    · exact requests
    · split
      · exact requests
      · dsimp only
        obtain ⟨passes, hands, settings, held', trips⟩ := State.settingEffects_frame
          { s with settings := s.settings.set d (s.changedSettings d changes) } d s.settings[d]
        refine State.requestsOk_of_degree requests passes d (fun k _ => by rw [hands]) (fun k hk => by rw [trips k hk])
          (fun k hk => by rw [settings, get_set_ne _ _ hk]) (held'.trans held) fun hh => ?_
        rw [hands] at hh
        rw [show ({ s with settings := s.settings.set d (s.changedSettings d changes) } : State).tripReqs[d] = _ from none]
          at hh
        cases hh

/-- The laws of darkness in a state that holds no record and to which no request waits. -/
theorem State.darkOk_of_empty (empty : ∀ i, s.conn i = none) (passes : ∀ d : Degree, s.passReqs[d] = [])
    (hands : ∀ d : Degree, s.tripReqs[d] = none) : s.darkOk := by
  refine ⟨fun i c hc => ?_, fun i c d hc => ?_, fun d r hr => ?_, fun d hh => ?_, fun _ => hands⟩
  · rw [empty i] at hc; cases hc
  · rw [empty i] at hc; cases hc
  · rw [passes d] at hr; cases hr
  · rw [hands d] at hh; cases hh

theorem State.enterCold_dark (s : State) : s.enterCold.darkOk := by
  refine State.darkOk_of_empty (fun i => ?_) (fun d => ?_) fun d => ?_
  · show (Vector.replicate 128 (⟨0, none⟩ : Slot))[i].conn = none
    simp
  · show (Vector.replicate 4 [])[d] = []
    simp
  · show (Vector.replicate 4 none)[d] = none
    simp

/-- What the freeing of PROPOSED records leaves (R45, R52). -/
theorem State.warmFree_frame (s : State) (i : SlotIx) :
    (s.warmFree i).managers = s.managers ∧ (s.warmFree i).settings = s.settings ∧
    (s.warmFree i).switchGen = s.switchGen ∧ (s.warmFree i).trips = s.trips ∧ (s.warmFree i).nodeTime = s.nodeTime ∧
    (s.warmFree i).tripPins = s.tripPins ∧ (s.warmFree i).matrix = s.matrix ∧ (s.warmFree i).links = s.links := by
  unfold State.warmFree
  split
  · exact ⟨rfl, rfl, rfl, rfl, rfl, rfl, rfl, rfl⟩
  · split
    · next h =>
      obtain ⟨matrix, links⟩ := State.freeRecord_proposed (s := s) (i := i) h
      simp [matrix, links]
    · exact ⟨rfl, rfl, rfl, rfl, rfl, rfl, rfl, rfl⟩

theorem State.warmFrees_frame (s : State) :
    (slots.foldl State.warmFree s).managers = s.managers ∧ (slots.foldl State.warmFree s).settings = s.settings ∧
    (slots.foldl State.warmFree s).switchGen = s.switchGen ∧ (slots.foldl State.warmFree s).trips = s.trips ∧
    (slots.foldl State.warmFree s).nodeTime = s.nodeTime ∧ (slots.foldl State.warmFree s).tripPins = s.tripPins ∧
    (slots.foldl State.warmFree s).matrix = s.matrix ∧ (slots.foldl State.warmFree s).links = s.links := by
  refine ⟨foldl_keeps (·.managers) _ ?_ _ _, foldl_keeps (·.settings) _ ?_ _ _, foldl_keeps (·.switchGen) _ ?_ _ _,
    foldl_keeps (·.trips) _ ?_ _ _, foldl_keeps (·.nodeTime) _ ?_ _ _, foldl_keeps (·.tripPins) _ ?_ _ _,
    foldl_keeps (·.matrix) _ ?_ _ _, foldl_keeps (·.links) _ ?_ _ _⟩
  all_goals
    intro s i
    simp [State.warmFree_frame s i]

/-- A warm reset keeps every trip state, its timer stopped (R157). -/
theorem State.trip_enterWarm (s : State) (d : Degree) : s.enterWarm.trips[d] = { s.trips[d] with timer := none } := by
  have trips : s.enterWarm.trips = s.trips.map fun t => { t with timer := none } := by
    rw [← (State.warmFrees_frame s).2.2.2.1]
    unfold State.enterWarm
    generalize slots.foldl State.warmFree s = u
    rfl
  rw [trips, Fin.getElem_fin, Vector.getElem_map]
  rfl

/-- A warm reset clears what waits at CNM (R58, R97, R157). -/
theorem State.requests_enterWarm (s : State) (d : Degree) :
    s.enterWarm.grantReqs[d] = [] ∧ s.enterWarm.passReqs[d] = [] ∧ s.enterWarm.tripReqs[d] = none := by
  unfold State.enterWarm
  generalize slots.foldl State.warmFree s = u
  refine ⟨?_, ?_, ?_⟩
  · show (Vector.replicate 4 [])[d] = []
    simp
  · show (Vector.replicate 4 [])[d] = []
    simp
  · show (Vector.replicate 4 none)[d] = none
    simp

theorem State.enterWarm_dark (h : s.darkOk) : s.enterWarm.darkOk := by
  obtain ⟨blocked, trip, requests⟩ := h
  have kept : ∀ {i c}, s.enterWarm.conn i = some c → s.conn i = some c := by
    intro i c hc
    rw [State.conn_enterWarm] at hc
    split at hc
    · cases hc
    · exact hc
  refine ⟨fun i c hc => blocked i c (kept hc), fun i c d hc hd hf => trip i c d (kept hc) hd ?_, fun d r hr => ?_,
    fun d hh => ?_, fun _ d => (s.requests_enterWarm d).2.2⟩
  · rwa [State.tripInForce, State.trip_enterWarm] at hf
  · rw [(s.requests_enterWarm d).2.1] at hr
    cases hr
  · rw [(s.requests_enterWarm d).2.2] at hh
    cases hh

/-! ### Leaving a reset -/

theorem State.takeUp_frame (s : State) (kind : ResetKind) (w : ResetWork) :
    (s.takeUp kind w).passReqs = s.passReqs ∧ (s.takeUp kind w).tripReqs = s.tripReqs ∧
    (s.takeUp kind w).held = s.held := by
  have cold : ∀ d, (s.coldLine d).passReqs = s.passReqs ∧ (s.coldLine d).tripReqs = s.tripReqs ∧
      (s.coldLine d).held = s.held := by
    intro d
    unfold State.coldLine
    dsimp only
    split <;> simp [State.setLine]
  have warm : ∀ d, (s.warmLine d).passReqs = s.passReqs ∧ (s.warmLine d).tripReqs = s.tripReqs ∧
      (s.warmLine d).held = s.held := by
    intro d
    have hold : ∀ u : State, (if s.settings[d].hold = 0 then u.endTrip d else u.enterHolding d).passReqs = u.passReqs ∧
        (if s.settings[d].hold = 0 then u.endTrip d else u.enterHolding d).tripReqs = u.tripReqs ∧
        (if s.settings[d].hold = 0 then u.endTrip d else u.enterHolding d).held = u.held := by
      intro u
      split <;> simp
    unfold State.warmLine
    dsimp only
    split
    case h_4 =>
      split
      · exact ⟨rfl, rfl, rfl⟩
      · exact hold (s.setLine d (s.readLine d))
    case h_5 => exact hold (s.setLine d (s.readLine d))
    all_goals simp [State.setLine]
  cases w with
  | line d =>
    cases kind with
    | cold => exact cold d
    | warm => exact warm d
  | batch l => cases kind <;> simp [State.takeUp, State.resync]
  | choice => simp [State.takeUp]

theorem State.keptTripFlags_frame (s before : State) :
    (s.keptTripFlags before).passReqs = s.passReqs ∧ (s.keptTripFlags before).tripReqs = s.tripReqs ∧
    (s.keptTripFlags before).trips = s.trips ∧ (s.keptTripFlags before).settings = s.settings ∧
    (s.keptTripFlags before).held = s.held ∧ (s.keptTripFlags before).links = s.links := by
  unfold State.keptTripFlags
  refine ⟨foldl_keeps (·.passReqs) _ ?_ _ _, foldl_keeps (·.tripReqs) _ ?_ _ _, foldl_keeps (·.trips) _ ?_ _ _,
    foldl_keeps (·.settings) _ ?_ _ _, foldl_keeps (·.held) _ ?_ _ _, foldl_keeps (·.links) _ ?_ _ _⟩
  all_goals
    intro s d
    split <;> simp

/-- The work of a reset's end keeps the laws of darkness, no hand-off waiting (R157). -/
theorem State.takeUps_dark {kind : ResetKind} (ws : List ResetWork) (h : s.darkOk)
    (hands : ∀ d : Degree, s.tripReqs[d] = none) : (ws.foldl (State.takeUp kind) s).darkOk := by
  induction ws generalizing s with
  | nil => exact h
  | cons w ws ih =>
    obtain ⟨passes, hands', held⟩ := s.takeUp_frame kind w
    obtain ⟨blocked, trip, requests⟩ := h
    have m : Moves True (fun _ => False) True s (s.takeUp kind w) := State.takeUp_moves fun _ _ h => h
    refine ih ⟨m.blockedOk blocked, State.takeUp_tripOk w trip, ?_, fun d hh => ?_, fun _ d => ?_⟩ fun d => ?_
    · simpa only [passes] using requests.1
    · rw [hands', hands d] at hh
      cases hh
    · rw [hands', hands d]
    · rw [hands', hands d]

theorem State.leave_dark {kind : ResetKind} {order : List ResetWork} (h : s.darkOk) (held : s.held = some kind) :
    (s.leave kind order).darkOk := by
  obtain ⟨blocked, trip, requests⟩ := h
  have hands : ∀ d : Degree, s.tripReqs[d] = none := requests.2.2 (by rw [held]; simp)
  have flushed : ∀ u : State, u.darkOk → u.flushLinks.darkOk := fun u hu =>
    Moves.dark (U := True) (u.flushLinks_edits).moves hu (by simp) (by simp) (by simp) (by simp) (by simp)
  have flagged : ∀ u : State, u.darkOk → (u.keptTripFlags s).darkOk := fun u hu => by
    obtain ⟨passes, hands, trips, settings, held, -⟩ := u.keptTripFlags_frame s
    exact Moves.dark (U := True) (u.keptTripFlags_edits s).moves hu passes hands trips settings held
  have begun : (s.leaving kind).darkOk := by
    cases kind
    all_goals exact ⟨blocked, trip, requests.1, requests.2.1, fun _ => hands⟩
  have begunHands : ∀ d : Degree, (s.leaving kind).tripReqs[d] = none := by
    cases kind
    all_goals exact hands
  have work := State.takeUps_dark (kind := kind) (workOrder order) begun begunHands
  cases kind with
  | cold => exact flushed _ work
  | warm => exact flushed _ (flagged _ work)

/-- Every command and event keeps the laws of darkness. -/
theorem exec_dark {i : Instr} (e : exec i s = .next t) (h : s.darkOk) : t.darkOk := by
  cases exec_shape e with
  | course c => exact c.dark h
  | wires w =>
    obtain ⟨blocked, trip, requests⟩ := h
    refine ⟨fun k c hc => ?_, fun k c d hc hd hf => ?_, State.requestsOk_of requests w.passes w.hands w.trips w.settings
      w.held⟩
    · exact blocked k c (by rwa [State.conn_of_table w.table] at hc)
    · exact trip k c d (by rwa [State.conn_of_table w.table] at hc) hd
        (by simpa only [State.tripInForce, w.trips] using hf)
  | @admitted _ k c free peer new dark p tag a he =>
    obtain ⟨passes, hands, trips, settings, held⟩ := s.enterRecord_frame k c
    have entered : (s.entered k c).trips = s.trips := by simp [State.entered]
    have m : Moves True (fun _ => True) True (s.entered k c) (s.enterRecord k c) := (State.enterRecord_edits peer).moves
    rw [he]
    refine State.reply_dark (State.finish_dark ⟨m.blockedOk fun j b hb hs => ?_, m.tripOk fun j b d hb hd hf => ?_,
      State.requestsOk_of h.2.2 passes hands trips settings held⟩) _ _ _
    · rw [State.conn_entered] at hb
      split at hb
      · cases hb
        exact dark
      · exact h.1 j b hb hs
    · rw [State.conn_entered] at hb
      split at hb
      · cases hb
        exact new.imp id .inl
      · exact h.2.1 j b d hb hd (by simpa only [State.tripInForce, entered] using hf)
  | @completed _ l b hb he =>
    obtain ⟨table, -, -, -, trips, -, held, settings, passes, hands, -⟩ := s.batchDone_frame l b
    have done : (s.batchDone l b).darkOk :=
      ⟨fun k c hc => h.1 k c (by rwa [State.conn_of_table table] at hc),
        fun k c d hc hd hf => h.2.1 k c d (by rwa [State.conn_of_table table] at hc) hd
          (by simpa only [State.tripInForce, trips] using hf),
        State.requestsOk_of h.2.2 passes hands trips settings held⟩
    obtain ⟨passes', hands', trips', settings', held'⟩ := s.batchSettled_frame l b
    rw [he, State.completeBatch_eq]
    refine State.finish_dark (Moves.dark (U := True)
      (Edits.moves ((State.batchSettled_edits s l b).tail (State.sendIfPending_edit _ l))) done ?_ ?_ ?_ ?_ ?_)
    all_goals simp [passes, hands, trips, settings, held, passes', hands', trips', settings', held']
  | @passed held d r rest hr he =>
    have law : r.computedFor.covered = true ∧ ∀ k : CState, r.toState = some k → k.blocked = true → r.shadow = .blocked :=
      h.2.2.1 d r (by rw [hr]; exact List.mem_cons_self ..)
    have m : Moves True (fun _ => True) False s _ := State.passed_moves (s := s) (d := d) (r := r) (rest := rest)
      fun _ _ _ => ⟨False.elim, fun _ => law, fun _ _ => law.1⟩
    obtain ⟨passes, hands, trips, settings, held'⟩ :=
      State.takeResult_frame { s with passReqs := s.passReqs.set d rest } d r
    rw [he]
    refine State.finish_dark ⟨m.blockedOk h.1, m.tripOk h.2.1, fun k x hx => ?_, ?_, ?_⟩
    · rw [passes, get_set] at hx
      split at hx
      · exact h.2.2.1 d x (by rw [hr]; exact List.mem_cons_of_mem _ hx)
      · exact h.2.2.1 k x hx
    · rw [hands, trips, settings]
      exact h.2.2.2.1
    · rw [hands, held']
      exact h.2.2.2.2
  | @handed held d he =>
    rw [he]
    exact State.finish_dark (State.takeHandOff_dark h held)
  | @degreeSet held d p changes tag a he =>
    rw [he]
    exact State.reply_dark (State.finish_dark (storeDegree_dark (State.takeHandOff_dark h held) (by simp [held])
      (s.tripReqs_takeHandOff d))) _ _ _
  | chilled _ he =>
    rw [he]
    exact s.enterCold_dark
  | warmed _ he =>
    rw [he]
    exact State.enterWarm_dark h
  | left held he =>
    rw [he]
    exact State.leave_dark h held
  | ticked c he =>
    rw [he]
    exact c.dark h

end

/-- A step is idle, or carries out the front of the queue with the queue's rest (log entry 1). -/
theorem step_cases {s t : State} (h : step s = .next t) :
    t = s ∨ ∃ i rest, exec i { s with pending := rest } = .next t := by
  unfold step at h
  split at h
  · cases h
    exact .inl rfl
  · next i rest _ => exact .inr ⟨i, rest, h⟩

/-- Settles O55, by the laws of darkness kept by every shape of a step. -/
theorem stepKeepsTheDark : Obligations.StepKeepsTheDark := by
  unfold Obligations.StepKeepsTheDark
  intro s t h hs
  obtain rfl | ⟨i, rest, he⟩ := step_cases hs
  · exact h
  · exact exec_dark he h

end Sys2Proof.Machine
end

