-- ==== Sys2Proof/Proofs/Sent.lean ====
section
/-! Proofs/Sent.lean: what differs is sent (O51). -/

set_option Elab.async false

namespace Sys2Proof.Machine
open Sys2Proof

section
variable {L : Prop} {T : Degree → Prop} {U : Prop} {s t u : State}

/-! ## An admitted record on the map and on its link -/

/-- What joins the lists of the map with a connection (R16). -/
theorem State.egress_enterMap (s : State) (h : Handle) (r : Route) (sp : Span) (d : Degree) (e : EgressEntry) :
    e ∈ (s.enterMap h r sp).map[d].egress ↔ e ∈ s.map[d].egress ∨ (r.sinkDegree = some d ∧ e = ⟨sp, h⟩) := by
  have ingress : ∀ (m : DegreeMap), (m.joinIngress sp h).egress = m.egress := by
    intro m
    unfold DegreeMap.joinIngress
    split <;> rfl
  cases r with
  | add l k =>
    simp only [State.enterMap, State.mapHolders_map, State.mapMap_map, get_set, Route.sinkDegree, Option.some.injEq]
    by_cases hd : d = k
    · subst hd; simp [DegreeMap.joinEgress, mem_insertBy, or_comm]
    · simp [hd, Ne.symm hd]
  | drop k l =>
    simp only [State.enterMap, State.mapHolders_map, State.mapMap_map, get_set, Route.sinkDegree]
    by_cases hd : d = k
    · subst hd; simp [DegreeMap.joinDrop, ingress]
    · simp [hd]
  | express a b =>
    simp only [State.enterMap, State.mapMap_map, get_set, Route.sinkDegree, Option.some.injEq]
    by_cases ha : d = a <;> by_cases hd : d = b
    · subst hd; subst ha; simp [DegreeMap.joinEgress, ingress, mem_insertBy, or_comm]
    · subst ha; simp [ingress, hd, Ne.symm hd]
    · subst hd; simp [DegreeMap.joinEgress, ha, mem_insertBy, or_comm]
    · simp [ha, hd, Ne.symm hd]

theorem State.drops_enterMap (s : State) (h : Handle) (r : Route) (sp : Span) (d : Degree) (e : DropEntry) :
    e ∈ (s.enterMap h r sp).map[d].drops ↔ e ∈ s.map[d].drops ∨ ∃ l, r = .drop d l ∧ e = ⟨sp, l, h⟩ := by
  have ingress : ∀ (m : DegreeMap), (m.joinIngress sp h).drops = m.drops := by
    intro m
    unfold DegreeMap.joinIngress
    split <;> rfl
  cases r with
  | add l k =>
    simp only [State.enterMap, State.mapHolders_map, State.mapMap_map, get_set]
    by_cases hd : d = k
    · subst hd; simp [DegreeMap.joinEgress]
    · simp [hd]
  | drop k l =>
    simp only [State.enterMap, State.mapHolders_map, State.mapMap_map, get_set]
    by_cases hd : d = k
    · subst hd; simp [DegreeMap.joinDrop, ingress, mem_insertBy, or_comm]
    · simp [hd, Ne.symm hd]
  | express a b =>
    simp only [State.enterMap, State.mapMap_map, get_set]
    by_cases ha : d = a <;> by_cases hd : d = b
    · subst hd; subst ha; simp [DegreeMap.joinEgress, ingress]
    · subst ha; simp [ingress, hd]
    · subst hd; simp [DegreeMap.joinEgress, ha]
    · simp [ha, hd]

/-- The handle under which a slot is allocated (R24). -/
def State.newHandle (s : State) (i : SlotIx) : Handle := ⟨i, s.table[i].gen + 1⟩

theorem State.find_entered (s : State) (i : SlotIx) (c : Conn) (h : Handle) :
    (s.entered i c).find h = if h = s.newHandle i then some c else if h.slot = i then none else s.find h := by
  rw [State.entered, State.find_of_table (State.enterMap_frame ..).1, State.find_allocate]
  rfl

/-- The records there before an admission are found as before. -/
theorem State.find_entered_old {i : SlotIx} (free : s.conn i = none) (c : Conn) {h : Handle} {a : Conn}
    (ha : s.find h = some a) : (s.entered i c).find h = some a := by
  have hs : h.slot ≠ i := fun e => by
    have := ((s.find_eq_some h a).mp ha).2
    rw [e, free] at this
    cases this
  rw [State.find_entered, if_neg (fun e => hs (by rw [e]; rfl)), if_neg hs, ha]

theorem State.handleAt_entered (s : State) (i : SlotIx) (c : Conn) : (s.allocate i c).handleAt i = s.newHandle i := by
  rw [State.handleAt_allocate, if_pos rfl]
  rfl

theorem State.listedOk_entered {i : SlotIx} {c : Conn} (h : s.listedOk) (free : s.conn i = none) :
    (s.entered i c).listedOk := by
  have new : (s.entered i c).find (s.newHandle i) = some c := by rw [State.find_entered, if_pos rfl]
  intro d
  refine ⟨fun x hx => ?_, fun x hx => ?_⟩
  · rw [State.entered, State.egress_enterMap, State.handleAt_entered] at hx
    obtain hx | ⟨hd, rfl⟩ := hx
    · obtain ⟨a, ha, hd⟩ := (h d).1 x hx
      exact ⟨a, State.find_entered_old free c ha, hd⟩
    · exact ⟨c, new, hd⟩
  · rw [State.entered, State.drops_enterMap, State.handleAt_entered] at hx
    obtain hx | ⟨l, hr, rfl⟩ := hx
    · obtain ⟨a, l, ha, hr⟩ := (h d).2 x hx
      exact ⟨a, l, State.find_entered_old free c ha, hr⟩
    · exact ⟨c, l, new, hr⟩

/-- An admitted record's setpoint is BLOCKED as its active one is: an admission leaves nothing to send (R124, R126). -/
theorem State.updateEntries_entered {i : SlotIx} {c : Conn} (dark : c.shadow = .blocked) {l : LinkId} (h : s.updateEntries l = []) : (s.entered i c).updateEntries l = [] := by
  have actives : (s.entered i c).actives = s.actives.set i .blocked := by simp [State.entered]
  have matrix : (s.entered i c).matrix = s.matrix := by simp [State.entered]
  obtain rfl | ⟨d, rfl⟩ := link_cases l
  · rw [State.updateEntries_slm_nil] at h ⊢
    rwa [matrix]
  · rw [State.updateEntries_degree_nil] at h ⊢
    intro k a hk ha
    rw [actives]
    rw [State.find_entered] at ha
    split at ha
    · next hn =>
      cases ha
      rw [hn, dark]
      exact (get_set_self ..).symm
    · next hn =>
      split at ha
      · cases ha
      · next hs =>
        rw [get_set_ne _ _ hs]
        refine h k a ?_ ha
        obtain ⟨x, hx, rfl⟩ | ⟨x, hx, rfl⟩ := hk
        · rw [State.entered, State.egress_enterMap, State.handleAt_entered] at hx
          obtain hx | ⟨-, rfl⟩ := hx
          · exact .inl ⟨x, hx, rfl⟩
          · exact absurd rfl hn
        · rw [State.entered, State.drops_enterMap, State.handleAt_entered] at hx
          obtain hx | ⟨l, -, rfl⟩ := hx
          · exact .inr ⟨x, hx, rfl⟩
          · exact absurd rfl hn

/-! ## A completed batch and the other links -/

/-- The actives and the matrix after entries of one link are activated: another link's are as they were (R131). -/
theorem State.activates_others (es : List Entry) (s : State) {l : LinkId} (own : s.owns l es) :
    (∀ (h : Handle) (c : Conn), s.find h = some c → c.route.link ≠ l →
      (es.foldl State.activate s).actives[h.slot] = s.actives[h.slot]) ∧
    (l ≠ slm → (es.foldl State.activate s).matrix = s.matrix) := by
  induction es generalizing s with
  | nil => exact ⟨fun _ _ _ _ => rfl, fun _ => rfl⟩
  | cons e es ih =>
    have table : (s.activate e).table = s.table := (s.activate_frame e).1
    have rest : (s.activate e).owns l es := fun x hx => by
      simpa only [State.find_of_table table] using own x (List.mem_cons_of_mem _ hx)
    obtain ⟨actives, matrix⟩ := ih _ rest
    obtain ⟨hrec, hport⟩ := own e (List.mem_cons_self ..)
    have written : ∀ (k : Handle) (v : Setpoint), e.handle? = some k → ∀ (h : Handle) (c : Conn), s.find h = some c →
        c.route.link ≠ l →
        (if (s.find k).isSome then { s with actives := s.actives.set k.slot v } else s).actives[h.slot] =
          s.actives[h.slot] := by
      intro k v hk h c hc hne
      split
      · next hf =>
        obtain ⟨a, ha⟩ := Option.isSome_iff_exists.mp hf
        refine get_set_ne _ _ fun hs => hne ?_
        have hkh : k = h := by
          rw [← State.handleAt_of_find ha, ← State.handleAt_of_find hc, hs]
        exact hrec h c (hkh ▸ hk) hc
      · rfl
    have one : ∀ (h : Handle) (c : Conn), s.find h = some c → c.route.link ≠ l →
        (s.activate e).actives[h.slot] = s.actives[h.slot] := by
      cases e with
      | select k sp x v => exact written k v rfl
      | drop k sp p v => exact written k v rfl
      | allBlocked => exact fun _ _ _ _ => rfl
      | port p x y => exact fun _ _ _ _ => rfl
    have oneMatrix : l ≠ slm → (s.activate e).matrix = s.matrix := by
      intro hl
      cases e with
      | select k sp x v => rw [State.activate_select]; split <;> rfl
      | drop k sp p v => rw [State.activate_drop]; split <;> rfl
      | allBlocked => rfl
      | port p x y => exact absurd (hport p x y rfl) hl
    exact ⟨fun h c hc hne => (actives h c (by rwa [State.find_of_table table]) hne).trans (one h c hc hne),
      fun hl => (matrix hl).trans (oneMatrix hl)⟩

theorem State.link_batchDone (s : State) (l k : LinkId) (b : Batch) :
    (s.batchDone l b).links[k] = if k = l then s.links[l].completed else s.links[k] := by
  have links : (b.entries.foldl State.activate s).links = s.links := foldl_keeps (·.links) _ (by intro s e; simp) _ _
  rw [State.batchDone, State.link_mapLink, links]

/-- A completed batch leaves every other link as much sent as it was. -/
theorem State.sentAt_batchDone {l k : LinkId} {b : Batch} (hl : s.listedOk) (own : s.owns l b.entries) (hk : k ≠ l)
    (h : s.sentAt k) : (s.batchDone l b).sentAt k := by
  obtain ⟨actives, matrix⟩ := State.activates_others b.entries s own
  obtain ⟨table, map, -⟩ := s.batchDone_frame l b
  have link : (s.batchDone l b).links[k] = s.links[k] := by rw [State.link_batchDone, if_neg hk]
  refine State.sentAt_of (by rw [link]; exact id) (by rw [link]; exact id) (by rw [link]; exact id) (fun hn => ?_) h
  obtain rfl | ⟨d, rfl⟩ := link_cases k
  · rw [State.updateEntries_slm_nil] at hn ⊢
    rwa [show (s.batchDone l b).matrix = s.matrix from matrix hk.symm]
  · rw [State.updateEntries_degree_nil] at hn ⊢
    intro x a hx ha
    rw [State.lists_of_map map] at hx
    rw [State.find_of_table table] at ha
    obtain ⟨c, hc, hlink⟩ := hl.link hx
    rw [ha] at hc
    cases hc
    rw [hn x a hx ha]
    exact (actives x a ha (by rw [hlink]; exact hk)).symm

/-- A completed batch leaves every batch in flight of its own link. -/
theorem State.batchesOk_batchDone {l : LinkId} {b : Batch} (h : s.batchesOk) : (s.batchDone l b).batchesOk := by
  rw [State.batchesOk_iff] at h ⊢
  intro k x hx
  rw [State.link_batchDone] at hx
  split at hx
  · cases hx
  · simpa only [State.owns, State.find_of_table (s.batchDone_frame l b).1] using h k x hx

theorem State.tidy_batchDone {l : LinkId} {b : Batch} (h : s.Tidy) : (s.batchDone l b).Tidy := by
  obtain ⟨table, map, ramps, -⟩ := s.batchDone_frame l b
  refine ⟨State.listedOk_of_find h.listed map fun k a ha => ⟨a, by rw [State.find_of_table table, ha], rfl⟩,
    fun i c hc => h.blocked i c (by rwa [State.conn_of_table table] at hc), ?_⟩
  simpa only [State.queuedOk, ramps, State.find_of_table table] using h.queued

theorem State.completeBatch_sentOk {l : LinkId} {b : Batch} (ht : s.Tidy) (hb : s.batchesOk) (hs : s.sentOk)
    (held : s.held = none) (hf : s.links[l].inFlight = some b) : (s.completeBatch l b).sentOk := by
  have own : s.owns l b.entries := (s.batchesOk_iff.mp hb) l b hf
  have tidy : (s.batchDone l b).Tidy := State.tidy_batchDone ht
  have settled : Moves True (fun _ => True) True (s.batchDone l b) (s.batchSettled l b) :=
    (State.batchSettled_edits s l b).moves
  have tidy' : (s.batchSettled l b).Tidy := settled.tidy tidy
  have sent : ∀ k, ((s.batchSettled l b).sendIfPending l).sentAt k := by
    intro k
    by_cases hk : k = l
    · subst hk
      exact .inr fun hr hi => (s.batchSettled k b).sent_sendIfPending k hr hi
    · exact ((s.batchSettled l b).sendIfPending_relinked l).sent k
        (settled.sentAt tidy (State.sentAt_batchDone ht.listed own hk (State.sentAt_of_sentOk hs held k)))
  rw [State.completeBatch_eq]
  exact Moves.sentOk_finish (T := fun _ => True) (U := True) .refl
    (Moves.tidy (T := fun _ => True) (U := True) (State.sendIfPending_edit _ l).moves tidy') sent

/-! ## Sending kept by every step -/

theorem State.tidy_of (h : s.recordsOk) (r : s.rampsOk) (d : s.darkOk) : s.Tidy :=
  ⟨State.listedOk_of_recordsOk h, d.1, State.queuedOk_of_rampsOk r⟩

theorem State.reply_sentOk (h : s.sentOk) (p : Domain) (tag : Byte) (a : Answer) : (s.reply p tag a).sentOk :=
  State.sentOk_of h (by simp) (by simp) fun l hl => by
    rwa [State.updateEntries_congr (s := s) (by simp) (by simp) (by simp) (by simp)]

/-- Edits and then the end of a CNM step, with no more than the map law and R27. -/
theorem Edits.sentOk_finish (m : Edits True T U s t) (hl : s.listedOk) (hb : s.blockedOk) (hs : ∀ l, s.sentAt l) :
    t.finish.sentOk := by
  intro _ l hr hi
  rw [State.updateEntries_congr (t := t.finish) (s := t.flushLinks) (by simp) (by simp) (by simp) (by simp)]
  have links : t.finish.links = t.flushLinks.links := (State.prompt_frame _).2.2.2.2.2.2.2.2.1
  rw [links] at hr hi
  exact t.sent_flushLinks (fun l => m.sentAt hl hb (hs l)) l hr hi

theorem State.enterRecord_sentOk {i : SlotIx} {c : Conn} (ht : s.Tidy) (hs : s.sentOk) (held : s.held = none)
    (free : s.conn i = none) (peer : c.peer = none → c.state = .armed) (dark : c.shadow = .blocked) :
    (s.enterRecord i c).finish.sentOk := by
  refine Edits.sentOk_finish (T := fun _ => True) (U := True) (State.enterRecord_edits peer)
    (State.listedOk_entered ht.listed free) (fun j b hb hst => ?_) fun l => ?_
  · rw [State.conn_entered] at hb
    split at hb
    · cases hb
      exact dark
    · exact ht.blocked j b hb hst
  · exact State.sentAt_of_links (by simp [State.entered])
      (fun hn => State.updateEntries_entered dark hn) (State.sentAt_of_sentOk hs held l)

/-- A reset's end leaves every link with its batch to be answered: none READY (R139, R141). -/
theorem State.leave_sentOk (s : State) (kind : ResetKind) (order : List ResetWork) : (s.leave kind order).sentOk := by
  intro _ l hr
  have starting : (s.leaving kind).links[l].state = .starting := by
    have h : (s.leaving kind).links = s.links.map fun k => { k with state := .starting } := by cases kind <;> rfl
    rw [h, Fin.getElem_fin, Vector.getElem_map]
  have := (State.leave_moves (L := True) (U := True) s kind order).ready hr
  rw [starting] at this
  cases this

theorem exec_sentOk {i : Instr} (e : exec i s = .next t) (ht : s.Tidy) (dark : s.darkOk) (hb : s.batchesOk)
    (hs : s.sentOk) : t.sentOk := by
  have at' : s.held = none → ∀ l, s.sentAt l := fun held => State.sentAt_of_sentOk hs held
  cases exec_shape e with
  | course c => exact c.sent ht hs
  | wires w =>
    exact State.sentOk_of hs (by rw [w.held]; exact id) w.links fun l hl => by
      rwa [State.updateEntries_congr w.table w.map w.actives w.matrix]
  | admitted held free peer _ dark' he =>
    rw [he]
    exact State.reply_sentOk (State.enterRecord_sentOk ht hs held free peer dark') _ _ _
  | completed held hf he =>
    rw [he]
    exact State.completeBatch_sentOk ht hb hs held hf
  | @passed held d r rest hr he =>
    have law := dark.2.2.1 d r (by rw [hr]; exact List.mem_cons_self ..)
    have m : Moves True (fun _ => False) False s _ := State.passed_moves (s := s) (d := d) (r := r) (rest := rest)
      fun _ _ _ => ⟨False.elim, fun _ => law, fun _ => False.elim⟩
    rw [he]
    exact m.sentOk_finish ht (at' held)
  | @handed held d he =>
    have m : Moves True (fun _ => False) True s (s.takeHandOff d) := State.takeHandOff_moves fun _ _ _ => False.elim
    rw [he]
    exact m.sentOk_finish ht (at' held)
  | @degreeSet held d p changes tag a he =>
    have m : Moves True (fun _ => False) True s (storeDegree p d changes (s.takeHandOff d)).1 :=
      (State.takeHandOff_moves fun _ _ _ => False.elim).trans (storeDegree_moves id)
    rw [he]
    exact State.reply_sentOk (m.sentOk_finish ht (at' held)) _ _ _
  | chilled _ he =>
    rw [he]
    intro hh
    cases hh
  | warmed _ he =>
    rw [he]
    intro hh
    unfold State.enterWarm at hh
    generalize slots.foldl State.warmFree s = u at hh
    cases hh
  | left _ he =>
    rw [he]
    exact s.leave_sentOk _ _
  | ticked c he =>
    rw [he]
    exact c.sent ht hs

/-! ## Batches kept of their own links by every step -/

theorem State.reply_inFlight (s : State) (p : Domain) (tag : Byte) (a : Answer) : (s.reply p tag a).links = s.links := by
  simp

/-- An admission keeps every batch of its own link when none carries the new handle (R24). -/
theorem State.batchesOk_entered {i : SlotIx} {c : Conn} (h : s.batchesOk)
    (fresh : ∀ (l : LinkId) (b : Batch) (e : Entry), s.links[l].inFlight = some b → e ∈ b.entries →
      e.handle? ≠ some (s.newHandle i)) : (s.entered i c).batchesOk := by
  rw [State.batchesOk_iff] at h ⊢
  intro l b hb e he
  have hb' : s.links[l].inFlight = some b := by simpa [-Fin.getElem_fin, State.entered] using hb
  refine ⟨fun k a hk ha => ?_, (h l b hb' e he).2⟩
  rw [State.find_entered] at ha
  split at ha
  · next hn => exact absurd (hn ▸ hk) (fresh l b e hb' he)
  · split at ha
    · cases ha
    · exact (h l b hb' e he).1 k a hk ha

/-! ### The records that arming and activation leave -/

theorem State.table_putConn_putConn (s : State) (i : SlotIx) (a b : Option Conn) :
    ((s.putConn i a).putConn i b).table = (s.putConn i b).table := by
  rw [State.putConn_table, State.putConn_table, State.putConn_table, get_set_self, Vector.set_set]

/-- The record that ACTIVATE leaves, by the trip of its sink degree (R35, R36). -/
def State.activated (s : State) (c : Conn) : Conn :=
  match c.route.sinkDegree with
  | some d =>
    { c with
      state := .suspended, source := some .dark, causes := some ⟨true, s.tripInForce d⟩, power := some .normal
      lastLevel := none }
  | none => { c with state := .inService, source := some .dark, shadow := .att (c.dropAtten.getD 0) }

theorem State.table_activateRecord (s : State) (i : SlotIx) (c : Conn) :
    (s.activateRecord i c).table = (s.putConn i (some (s.activated c))).table := by
  unfold State.activateRecord State.activated
  dsimp only
  cases c.route.sinkDegree <;> simp

/-- The record that entering ARMED leaves, activated with auto-activate (R34). -/
def State.armed (s : State) (c : Conn) : Conn :=
  if c.autoActivate then s.activated { c with state := .armed, expiry := none }
  else { c with state := .armed, expiry := none }

theorem State.table_armRecord (s : State) (i : SlotIx) (c : Conn) :
    (s.armRecord i c).table = (s.putConn i (some (s.armed c))).table := by
  unfold State.armRecord State.armed
  dsimp only
  have same : ∀ a : Conn, ((s.putConn i (some { c with state := .armed, expiry := none })).setMatrix c.route).activated a =
      s.activated a := fun a => by
    unfold State.activated State.tripInForce
    simp [-Fin.getElem_fin]
  split
  · rw [State.table_activateRecord, same, State.putConn_table, (State.setMatrix_frame ..).1, ← State.putConn_table,
      State.table_putConn_putConn]
  · exact (State.setMatrix_frame ..).1

/-- The admitted record stands in its slot at the end of its admission. -/
theorem State.find_enterRecord (s : State) (i : SlotIx) (c : Conn) : (s.enterRecord i c).find (s.newHandle i) ≠ none := by
  have new : (s.entered i c).find (s.newHandle i) = some c := by rw [State.find_entered, if_pos rfl]
  unfold State.enterRecord
  dsimp only
  split
  · rw [State.find_of_table (s := s.entered i c) (by rw [(State.tell_frame ..).1]; rfl), new]
    simp
  · change ((s.entered i c).armRecord i c).find _ ≠ none
    rw [State.find_of_table (State.table_armRecord (s.entered i c) i c), State.find_putConn,
      if_pos (show s.newHandle i = (s.entered i c).handleAt i from (State.handleAt_of_find new).symm)]
    simp

theorem exec_batchesOk {i : Instr} (e : exec i s = .next t) (hl : s.listedOk) (hb : s.batchesOk)
    (fresh : ∀ (l : LinkId) (b : Batch) (x : Entry) (h : Handle), s.links[l].inFlight = some b → x ∈ b.entries →
      x.handle? = some h → s.find h = none → t.find h = none) : t.batchesOk := by
  have listed : ∀ {w : State}, w.table = s.table → w.map = s.map → w.listedOk := fun ht hm =>
    State.listedOk_of_find hl hm fun k a ha => ⟨a, by rw [State.find_of_table ht, ha], rfl⟩
  have idle : ∀ {w : State}, (∀ l : LinkId, w.links[l].inFlight = none) → w.batchesOk := fun h => by
    rw [State.batchesOk_iff]
    intro l b hx
    rw [h l] at hx
    cases hx
  cases exec_shape e with
  | course c => exact c.moves.batchesOk hl hb
  | wires w =>
    rw [State.batchesOk_iff] at hb ⊢
    intro l b hx
    rw [w.links] at hx
    simpa only [State.owns, State.find_of_table w.table] using hb l b hx
  | @admitted held k c free peer _ _ p tag a he =>
    have old : s.find (s.newHandle k) = none := by
      cases hf : s.find (s.newHandle k) with
      | none => rfl
      | some x =>
        have := ((s.find_eq_some _ x).mp hf).2
        rw [show (s.newHandle k).slot = k from rfl, free] at this
        cases this
    have entered : (s.entered k c).batchesOk := State.batchesOk_entered hb fun l b x hx hm hk => by
      have := fresh l b x _ hx hm hk old
      rw [he, State.find_of_table (s := s.enterRecord k c) (by simp)] at this
      exact State.find_enterRecord s k c this
    have m : Moves True (fun _ => True) True (s.entered k c) t := by
      rw [he]
      exact Edits.moves (((State.enterRecord_edits peer).trans (State.finish_edits _)).tail (State.reply_edit _ _ _ _))
    exact m.batchesOk (State.listedOk_entered hl free) entered
  | @completed _ l b _ he =>
    have m : Moves True (fun _ => True) True (s.batchDone l b) t := by
      rw [he, State.completeBatch_eq]
      exact Edits.moves ((State.batchSettled_edits s l b).trans (.head (State.sendIfPending_edit _ l) (State.finish_edits _)))
    obtain ⟨table, map, -⟩ := s.batchDone_frame l b
    exact m.batchesOk (listed table map) (State.batchesOk_batchDone hb)
  | @passed held d r rest hr he =>
    have m : Moves False (fun _ => False) False s _ := State.passed_moves (s := s) (d := d) (r := r) (rest := rest)
      fun _ _ _ => ⟨False.elim, False.elim, fun _ => False.elim⟩
    rw [he]
    exact Moves.batchesOk (m.trans (State.finish_edits _).moves) hl hb
  | @handed held d he =>
    have m : Moves True (fun _ => False) True s (s.takeHandOff d) := State.takeHandOff_moves fun _ _ _ => False.elim
    rw [he]
    exact Moves.batchesOk (m.trans (State.finish_edits _).moves) hl hb
  | @degreeSet held d p changes tag a he =>
    have m : Moves True (fun _ => False) True s (storeDegree p d changes (s.takeHandOff d)).1 :=
      (State.takeHandOff_moves fun _ _ _ => False.elim).trans (storeDegree_moves id)
    rw [he]
    exact Moves.batchesOk (m.trans (Edits.moves ((State.finish_edits _).tail (State.reply_edit _ _ _ _)))) hl hb
  | chilled _ he =>
    rw [he]
    refine idle fun l => ?_
    show ((Vector.replicate 5 Link.cold)[l]).inFlight = none
    simp [Link.cold]
  | warmed _ he =>
    rw [he]
    refine idle fun l => ?_
    unfold State.enterWarm
    generalize slots.foldl State.warmFree s = u
    show ((u.links.map Link.warm)[l]).inFlight = none
    rw [Fin.getElem_fin, Vector.getElem_map]
    rfl
  | @left kind order _ he =>
    rw [he]
    have links : (s.leaving kind).links = s.links.map fun k => { k with state := .starting } := by cases kind <;> rfl
    have table : (s.leaving kind).table = s.table := by cases kind <;> rfl
    have map : (s.leaving kind).map = s.map := by cases kind <;> rfl
    refine (State.leave_moves (L := True) (U := True) s kind order).batchesOk (listed table map) ?_
    rw [State.batchesOk_iff] at hb ⊢
    intro l b hx
    rw [links, Fin.getElem_fin, Vector.getElem_map] at hx
    simpa only [State.owns, State.find_of_table table] using hb l b hx
  | ticked c he =>
    rw [he]
    exact c.moves.batchesOk hl hb

end

/-- Settles O51, by the marks every edit leaves and the examination of the links that ends a step. -/
theorem stepSendsWhatDiffers : Obligations.StepSendsWhatDiffers := by
  unfold Obligations.StepSendsWhatDiffers
  intro s t records batches hs
  obtain rfl | ⟨i, rest, he⟩ := step_cases hs
  · exact ⟨fun _ _ h => h, fun _ => batches⟩
  · exact ⟨fun ramps dark sent => exec_sentOk he (State.tidy_of records ramps dark) dark batches sent,
      fun fresh => exec_batchesOk he (State.listedOk_of_recordsOk records) batches fresh⟩

end Sys2Proof.Machine
end

