-- ==== Sys2Proof/Proofs/WarmReset.lean ====
section
/-! Proofs/WarmReset.lean: what a warm reset leaves (O47). -/

set_option Elab.async false

namespace Sys2Proof.Machine
open Sys2Proof

section
variable {s t u : State}

/-! ## What a warm reset leaves -/

theorem State.gen_freeRecord (s : State) (i j : SlotIx) (c : Conn) :
    (s.freeRecord i c).table[j].gen = s.table[j].gen := by
  rw [State.table_freeRecord, State.gen_putConn]

theorem State.actives_freeRecord_other (s : State) {i j : SlotIx} (c : Conn) (h : j ≠ i) :
    (s.freeRecord i c).actives[j] = s.actives[j] := by
  rw [State.actives_freeRecord, get_set_ne _ _ h]

theorem State.gen_warmFree (s : State) (i j : SlotIx) : (s.warmFree i).table[j].gen = s.table[j].gen := by
  unfold State.warmFree
  split
  · rfl
  · split
    · exact s.gen_freeRecord i j _
    · rfl

/-- Only a PROPOSED record's active setpoint is reset as the records are freed (R45, R52). -/
theorem State.actives_warmFree (s : State) (i j : SlotIx) (h : (s.conn j).any (·.state = .proposed) = false) :
    (s.warmFree i).actives[j] = s.actives[j] := by
  unfold State.warmFree
  split
  · rfl
  · next c hc =>
    split
    · next hs =>
      refine s.actives_freeRecord_other c fun e => ?_
      rw [e, hc] at h
      simp [hs] at h
    · rfl

theorem State.actives_warmFrees (l : List SlotIx) (s : State) (j : SlotIx)
    (h : (s.conn j).any (·.state = .proposed) = false) : (l.foldl State.warmFree s).actives[j] = s.actives[j] := by
  induction l generalizing s with
  | nil => rfl
  | cons i l ih =>
    have same : (s.warmFree i).conn j = s.conn j := by
      rw [State.conn_warmFree, if_neg]
      rintro ⟨rfl, hp⟩
      rw [h] at hp
      cases hp
    rw [List.foldl_cons, ih _ (by rwa [same]), State.actives_warmFree s i j h]

/-- The pieces of a warm reset, over the state that the freeing of the PROPOSED records leaves. -/
theorem State.enterWarm_pieces (s : State) :
    let u := slots.foldl State.warmFree s
    s.enterWarm.table = u.table ∧ s.enterWarm.actives = u.actives ∧ s.enterWarm.matrix = u.matrix ∧
    s.enterWarm.managers = u.managers ∧ s.enterWarm.settings = u.settings ∧ s.enterWarm.switchGen = u.switchGen ∧
    s.enterWarm.nodeTime = u.nodeTime ∧ s.enterWarm.tripPins = u.tripPins ∧ s.enterWarm.held = some .warm ∧
    s.enterWarm.links = u.links.map Link.warm ∧ s.enterWarm.ports = u.ports.map Port.atReset ∧
    s.enterWarm.logs = Vector.replicate 4 .rearmed ∧ s.enterWarm.banks = Vector.replicate 12 none ∧
    s.enterWarm.mon = .cleared ∧ s.enterWarm.declReqs = [] := by
  unfold State.enterWarm
  generalize slots.foldl State.warmFree s = u
  exact ⟨rfl, rfl, rfl, rfl, rfl, rfl, rfl, rfl, rfl, rfl, rfl, rfl, rfl, rfl, rfl⟩

/-- A warm reset keeps each link's sequence number and last failure, and drops what was in flight (R141). -/
theorem State.link_enterWarm (s : State) (l : LinkId) : s.enterWarm.links[l] = s.links[l].warm := by
  obtain ⟨-, -, -, -, -, -, -, -, -, links, -⟩ := s.enterWarm_pieces
  rw [links, (State.warmFrees_frame s).2.2.2.2.2.2.2, Fin.getElem_fin, Vector.getElem_map]
  rfl

/-- A warm reset empties every port (R202). -/
theorem State.port_enterWarm (s : State) (p : Domain) : ∃ q : Port, s.enterWarm.ports[p] = q.atReset := by
  obtain ⟨-, -, -, -, -, -, -, -, -, -, ports, -⟩ := s.enterWarm_pieces
  rw [ports, Fin.getElem_fin, Vector.getElem_map]
  exact ⟨_, rfl⟩

end

/-- Settles O47, from what the freeing of the PROPOSED records leaves and what every reset clears. -/
theorem warmResetResult : Obligations.WarmResetResult := by
  unfold Obligations.WarmResetResult
  refine ⟨fun s held => ?_, fun s held => ?_⟩
  · change execWarmReset s = _
    rw [execWarmReset, if_pos (Option.isSome_iff_ne_none.mpr held)]
  have done : exec .warmReset s = .next s.enterWarm := by
    change execWarmReset s = _
    rw [execWarmReset, if_neg (by simp [held])]
  obtain ⟨table, actives, matrix, managers, settings, switchGen, nodeTime, pins, warm, -, -, logs, banks, mon, decl⟩ :=
    s.enterWarm_pieces
  obtain ⟨fmanagers, fsettings, fswitchGen, -, fnodeTime, fpins, fmatrix, -⟩ := State.warmFrees_frame s
  refine ⟨_, done, warm, fun i c hc => ⟨fun hp => ?_, fun hp => ⟨?_, ?_⟩⟩, fun i => ?_, matrix.trans fmatrix,
    managers.trans fmanagers, settings.trans fsettings, switchGen.trans fswitchGen, nodeTime.trans fnodeTime,
    pins.trans fpins, fun l => ?_, fun d => ?_, decl, mon, fun k => ?_, fun p => ?_⟩
  · simp [State.conn_enterWarm, hc, hp]
  · simp [State.conn_enterWarm, hc, hp]
  · rw [actives]
    exact State.actives_warmFrees _ s i (by simp [hc, hp])
  · rw [table]
    exact foldl_keeps (fun s : State => s.table[i].gen) _ (fun s j => s.gen_warmFree j i) _ _
  · rw [State.link_enterWarm]
    exact ⟨rfl, rfl, rfl, rfl, rfl⟩
  · obtain ⟨grants, passes, hands⟩ := s.requests_enterWarm d
    exact ⟨s.trip_enterWarm d, by rw [logs]; simp [ExcursionLog.rearmed], grants, passes, hands⟩
  · rw [banks]
    simp
  · obtain ⟨q, hq⟩ := s.port_enterWarm p
    rw [hq]
    exact ⟨rfl, rfl, rfl, rfl, rfl, rfl⟩

end Sys2Proof.Machine
end

