-- ==== Sys2Proof/Proofs/Handles.lean ====
section
/-! Proofs/Handles.lean: the checks of the commands that name a handle, and READ_CONN (O11, O15). -/

set_option Elab.async false

namespace Sys2Proof.Machine
open Sys2Proof

section
variable {s t u : State}

/-! ## The checks of a command that names a handle -/

theorem slotOfCode_val (k : SlotIx) : slotOfCode k.val = some k := by
  rw [slotOfCode, dif_pos k.isLt]

theorem slotOfCode_outside {n : Nat} (h : 127 < n) : slotOfCode n = none := by
  rw [slotOfCode, dif_neg (by omega)]

theorem withHandle_outside {n : Nat} (h : 127 < n) (gen : BitVec 8) (f : SlotIx → Conn → State × Answer) :
    withHandle s n gen f = refuse s .badParam := by
  rw [withHandle, slotOfCode_outside h]

/-- A FREE record, or another generation (R25). -/
theorem withHandle_gone {k : SlotIx} {gen : BitVec 8} (h : s.table[k].gen ≠ gen ∨ s.conn k = none)
    (f : SlotIx → Conn → State × Answer) : withHandle s k.val gen f = refuse s .noSuchConnection := by
  have hf : s.find ⟨k, gen⟩ = none := by
    rw [State.find]
    split
    · next hg => exact h.resolve_left (fun n => n hg)
    · rfl
  rw [withHandle, slotOfCode_val]
  dsimp only
  rw [hf]

theorem State.conn_of_row {k : SlotIx} {gen : BitVec 8} {c : Conn} (h : s.table[k] = ⟨gen, some c⟩) :
    s.conn k = some c := by rw [State.conn, h]

theorem State.handleAt_of_row {k : SlotIx} {gen : BitVec 8} {c : Option Conn} (h : s.table[k] = ⟨gen, c⟩) :
    s.handleAt k = ⟨k, gen⟩ := by rw [State.handleAt, h]

theorem State.find_of_row {k : SlotIx} {gen : BitVec 8} {c : Conn} (h : s.table[k] = ⟨gen, some c⟩) :
    s.find ⟨k, gen⟩ = some c :=
  (s.find_eq_some _ c).mpr ⟨by rw [h], State.conn_of_row h⟩

/-- The table after the record of a slot has been rewritten, the generation kept. -/
theorem State.putConn_row {k : SlotIx} {gen : BitVec 8} {c : Option Conn} (h : s.table[k] = ⟨gen, c⟩) (a : Option Conn) :
    (s.putConn k a).table = s.table.set k ⟨gen, a⟩ := by
  rw [State.putConn_table, h]

theorem withHandle_row {k : SlotIx} {gen : BitVec 8} {c : Conn} (h : s.table[k] = ⟨gen, some c⟩)
    (f : SlotIx → Conn → State × Answer) : withHandle s k.val gen f = f k c := by
  rw [withHandle, slotOfCode_val]
  dsimp only
  rw [State.find_of_row h]

/-- A refused command changes nothing but the reply (R188). -/
theorem refused_of {p : Domain} {tag : Byte} {i : Instr} {body : State → State × Answer} {code : ReplyCode}
    (h : s.takes p i) (hb : body s = refuse s code) : runCommand p tag i body s = Refused s p tag code := by
  rw [runCommand_takes h, hb]
  rfl

/-- A command that is carried out, by what its body leaves and answers (R181, R186). -/
theorem carried_of {p : Domain} {tag : Byte} {i : Instr} {body : State → State × Answer} {a : Answer}
    (h : s.takes p i) (hb : body s = (t, a)) : runCommand p tag i body s = .next (t.reply p tag a) := by
  rw [runCommand_takes h, hb]

theorem State.managesAnEnd_iff (s : State) (p : Domain) (c : Conn) : s.managesAnEnd p c = true ↔
    s.managers[c.route.source.index] = some p ∨ s.managers[c.route.sink.index] = some p := by
  rw [State.managesAnEnd, Bool.or_eq_true, State.manages_iff, State.manages_iff]

section
variable {k : SlotIx} {gen : BitVec 8} {c : Conn} {p : Domain}

theorem acceptBody_row (h : s.table[k] = ⟨gen, some c⟩) : acceptBody p k.val gen s =
    if c.peer ≠ some p then refuse s .notManager
    else if c.state ≠ .proposed then refuse s .wrongState
    else (((s.armRecord k c).tell c.proposer (s.notice .proposalAccepted (some ⟨k, gen⟩) none none)).finish,
      .plain .ok) := by
  rw [acceptBody, withHandle_row h, State.handleAt_of_row h]

theorem declineBody_row (h : s.table[k] = ⟨gen, some c⟩) : declineBody p k.val gen s =
    if c.peer ≠ some p then refuse s .notManager
    else if c.state ≠ .proposed then refuse s .wrongState
    else (((s.freeRecord k c).tell c.proposer (s.notice .proposalDeclined (some ⟨k, gen⟩) none none)).finish,
      .plain .ok) := by
  rw [declineBody, withHandle_row h, State.handleAt_of_row h]

theorem activateBody_row (h : s.table[k] = ⟨gen, some c⟩) : activateBody p k.val gen s =
    if ¬ s.managesAnEnd p c then refuse s .notManager
    else if c.state ≠ .armed then refuse s .wrongState
    else ((s.activateRecord k c).finish, .plain .ok) := by
  rw [activateBody, withHandle_row h]

theorem releaseBody_row (h : s.table[k] = ⟨gen, some c⟩) : releaseBody p k.val gen s =
    if ¬ s.managesAnEnd p c then refuse s .notManager
    else if ¬ c.state.releasable then refuse s .wrongState
    else ((s.releaseRecord p k c).finish,
      ⟨.ok, u8 (stateNumber (((s.releaseRecord p k c).conn k).map (·.state)))⟩) := by
  rw [releaseBody, withHandle_row h]

end

/-! ## The octets of READ_CONN -/

theorem item_eq_itemOctets {α : Type} (width : Nat) (f : α → List Byte) (o : Option α) :
    item width f o = itemOctets width (o.map f) := by
  cases o <;> rfl

theorem itemOctets_length {w : Nat} {o : Option (List Byte)} (h : ∀ xs, o = some xs → xs.length = w) :
    (itemOctets w o).length = w + 1 := by
  cases o with
  | none => simp [itemOctets]
  | some xs => simp [itemOctets, h xs rfl]

theorem item_length {α : Type} {w : Nat} {f : α → List Byte} (h : ∀ a, (f a).length = w) (o : Option α) :
    (item w f o).length = w + 1 := by
  rw [item_eq_itemOctets]
  refine itemOctets_length fun xs hx => ?_
  obtain ⟨a, -, rfl⟩ := Option.map_eq_some_iff.mp hx
  exact h a

theorem Setpoint.octets_eq (v : Setpoint) : v.octets = setpointOctets v := by
  cases v <;> rfl

theorem Setpoint.octets_length (v : Setpoint) : v.octets.length = 2 := by
  cases v <;> rfl

theorem yesNo_eq (b : Bool) : yesNo b = [if b then 1 else 0] := by
  cases b <;> rfl

theorem Causes.octets_eq (k : Causes) :
    k.octets = [BitVec.ofNat 8 ((if k.sourceDark then 1 else 0) + (if k.trip then 2 else 0))] := by
  obtain ⟨a, b⟩ := k
  cases a <;> cases b <;> rfl

theorem NotifySet.octets_eq (n : NotifySet) : n.octets = [BitVec.ofNat 8 ((if n.ramp then 1 else 0) +
    (if n.suspend then 2 else 0) + (if n.power then 4 else 0))] := by
  obtain ⟨a, b, c⟩ := n
  cases a <;> cases b <;> cases c <;> rfl

/-- The octets of a record that are always there (R26). -/
def Conn.fixedOctets (c : Conn) (h : Handle) : List Byte :=
  [BitVec.ofNat 8 h.slot.val, h.gen,
    (match c.route with | .add _ _ => 0 | .drop _ _ => 1 | .express _ _ => 2),
    BitVec.ofNat 8 c.route.source.index.val, BitVec.ofNat 8 c.route.sink.index.val,
    BitVec.ofNat 8 (c.span.first / 256), BitVec.ofNat 8 c.span.first, BitVec.ofNat 8 c.span.width,
    (match c.state with
      | .proposed => 1 | .armed => 2 | .suspended => 3 | .pendingUp => 4 | .rampUp => 5 | .inService => 6
      | .pendingDown => 7 | .rampDown => 8 | .draining => 9),
    BitVec.ofNat 8 c.proposer.val]

theorem Conn.fixedOctets_eq (c : Conn) (h : Handle) :
    Handle.octets h ++ u8 c.route.typeNumber ++ c.route.source.octets ++ c.route.sink.octets ++ Span.octets c.span ++
      u8 (stateNumber (some c.state)) ++ u8 c.proposer.val = c.fixedOctets h := by
  have gen : BitVec.ofNat 8 h.gen.toNat = h.gen := by simp
  have type : BitVec.ofNat 8 c.route.typeNumber =
      (match c.route with | .add _ _ => 0 | .drop _ _ => 1 | .express _ _ => 2 : Byte) := by
    cases c.route <;> rfl
  have state : BitVec.ofNat 8 (stateNumber (some c.state)) = (match c.state with
      | .proposed => 1 | .armed => 2 | .suspended => 3 | .pendingUp => 4 | .rampUp => 5 | .inService => 6
      | .pendingDown => 7 | .rampDown => 8 | .draining => 9 : Byte) := by
    cases c.state <;> rfl
  simp only [Handle.octets, Endpoint.octets, Span.octets, u8, u16, List.cons_append, List.nil_append, Conn.fixedOctets,
    gen, type, state]

/-- The results of READ_CONN, every item by its octets (R49, R190). -/
theorem State.connResults_eq (s : State) (h : Handle) (c : Conn) : s.connResults h c =
    c.fixedOctets h ++ itemOctets 1 (c.peer.map fun q => [BitVec.ofNat 8 q.val]) ++
      itemOctets 4 (c.expiry.map timeOctets) ++ [if c.autoActivate then 1 else 0] ++
      itemOctets 2 (c.target.map i16) ++ itemOctets 1 (c.dropAtten.map fun a => [BitVec.ofNat 8 a]) ++
      [BitVec.ofNat 8 ((if c.notify.ramp then 1 else 0) + (if c.notify.suspend then 2 else 0) +
        (if c.notify.power then 4 else 0))] ++
      itemOctets 2 (if c.route.sinkDegree = none then none else some (setpointOctets c.shadow)) ++
      itemOctets 2 (if c.route.sinkDegree = none then some (setpointOctets c.shadow) else none) ++
      itemOctets 1 (c.source.map fun l => match l with | .lit => [0] | .dark => [1]) ++
      itemOctets 1 (c.causes.map fun k =>
        [BitVec.ofNat 8 ((if k.sourceDark then 1 else 0) + (if k.trip then 2 else 0))]) ++
      itemOctets 1 (c.power.map fun w => match w with | .normal => [0] | .underpower => [1] | .overpower => [2]) ++
      itemOctets 2 (c.lastLevel.map i16) ++ setpointOctets s.actives[h.slot] ++
      itemOctets 1 ((s.track h).map fun e => [BitVec.ofNat 8 e.darkRun]) ++
      itemOctets 1 ((s.track h).map fun e => [BitVec.ofNat 8 e.lightRun]) ++
      itemOctets 1 ((s.queuePosition h c).map fun n => [BitVec.ofNat 8 n]) := by
  have setpoint : Setpoint.octets = setpointOctets := funext Setpoint.octets_eq
  have causes : Causes.octets = fun k : Causes =>
      [BitVec.ofNat 8 ((if k.sourceDark then 1 else 0) + (if k.trip then 2 else 0))] := funext Causes.octets_eq
  have select : (if c.route.sinkDegree.isSome then some c.shadow else none).map setpointOctets =
      if c.route.sinkDegree = none then none else some (setpointOctets c.shadow) := by
    cases c.route.sinkDegree <;> rfl
  have drop : (if c.route.sinkDegree.isSome then none else some c.shadow).map setpointOctets =
      if c.route.sinkDegree = none then some (setpointOctets c.shadow) else none := by
    cases c.route.sinkDegree <;> rfl
  have source : (fun l : Light => u8 l.number) = fun l => match l with | .lit => [0] | .dark => [1] := by
    funext l
    cases l <;> rfl
  have power : (fun w : PowerCond => u8 w.number) =
      fun w => match w with | .normal => [0] | .underpower => [1] | .overpower => [2] := by
    funext w
    cases w <;> rfl
  unfold State.connResults
  rw [Conn.fixedOctets_eq]
  simp only [item_eq_itemOctets, setpoint, causes, select, drop, source, power, yesNo_eq, NotifySet.octets_eq]
  rfl

/-- The results of READ_CONN are forty-seven octets, whatever is absent (R49, R190). -/
theorem State.connResults_length (s : State) (h : Handle) (c : Conn) : (s.connResults h c).length = 47 := by
  have atten : ∀ a : Nat, (u8 a).length = 1 := fun _ => rfl
  unfold State.connResults
  simp only [List.length_append, Setpoint.octets_length,
    item_length (f := fun p : Domain => u8 p.val) (w := 1) (fun _ => rfl),
    item_length (f := timeOctets) (w := 4) (fun _ => rfl), item_length (f := i16) (w := 2) (fun _ => rfl),
    item_length (f := u8) (w := 1) atten, item_length (f := Setpoint.octets) (w := 2) Setpoint.octets_length,
    item_length (f := fun l : Light => u8 l.number) (w := 1) (fun _ => rfl),
    item_length (f := Causes.octets) (w := 1) (fun _ => rfl),
    item_length (f := fun p : PowerCond => u8 p.number) (w := 1) (fun _ => rfl),
    item_length (f := fun e : TrackEntry => u8 e.darkRun) (w := 1) (fun _ => rfl),
    item_length (f := fun e : TrackEntry => u8 e.lightRun) (w := 1) (fun _ => rfl)]
  simp only [Handle.octets, Endpoint.octets, Span.octets, NotifySet.octets, yesNo, u8, u16, List.length_append,
    List.length_cons, List.length_nil]

end

/-- Settles O11: each refusal follows the order of the body's checks. -/
theorem handleChecks : Obligations.HandleChecks := by
  unfold Obligations.HandleChecks
  refine ⟨fun p tag slot gen v s i hi ht => ?_, fun p tag k gen c s hr => ⟨fun i hi ht => ?_, fun i hi ht => ?_⟩⟩
  · simp only [List.mem_cons, List.not_mem_nil, or_false] at hi
    rcases hi with rfl | rfl | rfl | rfl | rfl | rfl | rfl
    all_goals
      refine ⟨fun h => refused_of ht (withHandle_outside h _ _), ?_⟩
      rintro k rfl h
      exact refused_of ht (withHandle_gone h _)
  · simp only [List.mem_cons, List.not_mem_nil, or_false] at hi
    obtain rfl | rfl := hi
    · exact ⟨fun h => refused_of ht (by rw [acceptBody_row hr, if_pos h]),
        fun h hs => refused_of ht (by rw [acceptBody_row hr, if_neg (by simp [h]), if_pos hs])⟩
    · exact ⟨fun h => refused_of ht (by rw [declineBody_row hr, if_pos h]),
        fun h hs => refused_of ht (by rw [declineBody_row hr, if_neg (by simp [h]), if_pos hs])⟩
  · simp only [List.mem_cons, List.not_mem_nil, or_false] at hi
    obtain rfl | rfl := hi
    · refine ⟨fun a b => refused_of ht ?_, fun h => ⟨fun _ hs => refused_of ht ?_, nofun⟩⟩
      · rw [activateBody_row hr, if_pos (by rw [State.managesAnEnd_iff]; exact fun h => h.elim a b)]
      · rw [activateBody_row hr, if_neg (not_not.mpr ((s.managesAnEnd_iff p c).mpr h)), if_pos hs]
    · refine ⟨fun a b => refused_of ht ?_, fun h => ⟨nofun, fun _ hs => refused_of ht ?_⟩⟩
      · rw [releaseBody_row hr, if_pos (by rw [State.managesAnEnd_iff]; exact fun h => h.elim a b)]
      · rw [releaseBody_row hr, if_neg (not_not.mpr ((s.managesAnEnd_iff p c).mpr h)), if_pos]
        obtain hs | hs | hs := hs <;> simp [hs, CState.releasable]

/-- Settles O15, item by item. -/
theorem readConnResult : Obligations.ReadConnResult := by
  unfold Obligations.ReadConnResult
  intro p tag k gen c s ht hr
  refine ⟨s.connResults ⟨k, gen⟩ c, carried_of ht ?_, s.connResults_length _ _, ?_⟩
  · rw [readConnBody, withHandle_row hr, State.handleAt_of_row hr]
  · have track : s.track ⟨k, gen⟩ = s.tracks.find? fun e => e.handle = ⟨k, gen⟩ := by
      simp [State.track, BEq.beq]
    have place : (s.queuePosition ⟨k, gen⟩ c).map (fun n => [BitVec.ofNat 8 n]) =
        Option.map (fun n => [BitVec.ofNat 8 (n + 1)]) (match c.route.sinkDegree with
          | some d => s.ramps[d].queue.findIdx? fun e => e.handle = ⟨k, gen⟩
          | none => none) := by
      rw [State.queuePosition]
      cases c.route.sinkDegree with
      | none => rfl
      | some d => simp [BEq.beq, Function.comp_def]
    rw [State.connResults_eq, track, place]
    rfl

end Sys2Proof.Machine
end

