-- ==== Sys2Proof/Proofs/Arming.lean ====
section
/-! Proofs/Arming.lean: a record armed, activated or freed by its domains (O9, O10, O12). -/

set_option Elab.async false

namespace Sys2Proof.Machine
open Sys2Proof

section
variable {s t u : State}

/-! ## Ports: what is told and replied depends on the ports alone -/

theorem State.ports_tell (h : t.ports = s.ports) (p : Domain) (n : Notice) : (t.tell p n).ports = (s.tell p n).ports := by
  rw [State.tell, State.tell, State.mapPort_ports, State.mapPort_ports, h]

theorem State.ports_reply (h : t.ports = s.ports) (p : Domain) (tag : Byte) (a : Answer) :
    (t.reply p tag a).ports = (s.reply p tag a).ports := by
  rw [State.reply, State.reply, State.mapPort_ports, State.mapPort_ports, h]

theorem State.ports_tellConn (h : t.ports = s.ports) (time : t.nodeTime = s.nodeTime) (k : Handle) (c : Conn)
    (kind : NoticeKind) (value : Option Int) : (t.tellConn k c kind value).ports = (s.tellConn k c kind value).ports := by
  rw [State.tellConn_eq, State.tellConn_eq]
  generalize c.domains = ps
  induction ps generalizing s t with
  | nil => exact h
  | cons p ps ih =>
    have gated : (t.tellGated k c kind value p).ports = (s.tellGated k c kind value p).ports := by
      unfold State.tellGated State.notice
      rw [h, time]
      split
      · exact State.ports_tell h p _
      · exact h
    exact ih gated ((t.tellGated_nodeTime k c kind value p).trans (time.trans (s.tellGated_nodeTime k c kind value p).symm))

/-! ## Activation and arming -/

/-- The record that activation leaves, over the obligation's reading of it. -/
theorem State.activated_eq (s : State) (c : Conn) :
    s.activated c = { activatedRecord s c with expiry := c.expiry } := by
  unfold State.activated activatedRecord State.tripInForce
  cases c.route.sinkDegree <;> rfl

theorem State.activated_armed (s : State) (c : Conn) :
    s.activated { c with state := .armed, expiry := none } = activatedRecord s c := by
  rw [State.activated_eq]
  unfold activatedRecord
  dsimp only
  cases c.route.sinkDegree <;> rfl

theorem State.tracks_activateRecord (s : State) (i : SlotIx) (c : Conn) :
    (s.activateRecord i c).tracks = (s.startTrack (s.handleAt i) c).tracks := by
  unfold State.activateRecord
  dsimp only
  cases c.route.sinkDegree <;> simp

/-- The tracking entries once a connection is tracked (R88). -/
theorem State.mem_startTrack (s : State) (h : Handle) (c : Conn) (e : TrackEntry) :
    e ∈ (s.startTrack h c).tracks ↔
      e = ⟨h, c.route.tap, c.span, .dark, 0, 0⟩ ∨ e ∈ s.tracks ∧ e.handle.slot ≠ h.slot := by
  simp [mem_insertBy]

theorem State.tracks_armRecord (s : State) (i : SlotIx) (c : Conn) : (s.armRecord i c).tracks =
    if c.autoActivate then (s.startTrack (s.handleAt i) c).tracks else s.tracks := by
  unfold State.armRecord
  dsimp only
  split
  · rw [State.tracks_activateRecord, State.handleAt_of_table (State.setMatrix_frame ..).1, State.handleAt_putConn]
    simp
  · simp

/-- A record that enters ARMED sets its matrix half (R34). -/
theorem State.matrix_armRecord (s : State) (i : SlotIx) (c : Conn) :
    (s.armRecord i c).matrix = (s.setMatrix c.route).matrix := by
  unfold State.armRecord
  dsimp only
  split <;> cases c.route <;> simp [State.setMatrix, State.mapMatrix, State.mark]

theorem State.addShadow_setMatrix (s : State) (l : LocalPort) (d : Degree) :
    (s.setMatrix (.add l d)).matrix[l].addShadow = some d := by
  show (s.matrix.set l { s.matrix[l] with addShadow := some d })[l].addShadow = some d
  rw [get_set_self]

theorem State.dropShadow_setMatrix (s : State) (d : Degree) (l : LocalPort) :
    (s.setMatrix (.drop d l)).matrix[l].dropShadow = some d := by
  show (s.matrix.set l { s.matrix[l] with dropShadow := some d })[l].dropShadow = some d
  rw [get_set_self]

/-! ## A freed record -/

theorem State.map_leaveMap (s : State) (h : Handle) (r : Route) (sp : Span) (d : Degree) :
    (r.sinkDegree = some d → (s.leaveMap h r sp).map[d].committed = s.map[d].committed - sp.width) ∧
    (r.sourceDegree = some d → ∀ u ∈ (s.leaveMap h r sp).map[d].ingress, u.span = sp → h ∉ u.users) := by
  have left : ∀ (m : DegreeMap), ∀ u ∈ (m.leaveIngress sp h).ingress, u.span = sp → h ∉ u.users := by
    intro m u hu hs
    obtain ⟨e, -, he⟩ := List.mem_filterMap.mp hu
    split at he
    · split at he
      · cases he
      · cases he
        simp
    · next hne =>
      cases he
      exact absurd hs hne
  cases r with
  | add l k =>
    refine ⟨fun hd => ?_, nofun⟩
    cases hd
    simp [-Fin.getElem_fin, State.leaveMap, DegreeMap.leaveEgress, get_set_self]
  | drop k l =>
    refine ⟨nofun, fun hd => ?_⟩
    cases hd
    simpa only [State.leaveMap, State.mapHolders_map, State.mapMap_map, get_set_self, DegreeMap.leaveDrop] using left _
  | express a b =>
    refine ⟨fun hd => ?_, fun hd => ?_⟩
    · cases hd
      simp only [State.leaveMap, State.mapMap_map, get_set]
      split
      · next h => subst h; simp [DegreeMap.leaveEgress, DegreeMap.leaveIngress]
      · simp [DegreeMap.leaveEgress]
    · cases hd
      simpa only [State.leaveMap, State.mapMap_map, get_set_self] using left _

theorem State.holders_leaveMap (s : State) (h : Handle) (r : Route) (sp : Span) :
    (∀ d l, r = .drop d l → (s.leaveMap h r sp).holders[l].drop = none) ∧
    (∀ l d, r = .add l d → (s.leaveMap h r sp).holders[l].add = none) := by
  refine ⟨?_, ?_⟩
  all_goals
    rintro _ _ rfl
    simp [-Fin.getElem_fin, State.leaveMap, get_set_self]

/-- What a freed record leaves behind (R17, R45). -/
theorem State.freeRecord_freed (s : State) (i : SlotIx) (c : Conn) : Freed s (s.freeRecord i c) i c := by
  refine ⟨?_, s.actives_freeRecord i c, fun d hd => ⟨?_, fun e => ?_⟩, fun d hd => ?_, fun d l hr => ⟨?_, fun e he => ?_⟩,
    fun l d hr => ?_, fun e he => ?_, ?_⟩
  · rw [State.table_freeRecord]
    rfl
  · rw [State.map_freeRecord]
    exact (s.map_leaveMap _ _ _ d).1 hd
  · rw [State.map_freeRecord, State.egress_leaveMap]
    exact and_congr_right fun _ => ⟨fun h => h hd, fun h _ => h⟩
  · rw [State.map_freeRecord]
    exact (s.map_leaveMap _ _ _ d).2 hd
  · rw [State.holders_freeRecord]
    exact (s.holders_leaveMap _ _ _).1 d l hr
  · rw [State.map_freeRecord, State.drops_leaveMap] at he
    exact he.2 ⟨l, hr⟩
  · rw [State.holders_freeRecord]
    exact (s.holders_leaveMap _ _ _).2 l d hr
  · rw [State.tracks_freeRecord] at he
    simpa using (List.mem_filter.mp he).2
  · simp

/-- Notices, replies and the end of the step leave what a freed record left. -/
theorem Freed.of_eq {i : SlotIx} {c : Conn} (h : Freed s t i c) (table : u.table = t.table)
    (actives : u.actives = t.actives) (map : u.map = t.map) (holders : u.holders = t.holders)
    (tracks : u.tracks = t.tracks) (managers : u.managers = t.managers) (settings : u.settings = t.settings)
    (trips : u.trips = t.trips) (logs : u.logs = t.logs) (ramps : u.ramps = t.ramps) : Freed s u i c := by
  unfold Freed at h ⊢
  rwa [table, actives, map, holders, tracks, managers, settings, trips, logs, ramps]

/-- The expiry of a reservation on the ports: the proposer's and the peer's notices (R32). -/
theorem State.expireReservation_ports (s : State) (i : SlotIx) (c : Conn) :
    (s.expireReservation i c).ports =
      match c.peer with
      | some q => ((s.tell c.proposer (s.notice .proposalExpired (some (s.handleAt i)) none none)).tell q
          (s.notice .proposalExpired (some (s.handleAt i)) none none)).ports
      | none => (s.tell c.proposer (s.notice .proposalExpired (some (s.handleAt i)) none none)).ports := by
  have free : (s.freeRecord i c).ports = s.ports := by simp
  unfold State.expireReservation Conn.domains
  cases c.peer with
  | none => exact State.ports_tell free _ _
  | some q => exact State.ports_tell (State.ports_tell free _ _) _ _

theorem State.expireReservation_freed (s : State) (i : SlotIx) (c : Conn) :
    Freed s (s.expireReservation i c) i c ∧ (s.expireReservation i c).matrix = (s.freeRecord i c).matrix := by
  have kept : ∀ {α : Type} (f : State → α), (∀ s p n, f (State.tell s p n) = f s) →
      f (s.expireReservation i c) = f (s.freeRecord i c) := fun f hf => foldl_keeps f _ (fun s q => hf s q _) _ _
  exact ⟨(s.freeRecord_freed i c).of_eq (kept _ (by simp)) (kept _ (by simp)) (kept _ (by simp)) (kept _ (by simp))
    (kept _ (by simp)) (kept _ (by simp)) (kept _ (by simp)) (kept _ (by simp)) (kept _ (by simp)) (kept _ (by simp)),
    kept _ (by simp)⟩

end

/-- Settles O12, by the record that activation leaves. -/
theorem activateResult : Obligations.ActivateResult := by
  unfold Obligations.ActivateResult
  intro p tag k gen c s ht hr armed manages
  have body : activateBody p k.val gen s = ((s.activateRecord k c).finish, .plain .ok) := by
    rw [activateBody_row hr, if_neg (not_not.mpr ((s.managesAnEnd_iff p c).mpr manages)), if_neg (not_not.mpr armed)]
  refine ⟨_, carried_of ht body, ?_, ?_, State.ports_reply (by simp) _ _ _, ?_⟩
  · rw [← State.activated_eq, ← State.putConn_row hr, ← State.table_activateRecord]
    simp
  · have tracks : ((s.activateRecord k c).finish.reply p tag (.plain .ok)).tracks = (s.startTrack ⟨k, gen⟩ c).tracks := by
      rw [← State.handleAt_of_row hr, ← State.tracks_activateRecord]
      simp
    rw [tracks, State.mem_startTrack]
    exact .inl rfl
  · simp

/-- Settles O9, by the record that entering ARMED leaves. -/
theorem acceptResult : Obligations.AcceptResult := by
  unfold Obligations.AcceptResult
  intro p tag i gen c s ht hr peer proposed
  have body : acceptBody p i.val gen s = (((s.armRecord i c).tell c.proposer
      (s.notice .proposalAccepted (some ⟨i, gen⟩) none none)).finish, .plain .ok) := by
    rw [acceptBody_row hr, if_neg (not_not.mpr peer), if_neg (not_not.mpr proposed)]
  have matrix : ((((s.armRecord i c).tell c.proposer
      (s.notice .proposalAccepted (some ⟨i, gen⟩) none none)).finish).reply p tag (.plain .ok)).matrix =
        (s.setMatrix c.route).matrix := by
    rw [← s.matrix_armRecord i c]
    simp
  have tracks : ((((s.armRecord i c).tell c.proposer
      (s.notice .proposalAccepted (some ⟨i, gen⟩) none none)).finish).reply p tag (.plain .ok)).tracks =
        if c.autoActivate then (s.startTrack ⟨i, gen⟩ c).tracks else s.tracks := by
    rw [← State.handleAt_of_row hr, ← State.tracks_armRecord]
    simp
  refine ⟨_, carried_of ht body, ?_, ?_, ?_, ?_, ?_, ?_, ?_⟩
  · have armed : s.armed c = if c.autoActivate then activatedRecord s c else { c with state := .armed, expiry := none } := by
      rw [State.armed, State.activated_armed]
    rw [← armed, ← State.putConn_row hr, ← State.table_armRecord]
    simp
  · exact State.ports_reply (Eq.trans (by rw [State.notice]; simp) (State.ports_tell (s := s) (t := s.armRecord i c) (by simp) _ _)) _ _ _
  · rintro l d hc
    rw [matrix, hc]
    exact s.addShadow_setMatrix l d
  · rintro d l hc
    rw [matrix, hc]
    exact s.dropShadow_setMatrix d l
  · intro auto e
    rw [tracks, if_pos auto]
    exact s.mem_startTrack _ c e
  · intro auto
    rw [tracks, if_neg (by simp [auto])]
  · simp

/-- Settles O10, by what a freed record leaves behind. -/
theorem declineAndExpiryResult : Obligations.DeclineAndExpiryResult := by
  unfold Obligations.DeclineAndExpiryResult
  refine ⟨fun p tag i gen c s ht hr peer proposed => ?_, fun i c e s held hc he => ⟨fun proposed due => ?_, fun early => ?_⟩⟩
  · have body : declineBody p i.val gen s = (((s.freeRecord i c).tell c.proposer
        (s.notice .proposalDeclined (some ⟨i, gen⟩) none none)).finish, .plain .ok) := by
      rw [declineBody_row hr, if_neg (not_not.mpr peer), if_neg (not_not.mpr proposed)]
    refine ⟨_, carried_of ht body, (s.freeRecord_freed i c).of_eq (by simp) (by simp) (by simp) (by simp) (by simp)
      (by simp) (by simp) (by simp) (by simp) (by simp), ?_, State.ports_reply ?_ _ _ _⟩
    · rw [← (State.freeRecord_proposed (s := s) (i := i) proposed).1]
      simp
    · exact Eq.trans (by rw [State.notice]; simp) (State.ports_tell (s := s) (t := s.freeRecord i c) (by simp) _ _)
  · have run : exec (.reservationExpiry i) s = .next (s.takeReservation i) := by
      change execReservationExpiry i s = _
      exact whileRunning_running held
    have taken : s.takeReservation i = (s.expireReservation i c).finish := by
      unfold State.takeReservation
      rw [hc]
      dsimp only
      rw [he]
      dsimp only
      rw [if_pos ⟨proposed, by simp [expired, due]⟩]
    obtain ⟨freed, matrix⟩ := s.expireReservation_freed i c
    refine ⟨_, run, ?_, ?_, ?_⟩
    all_goals rw [taken]
    · exact freed.of_eq (by simp) (by simp) (by simp) (by simp) (by simp) (by simp) (by simp) (by simp) (by simp) (by simp)
    · rw [← (State.freeRecord_proposed (s := s) (i := i) proposed).1, ← matrix]
      simp
    · exact Eq.trans (by simp) (s.expireReservation_ports i c)
  · have same : s.takeReservation i = s := by
      unfold State.takeReservation
      rw [hc]
      dsimp only
      rw [he]
      dsimp only
      refine if_neg fun h => ?_
      obtain ⟨hp, ht⟩ := h
      exact early.elim (fun n => n hp) fun n => n (by simpa [expired] using ht)
    change execReservationExpiry i s = _
    rw [execReservationExpiry, whileRunning_running held, same]

end Sys2Proof.Machine
end

