-- ==== Sys2Proof/Proofs/Levels.lean ====
section
/-! Proofs/Levels.lean: the commands that set a level, and the UPDATE a marked link is sent (O14). -/

set_option Elab.async false

namespace Sys2Proof.Machine
open Sys2Proof

section
variable {s t u : State}

/-! ## The UPDATE that a marked link is sent -/

theorem State.link_flushLink_other (s : State) {k l : LinkId} (h : k ≠ l) : (s.flushLink l).links[k] = s.links[k] := by
  have unmarked : (s.mapLink l fun x => { x with pendingMark := false }).links[k] = s.links[k] := by
    rw [State.link_mapLink, if_neg h]
  have flushed : ((s.mapLink l fun x => { x with pendingMark := false }).sendIfPending l).links[k] = s.links[k] := by
    rw [← unmarked]
    unfold State.sendIfPending
    split
    · rw [State.link_sendBatch, if_neg h]
    · rfl
  by_cases hm : s.links[l].pendingMark = true
  · rw [State.flushLink, if_pos hm, flushed]
  · rw [State.flushLink, if_neg hm]

/-- A marked link that is READY and idle is sent an UPDATE with all that differs (R126, R127). -/
theorem State.inFlight_flushLink {l : LinkId} (mark : s.links[l].pendingMark = true) (ready : s.links[l].state = .ready)
    (idle : s.links[l].inFlight = none) (differs : s.updateEntries l ≠ []) :
    (s.flushLink l).links[l].inFlight = some ⟨.update, s.links[l].seq, s.updateEntries l⟩ := by
  have entries : (s.mapLink l fun x => { x with pendingMark := false }).updateEntries l = s.updateEntries l :=
    State.updateEntries_congr rfl rfl rfl rfl l
  rw [State.flushLink, if_pos mark, State.sendIfPending, if_pos, State.link_sendBatch, if_pos rfl, entries,
    State.link_mapLink, if_pos rfl]
  rw [State.link_mapLink, if_pos rfl, entries]
  exact ⟨ready, idle, differs⟩

/-- A batch in flight stays as the links are examined. -/
theorem State.inFlight_flushLink_some {l k : LinkId} {b : Batch} (h : s.links[l].inFlight = some b) :
    (s.flushLink k).links[l].inFlight = some b := by
  by_cases hk : l = k
  · subst hk
    unfold State.flushLink
    split
    · rw [State.sendIfPending, if_neg]
      · rw [State.link_mapLink, if_pos rfl]
        exact h
      · rw [State.link_mapLink, if_pos rfl]
        rintro ⟨-, idle, -⟩
        rw [show s.links[l].inFlight = none from idle] at h
        cases h
    · exact h
  · rw [s.link_flushLink_other hk, h]

theorem State.inFlight_flushes_some {l : LinkId} {b : Batch} (ls : List LinkId) (s : State)
    (h : s.links[l].inFlight = some b) : (ls.foldl State.flushLink s).links[l].inFlight = some b := by
  induction ls generalizing s with
  | nil => exact h
  | cons k ls ih => exact ih _ (State.inFlight_flushLink_some h)

theorem State.inFlight_flushes {l : LinkId} (ls : List LinkId) (s : State) (hl : l ∈ ls)
    (mark : s.links[l].pendingMark = true) (ready : s.links[l].state = .ready) (idle : s.links[l].inFlight = none)
    (differs : s.updateEntries l ≠ []) :
    (ls.foldl State.flushLink s).links[l].inFlight = some ⟨.update, s.links[l].seq, s.updateEntries l⟩ := by
  induction ls generalizing s with
  | nil => cases hl
  | cons k ls ih =>
    rw [List.foldl_cons]
    by_cases hk : l = k
    · subst hk
      exact State.inFlight_flushes_some ls _ (State.inFlight_flushLink mark ready idle differs)
    · have link := s.link_flushLink_other hk
      have entries : (s.flushLink k).updateEntries l = s.updateEntries l :=
        State.updateEntries_congr (by simp) (by simp) (by simp) (by simp) l
      rw [ih _ ((List.mem_cons.mp hl).resolve_left hk) (by rw [link]; exact mark) (by rw [link]; exact ready)
        (by rw [link]; exact idle) (by rw [entries]; exact differs), link, entries]

/-- The examination of the links at the end of a step sends what a marked link has to send (R126, R127). -/
theorem State.finish_sends {l : LinkId} (mark : s.links[l].pendingMark = true) (ready : s.links[l].state = .ready)
    (idle : s.links[l].inFlight = none) (differs : s.updateEntries l ≠ []) :
    s.finish.links[l].inFlight = some ⟨.update, s.links[l].seq, s.updateEntries l⟩ := by
  have links : s.finish.links = s.flushLinks.links := (State.prompt_frame _).2.2.2.2.2.2.2.2.1
  rw [links]
  exact State.inFlight_flushes _ s (List.mem_finRange l) mark ready idle differs

/-- The entry of a listed record whose shadow differs is among those an UPDATE carries (R123, R127). -/
theorem State.mem_updateEntries {d : Degree} {h : Handle} {c : Conn} (listed : s.lists d h) (find : s.find h = some c)
    (differs : c.shadow ≠ s.actives[h.slot]) : c.entry h ∈ s.updateEntries (degreeLink d) := by
  rw [State.updateEntries, State.linkEntries_degree]
  have entry : (c.entry h, true) ∈ s.degreeEntries d :=
    (s.mem_degreeEntries d _).mpr ⟨h, c, listed, find, by rw [bne_iff_ne.mpr differs]⟩
  exact List.mem_map.mpr ⟨_, List.mem_filter.mpr ⟨entry, rfl⟩, rfl⟩

theorem State.link_reply (s : State) (p : Domain) (tag : Byte) (a : Answer) (l : LinkId) :
    (s.reply p tag a).links[l] = s.links[l] := rfl

/-! ## The clamps -/

/-- A clamped value is answered OK_CLAMPED (R47, R48). -/
theorem okOrClamped_clampInt {lo hi v : Int} : okOrClamped (decide (clampInt lo hi v ≠ v)) =
    if v < lo ∨ hi < v then .okClamped else .ok := by
  unfold okOrClamped clampInt
  by_cases below : v < lo
  · simp [below, below.ne']
  · by_cases above : hi < v
    · simp [below, above, above.ne]
    · simp [below, above]

theorem clampInt_toNat (v : Int) :
    (clampInt 0 250 v).toNat = if v < 0 then 0 else if 250 < v then 250 else v.toNat := by
  unfold clampInt
  split
  · rfl
  · split <;> rfl

/-! ## SET_TARGET and SET_DROP_ATTEN -/

section
variable {k : SlotIx} {gen : BitVec 8} {c : Conn} {p : Domain}

/-- A rewritten record is all that changes. -/
theorem State.putConn_of_row {c : Option Conn} (h : s.table[k] = ⟨gen, c⟩) (a : Option Conn) :
    s.putConn k a = { s with table := s.table.set k ⟨gen, a⟩ } := by
  rw [State.putConn, h]

theorem setTargetBody_row (h : s.table[k] = ⟨gen, some c⟩) (v : Int) : setTargetBody p k.val gen v s =
    match c.route.sinkDegree with
    | none => refuse s .wrongState
    | some d =>
      if ¬ s.manages p (.degree d) then refuse s .notManager
      else (s.putConn k (some { c with target := some (clampInt (-300) 50 v) }),
        .plain (okOrClamped (decide (clampInt (-300) 50 v ≠ v)))) := by
  rw [setTargetBody, withHandle_row h] <;> rfl

theorem setDropAttenBody_row_of_sink {d : Degree} (h : s.table[k] = ⟨gen, some c⟩) (hd : c.route.sinkDegree = some d)
    (v : Int) : setDropAttenBody p k.val gen v s = refuse s .wrongState := by
  rw [setDropAttenBody, withHandle_row h]
  cases hr : c.route with
  | add l d => rfl
  | drop d l => rw [hr] at hd; cases hd
  | express a b => rfl

theorem setDropAttenBody_row {d : Degree} {l : LocalPort} (h : s.table[k] = ⟨gen, some c⟩) (hr : c.route = .drop d l)
    (v : Int) : setDropAttenBody p k.val gen v s =
    if ¬ s.manages p (.port l) then refuse s .notManager
    else
      let a := (clampInt 0 250 v).toNat
      let answer := Answer.plain (okOrClamped (decide (clampInt 0 250 v ≠ v)))
      match c.state with
      | .proposed => (s.putConn k (some { c with dropAtten := some a }), answer)
      | .armed => (s.putConn k (some { c with dropAtten := some a }), answer)
      | .inService =>
        (((s.putConn k (some { c with dropAtten := some a, shadow := .att a })).mark (degreeLink d)).finish, answer)
      | _ => refuse s .wrongState := by
  rw [setDropAttenBody, withHandle_row h, hr] <;> rfl

/-- A DROP whose attenuation differs from the active one is sent in an UPDATE, its source degree's link READY and idle
(R48, R126, R127). -/
theorem State.dropAtten_sent {d : Degree} {l : LocalPort} {c' : Conn} {a : Nat} (h : s.table[k] = ⟨gen, some c⟩)
    (hr : c'.route = .drop d l) (hs : c'.span = c.span) (shadow : c'.shadow = .att a)
    (ready : s.links[degreeLink d].state = .ready) (idle : s.links[degreeLink d].inFlight = none)
    (differs : s.actives[k] ≠ .att a) (listed : (⟨c.span, l, ⟨k, gen⟩⟩ : DropEntry) ∈ s.map[d].drops) :
    ∃ b, ((s.putConn k (some c')).mark (degreeLink d)).finish.links[degreeLink d].inFlight = some b ∧ b.kind = .update ∧
      b.seq = s.links[degreeLink d].seq ∧ Entry.drop ⟨k, gen⟩ c.span l (.att a) ∈ b.entries := by
  have marked := State.link_mark (s.putConn k (some c')) (degreeLink d) (degreeLink d)
  rw [if_pos rfl] at marked
  have find : ((s.putConn k (some c')).mark (degreeLink d)).find ⟨k, gen⟩ = some c' := by
    rw [State.find_of_table (s := s.putConn k (some c')) (by simp), State.find_putConn, if_pos (State.handleAt_of_row h).symm]
  have carried : c'.entry ⟨k, gen⟩ = .drop ⟨k, gen⟩ c.span l (.att a) := by
    rw [Conn.entry, hr, hs, shadow]
  have entry := State.mem_updateEntries (s := (s.putConn k (some c')).mark (degreeLink d)) (d := d)
    (.inr ⟨_, by simpa using listed, rfl⟩) find (by rw [shadow]; simpa [-Fin.getElem_fin] using differs.symm)
  rw [carried] at entry
  refine ⟨_, State.finish_sends ?_ ?_ ?_ (List.ne_nil_of_mem entry), rfl, ?_, entry⟩
  all_goals rw [marked]
  · exact ready
  · exact idle
  · rfl

end

end

/-- Settles O14: the value stored by each body, and the UPDATE that the marked link is sent. -/
theorem setLevelsResult : Obligations.SetLevelsResult := by
  unfold Obligations.SetLevelsResult
  refine ⟨fun p tag k gen v c s ht hr => ⟨fun hd => ?_, fun d hd => ⟨fun hm => ?_, fun hm => ?_⟩⟩, ?_⟩
  · exact refused_of ht (by rw [setTargetBody_row hr, hd])
  · refine refused_of ht ?_
    rw [setTargetBody_row hr, hd]
    exact if_pos fun h => hm ((s.manages_iff p _).mp h)
  · have body : setTargetBody p k.val gen v s = (s.putConn k (some { c with target := some (clampInt (-300) 50 v) }),
        .plain (if v < -300 ∨ 50 < v then .okClamped else .ok)) := by
      rw [setTargetBody_row hr, hd, ← okOrClamped_clampInt]
      exact if_neg (not_not.mpr ((s.manages_iff p _).mpr hm))
    intro c'
    exact (carried_of ht body).trans (by rw [State.putConn_of_row hr]; rfl)
  intro p tag k gen v c s i a code ht hr
  refine ⟨fun hd => ?_, fun d l hc => ⟨fun hm => ?_, fun hm => ⟨fun hs => ?_, fun hs => ?_, fun hs => ?_⟩⟩⟩
  · obtain ⟨d, hd⟩ := Option.ne_none_iff_exists'.mp hd
    exact refused_of ht (setDropAttenBody_row_of_sink hr hd v)
  · refine refused_of ht ?_
    rw [setDropAttenBody_row hr hc, if_pos fun h => hm ((s.manages_iff p _).mp h)]
  all_goals
    have body := setDropAttenBody_row (p := p) hr hc v
    rw [if_neg (not_not.mpr ((s.manages_iff p _).mpr hm)), okOrClamped_clampInt, clampInt_toNat] at body
  · exact refused_of ht (by rw [body, hs])
  · intro c'
    have stored : setDropAttenBody p k.val gen v s = (s.putConn k (some c'), .plain code) := by
      rw [body]
      dsimp only
      split
      · rfl
      · rfl
      · next h => simp [h] at hs
      · next proposed armed _ => exact (hs.elim proposed armed).elim
    exact (carried_of ht stored).trans (by rw [State.putConn_of_row hr]; rfl)
  · have stored : setDropAttenBody p k.val gen v s =
        (((s.putConn k (some { c with dropAtten := some a, shadow := .att a })).mark (degreeLink d)).finish,
          .plain code) := by
      rw [body]
      dsimp only
      split
      · next h => simp [h] at hs
      · next h => simp [h] at hs
      · rfl
      · next h => exact (h hs).elim
    refine ⟨_, carried_of ht stored, ?_, State.ports_reply (by simp) _ _ _, by simp, by simp, by simp, by simp, by simp,
      by simp, fun ready idle differs listed => ?_⟩
    · rw [← State.putConn_row hr]
      simp
    · rw [State.link_reply]
      exact State.dropAtten_sent (c' := { c with dropAtten := some a, shadow := .att a }) hr hc rfl rfl ready idle
        differs listed

end Sys2Proof.Machine
end

