-- ==== Sys2Proof/Proofs/Release.lean ====
section
/-! Proofs/Release.lean: RELEASE by the record's state (O13). -/

set_option Elab.async false

namespace Sys2Proof.Machine
open Sys2Proof

section
variable {s t u : State} {d : Degree} {h : Handle} {c : Conn}

/-! ## Grants, one at a time -/

theorem State.canGrant_congr (links : t.links[degreeLink d].state = s.links[degreeLink d].state)
    (trips : t.trips[d].state = s.trips[d].state) (holders : t.ramps[d].holders.length = s.ramps[d].holders.length)
    (settings : t.settings = s.settings) : t.canGrant d = s.canGrant d := by
  unfold State.canGrant State.tripInForce State.activeRamps
  rw [links, trips, holders, settings]

theorem State.takeGrant_up (find : s.find h = some c) (up : c.state = .pendingUp) : s.takeGrant d h =
    ((s.mapRamps d fun r => (r.dequeue h).hold h none).putConn h.slot
      (some { c with state := .rampUp, shadow := .att 250 })).mark (degreeLink d) := by
  unfold State.takeGrant
  rw [find]
  dsimp only
  split
  · rfl
  · next hs => rw [up] at hs; cases hs
  · next hs _ => exact absurd up hs

theorem State.takeGrant_down (find : s.find h = some c) (down : c.state = .pendingDown) : s.takeGrant d h =
    (s.mapRamps d fun r => (r.dequeue h).hold h none).putConn h.slot (some { c with state := .rampDown }) := by
  unfold State.takeGrant
  rw [find]
  dsimp only
  split
  · next hs => rw [down] at hs; cases hs
  · rfl
  · next hs => exact absurd down hs

theorem State.ramps_takeGrant (find : s.find h = some c) (pends : c.state = .pendingUp ∨ c.state = .pendingDown) :
    (s.takeGrant d h).ramps[d] = (s.ramps[d].dequeue h).hold h none := by
  have set : (s.ramps.set d ((s.ramps[d].dequeue h).hold h none))[d] = (s.ramps[d].dequeue h).hold h none :=
    get_set_self ..
  obtain up | down := pends
  · rw [State.takeGrant_up find up]
    exact set
  · rw [State.takeGrant_down find down]
    exact set

/-- A grant event with one entry to offer is that entry's grant (R57). -/
theorem State.grantEvent_single (one : s.ramps[d].unoffered = [h]) (can : s.canGrant d = true) :
    s.grantEvent d = s.takeGrant d h := by
  rw [State.grantEvent, one, List.foldl_cons, List.foldl_nil, if_pos can]

/-- A record that joins a queue with no slot to grant waits at its tail (R55). -/
theorem State.joinQueue_waits (cannot : s.canGrant d = false) (h : Handle) :
    s.joinQueue d h = s.mapRamps d fun r => { r with queue := r.queue ++ [⟨h, none⟩] } := by
  refine State.grantEvent_none _ d ?_
  rw [← cannot]
  refine State.canGrant_congr rfl rfl ?_ rfl
  simp [-Fin.getElem_fin, get_set_self]

/-- A record that joins an empty queue with a slot to grant is granted it in the step (R55, R57). -/
theorem State.joinQueue_granted_alone (can : s.canGrant d = true) (empty : s.ramps[d].queue = []) (h : Handle) :
    s.joinQueue d h = (s.mapRamps d fun r => { r with queue := r.queue ++ [⟨h, none⟩] }).takeGrant d h := by
  refine State.grantEvent_single ?_ ?_
  · simp [-Fin.getElem_fin, get_set_self, Ramps.unoffered, empty]
  · rw [← can]
    refine State.canGrant_congr rfl rfl ?_ rfl
    simp [-Fin.getElem_fin, get_set_self]

/-- RSC's state of a degree after a grant is taken: the entry gone, the handle a slot holder (R58). -/
theorem Ramps.granted_queue (r : Ramps) (h : Handle) : ((r.dequeue h).hold h none).queue = r.queue.filter (·.handle ≠ h) :=
  rfl

theorem Ramps.granted_holder (r : Ramps) (h : Handle) : (⟨h, none⟩ : SlotHolder) ∈ ((r.dequeue h).hold h none).holders :=
  (mem_insertBy ..).mpr (.inl rfl)

theorem State.ramps_mapRamps (s : State) (d : Degree) (f : Ramps → Ramps) : (s.mapRamps d f).ramps[d] = f s.ramps[d] :=
  get_set_self ..

/-- The one record that waits and is granted a slot in the step: the state the grant leaves it in, its entry gone and its
slot held (R40, R55, R58). -/
theorem State.joinQueue_alone {a b : Conn} (find : s.find h = some a) (can : s.canGrant d = true)
    (empty : s.ramps[d].queue = [])
    (pends : a.state = .pendingUp ∧ b = { a with state := .rampUp, shadow := .att 250 } ∨
      a.state = .pendingDown ∧ b = { a with state := .rampDown }) :
    (s.joinQueue d h).table = (s.putConn h.slot (some b)).table ∧ (s.joinQueue d h).ramps[d].queue = [] ∧
    (⟨h, none⟩ : SlotHolder) ∈ (s.joinQueue d h).ramps[d].holders := by
  rw [State.joinQueue_granted_alone can empty]
  generalize hw : s.mapRamps d (fun r => { r with queue := r.queue ++ [⟨h, none⟩] }) = w
  have wtable : w.table = s.table := by rw [← hw]; rfl
  have wqueue : w.ramps[d].queue = [⟨h, none⟩] := by
    rw [← hw, State.ramps_mapRamps]
    show s.ramps[d].queue ++ _ = _
    rw [empty, List.nil_append]
  have wfind : w.find h = some a := by rw [State.find_of_table wtable, find]
  have put : ∀ x, (w.putConn h.slot x).table = (s.putConn h.slot x).table := fun x => by
    rw [State.putConn_table, wtable, ← State.putConn_table]
  have left : ((w.ramps[d].dequeue h).hold h none).queue = [] := by
    rw [Ramps.granted_queue, wqueue]
    simp
  rw [State.ramps_takeGrant wfind (pends.imp And.left And.left)]
  refine ⟨?_, left, Ramps.granted_holder _ _⟩
  obtain ⟨up, rfl⟩ | ⟨down, rfl⟩ := pends
  · rw [State.takeGrant_up wfind up]
    exact put _
  · rw [State.takeGrant_down wfind down]
    exact put _

/-! ## What is in flight while records change -/

/-- The batches in flight and the unanswered ones stay. -/
def SameBatches (s t : State) : Prop :=
  ∀ l : LinkId, t.links[l].inFlight = s.links[l].inFlight ∧ t.links[l].unanswered = s.links[l].unanswered

theorem SameBatches.of_links (h : t.links = s.links) : SameBatches s t := fun l => by rw [h]; exact ⟨rfl, rfl⟩

theorem SameBatches.trans (a : SameBatches s t) (b : SameBatches t u) : SameBatches s u :=
  fun l => ⟨(b l).1.trans (a l).1, (b l).2.trans (a l).2⟩

theorem SameBatches.of_mark {l : LinkId} (h : t.links = (s.mark l).links) : SameBatches s t := fun k => by
  rw [h]
  exact ⟨s.inFlight_mark l k, s.unanswered_mark l k⟩

theorem State.takeGrant_sameBatches (s : State) (d : Degree) (h : Handle) : SameBatches s (s.takeGrant d h) := by
  obtain he | ⟨c, -, ⟨-, he⟩ | ⟨-, he⟩⟩ := s.takeGrant_cases d h
  · rw [he]; exact .of_links rfl
  · rw [he]; exact .of_mark (l := degreeLink d) rfl
  · rw [he]; exact .of_links rfl

theorem State.grantEvent_sameBatches (s : State) (d : Degree) : SameBatches s (s.grantEvent d) :=
  State.grantEvent_keeps (SameBatches s) d (fun t h g _ => g.trans (t.takeGrant_sameBatches d h)) s (.of_links rfl)

theorem State.freeRamp_sameBatches (s : State) (d : Degree) (h : Handle) : SameBatches s (s.freeRamp d h) :=
  .trans (.of_links (by rfl)) (State.grantEvent_sameBatches _ d)

theorem State.leaveQueue_sameBatches (s : State) (d : Degree) (h : Handle) : SameBatches s (s.leaveQueue d h) := by
  unfold State.leaveQueue
  split
  · exact .of_links rfl
  · split
    · exact .of_links rfl
    · exact .trans (.of_links (by rfl)) (State.grantEvent_sameBatches _ d)

/-! ## The test of a draining record -/

/-- Whether an active setpoint is settled, by the record's route, the actives and what is in flight (R44). -/
theorem State.settled_congr {i : SlotIx} {c' : Conn} (route : c'.route = c.route) (actives : t.actives = s.actives)
    (gen : t.handleAt i = s.handleAt i) (same : SameBatches s t) : t.settled i c' = s.settled i c := by
  simp only [State.settled, route, actives, gen, same c.route.link]

theorem State.table_drainTest {i : SlotIx} (hc : s.conn i = some c) (draining : c.state = .draining) :
    (s.drainTest i).table = if s.settled i c = true then (s.putConn i none).table else s.table := by
  unfold State.drainTest
  rw [hc]
  dsimp only
  split
  · next h => rw [if_pos h.2, (State.tellConn_frame ..).1, State.table_freeRecord]
  · next h => rw [if_neg fun hs => h ⟨draining, hs⟩]

/-- The record of a slot once the test of R44 is made at the end of what drained it. -/
theorem State.conn_drainTest {i : SlotIx} {c' : Conn} (hc : t.conn i = some c') (draining : c'.state = .draining)
    (route : c'.route = c.route) (actives : t.actives = s.actives) (gen : t.handleAt i = s.handleAt i)
    (same : SameBatches s t) : (t.drainTest i).conn i = if s.settled i c = true then none else some c' := by
  have table := State.table_drainTest hc draining
  rw [State.settled_congr route actives gen same] at table
  split at table
  · next hs => rw [State.conn_of_table table, State.conn_putConn, if_pos rfl, if_pos hs]
  · next hs => rw [State.conn_of_table table, if_neg hs, hc]

/-- The test of R44 leaves the other records. -/
theorem OthersKept.drainTest {i : SlotIx} (h : OthersKept s t i) : OthersKept s (t.drainTest i) i := by
  obtain ⟨gens, others⟩ := h
  unfold State.drainTest
  split
  · exact ⟨gens, others⟩
  split
  · have table : ∀ a : Conn, ((t.freeRecord i a).tellConn (t.handleAt i) a .released none).table =
        (t.putConn i none).table := fun a => by rw [(State.tellConn_frame ..).1, State.table_freeRecord]
    refine ⟨fun j => ?_, fun j hj => ?_⟩
    · rw [table, State.gen_putConn, gens]
    · rw [State.conn_of_table (table _), State.conn_putConn, if_neg hj]
      exact others j hj
  · exact ⟨gens, others⟩

theorem OthersKept.of_table {i : SlotIx} (h : OthersKept s t i) (table : u.table = t.table) : OthersKept s u i :=
  ⟨fun j => by rw [table, h.1], fun j hj => by rw [State.conn_of_table table]; exact h.2 j hj⟩

/-- What drains a record: its own record rewritten, grants, and the test of R44. -/
theorem State.drained {i : SlotIx} {c' : Conn} {w : State} (table : w.table = (s.putConn i (some c')).table)
    (grants : Granted w t) (draining : c'.state = .draining) (route : c'.route = c.route)
    (actives : t.actives = s.actives) (same : SameBatches s t) :
    OthersKept s (t.drainTest i) i ∧ (t.drainTest i).conn i = if s.settled i c = true then none else some c' := by
  have hc : t.conn i = some c' := by
    refine grants.conn_some ?_ (by simp [draining]) (by simp [draining])
    rw [State.conn_of_table table, State.conn_putConn, if_pos rfl]
  have gen : t.handleAt i = s.handleAt i := by
    rw [State.handleAt, grants.1, ← State.handleAt, State.handleAt_of_table table, State.handleAt_putConn]
  exact ⟨(grants.others_of_put table).drainTest, State.conn_drainTest hc draining route actives gen same⟩

/-! ## RELEASE by the record's state -/

/-- A record put in DRAINING out of SUSPENDED, or a DROP out of IN_SERVICE (R43). -/
theorem State.drain_drained (s : State) (i : SlotIx) (c : Conn) :
    OthersKept s (s.drain i c) i ∧ (s.drain i c).conn i =
      if s.settled i c = true then none else some { c with state := .draining, shadow := .blocked } := by
  unfold State.drain
  dsimp only
  split
  · exact State.drained rfl (.refl _) rfl rfl rfl (.of_links rfl)
  · exact State.drained (by rw [(State.mark_frame ..).1]) (.refl _) rfl rfl (by simp) (.of_mark rfl)

theorem State.addShadow_clearMatrix (s : State) (l : LocalPort) (d : Degree) :
    (s.clearMatrix (.add l d)).matrix[l].addShadow = none := by
  show (s.matrix.set l { s.matrix[l] with addShadow := none })[l].addShadow = none
  rw [get_set_self]

theorem State.dropShadow_clearMatrix (s : State) (d : Degree) (l : LocalPort) :
    (s.clearMatrix (.drop d l)).matrix[l].dropShadow = none := by
  show (s.matrix.set l { s.matrix[l] with dropShadow := none })[l].dropShadow = none
  rw [get_set_self]

/-- A SUSPENDED or PENDING_UP record, or a DROP in service, that is released (R43, R44). -/
theorem State.releaseRecord_drained (s : State) (p : Domain) {i : SlotIx}
    (hs : c.state = .suspended ∨ c.state = .pendingUp ∧ c.route.sinkDegree ≠ none ∨
      c.state = .inService ∧ c.route.sinkDegree = none) :
    OthersKept s (s.releaseRecord p i c) i ∧ (s.releaseRecord p i c).conn i =
      if s.settled i c = true then none else some { c with state := .draining, shadow := .blocked } := by
  obtain hs | ⟨hs, hd⟩ | ⟨hs, hd⟩ := hs
  · rw [show s.releaseRecord p i c = s.drain i c by simp only [State.releaseRecord, hs]]
    exact s.drain_drained i c
  · obtain ⟨d, hd⟩ := Option.ne_none_iff_exists'.mp hd
    rw [show s.releaseRecord p i c = ((s.putConn i (some { c with state := .draining, shadow := .blocked })).leaveQueue d
      (s.handleAt i)).drainTest i by simp only [State.releaseRecord, hs, hd]]
    exact State.drained rfl (State.leaveQueue_granted _ d _) rfl rfl (by simp)
      (.trans (.of_links rfl) (State.leaveQueue_sameBatches _ d _))
  · rw [show s.releaseRecord p i c = s.drain i c by simp only [State.releaseRecord, hs, hd]]
    exact s.drain_drained i c

section
variable {k : SlotIx} {gen : BitVec 8} {p : Domain}

/-- A RELEASE that is accepted answers with the state the record is left in (R42, R43). -/
theorem releaseBody_accepted (h : s.table[k] = ⟨gen, some c⟩)
    (manages : s.managers[c.route.source.index] = some p ∨ s.managers[c.route.sink.index] = some p)
    (releasable : c.state.releasable = true) : releaseBody p k.val gen s =
      ((s.releaseRecord p k c).finish,
        ⟨.ok, u8 (stateNumber (((s.releaseRecord p k c).conn k).map (·.state)))⟩) := by
  rw [releaseBody_row h, if_neg (not_not.mpr ((s.managesAnEnd_iff p c).mpr manages)), if_neg (not_not.mpr releasable)]

/-- The reply that the slot holds. -/
theorem State.slot_reply (s : State) (p : Domain) (tag : Byte) (a : Answer) :
    (s.reply p tag a).ports[p].slot = .ready ⟨tag, a.code, a.results⟩ := by
  rw [State.port_reply, if_pos rfl]

end

end

/-- Settles O13, by the record's state. -/
theorem releaseResult : Obligations.ReleaseResult := by
  unfold Obligations.ReleaseResult
  intro p tag k gen c s ht hr manages
  have handle : s.handleAt k = ⟨k, gen⟩ := State.handleAt_of_row hr
  refine ⟨fun hs => ?_, fun hs => ?_, fun hs => ?_, fun hs => ?_, fun d hs hd => ?_⟩
  · have released : s.releaseRecord p k c = (s.freeRecord k c).tellOption (c.otherDomain p)
        (s.notice .proposalDeclined (some ⟨k, gen⟩) none none) := by
      simp only [State.releaseRecord, hs, handle]
    have gone : (s.releaseRecord p k c).conn k = none := by
      rw [released, State.conn_of_table (State.tellOption_frame ..).1, State.conn_freeRecord, if_pos rfl]
    have body := releaseBody_accepted hr manages (by rw [hs]; rfl)
    rw [gone, released] at body
    refine ⟨_, carried_of ht body, (s.freeRecord_freed k c).of_eq (by simp) (by simp) (by simp) (by simp) (by simp)
      (by simp) (by simp) (by simp) (by simp) (by simp), ?_, State.ports_reply ?_ _ _ _⟩
    · rw [← (State.freeRecord_proposed (s := s) (i := k) hs).1]
      simp
    · refine (State.finish_frame _).2.2.2.2.2.2.2.2.2.2.2.2.1.trans ?_
      unfold Conn.otherDomain
      generalize (if p = c.proposer then c.peer else some c.proposer) = q
      cases q with
      | none => simp [State.tellOption]
      | some q => exact State.ports_tell (by simp) _ _
  · have released : s.releaseRecord p k c = (s.freeRecord k c).tellConn ⟨k, gen⟩ c .released none := by
      simp only [State.releaseRecord, hs, handle]
    have gone : (s.releaseRecord p k c).conn k = none := by
      rw [released, State.conn_of_table (State.tellConn_frame ..).1, State.conn_freeRecord, if_pos rfl]
    have body := releaseBody_accepted hr manages (by rw [hs]; rfl)
    rw [gone, released] at body
    have matrix : ∀ a, ((((s.freeRecord k c).tellConn ⟨k, gen⟩ c .released none).finish).reply p tag a).matrix =
        (s.clearMatrix c.route).matrix := fun a => by
      rw [← (State.freeRecord_past (s := s) (i := k) (by rw [hs]; nofun)).1]
      simp
    refine ⟨_, carried_of ht body, (s.freeRecord_freed k c).of_eq (by simp) (by simp) (by simp) (by simp) (by simp)
      (by simp) (by simp) (by simp) (by simp) (by simp), State.ports_reply ?_ _ _ _, ?_, ?_⟩
    · refine (State.finish_frame _).2.2.2.2.2.2.2.2.2.2.2.2.1.trans ?_
      exact State.ports_tellConn (by simp) (by simp) _ _ _ _
    · intro l d hc
      rw [matrix, hc]
      exact s.addShadow_clearMatrix l d
    · intro d l hc
      rw [matrix, hc]
      exact s.dropShadow_clearMatrix d l
  · obtain ⟨others, record⟩ := State.releaseRecord_drained s p (i := k) hs
    have body := releaseBody_accepted hr manages (by obtain hs | ⟨hs, -⟩ | ⟨hs, -⟩ := hs <;> (rw [hs]; rfl))
    refine ⟨_, carried_of ht body, others.of_table (by simp), fun settled => ?_, fun settled => ?_⟩
    · rw [if_pos settled] at record
      rw [State.slot_reply, record]
      exact ⟨by rw [State.conn_of_table (s := s.releaseRecord p k c) (by simp), record], rfl⟩
    · rw [if_neg (by simp [settled])] at record
      rw [State.slot_reply, record]
      exact ⟨by rw [State.conn_of_table (s := s.releaseRecord p k c) (by simp), record], rfl⟩
  · have released : s.releaseRecord p k c = s.putConn k (some { c with state := .rampDown }) := by
      simp only [State.releaseRecord, hs]
    have body := releaseBody_accepted hr manages (by rw [hs]; rfl)
    rw [released, State.conn_putConn, if_pos rfl] at body
    refine ⟨_, carried_of ht body, ?_, State.ports_reply (by simp) _ _ _, by simp, by simp, by simp⟩
    rw [← State.putConn_row hr]
    simp
  · have released : s.releaseRecord p k c =
        (s.putConn k (some { c with state := .pendingDown })).joinQueue d ⟨k, gen⟩ := by
      simp only [State.releaseRecord, hs, hd, handle]
    have body := releaseBody_accepted hr manages (by rw [hs]; rfl)
    have others : OthersKept s (s.releaseRecord p k c) k := by
      rw [released]
      exact (State.joinQueue_granted _ d _).others_of_put rfl
    refine ⟨_, carried_of ht body, others.of_table (by simp), fun cannot => ?_, fun can empty => ?_⟩
    · rw [State.joinQueue_waits (s := s.putConn k (some { c with state := .pendingDown })) cannot] at released
      have record : (s.releaseRecord p k c).conn k = some { c with state := .pendingDown } := by
        rw [released, State.conn_of_table (State.mapRamps_table ..), State.conn_putConn, if_pos rfl]
      refine ⟨?_, ?_, ?_⟩
      · rw [← State.putConn_row hr, released]
        simp
      · rw [released, (State.reply_frame ..).2.2.2.2.2.1, (State.finish_frame _).2.2.2.2.2.1]
        exact congrArg Ramps.queue (State.ramps_mapRamps _ d _)
      · rw [record, released]
        exact State.ports_reply (by simp) _ _ _
    · have find : (s.putConn k (some { c with state := .pendingDown })).find ⟨k, gen⟩ =
          some { c with state := .pendingDown } := by
        rw [State.find_putConn, if_pos handle.symm]
      obtain ⟨table, queue, holder⟩ := State.joinQueue_alone (d := d) find can empty (.inr ⟨rfl, rfl⟩)
      rw [State.table_putConn_putConn] at table
      rw [← released] at table queue holder
      have record : (s.releaseRecord p k c).conn k = some { c with state := .rampDown } := by
        rw [State.conn_of_table table, State.conn_putConn, if_pos rfl]
      refine ⟨?_, ?_, ?_, ?_⟩
      · rw [← State.putConn_row hr, ← table]
        simp
      · rw [← queue]
        simp
      · simpa using holder
      · rw [record, released]
        exact State.ports_reply (by simp) _ _ _

end Sys2Proof.Machine
end

