-- ==== Sys2Proof/Proofs/Declarations.lean ====
section
/-! Proofs/Declarations.lean: the declarations that CNM takes (O21). -/

set_option Elab.async false

namespace Sys2Proof.Machine
open Sys2Proof

section
variable {s t u : State} {i : SlotIx} {c : Conn} {d : Degree}

/-! ## A cause added -/

theorem SameBatches.put (a : SameBatches s t) (i : SlotIx) (c : Option Conn) : SameBatches s (t.putConn i c) :=
  a.trans (.of_links rfl)

theorem SameBatches.marked (a : SameBatches s t) (l : LinkId) : SameBatches s (t.mark l) := a.trans (.of_mark rfl)

theorem SameBatches.told (a : SameBatches s t) (h : Handle) (c : Conn) (kind : NoticeKind) (v : Option Int) :
    SameBatches s (t.tellConn h c kind v) := a.trans (.of_links (by simp))

theorem State.addCause_sameBatches (s : State) (i : SlotIx) (k : Cause) : SameBatches s (s.addCause i k) := by
  have same : SameBatches s s := .of_links rfl
  unfold State.addCause
  split
  · exact same
  split
  · exact same
  dsimp only
  split
  · exact same
  · exact same
  · exact same
  · exact same.put _ _
  · exact ((same.put i _).told _ _ _ _).trans (State.leaveQueue_sameBatches _ _ _)
  · exact (((same.put i _).marked _).told _ _ _ _).trans (State.freeRamp_sameBatches _ _ _)
  · exact ((same.put i _).marked _).told _ _ _ _
  · exact ((same.put i _).marked _).trans (State.leaveQueue_sameBatches _ _ _)
  · exact ((same.put i _).marked _).trans (State.freeRamp_sameBatches _ _ _)

/-- A record that a cause suspends is told of (R39). -/
theorem State.addCause_ports (hi : s.conn i = some c) (hd : c.route.sinkDegree = some d) (k : Cause)
    (hs : c.state = .rampUp ∨ c.state = .inService ∨ c.state = .pendingUp) :
    (s.addCause i k).ports = (s.tellConn (s.handleAt i) c .suspended (some k.value)).ports := by
  unfold State.addCause
  rw [hi]
  dsimp only
  rw [hd]
  dsimp only
  obtain hs | hs | hs := hs
  all_goals
    simp only [hs]
  · rw [(State.freeRamp_frame ..).2.2.2.2.2.2.2.2.2.2.2.2.1]
    exact State.ports_tellConn (by simp) (by simp) _ _ _ _
  · exact State.ports_tellConn (by simp) (by simp) _ _ _ _
  · rw [(State.leaveQueue_frame ..).2.2.2.2.2.2.2.2.2.2.2.2.1]
    exact State.ports_tellConn (by simp) (by simp) _ _ _ _

theorem State.drainTest_of_not_draining (hc : s.conn i = some c) (hs : c.state ≠ .draining) : s.drainTest i = s := by
  unfold State.drainTest
  rw [hc]
  exact if_neg fun h => hs h.1

/-- A record declared DARK, by what R37 leaves of it and the test of R44. -/
theorem State.darkened {a : Conn} (hd : a.route.sinkDegree = some d) (route : a.route = c.route)
    (hs : a.state ≠ .draining) :
    OthersKept s (((s.putConn i (some a)).addCause i .sourceDark).drainTest i) i ∧
    (((s.putConn i (some a)).addCause i .sourceDark).drainTest i).conn i =
      if a.state = .pendingDown ∨ a.state = .rampDown then
        if s.settled i c = true then none else some { a with state := .draining, shadow := .blocked }
      else some (a.caused .sourceDark) := by
  have put : (s.putConn i (some a)).conn i = some a := by rw [State.conn_putConn, if_pos rfl]
  obtain ⟨w, table, grants⟩ := State.addCause_granted .sourceDark put hd
  rw [State.table_putConn_putConn] at table
  by_cases down : a.state = .pendingDown ∨ a.state = .rampDown
  · have caused : a.caused .sourceDark = { a with state := .draining, shadow := .blocked } := by
      obtain hs | hs := down <;> simp [Conn.caused, hs]
    rw [if_pos down]
    rw [caused] at table
    exact State.drained table grants rfl route (by simp) (.trans (.of_links rfl) (State.addCause_sameBatches _ _ _))
  · have lit : (a.caused .sourceDark).state ≠ .draining := by
      cases h : a.state <;> simp_all [Conn.caused, Conn.suspendedBy]
    have record := State.conn_addCause .sourceDark put hd
    rw [if_neg down, State.drainTest_of_not_draining record lit]
    exact ⟨grants.others_of_put table, record⟩

/-! ## A cause removed -/

/-- A record that no cause holds any more: it waits for its ramp, and is told of (R38, R39, R55). -/
theorem State.removeCause_resumes (hi : s.conn i = some c) (hd : c.route.sinkDegree = some d) (hs : c.state = .suspended)
    (hc : c.causes = some ⟨true, false⟩) : s.removeCause i .sourceDark =
      ((s.putConn i (some { c with state := .pendingUp, causes := some ⟨false, false⟩ })).tellConn (s.handleAt i) c .resumed
        none).joinQueue d (s.handleAt i) := by
  simp only [State.removeCause, hi, hd, hs, hc]
  rfl

theorem State.removeCause_tripped (hi : s.conn i = some c) (hd : c.route.sinkDegree = some d) (hs : c.state = .suspended)
    (hc : c.causes = some ⟨true, true⟩) :
    s.removeCause i .sourceDark = s.putConn i (some { c with causes := some ⟨false, true⟩ }) := by
  simp only [State.removeCause, hi, hd, hs, hc]
  rfl

theorem State.removeCause_other (hi : s.conn i = some c) (hs : c.state ≠ .suspended) (k : Cause) :
    s.removeCause i k = s := by
  unfold State.removeCause
  rw [hi]
  dsimp only
  split
  · rfl
  · exact if_neg fun h => hs h.1

theorem State.removeCause_granted (s : State) (i : SlotIx) (k : Cause) :
    ∃ w x, w.table = (s.putConn i x).table ∧ Granted w (s.removeCause i k) := by
  have same : s.table = (s.putConn i (s.conn i)).table := (Vector.set_getElem_self ..).symm
  unfold State.removeCause
  split
  · exact ⟨s, _, same, .refl s⟩
  split
  · exact ⟨s, _, same, .refl s⟩
  dsimp only
  split
  · split
    · exact ⟨_, _, (State.tellConn_frame ..).1, State.joinQueue_granted ..⟩
    · exact ⟨_, _, rfl, .refl _⟩
  · exact ⟨s, _, same, .refl s⟩

theorem State.row_of_find {gen : BitVec 8} (h : s.find ⟨i, gen⟩ = some c) : s.table[i] = ⟨gen, some c⟩ := by
  obtain ⟨hg, hc⟩ := (s.find_eq_some _ c).mp h
  exact congrArg₂ Slot.mk hg hc

theorem OthersKept.of_source {w : State} (h : OthersKept s t i) (table : s.table = w.table) : OthersKept w t i :=
  ⟨fun j => by rw [h.1, table], fun j hj => by rw [← State.conn_of_table table]; exact h.2 j hj⟩

/-! ## A declaration applied -/

section
variable {r : DeclReq} {gen : BitVec 8}

/-- The record that a declaration reaches, with its source state (R94). -/
def Conn.declared (c : Conn) (l : Light) : Conn := { c with source := some l }

theorem State.applyDeclaration_dark (s : State) (i : SlotIx) (hd : c.route.sinkDegree = some d) (hl : r.light = .dark) :
    s.applyDeclaration i c r =
      if c.state = .draining then s.putConn i (some (c.declared .dark))
      else ((s.putConn i (some (c.declared .dark))).addCause i .sourceDark).drainTest i := by
  unfold State.applyDeclaration
  rw [hd, hl]
  rfl

theorem State.applyDeclaration_lit (s : State) (i : SlotIx) (hd : c.route.sinkDegree = some d) (hl : r.light = .lit) :
    s.applyDeclaration i c r = (s.putConn i (some (c.declared .lit))).removeCause i .sourceDark := by
  unfold State.applyDeclaration
  rw [hd, hl]
  rfl

/-- A declaration for a DROP changes its source state and is told (R94). -/
theorem State.applyDeclaration_drop (s : State) (i : SlotIx) (hd : c.route.sinkDegree = none) :
    s.applyDeclaration i c r = (s.putConn i (some (c.declared r.light))).tellConn r.handle c
      (match r.light with | .dark => .sourceLost | .lit => .sourceBack) (some r.level) := by
  unfold State.applyDeclaration
  rw [hd]
  cases r.light <;> rfl

theorem State.applyDeclaration_others (s : State) (i : SlotIx) (c : Conn) (r : DeclReq) :
    OthersKept s (s.applyDeclaration i c r) i := by
  have put : ∀ x, OthersKept s (s.putConn i x) i := fun x => (Granted.refl _).others_of_put rfl
  cases hd : c.route.sinkDegree with
  | none =>
    rw [State.applyDeclaration_drop s i hd]
    exact (put _).of_table (State.tellConn_frame ..).1
  | some d =>
    cases hl : r.light with
    | dark =>
      rw [State.applyDeclaration_dark s i hd hl]
      split
      · exact put _
      · next hs => exact (State.darkened hd (a := c.declared .dark) (c := c) rfl hs).1
    | lit =>
      rw [State.applyDeclaration_lit s i hd hl]
      obtain ⟨w, x, table, grants⟩ := State.removeCause_granted (s.putConn i (some (c.declared .lit))) i .sourceDark
      rw [State.table_putConn_putConn] at table
      exact grants.others_of_put table

/-- The record of an ADD or EXPRESS that is declared DARK (R37, R94). -/
theorem State.conn_applyDeclaration_dark (s : State) (i : SlotIx) (hd : c.route.sinkDegree = some d)
    (hl : r.light = .dark) : (s.applyDeclaration i c r).conn i =
      if c.state = .pendingDown ∨ c.state = .rampDown then
        if s.settled i c = true then none
        else some { c with source := some .dark, state := .draining, shadow := .blocked }
      else some ((c.declared .dark).caused .sourceDark) := by
  rw [State.applyDeclaration_dark s i hd hl]
  split
  · next hs => simp [State.conn_putConn, hs, Conn.caused, Conn.declared]
  · next hs => exact (State.darkened hd (a := c.declared .dark) (c := c) rfl hs).2

/-- The notices of a declaration that suspends a record (R39). -/
theorem State.ports_applyDeclaration_dark (row : s.table[i] = ⟨gen, some c⟩) (hd : c.route.sinkDegree = some d)
    (hl : r.light = .dark) (hs : c.state = .rampUp ∨ c.state = .inService ∨ c.state = .pendingUp) :
    (s.applyDeclaration i c r).ports = (s.tellConn ⟨i, gen⟩ c .suspended (some 1)).ports := by
  have put : (s.putConn i (some (c.declared .dark))).conn i = some (c.declared .dark) := by
    rw [State.conn_putConn, if_pos rfl]
  have record : ((s.putConn i (some (c.declared .dark))).addCause i .sourceDark).conn i =
      some ((c.declared .dark).caused .sourceDark) := State.conn_addCause _ put hd
  have lit : ((c.declared .dark).caused .sourceDark).state ≠ .draining := by
    obtain hs | hs | hs := hs <;> simp [Conn.caused, Conn.declared, Conn.suspendedBy, hs]
  rw [State.applyDeclaration_dark s i hd hl, if_neg (by obtain hs | hs | hs := hs <;> simp [hs]),
    State.drainTest_of_not_draining record lit, State.addCause_ports put hd _ hs, State.handleAt_putConn,
    State.handleAt_of_row row]
  exact State.ports_tellConn (s := s) (by simp) (by simp) _ _ _ _

/-- The record that resumes on a declaration, as it waits for its ramp (R38, R94). -/
def Conn.resumed (c : Conn) : Conn :=
  { c with source := some .lit, state := .pendingUp, causes := some ⟨false, false⟩ }

/-- A declaration that takes a record's last cause: the record resumed and told of, then its place in the queue
(R38, R39, R55). -/
theorem State.applyDeclaration_resumes (row : s.table[i] = ⟨gen, some c⟩) (hd : c.route.sinkDegree = some d)
    (hl : r.light = .lit) (hs : c.state = .suspended) (hc : c.causes = some ⟨true, false⟩) :
    ∃ w : State, s.applyDeclaration i c r = w.joinQueue d ⟨i, gen⟩ ∧ w.table = (s.putConn i (some c.resumed)).table ∧
      w.ramps = s.ramps ∧ w.links = s.links ∧ w.trips = s.trips ∧ w.settings = s.settings ∧
      w.ports = (s.tellConn ⟨i, gen⟩ c .resumed none).ports := by
  have put : (s.putConn i (some (c.declared .lit))).conn i = some (c.declared .lit) := by
    rw [State.conn_putConn, if_pos rfl]
  refine ⟨((s.putConn i (some (c.declared .lit))).putConn i (some c.resumed)).tellConn ⟨i, gen⟩ c .resumed none,
    ?_, ?_, ?_, ?_, ?_, ?_, State.ports_tellConn (s := s) ?_ ?_ _ _ _ _⟩
  · rw [State.applyDeclaration_lit s i hd hl, State.removeCause_resumes put hd hs hc, State.handleAt_putConn,
      State.handleAt_of_row row]
    rfl
  · rw [(State.tellConn_frame ..).1, State.table_putConn_putConn]
  all_goals simp

theorem State.canGrant_of_eq (ramps : t.ramps = s.ramps) (links : t.links = s.links) (trips : t.trips = s.trips)
    (settings : t.settings = s.settings) (d : Degree) : t.canGrant d = s.canGrant d :=
  State.canGrant_congr (by rw [links]) (by rw [trips]) (by rw [ramps]) settings

/-- The record that resumes and waits for a slot (R38, R55). -/
theorem State.applyDeclaration_waits (row : s.table[i] = ⟨gen, some c⟩) (hd : c.route.sinkDegree = some d)
    (hl : r.light = .lit) (hs : c.state = .suspended) (hc : c.causes = some ⟨true, false⟩) (cannot : s.canGrant d = false) :
    (s.applyDeclaration i c r).conn i = some c.resumed ∧
      (s.applyDeclaration i c r).ramps[d].queue = s.ramps[d].queue ++ [⟨⟨i, gen⟩, none⟩] := by
  obtain ⟨w, he, table, ramps, links, trips, settings, -⟩ := State.applyDeclaration_resumes row hd hl hs hc
  rw [he, State.joinQueue_waits ((State.canGrant_of_eq ramps links trips settings d).trans cannot), State.ramps_mapRamps,
    ← ramps]
  refine ⟨?_, rfl⟩
  rw [State.conn_of_table (State.mapRamps_table ..), State.conn_of_table table, State.conn_putConn, if_pos rfl]

/-- The record that resumes and is granted its ramp in the step (R38, R40, R55). -/
theorem State.applyDeclaration_ramps (row : s.table[i] = ⟨gen, some c⟩) (hd : c.route.sinkDegree = some d)
    (hl : r.light = .lit) (hs : c.state = .suspended) (hc : c.causes = some ⟨true, false⟩) (can : s.canGrant d = true)
    (empty : s.ramps[d].queue = []) :
    (s.applyDeclaration i c r).conn i = some { c.resumed with state := .rampUp, shadow := .att 250 } ∧
      (s.applyDeclaration i c r).ramps[d].queue = [] ∧
      (⟨⟨i, gen⟩, none⟩ : SlotHolder) ∈ (s.applyDeclaration i c r).ramps[d].holders := by
  obtain ⟨w, he, table, ramps, links, trips, settings, -⟩ := State.applyDeclaration_resumes row hd hl hs hc
  have find : w.find ⟨i, gen⟩ = some c.resumed := by
    rw [State.find_of_table table, State.find_putConn, if_pos (State.handleAt_of_row row).symm]
  obtain ⟨granted, queue, holder⟩ := State.joinQueue_alone find
    ((State.canGrant_of_eq ramps links trips settings d).trans can) (by rw [ramps]; exact empty) (.inl ⟨rfl, rfl⟩)
  rw [he]
  refine ⟨?_, queue, holder⟩
  rw [State.conn_of_table granted, State.conn_putConn, if_pos rfl]

@[simp] theorem State.applyDeclaration_declReqs (s : State) (i : SlotIx) (c : Conn) (r : DeclReq) :
    (s.applyDeclaration i c r).declReqs = s.declReqs := by
  unfold State.applyDeclaration
  dsimp only
  split
  · split <;> simp
  all_goals simp

end

/-! ## The oldest declaration that names a handle -/

theorem declaration_find {before after : List DeclReq} {r : DeclReq} {h : Handle} (hr : r.handle = h)
    (first : ∀ q ∈ before, q.handle ≠ h) :
    (before ++ r :: after).find? (·.handle == h) = some r ∧
      (before ++ r :: after).eraseP (·.handle == h) = before ++ after := by
  constructor
  · rw [List.find?_append, List.find?_eq_none.mpr (by simpa using first)]
    simp [hr]
  · rw [List.eraseP_append_right _ (by simpa using first), List.eraseP_cons_of_pos (by simp [hr])]

end

/-- Settles O21, by what a declaration leaves of the record it names. -/
theorem declarationResult : Obligations.DeclarationResult := by
  unfold Obligations.DeclarationResult
  intro i gen s held
  have run : exec (.declaration i gen) s = .next (match s.declReqs.find? (·.handle == ⟨i, gen⟩) with
      | none => s
      | some r =>
        let s1 : State := { s with declReqs := s.declReqs.eraseP (·.handle == ⟨i, gen⟩) }
        match s1.find ⟨i, gen⟩ with
        | none => s1
        | some c => (s1.applyDeclaration i c r).finish) := by
    change execDeclaration i gen s = _
    exact whileRunning_running held
  refine ⟨fun h => ?_, fun r before after hq hr first => ?_⟩
  · rw [run, List.find?_eq_none.mpr (by simpa using h)]
  obtain ⟨found, erased⟩ := declaration_find (after := after) hr first
  rw [← hq] at found erased
  rw [found, erased] at run
  refine ⟨fun gone => ?_, fun c hc => ?_⟩
  · rw [run]
    dsimp only
    rw [show ({ s with declReqs := before ++ after } : State).find ⟨i, gen⟩ = none from gone]
  have row : s.table[i] = ⟨gen, some c⟩ := State.row_of_find hc
  obtain ⟨u, hu⟩ : ∃ u : State, u = { s with declReqs := before ++ after } := ⟨_, rfl⟩
  obtain ⟨table, ramps, links, trips, settings, ports, time, actives⟩ : u.table = s.table ∧ u.ramps = s.ramps ∧
      u.links = s.links ∧ u.trips = s.trips ∧ u.settings = s.settings ∧ u.ports = s.ports ∧ u.nodeTime = s.nodeTime ∧
      u.actives = s.actives := by rw [hu]; exact ⟨rfl, rfl, rfl, rfl, rfl, rfl, rfl, rfl⟩
  have urow : u.table[i] = ⟨gen, some c⟩ := by rw [table, row]
  have handle : u.handleAt i = s.handleAt i := State.handleAt_of_table table i
  have settled : u.settled i c = s.settled i c := State.settled_congr rfl actives handle (.of_links links)
  have can : ∀ d, u.canGrant d = s.canGrant d := State.canGrant_of_eq ramps links trips settings
  rw [← hu] at run
  dsimp only at run
  rw [show u.find ⟨i, gen⟩ = some c by rw [State.find_of_table table, hc]] at run
  have record : (u.applyDeclaration i c r).finish.conn i = (u.applyDeclaration i c r).conn i :=
    State.conn_of_table (by simp) i
  have told : (u.applyDeclaration i c r).finish.ports = (u.applyDeclaration i c r).ports := by simp
  have ramped : (u.applyDeclaration i c r).finish.ramps = (u.applyDeclaration i c r).ramps := by simp
  refine ⟨_, run, by simp [hu], ((u.applyDeclaration_others i c r).of_source table).of_table (by simp),
    fun hd => ⟨?_, ?_⟩, fun d hd hl => ?_, fun d hd hl => ?_⟩
  · rw [(State.finish_frame _).1, State.applyDeclaration_drop u i hd, (State.tellConn_frame ..).1, State.putConn_row urow,
      table]
    rfl
  · rw [told, State.applyDeclaration_drop u i hd, hr]
    exact State.ports_tellConn (t := u.putConn i _) ports time _ _ _ _
  · have dark := State.conn_applyDeclaration_dark u i hd hl
    rw [settled] at dark
    rw [record, told, dark]
    refine ⟨fun hs => ⟨?_, fun notify q hq => ?_⟩, fun hs => ?_, fun hs => ?_, fun hs => ?_⟩
    · obtain hs | hs | hs := hs <;>
        simp [hs, Conn.caused, Conn.declared, Conn.suspendedBy, suspendedRecord, Causes.insert, Causes.empty]
    · rw [State.ports_applyDeclaration_dark urow hd hl hs, State.ports_tellConn ports time]
      exact s.tellConn_heard ⟨i, gen⟩ c (kind := .suspended) (some 1) notify hq
    · simp [hs, Conn.caused, Conn.declared, Causes.insert, Causes.empty]
    · rw [if_pos hs]
    · obtain hs | hs | hs := hs <;> simp [hs, Conn.caused, Conn.declared]
  · rw [record, told, ramped]
    refine ⟨fun hs hc => ?_, fun hs hc cannot => ?_, fun hs hc granted empty => ?_, fun hs hc notify q hq => ?_,
      fun hs => ?_⟩
    · rw [State.applyDeclaration_lit u i hd hl, State.removeCause_tripped (c := c.declared .lit) (by
        rw [State.conn_putConn, if_pos rfl]) hd hs hc, State.conn_putConn, if_pos rfl]
      rfl
    · rw [← ramps]
      exact State.applyDeclaration_waits urow hd hl hs hc ((can d).trans cannot)
    · exact State.applyDeclaration_ramps urow hd hl hs hc ((can d).trans granted) (by rw [ramps]; exact empty)
    · obtain ⟨w, he, -, -, -, -, -, wports⟩ := State.applyDeclaration_resumes urow hd hl hs hc
      rw [he, (State.joinQueue_frame ..).2.2.2.2.2.2.2.2.2.2.2.2.1, wports, State.ports_tellConn ports time]
      exact s.tellConn_heard ⟨i, gen⟩ c (kind := .resumed) none notify hq
    · rw [State.applyDeclaration_lit u i hd hl, State.removeCause_other (c := c.declared .lit) (by
        rw [State.conn_putConn, if_pos rfl]) hs, State.conn_putConn, if_pos rfl]
      rfl

end Sys2Proof.Machine
end

