-- ==== Sys2Proof/Proofs/Passes.lean ====
section
/-! Proofs/Passes.lean: the pass results that CNM takes (O24). -/

set_option Elab.async false

namespace Sys2Proof.Machine
open Sys2Proof

section
variable {s t u : State} {h : Handle} {c : Conn} {d k : Degree} {r : PassResult}

/-! ## What the notices and the logs depend on -/

/-- The pieces on which notices and the excursion logs depend are the same. -/
structure SameReports (s t : State) : Prop where
  ports : t.ports = s.ports
  logs : t.logs = s.logs
  settings : t.settings = s.settings
  managers : t.managers = s.managers
  nodeTime : t.nodeTime = s.nodeTime

theorem SameReports.trans (a : SameReports s t) (b : SameReports t u) : SameReports s u where
  ports := b.ports.trans a.ports
  logs := b.logs.trans a.logs
  settings := b.settings.trans a.settings
  managers := b.managers.trans a.managers
  nodeTime := b.nodeTime.trans a.nodeTime

theorem SameReports.tellConn (a : SameReports s t) (h : Handle) (c : Conn) (kind : NoticeKind) (v : Option Int) :
    SameReports (s.tellConn h c kind v) (t.tellConn h c kind v) where
  ports := State.ports_tellConn a.ports a.nodeTime h c kind v
  logs := by simp [a.logs]
  settings := by simp [a.settings]
  managers := by simp [a.managers]
  nodeTime := by simp [a.nodeTime]

theorem SameReports.mapPort (a : SameReports s t) (p : Domain) (f : Port → Port) :
    SameReports (s.mapPort p f) (t.mapPort p f) where
  ports := by rw [State.mapPort_ports, State.mapPort_ports, a.ports]
  logs := a.logs
  settings := a.settings
  managers := a.managers
  nodeTime := a.nodeTime

theorem SameReports.mapLog (a : SameReports s t) (d : Degree) (f : ExcursionLog → ExcursionLog) :
    SameReports (s.mapLog d f) (t.mapLog d f) where
  ports := a.ports
  logs := by rw [State.mapLog_logs, State.mapLog_logs, a.logs]
  settings := a.settings
  managers := a.managers
  nodeTime := a.nodeTime

theorem SameReports.manager (a : SameReports s t) (d : Degree) : t.manager d = s.manager d := by
  rw [State.manager, State.manager, a.managers]

theorem SameReports.tellManager (a : SameReports s t) (d : Degree) (n : Notice) :
    SameReports (s.tellManager d n) (t.tellManager d n) := by
  unfold State.tellManager
  rw [a.manager d]
  cases s.manager d with
  | none => exact a
  | some p => exact a.mapPort p _

theorem SameReports.flagManager (a : SameReports s t) (d : Degree) (f : FlagSet) :
    SameReports (s.flagManager d f) (t.flagManager d f) := by
  unfold State.flagManager
  rw [a.manager d]
  cases s.manager d with
  | none => exact a
  | some p => exact a.mapPort p _

theorem SameReports.capture (a : SameReports s t) (d : Degree) (h : Handle) (e : Int) :
    SameReports (s.capture d h e) (t.capture d h e) := by
  unfold State.capture State.notice
  rw [a.logs, a.settings, a.nodeTime]
  dsimp only
  split
  · exact (a.mapLog d _).tellManager d _
  · exact a.mapLog d _

theorem SameReports.disarm (a : SameReports s t) (d : Degree) : SameReports (s.disarm d) (t.disarm d) :=
  (a.mapLog d _).flagManager d _

/-- A hand-off to the log depends on these pieces alone (R118, R158 to R163). -/
theorem SameReports.handOff (a : SameReports s t) (d : Degree) (h : Handle) (e : Int) :
    SameReports (s.handOff d h e) (t.handOff d h e) := by
  unfold State.handOff
  rw [a.logs, a.settings]
  split
  · exact a
  split
  · exact a.capture d h e
  split
  · exact a.capture d h e
  split
  · exact (a.capture d h e).disarm d
  · exact a.disarm d

/-! ## Power notices -/

/-- When a power notice goes out, and which (R108). -/
theorem State.tellPower_eq (s : State) (h : Handle) (c : Conn) (r : PassResult) : s.tellPower h c r =
    if r.power = none ∨ r.power = some (c.power.getD .normal) then s
    else s.tellConn h c (if r.power = some .normal then .powerNormal else .powerLimit) r.error := by
  unfold State.tellPower powerNotice
  cases hp : r.power with
  | none => simp
  | some new =>
    by_cases he : c.power.getD .normal = new
    · simp [he]
    · cases new <;> simp [he, Ne.symm he]

theorem SameReports.tellPower (a : SameReports s t) (h : Handle) (c : Conn) (r : PassResult) :
    SameReports (s.tellPower h c r) (t.tellPower h c r) := by
  rw [State.tellPower_eq, State.tellPower_eq]
  split
  · exact a
  · exact a.tellConn h c _ _

@[simp] theorem State.tellPower_frame (s : State) (h : Handle) (c : Conn) (r : PassResult) :
    (s.tellPower h c r).table = s.table ∧ (s.tellPower h c r).map = s.map ∧ (s.tellPower h c r).ramps = s.ramps ∧
    (s.tellPower h c r).links = s.links ∧ (s.tellPower h c r).actives = s.actives ∧
    (s.tellPower h c r).matrix = s.matrix ∧ (s.tellPower h c r).logs = s.logs ∧
    (s.tellPower h c r).passReqs = s.passReqs := by
  rw [State.tellPower_eq]
  split <;> simp

/-! ## A result applied -/

/-- The record written and its link marked, as every applied result begins (R41, R100, R126). -/
def State.passed (s : State) (c : Conn) (r : PassResult) : State :=
  if r.shadow = c.shadow then s.putConn r.handle.slot (some (c.apply r))
  else (s.putConn r.handle.slot (some (c.apply r))).mark c.route.link

theorem State.passed_frame (s : State) (c : Conn) (r : PassResult) :
    (s.passed c r).table = (s.putConn r.handle.slot (some (c.apply r))).table ∧ (s.passed c r).map = s.map ∧
    (s.passed c r).ramps = s.ramps ∧ (s.passed c r).actives = s.actives ∧ (s.passed c r).passReqs = s.passReqs := by
  unfold State.passed
  split <;> simp

theorem State.passed_reports (s : State) (c : Conn) (r : PassResult) : SameReports s (s.passed c r) := by
  unfold State.passed
  split
  · exact ⟨rfl, rfl, rfl, rfl, rfl⟩
  · exact ⟨by simp, by simp, by simp, by simp, by simp⟩

theorem State.passed_sameBatches (s : State) (c : Conn) (r : PassResult) : SameBatches s (s.passed c r) := by
  unfold State.passed
  split
  · exact .of_links rfl
  · exact (SameBatches.put (.of_links rfl) _ _).marked _

/-- A ramp up that is complete (R111, R112). -/
theorem State.applyResult_up (s : State) (hk : c.route.sinkDegree = some k) (hf : r.computedFor = .rampUp) {v : CState}
    (hv : r.toState = some v) : s.applyResult d r.handle.slot c r =
      (((s.passed c r).tellConn r.handle c .rampDone (some r.level)).tellPower r.handle c r).freeRamp k r.handle := by
  simp only [State.applyResult, hf, hv, hk]
  rfl

/-- A ramp down that is complete (R114). -/
theorem State.applyResult_down (s : State) (hk : c.route.sinkDegree = some k) (hf : r.computedFor = .rampDown)
    {v : CState} (hv : r.toState = some v) :
    s.applyResult d r.handle.slot c r = ((s.passed c r).freeRamp k r.handle).drainTest r.handle.slot := by
  simp only [State.applyResult, hf, hv, hk]
  rfl

/-- An equalisation (R108, R118). -/
theorem State.applyResult_inService (s : State) (hk : c.route.sinkDegree = some k) (hf : r.computedFor = .inService) :
    s.applyResult d r.handle.slot c r =
      match r.error with
      | some e => ((s.passed c r).tellPower r.handle c r).handOff k r.handle e
      | none => (s.passed c r).tellPower r.handle c r := by
  simp only [State.applyResult, hf, hk] <;> rfl

/-- A step of a ramp (R110, R113). -/
theorem State.applyResult_step (s : State) (hf : r.computedFor ≠ .inService) (hv : r.toState = none) :
    s.applyResult d r.handle.slot c r = s.passed c r := by
  unfold State.applyResult
  rw [hv]
  dsimp only
  split
  · next h => cases h
  · next h => cases h
  · next h => exact absurd h hf
  · rfl

/-- The record as R41 leaves it. -/
theorem Conn.apply_eq (c : Conn) (r : PassResult) : c.apply r =
    { c with
      state := r.toState.getD c.state, shadow := r.shadow, lastLevel := some r.level,
      power := if r.power = none then c.power else r.power } := by
  unfold Conn.apply
  cases r.power <;> rfl

/-! ## A slot given back -/

theorem Granted.find (g : Granted s t) (hc : s.find h = some c) (up : c.state ≠ .pendingUp)
    (down : c.state ≠ .pendingDown) : t.find h = some c := by
  obtain ⟨hg, hc⟩ := (s.find_eq_some h c).mp hc
  exact (t.find_eq_some h c).mpr ⟨(g.1 h.slot).trans hg, g.conn_some hc up down⟩

/-- A grant gives a slot to a handle whose record waits. -/
theorem State.takeGrant_holders {x : Handle} {y : SlotHolder} (hy : y ∈ (s.takeGrant d x).ramps[d].holders) :
    y ∈ s.ramps[d].holders ∨ y.handle = x ∧ s.pends x := by
  have held : ∀ {t : State}, s.pends x → t.ramps = (s.mapRamps d fun r => (r.dequeue x).hold x none).ramps →
      y ∈ t.ramps[d].holders → y ∈ s.ramps[d].holders ∨ y.handle = x ∧ s.pends x := by
    intro t hp ht hy
    rw [ht, State.ramps_mapRamps] at hy
    obtain rfl | hy := (mem_insertBy ..).mp hy
    · exact .inr ⟨rfl, hp⟩
    · exact .inl (List.mem_filter.mp hy).1
  obtain he | ⟨c, hc, ⟨hs, he⟩ | ⟨hs, he⟩⟩ := s.takeGrant_cases d x
  · rw [he] at hy
    exact .inl hy
  · rw [he] at hy
    exact held ⟨c, hc, .inl hs⟩ rfl hy
  · rw [he] at hy
    exact held ⟨c, hc, .inr hs⟩ rfl hy

/-- A record that waits no more holds no slot once it has given its slot back (R59). -/
theorem State.freeRamp_released (hc : s.find h = some c) (up : c.state ≠ .pendingUp) (down : c.state ≠ .pendingDown)
    {y : SlotHolder} (hy : y ∈ (s.freeRamp d h).ramps[d].holders) : y.handle ≠ h := by
  have kept := State.grantEvent_keeps
    (fun t => t.find h = some c ∧ ∀ y ∈ t.ramps[d].holders, y.handle ≠ h) d
    (fun t x ⟨find, holders⟩ _ => ⟨(t.takeGrant_granted d x).find find up down, fun y hy => by
      obtain hy | ⟨rfl, a, ha, pends⟩ := State.takeGrant_holders hy
      · exact holders y hy
      · rintro rfl
        rw [find] at ha
        cases ha
        exact pends.elim up down⟩)
    (s.mapRamps d fun r => { r with holders := r.holders.filter (·.handle ≠ h) })
    ⟨hc, fun y hy => by
      rw [State.ramps_mapRamps] at hy
      simpa using (List.mem_filter.mp hy).2⟩
  exact kept.2 y hy

/-! ## The link of an applied result -/

/-- A link that CNM has marked stays as it is until the end of the step, whatever is granted (R126). -/
theorem State.freeRamp_link (s : State) (d : Degree) (h : Handle) (l : LinkId) (mark : s.links[l].pendingMark = true) :
    (s.freeRamp d h).links[l] = s.links[l] := by
  have marked : ∀ (t : State) (k : LinkId), t.links[l] = s.links[l] → (t.mark k).links[l] = s.links[l] := by
    intro t k ht
    rw [State.link_mark]
    split
    · next hk =>
      rw [← hk, ht]
      generalize s.links[l] = x at mark
      obtain ⟨state, inFlight, seq, timer, unanswered, lastFailure, pendingMark⟩ := x
      cases mark
      rfl
    · exact ht
  refine State.grantEvent_keeps (fun t => t.links[l] = s.links[l]) d (fun t x ht _ => ?_) _ rfl
  obtain he | ⟨c, -, ⟨-, he⟩ | ⟨-, he⟩⟩ := t.takeGrant_cases d x
  · rw [he]; exact ht
  · rw [he]; exact marked _ _ ht
  · rw [he]; exact ht

@[simp] theorem Conn.entry_value (c : Conn) (h : Handle) :
    (c.entry h).value? = some c.shadow := by
  unfold Conn.entry
  split <;> rfl

/-- The other records of an applied result are kept, but for the grants (R58). -/
theorem State.applyResult_others (s : State) (d : Degree) (c : Conn) (r : PassResult) :
    OthersKept s (s.applyResult d r.handle.slot c r) r.handle.slot := by
  obtain ⟨table, -⟩ := s.passed_frame c r
  have own : OthersKept s (s.passed c r) r.handle.slot := (Granted.refl _).others_of_put table
  have freed : ∀ {w : State} k, w.table = (s.passed c r).table → OthersKept s (w.freeRamp k r.handle) r.handle.slot :=
    fun k hw => (State.freeRamp_granted _ k _).others_of_put (hw.trans table)
  unfold State.applyResult
  dsimp only
  split
  · exact freed _ (by rw [(State.tellPower_frame ..).1, (State.tellConn_frame ..).1]; rfl)
  · exact (freed _ rfl).drainTest
  · split
    · exact own.of_table (by rw [(State.handOff_frame ..).1, (State.tellPower_frame ..).1]; rfl)
    · exact own.of_table (by rw [(State.tellPower_frame ..).1]; rfl)
  · exact own

/-- A result that ends no ramp: its own record alone is rewritten. -/
theorem State.applyResult_step_table (s : State) (hk : c.route.sinkDegree = some k) (hv : r.toState = none) :
    (s.applyResult d r.handle.slot c r).table = (s.putConn r.handle.slot (some (c.apply r))).table ∧
    (s.applyResult d r.handle.slot c r).ramps = s.ramps := by
  obtain ⟨table, -, ramps, -⟩ := s.passed_frame c r
  by_cases hf : r.computedFor = .inService
  · rw [State.applyResult_inService s hk hf]
    split <;> simp [table, ramps]
  · rw [State.applyResult_step s hf hv]
    exact ⟨table, ramps⟩

/-- A completed ramp up (R111, R112). -/
theorem State.applyResult_up_record (s : State) (hc : s.find r.handle = some c) (hk : c.route.sinkDegree = some k)
    (hf : r.computedFor = .rampUp) (hv : r.toState = some .inService) :
    (s.applyResult d r.handle.slot c r).conn r.handle.slot = some (c.apply r) ∧
    ∀ x ∈ (s.applyResult d r.handle.slot c r).ramps[k].holders, x.handle ≠ r.handle := by
  rw [State.applyResult_up s hk hf hv]
  generalize hw : ((s.passed c r).tellConn r.handle c .rampDone (some r.level)).tellPower r.handle c r = w
  have table : w.table = (s.putConn r.handle.slot (some (c.apply r))).table := by
    rw [← hw, ← (s.passed_frame c r).1]
    simp
  have state : (c.apply r).state = .inService := by simp [Conn.apply, hv]
  have record : w.find r.handle = some (c.apply r) := by
    rw [State.find_of_table table, State.find_putConn, if_pos (State.handleAt_of_find hc).symm]
  have grants := w.freeRamp_granted k r.handle
  refine ⟨?_, fun x hx =>
    State.freeRamp_released record (by simp [state]) (by simp [state]) hx⟩
  exact ((State.find_eq_some _ _ _).mp (grants.find record (by simp [state]) (by simp [state]))).2

/-- A completed ramp down (R44, R114). -/
theorem State.applyResult_down_record (s : State) (hc : s.find r.handle = some c) (hk : c.route.sinkDegree = some k)
    (hf : r.computedFor = .rampDown) (hv : r.toState = some .draining) :
    ((s.applyResult d r.handle.slot c r).conn r.handle.slot =
      if s.settled r.handle.slot c = true then none else some (c.apply r)) ∧
    ∀ x ∈ (s.applyResult d r.handle.slot c r).ramps[k].holders, x.handle ≠ r.handle := by
  rw [State.applyResult_down s hk hf hv]
  obtain ⟨table, -, -, actives, -⟩ := s.passed_frame c r
  have state : (c.apply r).state = .draining := by simp [Conn.apply, hv]
  have record : (s.passed c r).find r.handle = some (c.apply r) := by
    rw [State.find_of_table table, State.find_putConn, if_pos (State.handleAt_of_find hc).symm]
  obtain ⟨-, own⟩ := State.drained (c := c) table ((s.passed c r).freeRamp_granted k r.handle) state rfl
    (by simp [actives]) (.trans (s.passed_sameBatches c r) (State.freeRamp_sameBatches _ _ _))
  refine ⟨own, fun x hx => ?_⟩
  rw [(State.drainTest_frame ..).2.2.1] at hx
  exact State.freeRamp_released record (by simp [state]) (by simp [state]) hx

/-- An applied result whose shadow is new marks the link, which stays as it was but for the mark, and the record's entry
differs (R126). -/
theorem State.applyResult_marks (s : State) (hc : s.find r.handle = some c) (hk : c.route.sinkDegree = some k)
    (how : r.toState = none ∨ r.computedFor = .rampDown ∧ r.toState = some .draining ∧ r.shadow = .blocked)
    (changed : r.shadow ≠ c.shadow) (differs : r.shadow ≠ s.actives[r.handle.slot]) :
    (s.applyResult d r.handle.slot c r).links[degreeLink k] = { s.links[degreeLink k] with pendingMark := true } ∧
    (s.applyResult d r.handle.slot c r).find r.handle = some (c.apply r) ∧
    (s.applyResult d r.handle.slot c r).actives = s.actives ∧ (s.applyResult d r.handle.slot c r).map = s.map := by
  obtain ⟨table, map, -, actives, -⟩ := s.passed_frame c r
  have link : (s.passed c r).links[degreeLink k] = { s.links[degreeLink k] with pendingMark := true } := by
    rw [State.passed, if_neg changed, Route.link_of_sink hk, State.link_mark, if_pos rfl]
    rfl
  have record : (s.passed c r).find r.handle = some (c.apply r) := by
    rw [State.find_of_table table, State.find_putConn, if_pos (State.handleAt_of_find hc).symm]
  obtain hv | ⟨hf, hv, blocked⟩ := how
  · by_cases hf : r.computedFor = .inService
    · have same : (s.applyResult d r.handle.slot c r).links = (s.passed c r).links ∧
          (s.applyResult d r.handle.slot c r).table = (s.passed c r).table ∧
          (s.applyResult d r.handle.slot c r).actives = (s.passed c r).actives ∧
          (s.applyResult d r.handle.slot c r).map = (s.passed c r).map := by
        rw [State.applyResult_inService s hk hf]
        split <;> simp
      obtain ⟨slinks, stable, sactives, smap⟩ := same
      exact ⟨by rw [slinks, link], by rw [State.find_of_table stable, record], sactives.trans actives, smap.trans map⟩
    · rw [State.applyResult_step s hf hv]
      exact ⟨link, record, actives, map⟩
  · have state : (c.apply r).state = .draining := by simp [Conn.apply, hv]
    have kept := ((s.passed c r).freeRamp_granted k r.handle).find record (by simp [state]) (by simp [state])
    have unsettled : ((s.passed c r).freeRamp k r.handle).settled r.handle.slot (c.apply r) = false := by
      have gen : ((s.passed c r).freeRamp k r.handle).handleAt r.handle.slot = s.handleAt r.handle.slot := by
        rw [State.handleAt_of_find kept, State.handleAt_of_find hc]
      rw [State.settled_congr (s := s) (c := c) (c' := c.apply r) rfl (by simp [actives]) gen
        (.trans (s.passed_sameBatches c r) (State.freeRamp_sameBatches _ _ _)), State.settled]
      have lit : (s.actives[r.handle.slot] == Setpoint.blocked) = false := by
        rw [beq_eq_false_iff_ne, ← blocked]
        exact differs.symm
      rw [lit, Bool.false_and, Bool.false_and]
    have same : s.applyResult d r.handle.slot c r = (s.passed c r).freeRamp k r.handle := by
      rw [State.applyResult_down s hk hf hv, State.drainTest, ((State.find_eq_some _ _ _).mp kept).2]
      exact if_neg fun h => by rw [unsettled] at h; cases h.2
    rw [same]
    exact ⟨by rw [State.freeRamp_link _ _ _ _ (by rw [link]), link], kept, by simp [actives], by simp [map]⟩

end

/-- Settles O24, by the kinds of result that are applied. -/
theorem passResultResult : Obligations.PassResultResult := by
  unfold Obligations.PassResultResult
  intro d s held
  have run : exec (.passResult d) s = .next (match s.passReqs[d] with
      | [] => s
      | r :: rest => (({ s with passReqs := s.passReqs.set d rest } : State).takeResult d r).finish) := by
    change execPassResult d s = _
    exact whileRunning_running held
  refine ⟨fun none => by rw [run, none], fun r rest hr => ?_⟩
  rw [hr] at run
  obtain ⟨u, hu⟩ : ∃ u : State, u = { s with passReqs := s.passReqs.set d rest } := ⟨_, rfl⟩
  obtain ⟨table, map, ramps, links, actives, passes⟩ : u.table = s.table ∧ u.map = s.map ∧ u.ramps = s.ramps ∧
      u.links = s.links ∧ u.actives = s.actives ∧ u.passReqs = s.passReqs.set d rest := by
    rw [hu]; exact ⟨rfl, rfl, rfl, rfl, rfl, rfl⟩
  have reports : SameReports s u := by rw [hu]; exact ⟨rfl, rfl, rfl, rfl, rfl⟩
  dsimp only at run
  rw [← hu] at run
  refine ⟨_, run, ?_, fun stale => ?_, fun c k hc hs hk => ?_⟩
  · rw [(State.finish_frame _).2.2.2.2.2.2.2.2.2.2.2.2.2.2.2.2.1, (State.takeResult_frame u d r).1, passes]
  · have same : u.takeResult d r = u := by
      unfold State.takeResult
      rw [State.find_of_table table]
      cases hf : s.find r.handle with
      | none => rfl
      | some c => exact if_neg (stale c hf)
    rw [same]
    simp [table, ramps, reports.ports, reports.logs]
  have find : u.find r.handle = some c := by rw [State.find_of_table table, hc]
  have applied : u.takeResult d r = u.applyResult d r.handle.slot c r := by
    unfold State.takeResult
    rw [find]
    exact if_pos hs
  have told : ∀ w : State, w.finish.ports = w.ports := fun w => by simp
  have logged : ∀ w : State, w.finish.logs = w.logs := fun w => by simp
  have settled : u.settled r.handle.slot c = s.settled r.handle.slot c :=
    State.settled_congr rfl actives (State.handleAt_of_table table _) (.of_links links)
  dsimp only
  rw [applied]
  refine ⟨?_, ⟨?_, ?_, ?_⟩, ⟨?_, ?_, ?_⟩, ?_⟩
  · exact ((u.applyResult_others d c r).of_source table).of_table (by simp)
  · intro hv
    obtain ⟨own, same⟩ := u.applyResult_step_table (d := d) hk hv
    have row : s.table[r.handle.slot] = ⟨r.handle.gen, some c⟩ := State.row_of_find hc
    rw [(State.finish_frame _).1, own, (State.finish_frame _).2.2.2.2.2.1, same, Conn.apply_eq, hv,
      State.putConn_row (by rw [table, row]), table]
    exact ⟨rfl, ramps⟩
  · intro hf hv
    obtain ⟨own, holders⟩ := u.applyResult_up_record (d := d) find hk hf hv
    rw [State.conn_of_table (State.finish_frame _).1, own, (State.finish_frame _).2.2.2.2.2.1, Conn.apply_eq, hv]
    exact ⟨rfl, holders⟩
  · intro hf hv blocked
    obtain ⟨own, holders⟩ := u.applyResult_down_record (d := d) find hk hf hv
    rw [State.conn_of_table (State.finish_frame _).1, own, (State.finish_frame _).2.2.2.2.2.1, Conn.apply_eq, hv]
    refine ⟨holders, ?_⟩
    rw [settled]
    rfl
  · intro hf hv
    have same := (((reports.trans (u.passed_reports c r)).tellConn r.handle c .rampDone (some r.level)).tellPower
      r.handle c r)
    rw [State.tellPower_eq (s.tellConn ..)] at same
    rw [told, logged, State.applyResult_up u hk hf hv, (State.freeRamp_frame ..).2.2.2.2.2.2.2.2.2.2.2.2.1,
      (State.freeRamp_frame ..).2.2.2.2.2.2.2.2.2.2.2.1]
    refine ⟨same.ports, ?_⟩
    simp [(u.passed_reports c r).logs, reports.logs]
  · intro hf e he
    have same := ((reports.trans (u.passed_reports c r)).tellPower r.handle c r).handOff k r.handle e
    rw [State.tellPower_eq s, he] at same
    rw [told, logged, State.applyResult_inService u hk hf, he]
    exact ⟨same.ports, same.logs⟩
  · intro hf hv
    have same := reports.trans (u.passed_reports c r)
    rw [told, logged, State.applyResult_step u hf hv]
    exact ⟨same.ports, same.logs⟩
  · intro how ready idle changed differs listed
    obtain ⟨link, record, actives', map'⟩ := u.applyResult_marks (d := d) find hk how changed (by rw [actives]; exact differs)
    have entry := State.mem_updateEntries (s := u.applyResult d r.handle.slot c r) (d := k)
      (.inl ⟨_, by rw [map', map]; exact listed, rfl⟩) record (by rw [actives', actives]; exact differs)
    refine ⟨_, _, State.finish_sends ?_ ?_ ?_ (List.ne_nil_of_mem entry), rfl, ?_, entry, Conn.entry_handle .., ?_⟩
    · rw [link]
    · rw [link, links]
      exact ready
    · rw [link, links]
      exact idle
    · rw [link, links]
    · rw [Conn.entry_value, Conn.apply_eq]

end Sys2Proof.Machine
end

