-- ==== Sys2Proof/Proofs/GrantRequests.lean ====
section
/-! Proofs/GrantRequests.lean: the grant requests that CNM takes (O25). -/

set_option Elab.async false

namespace Sys2Proof.Machine
open Sys2Proof

section
variable {s t u : State} {h : Handle} {c : Conn} {d k : Degree} {r : GrantReq}

/-! ## When a grant request is taken -/

/-- The conditions of a grant taken as a request (R58). -/
theorem State.takesGrant_iff (s : State) (d : Degree) (r : GrantReq) : s.takesGrant d r = true ↔
    (∃ c, s.find r.handle = some c ∧ (c.state = .pendingUp ∨ c.state = .pendingDown)) ∧
      (⟨r.handle, some r.offer⟩ : QueueEntry) ∈ s.ramps[d].queue ∧ s.links[degreeLink d].state = .ready ∧
      s.trips[d].state = .clear := by
  have entry : (s.ramps[d].queue.any fun e => e.handle == r.handle && e.offer == some r.offer) = true ↔
      (⟨r.handle, some r.offer⟩ : QueueEntry) ∈ s.ramps[d].queue := by
    rw [List.any_eq_true]
    constructor
    · rintro ⟨⟨eh, eo⟩, he, hs⟩
      rw [Bool.and_eq_true, beq_iff_eq, beq_iff_eq] at hs
      obtain ⟨rfl, rfl⟩ := hs
      exact he
    · exact fun he => ⟨_, he, by simp⟩
  have waits : ((s.find r.handle).any fun c => c.state == .pendingUp || c.state == .pendingDown) = true ↔
      ∃ c, s.find r.handle = some c ∧ (c.state = .pendingUp ∨ c.state = .pendingDown) := by
    cases s.find r.handle <;> simp
  rw [State.takesGrant, Bool.and_eq_true, Bool.and_eq_true, Bool.and_eq_true, entry, waits, and_assoc, and_assoc]
  simp [State.tripInForce]

theorem State.answerGrant_granted (s : State) (d : Degree) (r : GrantReq) : Granted s (s.answerGrant d r) := by
  unfold State.answerGrant
  split
  · exact s.takeGrant_granted d r.handle
  · exact s.notTaken_granted d r

theorem State.answerGrant_frame (s : State) (d : Degree) (r : GrantReq) :
    (s.answerGrant d r).map = s.map ∧ (s.answerGrant d r).ports = s.ports ∧ (s.answerGrant d r).actives = s.actives ∧
    (s.answerGrant d r).trips = s.trips ∧ (s.answerGrant d r).grantReqs = s.grantReqs := by
  unfold State.answerGrant State.notTaken
  split <;> simp

/-! ## A request that is not taken -/

/-- An entry or a holder without the mark of an offer not taken. -/
def QueueEntry.unmarked (r : GrantReq) (e : QueueEntry) : QueueEntry :=
  if e = ⟨r.handle, some r.offer⟩ then ⟨r.handle, none⟩ else e

/-- RSC's state as an answer not taken leaves it before the grants that follow (R58). -/
def Ramps.answered (m : Ramps) (r : GrantReq) : Ramps :=
  { m with
    holders := m.holders.filter fun k => k ≠ ⟨r.handle, some r.offer⟩
    queue := m.queue.map (·.unmarked r) }

theorem State.notTaken_eq (s : State) (d : Degree) (r : GrantReq) :
    s.notTaken d r = (s.mapRamps d fun m => m.answered r).grantEvent d := by
  have holder : ∀ k : SlotHolder, k = ⟨r.handle, some r.offer⟩ ↔ k.handle = r.handle ∧ k.offer = some r.offer :=
    fun ⟨_, _⟩ => by simp
  have entry : ∀ e : QueueEntry, (if e.handle = r.handle ∧ e.offer = some r.offer then { e with offer := none } else e) =
      e.unmarked r := fun ⟨eh, eo⟩ => by
    unfold QueueEntry.unmarked
    by_cases he : eh = r.handle ∧ eo = some r.offer
    · obtain ⟨rfl, rfl⟩ := he
      simp
    · simp [he]
  unfold State.notTaken Ramps.answered
  simp only [holder, entry, ne_eq]

/-- The queue gains no entry by a grant, and a slot held by a grant of the step carries no offer (R57, R58). -/
theorem State.grantEvent_unmarked {x : GrantReq} (holders : (⟨x.handle, some x.offer⟩ : SlotHolder) ∉ s.ramps[d].holders)
    (queue : (⟨x.handle, some x.offer⟩ : QueueEntry) ∉ s.ramps[d].queue) :
    (⟨x.handle, some x.offer⟩ : SlotHolder) ∉ (s.grantEvent d).ramps[d].holders ∧
    (⟨x.handle, some x.offer⟩ : QueueEntry) ∉ (s.grantEvent d).ramps[d].queue := by
  refine State.grantEvent_keeps (fun t => (⟨x.handle, some x.offer⟩ : SlotHolder) ∉ t.ramps[d].holders ∧
    (⟨x.handle, some x.offer⟩ : QueueEntry) ∉ t.ramps[d].queue) d (fun t h ⟨holders, queue⟩ _ => ?_) s ⟨holders, queue⟩
  have kept : ∀ {w : State}, w.ramps = (t.mapRamps d fun r => (r.dequeue h).hold h none).ramps →
      (⟨x.handle, some x.offer⟩ : SlotHolder) ∉ w.ramps[d].holders ∧
        (⟨x.handle, some x.offer⟩ : QueueEntry) ∉ w.ramps[d].queue := by
    intro w hw
    rw [hw, State.ramps_mapRamps]
    refine ⟨fun hm => ?_, fun hm => queue (List.mem_filter.mp hm).1⟩
    obtain he | hm := (mem_insertBy ..).mp hm
    · cases he
    · exact holders (List.mem_filter.mp hm).1
  obtain he | ⟨c, -, ⟨-, he⟩ | ⟨-, he⟩⟩ := t.takeGrant_cases d h
  · rw [he]; exact ⟨holders, queue⟩
  · rw [he]; exact kept rfl
  · rw [he]; exact kept rfl

/-- An answer not taken gives back the slot and clears the mark that carry the offer number (R58). -/
theorem State.notTaken_unmarked (s : State) (d : Degree) (r : GrantReq) :
    (⟨r.handle, some r.offer⟩ : SlotHolder) ∉ (s.notTaken d r).ramps[d].holders ∧
    (⟨r.handle, some r.offer⟩ : QueueEntry) ∉ (s.notTaken d r).ramps[d].queue := by
  rw [State.notTaken_eq]
  refine State.grantEvent_unmarked ?_ ?_
  all_goals rw [State.ramps_mapRamps]
  · exact fun h => by simpa using (List.mem_filter.mp h).2
  · intro h
    obtain ⟨e, -, he⟩ := List.mem_map.mp h
    unfold QueueEntry.unmarked at he
    split at he
    · cases he
    · next hn => exact hn he

/-- With the link not READY or the trip in force, no grant follows an answer not taken (R57, R58). -/
theorem State.notTaken_closed (closed : s.links[degreeLink d].state ≠ .ready ∨ s.trips[d].state ≠ .clear) :
    s.notTaken d r = s.mapRamps d fun m => m.answered r := by
  rw [State.notTaken_eq]
  refine State.grantEvent_none _ d ?_
  unfold State.canGrant State.tripInForce
  obtain h | h := closed
  · simp [-Fin.getElem_fin, h]
  · simp [-Fin.getElem_fin, h]

end

/-- Settles O25, by whether the request is taken. -/
theorem grantResult : Obligations.GrantResult := by
  unfold Obligations.GrantResult
  intro d s held
  have run : exec (.grant d) s = .next (match s.grantReqs[d] with
      | [] => s
      | r :: rest => (({ s with grantReqs := s.grantReqs.set d rest } : State).answerGrant d r).finish) := by
    change execGrant d s = _
    exact whileRunning_running held
  refine ⟨fun none => by rw [run, none], fun r rest hr => ?_⟩
  rw [hr] at run
  obtain ⟨u, hu⟩ : ∃ u : State, u = { s with grantReqs := s.grantReqs.set d rest } := ⟨_, rfl⟩
  obtain ⟨table, map, ramps, links, actives, ports, trips, requests⟩ : u.table = s.table ∧ u.map = s.map ∧
      u.ramps = s.ramps ∧ u.links = s.links ∧ u.actives = s.actives ∧ u.ports = s.ports ∧ u.trips = s.trips ∧
      u.grantReqs = s.grantReqs.set d rest := by
    rw [hu]; exact ⟨rfl, rfl, rfl, rfl, rfl, rfl, rfl, rfl⟩
  dsimp only at run
  rw [← hu] at run
  have find : u.find r.handle = s.find r.handle := State.find_of_table table _
  have takes := u.takesGrant_iff d r
  rw [find, ramps, links, trips] at takes
  obtain ⟨fmap, fports, factives, ftrips, frequests⟩ := u.answerGrant_frame d r
  have grants : Granted s (u.answerGrant d r).finish :=
    (Granted.of_table table).trans ((u.answerGrant_granted d r).trans (.of_table (by simp)))
  have tramps : (u.answerGrant d r).finish.ramps = (u.answerGrant d r).ramps := by simp
  have ttable : (u.answerGrant d r).finish.table = (u.answerGrant d r).table := by simp
  refine ⟨_, run, by simp [frequests, requests], by simp [fmap, map], fun k => grants.others (fun _ => rfl) fun _ _ => rfl,
    by simp [fports, ports], by simp [factives, actives], by simp [ftrips, trips], fun c hc listed ready clear => ?_,
    fun stale => ?_, fun closed => ?_⟩
  · have taken : c.state = .pendingUp ∨ c.state = .pendingDown → u.answerGrant d r = u.takeGrant d r.handle := fun hs =>
      if_pos (takes.mpr ⟨⟨c, hc, hs⟩, listed, ready, clear⟩)
    have ufind : u.find r.handle = some c := by rw [find, hc]
    have row : u.table[r.handle.slot] = ⟨r.handle.gen, some c⟩ := State.row_of_find ufind
    refine ⟨fun hs => ?_, fun hs => ?_, fun hs => ?_⟩
    · rw [ttable, taken (.inl hs), State.takeGrant_up ufind hs, (State.mark_frame ..).1, ← table]
      exact State.putConn_row (s := u.mapRamps d _) row _
    · rw [ttable, taken (.inr hs), State.takeGrant_down ufind hs, ← table]
      exact State.putConn_row (s := u.mapRamps d _) row _
    · rw [tramps, taken hs, State.ramps_takeGrant ufind hs, ramps]
      exact ⟨Ramps.granted_queue _ _, Ramps.granted_holder _ _⟩
  · have answered : u.answerGrant d r = u.notTaken d r := by
      refine if_neg fun h => ?_
      obtain ⟨⟨c, hc, hs⟩, listed, ready, clear⟩ := takes.mp h
      obtain gone | unlisted | closed | tripped := stale
      · exact hs.elim (gone c hc).1 (gone c hc).2
      · exact unlisted listed
      · exact closed ready
      · exact tripped clear
    obtain ⟨holders, queue⟩ := u.notTaken_unmarked d r
    rw [tramps, answered]
    refine ⟨holders, queue, fun c hc up down => ?_⟩
    rw [← answered]
    exact grants.conn_some ((s.find_eq_some _ c).mp hc).2 up down
  · have answered : u.answerGrant d r = u.mapRamps d fun m => m.answered r := by
      refine (if_neg fun h => ?_).trans (State.notTaken_closed (by rwa [links, trips]))
      obtain ⟨-, -, ready, clear⟩ := takes.mp h
      exact closed.elim (fun n => n ready) fun n => n clear
    rw [ttable, tramps, answered, State.ramps_mapRamps, ramps]
    exact ⟨table, rfl, rfl⟩

end Sys2Proof.Machine
end

