-- ==== Sys2Proof/Proofs/Offers.lean ====
section
/-! Proofs/Offers.lean: the offers of a grant event outside a CNM step. -/

set_option Elab.async false

namespace Sys2Proof.Machine
open Sys2Proof

section
variable {s t u : State} {d k : Degree} {h : Handle}

/-! ## Offers on RSC's state of a degree -/

/-- Free handles: no slot holder has one of them. -/
def Ramps.holdsNone (m : Ramps) (hs : List Handle) : Prop := ∀ x ∈ m.holders, x.handle ∉ hs

theorem insertBy_length {α : Type} (key : α → Nat) (x : α) (l : List α) : (insertBy key x l).length = l.length + 1 := by
  induction l with
  | nil => rfl
  | cons y ys ih =>
    rw [insertBy]
    split
    · rfl
    · rw [List.length_cons, ih, List.length_cons]

theorem Ramps.mem_holders_offered (m : Ramps) (h : Handle) (x : SlotHolder) :
    x ∈ (m.offered h).holders ↔ x = ⟨h, some m.offerCount⟩ ∨ x ∈ m.holders ∧ x.handle ≠ h := by
  simp [Ramps.offered, Ramps.hold, mem_insertBy]

theorem Ramps.length_offered {m : Ramps} (free : ∀ x ∈ m.holders, x.handle ≠ h) :
    (m.offered h).holders.length = m.holders.length + 1 := by
  have kept : m.holders.filter (·.handle ≠ h) = m.holders := List.filter_eq_self.mpr (by simpa using free)
  simp only [Ramps.offered, Ramps.hold, insertBy_length]
  rw [kept]

theorem Ramps.holdsNone_offered {m : Ramps} {hs : List Handle} (free : m.holdsNone (h :: hs)) (nodup : (h :: hs).Nodup) :
    (m.offered h).holdsNone hs := by
  intro x hx
  obtain rfl | ⟨hx, -⟩ := (m.mem_holders_offered h x).mp hx
  · exact (List.nodup_cons.mp nodup).1
  · exact fun hm => free x hx (List.mem_cons_of_mem _ hm)

theorem Ramps.queue_offered (m : Ramps) (h : Handle) : (m.offered h).queue =
    m.queue.map fun e => if e.handle = h then { e with offer := some m.offerCount } else e := rfl

theorem Ramps.handles_offered (m : Ramps) (h : Handle) :
    (m.offered h).queue.map (·.handle) = m.queue.map (·.handle) := by
  rw [Ramps.queue_offered, List.map_map]
  refine List.map_congr_left fun e _ => ?_
  by_cases he : e.handle = h <;> simp [he]

theorem Ramps.mem_queue_offered {m : Ramps} {e : QueueEntry} (he : e ∈ m.queue) (hne : e.handle ≠ h) :
    e ∈ (m.offered h).queue :=
  List.mem_map.mpr ⟨e, he, if_neg hne⟩

/-- RSC's state after offers to a list of handles, in order (R58). -/
def Ramps.offers (m : Ramps) (hs : List Handle) : Ramps := hs.foldl Ramps.offered m

theorem Ramps.offerCount_offers (m : Ramps) (hs : List Handle) :
    (m.offers hs).offerCount = m.offerCount + BitVec.ofNat 16 hs.length := by
  induction hs generalizing m with
  | nil => simp [Ramps.offers]
  | cons h hs ih =>
    have step : m.offers (h :: hs) = (m.offered h).offers hs := rfl
    rw [step, ih, List.length_cons, show (m.offered h).offerCount = m.offerCount + 1 from rfl, Nat.add_comm hs.length 1,
      BitVec.ofNat_add, BitVec.add_assoc]
    rfl

theorem Ramps.handles_offers (m : Ramps) (hs : List Handle) :
    (m.offers hs).queue.map (·.handle) = m.queue.map (·.handle) := by
  induction hs generalizing m with
  | nil => rfl
  | cons h hs ih => exact (ih (m.offered h)).trans (m.handles_offered h)

theorem Ramps.mem_queue_offers {m : Ramps} {hs : List Handle} {e : QueueEntry} (he : e ∈ m.queue) (hne : e.handle ∉ hs) :
    e ∈ (m.offers hs).queue := by
  induction hs generalizing m with
  | nil => exact he
  | cons h hs ih =>
    rw [List.mem_cons, not_or] at hne
    exact ih (Ramps.mem_queue_offered he hne.1) hne.2

theorem Ramps.mem_holders_offers {m : Ramps} {hs : List Handle} {x : SlotHolder} (hx : x ∈ m.holders)
    (hne : x.handle ∉ hs) : x ∈ (m.offers hs).holders := by
  induction hs generalizing m with
  | nil => exact hx
  | cons h hs ih =>
    rw [List.mem_cons, not_or] at hne
    exact ih ((m.mem_holders_offered h x).mpr (.inr ⟨hx, hne.1⟩)) hne.2

/-- Each handle in turn is offered under the next number: its entry marked and a slot held under it (R58). -/
theorem Ramps.mem_offers {m : Ramps} {hs : List Handle} (nodup : hs.Nodup) (queued : ∀ h ∈ hs, ∃ e ∈ m.queue, e.handle = h)
    {j : Nat} (hj : hs[j]? = some h) :
    (⟨h, some (m.offerCount + BitVec.ofNat 16 j)⟩ : QueueEntry) ∈ (m.offers hs).queue ∧
      (⟨h, some (m.offerCount + BitVec.ofNat 16 j)⟩ : SlotHolder) ∈ (m.offers hs).holders := by
  induction hs generalizing m j with
  | nil => cases hj
  | cons x hs ih =>
    obtain ⟨new, nodup⟩ := List.nodup_cons.mp nodup
    cases j with
    | zero =>
      obtain rfl : x = h := by simpa using hj
      have zero : m.offerCount + BitVec.ofNat 16 0 = m.offerCount := by simp
      rw [zero]
      obtain ⟨e, he, rfl⟩ := queued x (List.mem_cons_self ..)
      refine ⟨Ramps.mem_queue_offers (m := m.offered e.handle) ?_ new,
        Ramps.mem_holders_offers (m := m.offered e.handle) ?_ new⟩
      · exact List.mem_map.mpr ⟨e, he, if_pos rfl⟩
      · exact (m.mem_holders_offered _ _).mpr (.inl rfl)
    | succ j =>
      have next : m.offerCount + BitVec.ofNat 16 (j + 1) = (m.offered x).offerCount + BitVec.ofNat 16 j := by
        rw [show (m.offered x).offerCount = m.offerCount + 1 from rfl, Nat.add_comm j 1, BitVec.ofNat_add, BitVec.add_assoc]
        rfl
      rw [next]
      refine ih (m := m.offered x) nodup (fun y hy => ?_) (by simpa using hj)
      have : y ∈ (m.offered x).queue.map (·.handle) := by
        rw [m.handles_offered]
        exact List.mem_map.mpr (queued y (List.mem_cons_of_mem _ hy))
      exact List.mem_map.mp this

/-! ## A grant event outside a CNM step -/

/-- The requests that offers under numbers from `n` on send (R58). -/
def requestsFrom (n : BitVec 16) (hs : List Handle) : List GrantReq :=
  hs.zipIdx.map fun x => ⟨x.1, n + BitVec.ofNat 16 x.2⟩

theorem requestsFrom_cons (n : BitVec 16) (h : Handle) (hs : List Handle) :
    requestsFrom n (h :: hs) = ⟨h, n⟩ :: requestsFrom (n + 1) hs := by
  have shift : hs.zipIdx 1 = hs.zipIdx.map fun x => (x.1, 1 + x.2) := by
    rw [List.zipIdx_succ]
    exact List.map_congr_left fun x _ => by rw [Nat.add_comm]
  unfold requestsFrom
  rw [List.zipIdx_cons, List.map_cons, Nat.zero_add, shift, List.map_map]
  congr 1
  · simp
  · refine List.map_congr_left fun x _ => ?_
    simp [BitVec.ofNat_add, BitVec.add_assoc]

theorem State.ramps_offerOne (s : State) (d : Degree) (h : Handle) : (s.offerOne d h).ramps[d] = s.ramps[d].offered h :=
  get_set_self ..

theorem State.grantReqs_offerOne (s : State) (d : Degree) (h : Handle) :
    (s.offerOne d h).grantReqs[d] = s.grantReqs[d] ++ [⟨h, s.ramps[d].offerCount⟩] :=
  get_set_self ..

/-- What a grant event outside a CNM step offers: the oldest entries, as many as slots are free (R57, R58). -/
theorem State.offerFold (hs : List Handle) (s : State) (ready : s.links[degreeLink d].state = .ready)
    (clear : s.trips[d].state = .clear) (free : s.ramps[d].holdsNone hs) (nodup : hs.Nodup) :
    let n := min hs.length (s.settings[d].rampSlots - s.ramps[d].holders.length)
    let t := hs.foldl (fun s h => if s.canGrant d then s.offerOne d h else s) s
    t.ramps[d] = s.ramps[d].offers (hs.take n) ∧
      t.grantReqs[d] = s.grantReqs[d] ++ requestsFrom s.ramps[d].offerCount (hs.take n) := by
  induction hs generalizing s with
  | nil => simp [Ramps.offers, requestsFrom]
  | cons h hs ih =>
    have can : s.canGrant d = decide (s.ramps[d].holders.length < s.settings[d].rampSlots) := by
      rw [State.canGrant, ready, State.tripInForce, clear]
      rfl
    dsimp only
    rw [List.foldl_cons]
    by_cases room : s.ramps[d].holders.length < s.settings[d].rampSlots
    · rw [if_pos (by rw [can]; simpa using room)]
      have length := Ramps.length_offered (m := s.ramps[d]) (h := h) fun x hx e => free x hx (e ▸ List.mem_cons_self ..)
      have next := ih (s.offerOne d h) (by simpa using ready) (by simpa using clear)
        (by rw [State.ramps_offerOne]; exact Ramps.holdsNone_offered free nodup) (List.nodup_cons.mp nodup).2
      dsimp only at next
      rw [State.ramps_offerOne, State.grantReqs_offerOne, length, (State.offerOne_frame ..).2.2.2.2.1] at next
      have count : min (h :: hs).length (s.settings[d].rampSlots - s.ramps[d].holders.length) =
          min hs.length (s.settings[d].rampSlots - (s.ramps[d].holders.length + 1)) + 1 := by
        rw [List.length_cons]
        omega
      rw [count, List.take_succ_cons, requestsFrom_cons]
      exact ⟨next.1, by rw [next.2, List.append_assoc]; rfl⟩
    · have none : ∀ hs : List Handle, hs.foldl (fun s h => if s.canGrant d then s.offerOne d h else s) s = s := by
        intro hs
        induction hs with
        | nil => rfl
        | cons x hs ih => rw [List.foldl_cons, if_neg (by rw [can]; simpa using room), ih]
      rw [if_neg (by rw [can]; simpa using room), none,
        show min (h :: hs).length (s.settings[d].rampSlots - s.ramps[d].holders.length) = 0 by omega]
      simp [Ramps.offers, requestsFrom]

/-- With no conditions of a grant met, nothing is offered (R57). -/
theorem State.offerEvent_none (cannot : s.canGrant d = false) : s.offerEvent d = s := by
  unfold State.offerEvent
  generalize s.ramps[d].unoffered = hs
  induction hs with
  | nil => rfl
  | cons h hs ih => rw [List.foldl_cons, if_neg (by simp [cannot]), ih]

/-- A grant event of one degree leaves RSC's state of the others (R53). -/
theorem State.offerEvent_other (s : State) (hne : k ≠ d) :
    (s.offerEvent d).ramps[k] = s.ramps[k] ∧ (s.offerEvent d).grantReqs[k] = s.grantReqs[k] := by
  have one : ∀ (t : State) (h : Handle), (t.offerOne d h).ramps[k] = t.ramps[k] ∧
      (t.offerOne d h).grantReqs[k] = t.grantReqs[k] := fun t h => ⟨get_set_ne _ _ hne, get_set_ne _ _ hne⟩
  unfold State.offerEvent
  refine ⟨foldl_keeps (fun t : State => t.ramps[k]) _ (fun t h => ?_) _ _,
    foldl_keeps (fun t : State => t.grantReqs[k]) _ (fun t h => ?_) _ _⟩
  all_goals split
  · exact (one t h).1
  · rfl
  · exact (one t h).2
  · rfl

/-- An entry of the queue that is not offered holds no slot (R53, R54). -/
theorem State.unoffered_free (ok : s.rampsOk) (d : Degree) :
    s.ramps[d].holdsNone s.ramps[d].unoffered ∧ s.ramps[d].unoffered.Nodup := by
  obtain ⟨-, -, nodup, -, queued, granted, offered⟩ := ok d
  refine ⟨fun ⟨h, offer⟩ hx hu => ?_, nodup.sublist (List.filter_sublist.map _)⟩
  obtain ⟨⟨eh, eo⟩, he, rfl⟩ := List.mem_map.mp hu
  obtain ⟨heq, hnone⟩ := List.mem_filter.mp he
  obtain rfl : eo = none := Option.isNone_iff_eq_none.mp hnone
  cases offer with
  | none =>
    obtain ⟨c, hc, -, waits⟩ := (queued eh).mp ⟨_, heq, rfl⟩
    obtain ⟨a, ha, -, ramps⟩ := (granted eh).mp hx
    rw [hc] at ha
    cases ha
    obtain hs | hs := waits <;> simp [hs] at ramps
  | some n =>
    have same := List.inj_on_of_nodup_map nodup heq ((offered eh n).mp hx) rfl
    cases same

end

end Sys2Proof.Machine
end

