-- ==== Sys2Proof/Proofs/Carried.lean ====
section
/-! Proofs/Carried.lean: what a completed batch makes active and which records drain with it. -/

set_option Elab.async false

namespace Sys2Proof.Machine
open Sys2Proof

section
variable {s t u : State} {i : SlotIx} {c : Conn} {l : LinkId}

/-! ## The carried values -/

/-- An entry takes its value for the record it names, and no other (R131, step 2). -/
theorem State.actives_activate (hc : s.conn i = some c) (e : Entry) :
    (e.handle? ≠ some (s.handleAt i) → (s.activate e).actives[i] = s.actives[i]) ∧
    ∀ v, e.handle? = some (s.handleAt i) → e.value? = some v → (s.activate e).actives[i] = v := by
  have written : ∀ (h : Handle) (v : Setpoint),
      (h ≠ s.handleAt i →
        (if (s.find h).isSome then { s with actives := s.actives.set h.slot v } else s).actives[i] = s.actives[i]) ∧
      (h = s.handleAt i →
        (if (s.find h).isSome then { s with actives := s.actives.set h.slot v } else s).actives[i] = v) := by
    intro h v
    refine ⟨fun hne => ?_, fun he => ?_⟩
    · split
      · next hf =>
        obtain ⟨a, ha⟩ := Option.isSome_iff_exists.mp hf
        refine get_set_ne _ _ fun hs => hne ?_
        rw [← State.handleAt_of_find ha, hs]
      · rfl
    · rw [if_pos (by rw [he, State.find_handleAt, hc]; rfl), he]
      exact get_set_self ..
  cases e with
  | select h sp k x =>
    exact ⟨fun hne => (written h x).1 fun e => hne (congrArg some e), fun v he hv => by
      cases hv; exact (written h x).2 (Option.some.inj he)⟩
  | drop h sp k x =>
    exact ⟨fun hne => (written h x).1 fun e => hne (congrArg some e), fun v he hv => by
      cases hv; exact (written h x).2 (Option.some.inj he)⟩
  | allBlocked => exact ⟨fun _ => rfl, nofun⟩
  | port k x y => exact ⟨fun _ => rfl, nofun⟩

/-- The active setpoint of a record after a list of entries that carry one value for it, or that is its value. -/
theorem State.actives_activates (es : List Entry) (s : State) (hc : s.conn i = some c) {v : Setpoint}
    (one : ∀ e ∈ es, e.handle? = some (s.handleAt i) → e.value? = some v)
    (known : s.actives[i] = v ∨ ∃ e ∈ es, e.handle? = some (s.handleAt i)) :
    (es.foldl State.activate s).actives[i] = v := by
  induction es generalizing s with
  | nil => exact known.resolve_right fun ⟨e, he, _⟩ => nomatch he
  | cons e es ih =>
    obtain ⟨table, -⟩ := s.activate_frame e
    have handle : (s.activate e).handleAt i = s.handleAt i := State.handleAt_of_table table i
    obtain ⟨other, own⟩ := State.actives_activate hc e
    refine ih (s.activate e) (by rw [State.conn_of_table table, hc])
      (fun x hx => by rw [handle]; exact one x (List.mem_cons_of_mem _ hx)) ?_
    by_cases he : e.handle? = some (s.handleAt i)
    · exact .inl (own v he (one e (List.mem_cons_self ..) he))
    · obtain h | ⟨x, hx, hh⟩ := known
      · exact .inl ((other he).trans h)
      · obtain rfl | hx := List.mem_cons.mp hx
        · exact absurd hh he
        · exact .inr ⟨x, hx, by rw [handle]; exact hh⟩

theorem State.actives_batchDone {b : Batch} (hc : s.conn i = some c) {v : Setpoint} (after : ActiveAfter s b i v) :
    (s.batchDone l b).actives[i] = v := by
  show (b.entries.foldl State.activate s).actives[i] = v
  obtain ⟨one, same⟩ | ⟨nowhere, rfl⟩ := after
  · exact State.actives_activates _ s hc same (.inr one)
  · exact State.actives_activates _ s hc (fun e he hh => absurd hh (nowhere e he)) (.inl rfl)

/-- The active halves of a port after a list of entries that agree on it (R125, R131). -/
theorem State.matrix_activates (es : List Entry) (s : State) {k : LocalPort} {x y : Option Degree}
    (one : ∀ x' y', .port k x' y' ∈ es → x' = x ∧ y' = y)
    (known : (s.matrix[k].addActive = x ∧ s.matrix[k].dropActive = y) ∨ .port k x y ∈ es) :
    (es.foldl State.activate s).matrix[k].addActive = x ∧ (es.foldl State.activate s).matrix[k].dropActive = y := by
  induction es generalizing s with
  | nil => exact known.resolve_right fun h => nomatch h
  | cons e es ih =>
    refine ih (s.activate e) (fun x' y' h => one x' y' (List.mem_cons_of_mem _ h)) ?_
    by_cases he : ∃ x' y', e = .port k x' y'
    · obtain ⟨x', y', rfl⟩ := he
      obtain ⟨rfl, rfl⟩ := one x' y' (List.mem_cons_self ..)
      have set : (s.activate (.port k x' y')).matrix[k] = { s.matrix[k] with addActive := x', dropActive := y' } :=
        get_set_self ..
      exact .inl (by rw [set]; exact ⟨rfl, rfl⟩)
    · have same : (s.activate e).matrix[k] = s.matrix[k] := by
        cases e with
        | select h sp p v => rw [State.activate_select]; split <;> rfl
        | drop h sp p v => rw [State.activate_drop]; split <;> rfl
        | allBlocked => rfl
        | port p a d => exact get_set_ne _ _ fun hk => he ⟨a, d, by rw [hk]⟩
      rw [same]
      exact known.imp id fun h => (List.mem_cons.mp h).resolve_left fun h => he ⟨x, y, h.symm⟩

/-! ## The draining records of a link -/

/-- A record is freed by the test of R44 only where its active setpoint is BLOCKED already. -/
theorem State.actives_drainTest (s : State) (j : SlotIx) : (s.drainTest j).actives = s.actives := by
  unfold State.drainTest
  split
  · rfl
  split
  · next h =>
    have blocked : s.actives[j] = .blocked := by
      have := h.2
      unfold State.settled at this
      simp only [Bool.and_eq_true, beq_iff_eq] at this
      exact this.1.1
    rw [(State.tellConn_frame ..).2.2.2.2.2.2.2.2.2.2.2.1, State.actives_freeRecord, ← blocked]
    exact Vector.set_getElem_self ..
  · rfl

theorem State.drainTest_sameBatches (s : State) (j : SlotIx) : SameBatches s (s.drainTest j) := by
  unfold State.drainTest
  split
  · exact .of_links rfl
  split
  · refine SameBatches.told ?_ _ _ _ _
    obtain h | h := s.freeRecord_links j _
    · exact .of_links h
    · exact .of_mark h
  · exact .of_links rfl

theorem State.handleAt_drainTest (s : State) (j k : SlotIx) : (s.drainTest j).handleAt k = s.handleAt k := by
  unfold State.drainTest
  split
  · rfl
  split
  · rw [State.handleAt_of_table (State.tellConn_frame ..).1, State.handleAt_freeRecord]
  · rfl

theorem State.conn_drainTest_other (s : State) {j k : SlotIx} (h : k ≠ j) : (s.drainTest j).conn k = s.conn k := by
  unfold State.drainTest
  split
  · rfl
  split
  · rw [State.conn_of_table (State.tellConn_frame ..).1, State.conn_freeRecord, if_neg h]
  · rfl

theorem State.conn_drainTest_none (h : s.conn i = none) (j : SlotIx) : (s.drainTest j).conn i = none := by
  by_cases hj : i = j
  · subst hj
    unfold State.drainTest
    rw [h]
    exact h
  · rw [State.conn_drainTest_other _ hj, h]

/-- A record after the test of R44 has been made for a list of slots. -/
theorem State.conn_drainTests (js : List SlotIx) (s : State) (hc : s.conn i = some c) :
    (js.foldl State.drainTest s).conn i =
      if i ∈ js ∧ c.state = .draining ∧ s.settled i c = true then none else some c := by
  have gone : ∀ (js : List SlotIx) (s : State), s.conn i = none → (js.foldl State.drainTest s).conn i = none := by
    intro js
    induction js with
    | nil => exact fun _ h => h
    | cons j js ih => exact fun s h => ih _ (State.conn_drainTest_none h j)
  induction js generalizing s with
  | nil => simpa using hc
  | cons j js ih =>
    rw [List.foldl_cons]
    by_cases hj : i = j
    · subst hj
      by_cases hs : c.state = .draining ∧ s.settled i c = true
      · rw [if_pos ⟨List.mem_cons_self .., hs⟩]
        refine gone js _ ?_
        rw [State.conn_drainTest hc hs.1 rfl rfl rfl (.of_links rfl), if_pos hs.2]
      · have same : s.drainTest i = s := by
          unfold State.drainTest
          rw [hc]
          exact if_neg hs
        rw [same, ih s hc, if_neg fun h => hs h.2, if_neg fun h => hs h.2]
    · have settled : (s.drainTest j).settled i c = s.settled i c :=
        State.settled_congr rfl (s.actives_drainTest j) (s.handleAt_drainTest j i) (s.drainTest_sameBatches j)
      rw [ih _ (by rw [State.conn_drainTest_other _ hj, hc]), settled]
      simp [hj]

theorem Route.link_ne_slm (r : Route) : r.link ≠ slm := by
  cases r <;> exact degreeLink_ne_slm _

/-- A record after CNM has tested the draining records of a link (R44; R131, step 4). -/
theorem State.conn_drainLink (s : State) (l : LinkId) (hc : s.conn i = some c) : (s.drainLink l).conn i =
    if c.route.link = l ∧ c.state = .draining ∧ s.settled i c = true then none else some c := by
  unfold State.drainLink
  obtain rfl | ⟨d, rfl⟩ := link_cases l
  · rw [linkDegree_slm, if_neg fun h => c.route.link_ne_slm h.1]
    exact hc
  · rw [linkDegree_degreeLink]
    refine (State.conn_drainTests _ s hc).trans ?_
    simp [hc, slots]

/-- Whether a record's active setpoint is settled once its link's batch has completed (R44, R131). -/
theorem State.settled_batchDone {b : Batch} (hl : c.route.link = l) :
    (s.batchDone l b).settled i c = true ↔ (s.batchDone l b).actives[i] = .blocked ∧
      (s.links[l].state = .starting ∨ ∀ es, s.links[l].unanswered = some es → ∀ e ∈ es, e.handle? ≠ some (s.handleAt i)) := by
  have handle : (s.batchDone l b).handleAt i = s.handleAt i := State.handleAt_of_table (s.batchDone_frame l b).1 i
  have link : (s.batchDone l b).links[c.route.link] = s.links[l].completed := by
    rw [State.link_batchDone, if_pos hl]
  unfold State.settled
  rw [handle, link]
  simp only [Bool.and_eq_true, beq_iff_eq, Link.completed, Option.any_none, Bool.not_false, and_true]
  refine and_congr_right fun _ => ?_
  by_cases hs : s.links[l].state = .starting
  · simp [-Fin.getElem_fin, hs]
  · rw [if_neg hs]
    cases s.links[l].unanswered <;> simp [-Fin.getElem_fin, hs, carries]

/-! ## What a completed batch leaves of the links -/

/-- A link but for CNM's mark. -/
def Link.unmarked (k : Link) : Link := { k with pendingMark := false }

/-- Every link is as it was, but for marks (R126). -/
def SameLinks (s t : State) : Prop := ∀ k : LinkId, t.links[k].unmarked = s.links[k].unmarked

theorem SameLinks.of_links (h : t.links = s.links) : SameLinks s t := fun k => by rw [h]

theorem SameLinks.trans (a : SameLinks s t) (b : SameLinks t u) : SameLinks s u := fun k => (b k).trans (a k)

theorem SameLinks.of_mark {l : LinkId} (h : t.links = (s.mark l).links) : SameLinks s t := fun k => by
  rw [h, State.link_mark]
  split
  · next hk => rw [hk]; rfl
  · rfl

theorem State.drainTest_sameLinks (s : State) (j : SlotIx) : SameLinks s (s.drainTest j) := by
  unfold State.drainTest
  split
  · exact .of_links rfl
  split
  · refine .trans ?_ (.of_links (State.tellConn_frame ..).2.2.2.2.2.2.2.2.2.1)
    obtain h | h := s.freeRecord_links j _
    · exact .of_links h
    · exact .of_mark h
  · exact .of_links rfl

theorem State.drainTest_matrix (s : State) (j : SlotIx) (k : LocalPort) :
    (s.drainTest j).matrix[k].addActive = s.matrix[k].addActive ∧
    (s.drainTest j).matrix[k].dropActive = s.matrix[k].dropActive := by
  have cleared : ∀ r : Route, (s.clearMatrix r).matrix[k].addActive = s.matrix[k].addActive ∧
      (s.clearMatrix r).matrix[k].dropActive = s.matrix[k].dropActive := by
    have set : ∀ (p : LocalPort) (f : MatrixEntry → MatrixEntry), (∀ m, (f m).addActive = m.addActive) →
        (∀ m, (f m).dropActive = m.dropActive) → ((s.mapMatrix p f).matrix[k].addActive = s.matrix[k].addActive ∧
          (s.mapMatrix p f).matrix[k].dropActive = s.matrix[k].dropActive) := by
      intro p f ha hd
      have entry : (s.mapMatrix p f).matrix[k] = if k = p then f s.matrix[p] else s.matrix[k] := get_set ..
      rw [entry]
      split
      · next h => rw [h]; exact ⟨ha _, hd _⟩
      · exact ⟨rfl, rfl⟩
    intro r
    cases r with
    | add p d => exact set p _ (fun _ => rfl) fun _ => rfl
    | drop d p => exact set p _ (fun _ => rfl) fun _ => rfl
    | express a b => exact ⟨rfl, rfl⟩
  have freed : ∀ c : Conn, ((s.freeRecord j c).tellConn (s.handleAt j) c .released none).matrix[k].addActive =
        s.matrix[k].addActive ∧
      ((s.freeRecord j c).tellConn (s.handleAt j) c .released none).matrix[k].dropActive = s.matrix[k].dropActive := by
    intro c
    have told : ((s.freeRecord j c).tellConn (s.handleAt j) c .released none).matrix = (s.freeRecord j c).matrix := by simp
    rw [told]
    by_cases hs : c.state = .proposed
    · rw [(State.freeRecord_proposed hs).1]
      exact ⟨rfl, rfl⟩
    · rw [(State.freeRecord_past hs).1]
      exact cleared c.route
  unfold State.drainTest
  split
  · exact ⟨rfl, rfl⟩
  split
  · exact freed _
  · exact ⟨rfl, rfl⟩

/-- What the tests of a link's draining records keep. -/
structure Drains (s t : State) : Prop where
  links : SameLinks s t
  matrix : ∀ k : LocalPort, t.matrix[k].addActive = s.matrix[k].addActive ∧ t.matrix[k].dropActive = s.matrix[k].dropActive
  actives : t.actives = s.actives
  ramps : t.ramps = s.ramps
  grantReqs : t.grantReqs = s.grantReqs
  settings : t.settings = s.settings
  managers : t.managers = s.managers
  trips : t.trips = s.trips
  logs : t.logs = s.logs
  banks : t.banks = s.banks
  switchGen : t.switchGen = s.switchGen
  nodeTime : t.nodeTime = s.nodeTime

theorem Drains.refl (s : State) : Drains s s :=
  ⟨.of_links rfl, fun _ => ⟨rfl, rfl⟩, rfl, rfl, rfl, rfl, rfl, rfl, rfl, rfl, rfl, rfl⟩

theorem Drains.trans (a : Drains s t) (b : Drains t u) : Drains s u where
  links := a.links.trans b.links
  matrix k := ⟨(b.matrix k).1.trans (a.matrix k).1, (b.matrix k).2.trans (a.matrix k).2⟩
  actives := b.actives.trans a.actives
  ramps := b.ramps.trans a.ramps
  grantReqs := b.grantReqs.trans a.grantReqs
  settings := b.settings.trans a.settings
  managers := b.managers.trans a.managers
  trips := b.trips.trans a.trips
  logs := b.logs.trans a.logs
  banks := b.banks.trans a.banks
  switchGen := b.switchGen.trans a.switchGen
  nodeTime := b.nodeTime.trans a.nodeTime

theorem State.drainTest_drains (s : State) (j : SlotIx) : Drains s (s.drainTest j) where
  links := s.drainTest_sameLinks j
  matrix := s.drainTest_matrix j
  actives := s.actives_drainTest j
  ramps := by simp
  grantReqs := by simp
  settings := by simp
  managers := by simp
  trips := by simp
  logs := by simp
  banks := by simp
  switchGen := by simp
  nodeTime := by simp

theorem State.drainLink_drains (s : State) (l : LinkId) : Drains s (s.drainLink l) := by
  unfold State.drainLink
  split
  · generalize (slots.filter fun i => (s.conn i).any fun c => c.route.link == l) = js
    induction js generalizing s with
    | nil => exact .refl s
    | cons j js ih => exact (s.drainTest_drains j).trans (ih _)
  · exact .refl s

end

end Sys2Proof.Machine
end

