-- ==== Sys2Proof/Proofs/NextUpdate.lean ====
section
/-! Proofs/NextUpdate.lean: the UPDATE that follows a completed batch. -/

set_option Elab.async false

namespace Sys2Proof.Machine
open Sys2Proof

section
variable {s t u : State} {l k : LinkId} {d : Degree} {b : Batch}

/-! ## The next UPDATE -/

/-- The condition of R127 for sending an UPDATE. -/
def State.sendable (s : State) (l : LinkId) : Prop :=
  s.links[l].state = .ready ∧ s.links[l].inFlight = none ∧ s.updateEntries l ≠ []

theorem State.switchGen_sendBatch (s : State) (l : LinkId) (d : Degree) (kind : BatchKind) (es : List Entry) :
    (s.sendBatch l kind es).switchGen[d] = if l = degreeLink d then s.switchGen[d] + 1 else s.switchGen[d] := by
  have link : (s.mapLink l fun k => { k with
      inFlight := some ⟨kind, k.seq, es⟩, seq := k.seq + 1,
      timer := some (s.nodeTime + BitVec.ofNat 32 (s.replyPeriod l)) }).switchGen = s.switchGen := rfl
  unfold State.sendBatch
  obtain rfl | ⟨a, rfl⟩ := link_cases l
  · rw [linkDegree_slm, if_neg fun h => degreeLink_ne_slm d h.symm]
    rfl
  · rw [linkDegree_degreeLink]
    refine (get_set ..).trans ?_
    by_cases h : d = a
    · rw [if_pos h, if_pos (by rw [h]), ← h]; rfl
    · rw [if_neg h, if_neg fun e => h (degreeLink_inj e).symm]; rfl

/-- The examination of the links leaves one that can be sent nothing, but for its mark, and its switch generation. -/
theorem State.flushLink_still (k : LinkId) (still : ¬ s.sendable l) :
    (s.flushLink k).links[l].unmarked = s.links[l].unmarked ∧
    ∀ d : Degree, l = degreeLink d → (s.flushLink k).switchGen[d] = s.switchGen[d] := by
  have entries : (s.mapLink k fun x => { x with pendingMark := false }).updateEntries l = s.updateEntries l :=
    State.updateEntries_congr rfl rfl rfl rfl l
  by_cases hk : l = k
  · subst hk
    have link : (s.mapLink l fun x => { x with pendingMark := false }).links[l] = { s.links[l] with pendingMark := false } := by
      rw [State.link_mapLink, if_pos rfl]
    unfold State.flushLink
    split
    · rw [State.sendIfPending, if_neg (by rw [link, entries]; exact still), link]
      exact ⟨rfl, fun _ _ => rfl⟩
    · exact ⟨rfl, fun _ _ => rfl⟩
  · refine ⟨by rw [s.link_flushLink_other hk], fun d hd => ?_⟩
    unfold State.flushLink
    split
    · unfold State.sendIfPending
      split
      · rw [State.switchGen_sendBatch, if_neg fun h => hk (hd.trans h.symm)]; rfl
      · rfl
    · rfl

theorem State.sendable_of_unmarked (link : t.links[l].unmarked = s.links[l].unmarked)
    (entries : t.updateEntries l = s.updateEntries l) : t.sendable l ↔ s.sendable l := by
  have state : t.links[l].state = s.links[l].state := (congrArg Link.state link :)
  have inFlight : t.links[l].inFlight = s.links[l].inFlight := (congrArg Link.inFlight link :)
  rw [State.sendable, State.sendable, state, inFlight, entries]

theorem State.finish_still (still : ¬ s.sendable l) :
    s.finish.links[l].unmarked = s.links[l].unmarked ∧
    ∀ d : Degree, l = degreeLink d → s.finish.switchGen[d] = s.switchGen[d] := by
  have key : ∀ (ks : List LinkId) (s : State), ¬ s.sendable l →
      (ks.foldl State.flushLink s).links[l].unmarked = s.links[l].unmarked ∧
      ∀ d : Degree, l = degreeLink d → (ks.foldl State.flushLink s).switchGen[d] = s.switchGen[d] := by
    intro ks
    induction ks with
    | nil => exact fun s _ => ⟨rfl, fun _ _ => rfl⟩
    | cons k ks ih =>
      intro s still
      obtain ⟨link, gen⟩ := State.flushLink_still k still
      have entries : (s.flushLink k).updateEntries l = s.updateEntries l :=
        State.updateEntries_congr (by simp) (by simp) (by simp) (by simp) l
      obtain ⟨link', gen'⟩ := ih (s.flushLink k) fun h => still ((State.sendable_of_unmarked link entries).mp h)
      exact ⟨link'.trans link, fun d hd => (gen' d hd).trans (gen d hd)⟩
  have links : s.finish.links = s.flushLinks.links := (State.prompt_frame _).2.2.2.2.2.2.2.2.1
  have gens : s.finish.switchGen = s.flushLinks.switchGen := (State.prompt_frame _).2.2.2.2.2.2.2.2.2.1
  rw [links]
  simp only [gens]
  exact key _ s still

/-- An idle link at the end of a step that has its next UPDATE sent: the UPDATE in flight, or nothing to send (R127). -/
theorem State.link_sent (idle : s.links[l].inFlight = none) :
    ((s.sendIfPending l).finish.links[l].unmarked = if s.links[l].state = .ready ∧ s.updateEntries l ≠ [] then
      { s.links[l].unmarked with
        inFlight := some ⟨.update, s.links[l].seq, s.updateEntries l⟩, seq := s.links[l].seq + 1,
        timer := some (s.nodeTime + BitVec.ofNat 32 (s.replyPeriod l)) } else s.links[l].unmarked) ∧
    ∀ d : Degree, l = degreeLink d → s.links[l].state = .ready → s.updateEntries l ≠ [] →
      (s.sendIfPending l).finish.switchGen[d] = s.switchGen[d] + 1 := by
  by_cases h : s.links[l].state = .ready ∧ s.updateEntries l ≠ []
  · have sends : s.sendIfPending l = s.sendBatch l .update (s.updateEntries l) := if_pos ⟨h.1, idle, h.2⟩
    have link := s.link_sendBatch l l .update (s.updateEntries l)
    rw [if_pos rfl] at link
    have still : ¬ (s.sendBatch l .update (s.updateEntries l)).sendable l := fun ⟨_, idle', _⟩ => by
      rw [link] at idle'
      cases idle'
    obtain ⟨links, gens⟩ := State.finish_still still
    rw [sends, if_pos h]
    refine ⟨by rw [links, link]; rfl, fun d hd _ _ => ?_⟩
    rw [gens d hd, State.switchGen_sendBatch, if_pos hd]
  · have stays : s.sendIfPending l = s := if_neg fun ⟨ready, _, differs⟩ => h ⟨ready, differs⟩
    rw [stays, if_neg h]
    exact ⟨(State.finish_still fun ⟨ready, _, differs⟩ => h ⟨ready, differs⟩).1,
      fun d _ ready differs => absurd ⟨ready, differs⟩ h⟩

theorem State.replyPeriod_period (s : State) (l : LinkId) : BitVec.ofNat 32 (s.replyPeriod l) = s.period l := by
  unfold State.replyPeriod State.period
  cases linkDegree l <;> rfl

/-! ## What a completed batch leaves -/

theorem State.batchDone_aside (s : State) (l : LinkId) (b : Batch) : (s.batchDone l b).managers = s.managers ∧
    (s.batchDone l b).logs = s.logs ∧ (s.batchDone l b).banks = s.banks := by
  have one : ∀ (s : State) (e : Entry), (s.activate e).managers = s.managers ∧ (s.activate e).logs = s.logs ∧
      (s.activate e).banks = s.banks := by
    intro s e
    cases e with
    | select h sp p v => rw [State.activate_select]; split <;> exact ⟨rfl, rfl, rfl⟩
    | drop h sp p v => rw [State.activate_drop]; split <;> exact ⟨rfl, rfl, rfl⟩
    | allBlocked => exact ⟨rfl, rfl, rfl⟩
    | port p x y => exact ⟨rfl, rfl, rfl⟩
  unfold State.batchDone
  exact ⟨foldl_keeps (·.managers) _ (fun s e => (one s e).1) _ _, foldl_keeps (·.logs) _ (fun s e => (one s e).2.1) _ _,
    foldl_keeps (·.banks) _ (fun s e => (one s e).2.2) _ _⟩

@[simp] theorem State.linkReady_frame (s : State) (l : LinkId) (kind : BatchKind) :
    (s.linkReady l kind).table = s.table ∧ (s.linkReady l kind).map = s.map ∧
    (s.linkReady l kind).actives = s.actives ∧ (s.linkReady l kind).matrix = s.matrix ∧
    (s.linkReady l kind).links = s.links ∧ (s.linkReady l kind).settings = s.settings ∧
    (s.linkReady l kind).managers = s.managers ∧ (s.linkReady l kind).trips = s.trips ∧
    (s.linkReady l kind).logs = s.logs ∧ (s.linkReady l kind).banks = s.banks ∧
    (s.linkReady l kind).switchGen = s.switchGen ∧ (s.linkReady l kind).nodeTime = s.nodeTime := by
  unfold State.linkReady
  cases linkDegree l with
  | some d => dsimp only; split <;> simp
  | none => dsimp only; split <;> simp

/-- The state once the records that drained with a completed batch are freed (R131, steps 2 to 4). -/
def State.batchDrained (s : State) (l : LinkId) (b : Batch) : State := (s.batchDone l b).drainLink l

theorem State.batchDrained_drains (s : State) (l : LinkId) (b : Batch) :
    Drains (s.batchDone l b) (s.batchDrained l b) := State.drainLink_drains _ l

theorem State.batchSettled_starting (h : s.links[l].state = .starting) :
    s.batchSettled l b = (s.batchDrained l b).linkReady l b.kind := if_pos h

theorem State.batchSettled_other (h : s.links[l].state ≠ .starting) : s.batchSettled l b = s.batchDrained l b := if_neg h

/-- What the answer to a RETRY_LINK leaves of the completed batch's effect. -/
theorem State.batchSettled_kept (s : State) (l : LinkId) (b : Batch) :
    (s.batchSettled l b).table = (s.batchDrained l b).table ∧
    (s.batchSettled l b).actives = (s.batchDrained l b).actives ∧
    (s.batchSettled l b).matrix = (s.batchDrained l b).matrix ∧
    (s.batchSettled l b).links = (s.batchDrained l b).links ∧
    (s.batchSettled l b).settings = s.settings ∧ (s.batchSettled l b).managers = s.managers ∧
    (s.batchSettled l b).trips = s.trips ∧ (s.batchSettled l b).logs = s.logs ∧
    (s.batchSettled l b).banks = s.banks ∧ (s.batchSettled l b).switchGen = s.switchGen ∧
    (s.batchSettled l b).nodeTime = s.nodeTime := by
  obtain ⟨-, -, -, time, trips, -, -, settings, -, -, gens, -⟩ := s.batchDone_frame l b
  obtain ⟨managers, logs, banks⟩ := s.batchDone_aside l b
  have drains := s.batchDrained_drains l b
  have base := And.intro (drains.settings.trans settings) <| And.intro (drains.managers.trans managers) <|
    And.intro (drains.trips.trans trips) <| And.intro (drains.logs.trans logs) <|
    And.intro (drains.banks.trans banks) <| And.intro (drains.switchGen.trans gens) (drains.nodeTime.trans time)
  by_cases h : s.links[l].state = .starting
  · rw [State.batchSettled_starting h]
    obtain ⟨table, -, actives, matrix, links, settings', managers', trips', logs', banks', gens', time'⟩ :=
      (s.batchDrained l b).linkReady_frame l b.kind
    rw [table, actives, matrix, links, settings', managers', trips', logs', banks', gens', time']
    exact ⟨rfl, rfl, rfl, rfl, base⟩
  · rw [State.batchSettled_other h]
    exact ⟨rfl, rfl, rfl, rfl, base⟩

theorem State.link_batchDrained (s : State) (l : LinkId) (b : Batch) :
    (s.batchDrained l b).links[l].unmarked = s.links[l].completed.unmarked := by
  rw [(s.batchDrained_drains l b).links l, State.link_batchDone, if_pos rfl]

theorem State.link_batchSettled (s : State) (l : LinkId) (b : Batch) :
    (s.batchSettled l b).links[l].unmarked = s.links[l].completed.unmarked := by
  rw [(s.batchSettled_kept l b).2.2.2.1, State.link_batchDrained]

end

end Sys2Proof.Machine
end

