-- ==== Sys2Proof/Proofs/Done.lean ====
section
/-! Proofs/Done.lean: a completed batch (O30). -/

set_option Elab.async false

namespace Sys2Proof.Machine
open Sys2Proof

section
variable {s : State} {l : LinkId} {d : Degree} {b : Batch} {i : SlotIx} {c : Conn}

/-! ## The records and the matrix -/

/-- The record of a slot is freed as a batch of a link completes that leaves it the active setpoint `v` (R44, R131). -/
def State.freedOn (s : State) (l : LinkId) (i : SlotIx) (c : Conn) (v : Setpoint) : Prop :=
  c.state = .draining ∧ c.route.link = l ∧ v = .blocked ∧
    (s.links[l].state = .starting ∨ ∀ es, s.links[l].unanswered = some es → ∀ e ∈ es, e.handle? ≠ some (s.handleAt i))

theorem State.conn_batchDrained {v : Setpoint} (hc : s.conn i = some c) (after : ActiveAfter s b i v) :
    (s.freedOn l i c v → (s.batchDrained l b).conn i = none) ∧
    (¬ s.freedOn l i c v → (s.batchDrained l b).conn i = some c) := by
  have done : (s.batchDone l b).conn i = some c := by rw [State.conn_of_table (s.batchDone_frame l b).1, hc]
  have test : (c.route.link = l ∧ c.state = .draining ∧ (s.batchDone l b).settled i c = true) ↔ s.freedOn l i c v := by
    unfold State.freedOn
    by_cases hl : c.route.link = l
    · rw [State.settled_batchDone hl, State.actives_batchDone hc after]
      exact ⟨fun ⟨_, hs, h⟩ => ⟨hs, hl, h⟩, fun ⟨hs, _, h⟩ => ⟨hl, hs, h⟩⟩
    · exact ⟨fun h => absurd h.1 hl, fun h => absurd h.2.1 hl⟩
  rw [State.batchDrained, State.conn_drainLink _ l done, ← test]
  exact ⟨fun h => if_pos h, fun h => if_neg h⟩

theorem State.not_freedOn {v : Setpoint} (h : c.state ≠ .draining ∨ c.route.link ≠ l ∨ v ≠ .blocked ∨
      (s.links[l].state ≠ .starting ∧ ∃ es, s.links[l].unanswered = some es ∧ ∃ e ∈ es, e.handle? = some (s.handleAt i))) :
    ¬ s.freedOn l i c v := by
  rintro ⟨state, link, blocked, settled⟩
  obtain h | h | h | ⟨hs, es, hes, e, he, hh⟩ := h
  · exact h state
  · exact h link
  · exact h blocked
  · exact settled.elim hs fun free => free es hes e he hh

theorem State.actives_batchDrained {v : Setpoint} (hc : s.conn i = some c) (after : ActiveAfter s b i v) :
    (s.batchDrained l b).actives[i] = v := by
  rw [(s.batchDrained_drains l b).actives, State.actives_batchDone hc after]

theorem State.matrix_batchDrained {k : LocalPort} {x y : Option Degree} (carried : .port k x y ∈ b.entries)
    (one : ∀ x' y', .port k x' y' ∈ b.entries → x' = x ∧ y' = y) :
    (s.batchDrained l b).matrix[k].addActive = x ∧ (s.batchDrained l b).matrix[k].dropActive = y := by
  obtain ⟨add, drop⟩ := (s.batchDrained_drains l b).matrix k
  rw [add, drop]
  exact State.matrix_activates b.entries s one (.inr carried)

/-! ## The answer to a RETRY_LINK -/

theorem State.linkReady_told {q : Domain} (hq : s.manager d = some q) :
    Heard (s.linkReady (degreeLink d) (.resync true)) q ⟨.linkReady, none, some d, none, s.nodeTime⟩ := by
  have manager : (s.offerEvent d).manager d = some q := by
    rw [State.manager, (State.offerEvent_frame ..).2.2.2.1]
    exact hq
  have time : (s.offerEvent d).nodeTime = s.nodeTime := by simp
  unfold State.linkReady State.tellManager
  rw [linkDegree_degreeLink]
  dsimp only
  rw [if_pos rfl, manager, ← time]
  exact State.tell_heard ..

theorem State.tellAll_heard (s : State) (n : Notice) (q : Domain) : Heard (s.tellAll n) q n := by
  have key : ∀ (ps : List Domain) (s : State), q ∈ ps → Heard (ps.foldl (fun s p => s.tell p n) s) q n := by
    intro ps
    induction ps with
    | nil => exact fun _ h => nomatch h
    | cons p ps ih =>
      intro s h
      obtain rfl | h := List.mem_cons.mp h
      · exact (s.tell_heard q n).grow (.foldl _ (fun s p => s.tell_grows p n) ps _)
      · exact ih _ h
  exact key _ s (List.mem_finRange q)

theorem State.linkReady_told_all (s : State) (q : Domain) :
    Heard (s.linkReady slm (.resync true)) q ⟨.linkReady, none, none, none, s.nodeTime⟩ := by
  unfold State.linkReady
  rw [linkDegree_slm]
  dsimp only
  rw [if_pos rfl]
  exact s.tellAll_heard _ q

/-! ## The offers of a link that becomes READY -/

theorem State.queues_batchDrained (s : State) (l : LinkId) (b : Batch) :
    (s.batchDrained l b).ramps = s.ramps ∧ (s.batchDrained l b).grantReqs = s.grantReqs ∧
    (s.batchDrained l b).trips = s.trips ∧ (s.batchDrained l b).settings = s.settings := by
  obtain ⟨-, -, ramps, -, trips, -, -, settings, -, -, -, grants⟩ := s.batchDone_frame l b
  have drains := s.batchDrained_drains l b
  exact ⟨drains.ramps.trans ramps, drains.grantReqs.trans grants, drains.trips.trans trips, drains.settings.trans settings⟩

theorem State.linkReady_degree (s : State) (d : Degree) (kind : BatchKind) :
    (s.linkReady (degreeLink d) kind).ramps = (s.offerEvent d).ramps ∧
    (s.linkReady (degreeLink d) kind).grantReqs = (s.offerEvent d).grantReqs := by
  unfold State.linkReady
  rw [linkDegree_degreeLink]
  dsimp only
  split <;> simp

theorem State.linkReady_slm (s : State) (kind : BatchKind) :
    (s.linkReady slm kind).ramps = s.ramps ∧ (s.linkReady slm kind).grantReqs = s.grantReqs := by
  unfold State.linkReady
  rw [linkDegree_slm]
  dsimp only
  split <;> simp

/-- A completed batch offers nothing for another degree, on a link that was not STARTING, or under a trip (R57). -/
theorem State.queues_batchSettled (h : degreeLink d ≠ l ∨ s.links[l].state ≠ .starting ∨ s.trips[d].state ≠ .clear) :
    (s.batchSettled l b).ramps[d] = s.ramps[d] ∧ (s.batchSettled l b).grantReqs[d] = s.grantReqs[d] := by
  obtain ⟨ramps, grants, trips, -⟩ := s.queues_batchDrained l b
  by_cases starting : s.links[l].state = .starting
  · rw [State.batchSettled_starting starting, ← ramps, ← grants]
    obtain rfl | ⟨a, rfl⟩ := link_cases l
    · obtain ⟨ramps', grants'⟩ := (s.batchDrained slm b).linkReady_slm b.kind
      rw [ramps', grants']
      exact ⟨rfl, rfl⟩
    · obtain ⟨ramps', grants'⟩ := (s.batchDrained (degreeLink a) b).linkReady_degree a b.kind
      rw [ramps', grants']
      by_cases ha : d = a
      · subst ha
        have trip : (s.batchDrained (degreeLink d) b).trips[d].state ≠ .clear := by
          rw [trips]
          exact (h.resolve_left fun h => h rfl).resolve_left fun h => h starting
        rw [State.offerEvent_none (by simp [State.canGrant, State.tripInForce, -Fin.getElem_fin, trip])]
        exact ⟨rfl, rfl⟩
      · exact State.offerEvent_other _ ha
  · rw [State.batchSettled_other starting, ramps, grants]
    exact ⟨rfl, rfl⟩

/-- What RSC offers as a degree's link becomes READY (R57, R58). -/
theorem State.offers_batchSettled (starting : s.links[degreeLink d].state = .starting) (clear : s.trips[d].state = .clear)
    (ok : s.rampsOk) :
    let hs := s.ramps[d].unoffered.take (min s.ramps[d].unoffered.length (s.settings[d].rampSlots - s.ramps[d].holders.length))
    (s.batchSettled (degreeLink d) b).ramps[d] = s.ramps[d].offers hs ∧
    (s.batchSettled (degreeLink d) b).grantReqs[d] = s.grantReqs[d] ++ requestsFrom s.ramps[d].offerCount hs := by
  obtain ⟨ramps, grants, trips, settings⟩ := s.queues_batchDrained (degreeLink d) b
  obtain ⟨free, nodup⟩ := State.unoffered_free ok d
  have ready : (s.batchDrained (degreeLink d) b).links[degreeLink d].state = .ready := by
    have state := (congrArg Link.state (s.link_batchDrained (degreeLink d) b) :)
    exact state.trans (if_pos starting)
  obtain ⟨ramps', grants'⟩ := (s.batchDrained (degreeLink d) b).linkReady_degree d b.kind
  rw [State.batchSettled_starting starting, ramps', grants']
  have fold := State.offerFold s.ramps[d].unoffered (s.batchDrained (degreeLink d) b) ready (by rw [trips, clear])
    (by rw [ramps]; exact free) nodup
  dsimp only at fold
  rw [ramps, grants, settings] at fold
  unfold State.offerEvent
  rw [ramps]
  exact fold

theorem Ramps.unoffered_eq (m : Ramps) : (m.queue.filter fun e => e.offer = none).map (·.handle) = m.unoffered := by
  unfold Ramps.unoffered
  congr 2
  funext e
  cases e.offer <;> rfl

theorem Ramps.queued_of_unoffered {m : Ramps} {h : Handle} (hh : h ∈ m.unoffered) : ∃ e ∈ m.queue, e.handle = h := by
  obtain ⟨e, he, rfl⟩ := List.mem_map.mp hh
  exact ⟨e, (List.mem_filter.mp he).1, rfl⟩

/-- RSC's state and requests after the offers of a link that becomes READY (R57, R58, R61). -/
theorem State.offered_batchSettled (starting : s.links[degreeLink d].state = .starting) (clear : s.trips[d].state = .clear)
    (ok : s.rampsOk) :
    let free : List Handle := (s.ramps[d].queue.filter fun e => e.offer = none).map (·.handle)
    let n := min free.length (s.settings[d].rampSlots - s.ramps[d].holders.length)
    let number (j : Nat) : BitVec 16 := s.ramps[d].offerCount + BitVec.ofNat 16 j
    (s.batchSettled (degreeLink d) b).grantReqs[d] =
      s.grantReqs[d] ++ ((free.take n).zipIdx.map fun x => ⟨x.1, number x.2⟩) ∧
    (s.batchSettled (degreeLink d) b).ramps[d].offerCount = number n ∧
    (s.batchSettled (degreeLink d) b).ramps[d].queue.map (·.handle) = s.ramps[d].queue.map (·.handle) ∧
    (∀ (j : Nat) (h : Handle), (free.take n)[j]? = some h →
      (⟨h, some (number j)⟩ : QueueEntry) ∈ (s.batchSettled (degreeLink d) b).ramps[d].queue ∧
        (⟨h, some (number j)⟩ : SlotHolder) ∈ (s.batchSettled (degreeLink d) b).ramps[d].holders) ∧
    (∀ e ∈ s.ramps[d].queue, e.handle ∉ free.take n → e ∈ (s.batchSettled (degreeLink d) b).ramps[d].queue) ∧
    ∀ k : SlotHolder, k ∈ s.ramps[d].holders → k ∈ (s.batchSettled (degreeLink d) b).ramps[d].holders := by
  obtain ⟨offered, sent⟩ := State.offers_batchSettled (b := b) starting clear ok
  obtain ⟨unheld, nodup⟩ := State.unoffered_free ok d
  dsimp only
  rw [Ramps.unoffered_eq, offered, sent]
  generalize hn : min s.ramps[d].unoffered.length (s.settings[d].rampSlots - s.ramps[d].holders.length) = n
  have length : (s.ramps[d].unoffered.take n).length = n := by rw [List.length_take]; omega
  refine ⟨rfl, ?_, Ramps.handles_offers .., fun j h hj => ?_, fun e he hne => Ramps.mem_queue_offers he hne,
    fun k hk => Ramps.mem_holders_offers hk fun hm => unheld k hk (List.mem_of_mem_take hm)⟩
  · rw [Ramps.offerCount_offers, length]
  · exact Ramps.mem_offers (nodup.sublist (List.take_sublist ..))
      (fun x hx => Ramps.queued_of_unoffered (List.mem_of_mem_take hx)) hj

/-- The LINK_READY that answers a RETRY_LINK (R138). -/
theorem State.batchSettled_told (starting : s.links[l].state = .starting) (retried : b.kind = .resync true) :
    (∀ (d : Degree) (q : Domain), l = degreeLink d → s.manager d = some q →
      Heard (s.batchSettled l b) q ⟨.linkReady, none, some d, none, s.nodeTime⟩) ∧
    (l = slm → ∀ q : Domain, Heard (s.batchSettled l b) q ⟨.linkReady, none, none, none, s.nodeTime⟩) := by
  have drains := s.batchDrained_drains l b
  have time : (s.batchDrained l b).nodeTime = s.nodeTime := drains.nodeTime.trans (s.batchDone_frame l b).2.2.2.1
  have managers : (s.batchDrained l b).managers = s.managers := drains.managers.trans (s.batchDone_aside l b).1
  rw [State.batchSettled_starting starting, retried, ← time]
  refine ⟨fun d q hd hq => ?_, fun hl q => ?_⟩
  · subst hd
    exact State.linkReady_told (by rw [State.manager, managers]; exact hq)
  · subst hl
    exact State.linkReady_told_all _ q

/-- The end of a step changes nothing of what a completed batch left but on the links. -/
theorem State.completeBatch_kept (s : State) (l : LinkId) (b : Batch) :
    (s.completeBatch l b).table = (s.batchSettled l b).table ∧ (s.completeBatch l b).map = (s.batchSettled l b).map ∧
    (s.completeBatch l b).actives = (s.batchSettled l b).actives ∧
    (s.completeBatch l b).matrix = (s.batchSettled l b).matrix ∧
    (s.completeBatch l b).ramps = (s.batchSettled l b).ramps ∧
    (s.completeBatch l b).grantReqs = (s.batchSettled l b).grantReqs ∧
    (s.completeBatch l b).ports = (s.batchSettled l b).ports ∧
    (s.completeBatch l b).settings = s.settings ∧ (s.completeBatch l b).managers = s.managers ∧
    (s.completeBatch l b).trips = s.trips ∧ (s.completeBatch l b).logs = s.logs ∧
    (s.completeBatch l b).banks = s.banks := by
  obtain ⟨-, -, -, -, settings, managers, trips, logs, banks, -⟩ := s.batchSettled_kept l b
  rw [State.completeBatch_eq, ← settings, ← managers, ← trips, ← logs, ← banks]
  simp

/-- The fields of a link that is sent a batch under a condition, and otherwise left but for its mark. -/
theorem Link.fields_of_sent {k x : Link} {p : Prop} [Decidable p] {batch : Batch} {n : BitVec 8} {e : Time}
    (h : k.unmarked = if p then { x.unmarked with inFlight := some batch, seq := n, timer := some e } else x.unmarked) :
    k.state = x.state ∧ k.unanswered = x.unanswered ∧ k.lastFailure = x.lastFailure ∧
    (p → k.inFlight = some batch ∧ k.seq = n ∧ k.timer = some e) ∧
    (¬ p → k.inFlight = x.inFlight ∧ k.seq = x.seq) := by
  have state : k.state = k.unmarked.state := rfl
  have unanswered : k.unanswered = k.unmarked.unanswered := rfl
  have lastFailure : k.lastFailure = k.unmarked.lastFailure := rfl
  have inFlight : k.inFlight = k.unmarked.inFlight := rfl
  have seq : k.seq = k.unmarked.seq := rfl
  have timer : k.timer = k.unmarked.timer := rfl
  rw [state, unanswered, lastFailure, inFlight, seq, timer, h]
  by_cases hp : p
  · rw [if_pos hp]
    exact ⟨rfl, rfl, rfl, fun _ => ⟨rfl, rfl, rfl⟩, fun hn => absurd hp hn⟩
  · rw [if_neg hp]
    exact ⟨rfl, rfl, rfl, fun h => absurd h hp, fun _ => ⟨rfl, rfl⟩⟩

/-- The link after its batch is completed (R127, R131). -/
theorem State.link_completeBatch (s : State) (l : LinkId) (b : Batch) :
    (s.completeBatch l b).links[l].state = s.links[l].completed.state ∧
    (s.completeBatch l b).links[l].unanswered = s.links[l].completed.unanswered ∧
    (s.completeBatch l b).links[l].lastFailure = s.links[l].lastFailure ∧
    (s.links[l].completed.state = .ready → (s.completeBatch l b).updateEntries l ≠ [] →
      (s.completeBatch l b).links[l].inFlight =
        some ⟨.update, s.links[l].seq, (s.completeBatch l b).updateEntries l⟩ ∧
      (s.completeBatch l b).links[l].seq = s.links[l].seq + 1 ∧
      (s.completeBatch l b).links[l].timer = some (s.nodeTime + s.period l) ∧
      ∀ d : Degree, l = degreeLink d → (s.completeBatch l b).switchGen[d] = s.switchGen[d] + 1) ∧
    ((s.completeBatch l b).updateEntries l = [] →
      (s.completeBatch l b).links[l].inFlight = none ∧ (s.completeBatch l b).links[l].seq = s.links[l].seq) := by
  obtain ⟨table, map, actives, matrix, -⟩ := s.completeBatch_kept l b
  obtain ⟨-, -, -, -, settings, -, -, -, -, gens, time⟩ := s.batchSettled_kept l b
  have entries := State.updateEntries_congr table map actives matrix l
  obtain ⟨state, unanswered, lastFailure, -, same⟩ := Link.fields_of_sent (p := False) (batch := b) (n := 0) (e := 0)
    ((s.link_batchSettled l b).trans (if_neg id).symm)
  obtain ⟨idle, seq⟩ := same id
  have period : (s.batchSettled l b).period l = s.period l := by
    unfold State.period
    rw [settings]
  obtain ⟨link, sent⟩ := State.link_sent idle
  obtain ⟨state', unanswered', lastFailure', differs, nothing⟩ := Link.fields_of_sent link
  rw [← State.completeBatch_eq, state, seq, ← entries, State.replyPeriod_period, time, period] at differs
  rw [← State.completeBatch_eq, state, ← entries, gens] at sent
  rw [← State.completeBatch_eq, idle, seq, ← entries] at nothing
  rw [← State.completeBatch_eq] at state' unanswered' lastFailure'
  refine ⟨state'.trans state, unanswered'.trans unanswered, lastFailure'.trans lastFailure,
    fun ready hd => ?_, fun hn => nothing fun h => h.2 hn⟩
  obtain ⟨inFlight, seq', timer⟩ := differs ⟨ready, hd⟩
  exact ⟨inFlight, seq', timer, fun d hl => sent d hl ready hd⟩

end

/-! ## The obligation -/

/-- Settles O30, from what the completed batch leaves of the records, the matrix, the ports and RSC's state
(`batchSettled`), and of the link once its next UPDATE is sent (`link_completeBatch`). -/
theorem doneCompletesTheBatch : Obligations.DoneCompletesTheBatch := by
  unfold Obligations.DoneCompletesTheBatch
  intro l b s held inFlight
  have done : exec (.done l b.seq) s = .next (s.completeBatch l b) := by
    change whileRunning s (fun s => s.takeDone l b.seq) = _
    rw [whileRunning_running held, State.takeDone, inFlight]
    exact congrArg _ (if_pos rfl)
  obtain ⟨table, -, actives, matrix, ramps, grants, ports, settings, managers, trips, logs, banks⟩ := s.completeBatch_kept l b
  obtain ⟨table', actives', matrix', -⟩ := s.batchSettled_kept l b
  obtain ⟨state, unanswered, lastFailure, sends, nothing⟩ := s.link_completeBatch l b
  refine ⟨_, done, ?records, ?matrix, state, unanswered, lastFailure, ?next, ?told, ?others, ?offers,
    settings, managers, trips, logs, banks⟩
  case records =>
    intro i c v hc after
    have conn : (s.completeBatch l b).conn i = (s.batchDrained l b).conn i := State.conn_of_table (table.trans table') i
    obtain ⟨freed, kept⟩ := State.conn_batchDrained (l := l) hc after
    rw [conn, actives, actives', State.actives_batchDrained hc after]
    exact ⟨fun h => ⟨freed h, h.2.2.1⟩, fun h => ⟨kept (State.not_freedOn h), rfl⟩⟩
  case matrix =>
    intro k x y carried one
    rw [matrix, matrix']
    exact State.matrix_batchDrained carried one
  case next =>
    exact fun ready => ⟨nothing, sends (state.symm.trans ready)⟩
  case told =>
    intro starting kind
    obtain ⟨domain, all⟩ := State.batchSettled_told starting kind
    rw [ports]
    exact ⟨domain, all⟩
  case others =>
    intro d h
    rw [ramps, grants]
    exact State.queues_batchSettled h
  case offers =>
    intro d hd starting clear ok
    subst hd
    rw [ramps, grants]
    exact State.offered_batchSettled starting clear ok

end Sys2Proof.Machine
end

