-- ==== Sys2Proof/Proofs/RampLaw.lean ====
section
/-! Proofs/RampLaw.lean: the law of RSC's state of one degree, and what each edit of it keeps (R53, R54). -/

set_option Elab.async false

namespace Sys2Proof.Machine
open Sys2Proof

section
variable {m : Ramps} {cap : Nat} {P R P' R' : Handle → Prop} {h : Handle}

/-! ## The law of one degree -/

/-- What the laws of the scheduler ask of RSC's state of a degree (R53, R54), for its ramp slots, the handles of the
records that wait (`P`) and of those that ramp (`R`). -/
structure Ramps.Ok (m : Ramps) (cap : Nat) (P R : Handle → Prop) : Prop where
  room : m.holders.length ≤ cap
  once : (m.queue.map (·.handle)).Nodup
  order : (m.holders.map (·.handle.slot.val)).Pairwise (· < ·)
  queued : ∀ h : Handle, (∃ e ∈ m.queue, e.handle = h) ↔ P h
  held : ∀ h : Handle, (⟨h, none⟩ : SlotHolder) ∈ m.holders ↔ R h
  offered : ∀ (h : Handle) (n : BitVec 16),
    (⟨h, some n⟩ : SlotHolder) ∈ m.holders ↔ (⟨h, some n⟩ : QueueEntry) ∈ m.queue

theorem Ramps.Ok.congr (ok : m.Ok cap P R) (hP : ∀ x, P x ↔ P' x) (hR : ∀ x, R x ↔ R' x) : m.Ok cap P' R' :=
  { ok with
    queued := fun x => (ok.queued x).trans (hP x)
    held := fun x => (ok.held x).trans (hR x) }

/-- A slot holder is a record that waits under an offer, or one that ramps. -/
theorem Ramps.Ok.names (ok : m.Ok cap P R) {x : SlotHolder} (hx : x ∈ m.holders) : P x.handle ∨ R x.handle := by
  obtain ⟨xh, _ | n⟩ := x
  · exact .inr ((ok.held xh).mp hx)
  · exact .inl ((ok.queued xh).mp ⟨_, (ok.offered xh n).mp hx, rfl⟩)

theorem Ramps.Ok.not_offered (ok : m.Ok cap P R) (waits : ¬ P h) {n : BitVec 16} :
    (⟨h, some n⟩ : SlotHolder) ∉ m.holders :=
  fun hx => waits ((ok.queued h).mp ⟨_, (ok.offered h n).mp hx, rfl⟩)

/-- A queue has one entry of a handle (R53). -/
theorem Ramps.Ok.entry_unique (ok : m.Ok cap P R) {e e' : QueueEntry} (he : e ∈ m.queue) (he' : e' ∈ m.queue)
    (same : e.handle = e'.handle) : e = e' :=
  List.inj_on_of_nodup_map ok.once he he' same

/-! ## Slot holders in slot order -/

theorem insertBy_ascending {α : Type} (key : α → Nat) (x : α) (l : List α) (o : (l.map key).Pairwise (· < ·))
    (apart : ∀ y ∈ l, key y ≠ key x) : ((insertBy key x l).map key).Pairwise (· < ·) := by
  induction l with
  | nil => exact List.pairwise_singleton ..
  | cons y l ih =>
    obtain ⟨least, o'⟩ := List.pairwise_cons.mp o
    unfold insertBy
    split
    · next hlt =>
      refine List.pairwise_cons.mpr ⟨fun k hk => ?_, o⟩
      obtain rfl | hk := List.mem_cons.mp hk
      · exact hlt
      · exact hlt.trans (least k hk)
    · next hge =>
      refine List.pairwise_cons.mpr ⟨fun k hk => ?_, ih o' fun z hz => apart z (List.mem_cons_of_mem _ hz)⟩
      obtain ⟨z, hz, rfl⟩ := List.mem_map.mp hk
      obtain rfl | hz := (mem_insertBy ..).mp hz
      · exact Nat.lt_of_le_of_ne (Nat.le_of_not_lt hge) (apart y (List.mem_cons_self ..))
      · exact least _ (List.mem_map_of_mem hz)

theorem Ramps.mem_holders_hold (m : Ramps) (h : Handle) (o : Option (BitVec 16)) (x : SlotHolder) :
    x ∈ (m.hold h o).holders ↔ x = ⟨h, o⟩ ∨ x ∈ m.holders ∧ x.handle ≠ h := by
  simp [Ramps.hold, mem_insertBy]

theorem Ramps.order_hold {o : Option (BitVec 16)} (order : (m.holders.map (·.handle.slot.val)).Pairwise (· < ·))
    (apart : ∀ x ∈ m.holders, x.handle ≠ h → x.handle.slot ≠ h.slot) :
    ((m.hold h o).holders.map (·.handle.slot.val)).Pairwise (· < ·) := by
  refine insertBy_ascending _ _ _ (order.sublist ((List.filter_sublist).map _)) fun y hy same => ?_
  obtain ⟨hm, hne⟩ := List.mem_filter.mp hy
  exact apart y hm (by simpa using hne) (Fin.ext same)

theorem Ramps.length_hold (m : Ramps) (h : Handle) (o : Option (BitVec 16)) :
    (m.hold h o).holders.length = (m.holders.filter (·.handle ≠ h)).length + 1 := insertBy_length ..

/-! ## The edits of a degree's state -/

/-- A grant taken: the entry gone, the handle a slot holder without an offer (R58). -/
theorem Ramps.Ok.granted (ok : m.Ok cap P R) (apart : ∀ x, P x ∨ R x → x ≠ h → x.slot ≠ h.slot)
    (room : m.holders.length < cap ∨ ∃ x ∈ m.holders, x.handle = h) :
    ((m.dequeue h).hold h none).Ok cap (fun x => P x ∧ x ≠ h) (fun x => R x ∨ x = h) where
  room := by
    rw [Ramps.length_hold]
    obtain free | ⟨x, hx, rfl⟩ := room
    · exact Nat.lt_of_le_of_lt (List.length_filter_le ..) free
    · exact Nat.lt_of_lt_of_le (List.length_filter_lt_length_iff_exists.mpr ⟨x, hx, by simp⟩) ok.room
  once := ok.once.sublist ((List.filter_sublist).map _)
  order := Ramps.order_hold ok.order fun x hx => apart _ (ok.names hx)
  queued x := by
    rw [Ramps.granted_queue, ← ok.queued x]
    constructor
    · rintro ⟨e, he, rfl⟩
      obtain ⟨he, hne⟩ := List.mem_filter.mp he
      exact ⟨⟨e, he, rfl⟩, by simpa using hne⟩
    · rintro ⟨⟨e, he, rfl⟩, hne⟩
      exact ⟨e, List.mem_filter.mpr ⟨he, by simpa using hne⟩, rfl⟩
  held x := by
    rw [Ramps.mem_holders_hold, ← ok.held x]
    by_cases hx : x = h <;> simp [hx, Ramps.dequeue]
  offered x n := by
    rw [Ramps.mem_holders_hold, Ramps.granted_queue, List.mem_filter, ← ok.offered x n]
    simp [Ramps.dequeue]

theorem Ramps.Ok.unoffered_free (ok : m.Ok cap P R) (apart : ∀ x, P x → ¬ R x) (hh : h ∈ m.unoffered) :
    P h ∧ ∀ x ∈ m.holders, x.handle ≠ h := by
  obtain ⟨e, he, rfl⟩ := List.mem_map.mp hh
  obtain ⟨he, none⟩ := List.mem_filter.mp he
  have waits : P e.handle := (ok.queued _).mp ⟨e, he, rfl⟩
  refine ⟨waits, fun x hx same => ?_⟩
  obtain ⟨xh, _ | n⟩ := x
  · exact apart _ waits (same ▸ (ok.held xh).mp hx)
  · have := ok.entry_unique he ((ok.offered xh n).mp hx) same.symm
    rw [this] at none
    cases none

/-- An offer made: the entry marked, the handle a slot holder under the offer's number (R58). -/
theorem Ramps.Ok.offer (ok : m.Ok cap P R) (disjoint : ∀ x, P x → ¬ R x)
    (apart : ∀ x, P x ∨ R x → x ≠ h → x.slot ≠ h.slot) (hh : h ∈ m.unoffered) (room : m.holders.length < cap) :
    (m.offered h).Ok cap P R := by
  obtain ⟨waits, free⟩ := ok.unoffered_free disjoint hh
  refine ⟨?room, ?once, ?order, ?queued, ?held, ?offered⟩
  case room =>
    rw [Ramps.length_offered free]
    exact room
  case once =>
    rw [Ramps.handles_offered]
    exact ok.once
  case order => exact Ramps.order_hold ok.order fun x hx => apart _ (ok.names hx)
  case queued =>
    intro x
    have handles : ∀ q : List QueueEntry, (∃ e ∈ q, e.handle = x) ↔ x ∈ q.map (·.handle) := fun q => by simp
    rw [handles, Ramps.handles_offered, ← handles, ok.queued]
  case held =>
    intro x
    rw [Ramps.mem_holders_offered, ← ok.held x]
    constructor
    · rintro (hx | ⟨hx, -⟩)
      · cases hx
      · exact hx
    · exact fun hx => .inr ⟨hx, free _ hx⟩
  case offered =>
    intro x n
    rw [Ramps.mem_holders_offered, Ramps.queue_offered, ok.offered]
    constructor
    · rintro (hx | ⟨hx, hne⟩)
      · cases hx
        obtain ⟨e, he, same⟩ := (ok.queued h).mpr waits
        exact List.mem_map.mpr ⟨e, he, by rw [if_pos same]; cases e; cases same; rfl⟩
      · exact List.mem_map.mpr ⟨_, hx, if_neg hne⟩
    · intro hx
      obtain ⟨e, he, same⟩ := List.mem_map.mp hx
      split at same
      · next hs =>
        cases e
        cases hs
        cases same
        exact .inl rfl
      · next hne =>
        rw [same] at he hne
        exact .inr ⟨he, hne⟩

/-- An answer not taken: the slot given back, the mark cleared (R58). -/
theorem Ramps.Ok.answered (ok : m.Ok cap P R) (r : GrantReq) : (m.answered r).Ok cap P R where
  room := (List.length_filter_le ..).trans ok.room
  once := by
    have handles : (m.answered r).queue.map (·.handle) = m.queue.map (·.handle) := by
      simp only [Ramps.answered, List.map_map, Function.comp_def, QueueEntry.unmarked]
      refine List.map_congr_left fun e _ => ?_
      split
      · next he => rw [he]
      · rfl
    rw [handles]
    exact ok.once
  order := ok.order.sublist ((List.filter_sublist).map _)
  queued x := by
    rw [← ok.queued x]
    have same : ∀ e : QueueEntry, (e.unmarked r).handle = e.handle := fun e => by
      unfold QueueEntry.unmarked
      split
      · next he => rw [he]
      · rfl
    simp [Ramps.answered, same]
  held x := by
    rw [← ok.held x]
    simp [Ramps.answered]
  offered x n := by
    have entry : (⟨x, some n⟩ : QueueEntry) ∈ (m.answered r).queue ↔
        (⟨x, some n⟩ : QueueEntry) ∈ m.queue ∧ ¬ (x = r.handle ∧ n = r.offer) := by
      simp only [Ramps.answered, List.mem_map, QueueEntry.unmarked]
      constructor
      · rintro ⟨e, he, same⟩
        split at same
        · cases same
        · next hne =>
          subst same
          exact ⟨he, fun h => hne (by rw [h.1, h.2])⟩
      · rintro ⟨he, hne⟩
        exact ⟨_, he, if_neg fun h => hne (by cases h; exact ⟨rfl, rfl⟩)⟩
    rw [entry, ← ok.offered x n]
    simp [Ramps.answered, imp_iff_not_or]

/-- A record joins the queue (R55). -/
theorem Ramps.Ok.joined (ok : m.Ok cap P R) (new : ¬ P h) :
    ({ m with queue := m.queue ++ [⟨h, none⟩] } : Ramps).Ok cap (fun x => P x ∨ x = h) R where
  room := ok.room
  once := by
    rw [List.map_append, List.nodup_append]
    refine ⟨ok.once, List.nodup_singleton _, fun x hx y hy same => new ?_⟩
    obtain ⟨e, he, rfl⟩ := List.mem_map.mp hx
    rw [List.map_singleton, List.mem_singleton] at hy
    exact (ok.queued h).mp ⟨e, he, same.trans hy⟩
  order := ok.order
  queued x := by
    rw [← ok.queued x]
    simp [or_and_right, exists_or, eq_comm]
  held := ok.held
  offered x n := by
    rw [ok.offered x n]
    simp

/-- A slot given back by a record that ramps no more (R59). -/
theorem Ramps.Ok.released (ok : m.Ok cap P R) (waits : ¬ P h) :
    ({ m with holders := m.holders.filter (·.handle ≠ h) } : Ramps).Ok cap P (fun x => R x ∧ x ≠ h) where
  room := (List.length_filter_le ..).trans ok.room
  once := ok.once
  order := ok.order.sublist ((List.filter_sublist).map _)
  queued := ok.queued
  held x := by
    rw [← ok.held x]
    simp
  offered x n := by
    rw [← ok.offered x n]
    simp only [List.mem_filter, decide_eq_true_eq, and_iff_left_iff_imp]
    rintro hx rfl
    exact ok.not_offered waits hx

/-- An entry leaves the queue, and with it the slot held under its offer, if it carries one (R56). -/
theorem Ramps.Ok.left (ok : m.Ok cap P R) {hs : List SlotHolder} (sub : hs.Sublist m.holders)
    (kept : ∀ x, x ∈ hs ↔ x ∈ m.holders ∧ (x.handle = h → x.offer = none)) :
    ({ m.dequeue h with holders := hs } : Ramps).Ok cap (fun x => P x ∧ x ≠ h) R where
  room := sub.length_le.trans ok.room
  once := ok.once.sublist ((List.filter_sublist).map _)
  order := ok.order.sublist (sub.map _)
  queued x := by
    rw [← ok.queued x]
    constructor
    · rintro ⟨e, he, rfl⟩
      obtain ⟨he, hne⟩ := List.mem_filter.mp he
      exact ⟨⟨e, he, rfl⟩, by simpa using hne⟩
    · rintro ⟨⟨e, he, rfl⟩, hne⟩
      exact ⟨e, List.mem_filter.mpr ⟨he, by simpa using hne⟩, rfl⟩
  held x := by
    rw [← ok.held x]
    simp [kept]
  offered x n := by
    simp [kept, ok.offered x n, Ramps.dequeue]

end

end Sys2Proof.Machine
end

