-- ==== Sys2Proof/Proofs/Ramping.lean ====
section
/-! Proofs/Ramping.lean: the laws of the scheduler kept by the operations on records, queues and trips (O53). -/

set_option Elab.async false

namespace Sys2Proof.Machine
open Sys2Proof

section
variable {s t u w : State} {d : Degree} {h : Handle} {i : SlotIx} {c c' : Conn}

/-! ## The laws by degree -/

/-- The two states in which a record waits for its ramp (R53). -/
def CState.Pends (k : CState) : Prop := k = .pendingUp ∨ k = .pendingDown

/-- The two states in which a record ramps (R54). -/
def CState.Ramps (k : CState) : Prop := k = .rampUp ∨ k = .rampDown

theorem CState.Pends.not_ramps {k : CState} (p : k.Pends) : ¬ k.Ramps := by
  obtain rfl | rfl := p <;> simp [CState.Ramps]

/-- A handle waits for its ramp on a degree. -/
def State.waitsOn (s : State) (d : Degree) (h : Handle) : Prop := s.sinksIn d h .pendingUp .pendingDown

/-- A handle ramps on a degree. -/
def State.rampsOn (s : State) (d : Degree) (h : Handle) : Prop := s.sinksIn d h .rampUp .rampDown

theorem State.rampsOk_iff (s : State) : s.rampsOk ↔ ∀ d : Degree, s.settings[d].rampSlots ≤ 4 ∧
    s.ramps[d].Ok s.settings[d].rampSlots (s.waitsOn d) (s.rampsOn d) :=
  forall_congr' fun _ => ⟨fun ⟨room, cap, once, order, queued, held, offered⟩ =>
    ⟨cap, room, once, order, queued, held, offered⟩, fun ⟨cap, room, once, order, queued, held, offered⟩ =>
    ⟨room, cap, once, order, queued, held, offered⟩⟩

theorem State.rampsOk_of (ok : s.rampsOk) (table : t.table = s.table) (ramps : t.ramps = s.ramps)
    (settings : t.settings = s.settings) : t.rampsOk := by
  have sinks : ∀ d h a b, t.sinksIn d h a b ↔ s.sinksIn d h a b := fun d h a b => by
    simp only [State.sinksIn, State.find_of_table table]
  unfold State.rampsOk
  simp only [sinks, ramps, settings]
  exact ok

theorem State.waitsOn.not_rampsOn (x : s.waitsOn d h) : ¬ s.rampsOn d h := by
  rintro ⟨b, hb, -, hr⟩
  obtain ⟨a, ha, -, hp⟩ := x
  rw [ha] at hb
  cases hb
  exact CState.Pends.not_ramps hp hr

/-- The handle of a record that exists is the one handle of its slot that names one (R25). -/
theorem State.slot_apart {x : Handle} (hx : s.waitsOn d x ∨ s.rampsOn d x) {y : Handle} (hy : s.find y = some c)
    (hne : x ≠ y) : x.slot ≠ y.slot := by
  obtain ⟨a, ha⟩ : ∃ a, s.find x = some a := by
    obtain ⟨a, ha, -⟩ | ⟨a, ha, -⟩ := hx <;> exact ⟨a, ha⟩
  intro same
  rw [← State.handleAt_of_find ha, ← State.handleAt_of_find hy, same] at hne
  exact hne rfl

/-! ## One record rewritten -/

/-- Which handles are in one of two states on a degree once a record is rewritten. -/
theorem State.sinksIn_put (hi : s.conn i = some c) (route : c'.route = c.route)
    (table : t.table = (s.putConn i (some c')).table) (k : Degree) (x : Handle) (a b : CState) :
    t.sinksIn k x a b ↔ if x = s.handleAt i then c.route.sinkDegree = some k ∧ (c'.state = a ∨ c'.state = b)
      else s.sinksIn k x a b := by
  unfold State.sinksIn
  rw [State.find_of_table table]
  split
  · next hx =>
    rw [State.find_putConn, if_pos hx]
    simp [route]
  · next hx => rw [State.find_putConn_other hi _ hx]

/-- The handle of a record is in one of two states on a degree. -/
theorem State.sinksIn_handleAt (hi : s.conn i = some c) (k : Degree) (a b : CState) :
    s.sinksIn k (s.handleAt i) a b ↔ c.route.sinkDegree = some k ∧ (c.state = a ∨ c.state = b) := by
  unfold State.sinksIn
  rw [State.find_handleAt, hi]
  simp

/-- The law after a record is rewritten and RSC's state of its sink degree changed to fit it. -/
theorem State.rampsOk_put (ok : s.rampsOk) (hi : s.conn i = some c) (route : c'.route = c.route)
    (table : t.table = (s.putConn i (some c')).table) (settings : t.settings = s.settings)
    (others : ∀ k : Degree, c.route.sinkDegree ≠ some k → t.ramps[k] = s.ramps[k])
    (own : ∀ k : Degree, c.route.sinkDegree = some k → t.ramps[k].Ok s.settings[k].rampSlots
      (fun x => if x = s.handleAt i then c'.state.Pends else s.waitsOn k x)
      (fun x => if x = s.handleAt i then c'.state.Ramps else s.rampsOn k x)) : t.rampsOk := by
  rw [State.rampsOk_iff] at ok ⊢
  intro k
  rw [settings]
  refine ⟨(ok k).1, ?_⟩
  by_cases hk : c.route.sinkDegree = some k
  · refine (own k hk).congr (fun x => ?_) fun x => ?_
    · refine Iff.trans ?_ (State.sinksIn_put hi route table k x _ _).symm
      split <;> simp [hk, CState.Pends, State.waitsOn]
    · refine Iff.trans ?_ (State.sinksIn_put hi route table k x _ _).symm
      split <;> simp [hk, CState.Ramps, State.rampsOn]
  · rw [others k hk]
    refine (ok k).2.congr (fun x => ?_) fun x => ?_
    · rw [State.waitsOn, State.waitsOn, State.sinksIn_put hi route table]
      split
      · next hx => rw [hx, State.sinksIn_handleAt hi]; simp [hk]
      · rfl
    · rw [State.rampsOn, State.rampsOn, State.sinksIn_put hi route table]
      split
      · next hx => rw [hx, State.sinksIn_handleAt hi]; simp [hk]
      · rfl

/-- A record rewritten that waits as before and ramps as before. -/
theorem State.rampsOk_rewritten (ok : s.rampsOk) (hi : s.conn i = some c) (route : c'.route = c.route)
    (pends : c'.state.Pends ↔ c.state.Pends) (ramping : c'.state.Ramps ↔ c.state.Ramps)
    (table : t.table = (s.putConn i (some c')).table) (settings : t.settings = s.settings)
    (ramps : t.ramps = s.ramps) : t.rampsOk := by
  refine State.rampsOk_put ok hi route table settings (fun _ _ => by rw [ramps]) fun k hk => ?_
  rw [ramps]
  refine (((s.rampsOk_iff).mp ok) k).2.congr (fun x => ?_) fun x => ?_
  · split
    · next hx => rw [hx, State.waitsOn, State.sinksIn_handleAt hi, pends]; simp [hk, CState.Pends]
    · rfl
  · split
    · next hx => rw [hx, State.rampsOn, State.sinksIn_handleAt hi, ramping]; simp [hk, CState.Ramps]
    · rfl

/-- A record freed that neither waits nor ramps. -/
theorem State.rampsOk_freed (ok : s.rampsOk) (hi : s.conn i = some c) (pends : ¬ c.state.Pends) (ramping : ¬ c.state.Ramps)
    (table : t.table = (s.putConn i none).table) (settings : t.settings = s.settings) (ramps : t.ramps = s.ramps) :
    t.rampsOk := by
  have sinks : ∀ k x a b, ¬ (c.state = a ∨ c.state = b) → (t.sinksIn k x a b ↔ s.sinksIn k x a b) := by
    intro k x a b none
    by_cases hx : x = s.handleAt i
    · rw [hx, State.sinksIn_handleAt hi]
      unfold State.sinksIn
      rw [State.find_of_table table, State.find_putConn, if_pos rfl]
      simp [none]
    · unfold State.sinksIn
      rw [State.find_of_table table, State.find_putConn_other hi _ hx]
  rw [State.rampsOk_iff] at ok ⊢
  intro k
  rw [settings, ramps]
  exact ⟨(ok k).1, (ok k).2.congr (fun x => (sinks k x _ _ pends).symm) fun x => (sinks k x _ _ ramping).symm⟩

/-! ## Grants -/

/-- A grant to a handle that waits, with a slot free or held for it (R57, R58). -/
theorem State.takeGrant_rampsOk (ok : s.rampsOk) (waits : s.waits d h)
    (room : s.ramps[d].holders.length < s.settings[d].rampSlots ∨ ∃ x ∈ s.ramps[d].holders, x.handle = h) :
    (s.takeGrant d h).rampsOk := by
  have law := ((s.rampsOk_iff).mp ok d).2
  obtain ⟨c, hc, hd, hs⟩ := (law.queued h).mp waits
  have hi : s.conn h.slot = some c := ((s.find_eq_some h c).mp hc).2
  have own : s.handleAt h.slot = h := State.handleAt_of_find hc
  have taken : ∀ {c' : Conn} {t : State}, c'.route = c.route → ¬ c'.state.Pends → c'.state.Ramps →
      t.table = (s.putConn h.slot (some c')).table → t.settings = s.settings →
      t.ramps = (s.mapRamps d fun r => (r.dequeue h).hold h none).ramps → t.rampsOk := by
    intro c' t route pends ramping table settings ramps
    refine State.rampsOk_put ok hi route table settings (fun k hk => ?_) fun k hk => ?_
    · rw [ramps, State.mapRamps_ramps, get_set_ne]
      rintro rfl
      exact hk hd
    · rw [hd] at hk
      cases hk
      rw [ramps, State.ramps_mapRamps, own]
      refine (law.granted (fun x hx hne => State.slot_apart hx hc hne) room).congr (fun x => ?_) fun x => ?_
      · by_cases hx : x = h <;> simp [hx, pends]
      · by_cases hx : x = h <;> simp [hx, ramping]
  obtain up | down := hs
  · rw [State.takeGrant_up hc up]
    exact taken (c' := { c with state := .rampUp, shadow := .att 250 }) rfl (by simp [CState.Pends]) (.inl rfl)
      rfl rfl rfl
  · rw [State.takeGrant_down hc down]
    exact taken (c' := { c with state := .rampDown }) rfl (by simp [CState.Pends]) (.inr rfl) rfl rfl rfl

theorem State.canGrant_room (can : s.canGrant d = true) : s.ramps[d].holders.length < s.settings[d].rampSlots := by
  simp only [State.canGrant, Bool.and_eq_true, decide_eq_true_eq] at can
  exact can.2

theorem State.grantEvent_rampsOk (ok : s.rampsOk) (d : Degree) : (s.grantEvent d).rampsOk := by
  have key : ∀ (l : List Handle) (s : State), s.rampsOk → (∀ h ∈ l, s.waits d h ∨ ¬ s.pends h) →
      (l.foldl (fun s h => if s.canGrant d then s.takeGrant d h else s) s).rampsOk := by
    intro l
    induction l with
    | nil => exact fun _ ok _ => ok
    | cons x l ih =>
      intro s ok hl
      have tail : ∀ h ∈ l, s.waits d h ∨ ¬ s.pends h := fun h hh => hl h (List.mem_cons_of_mem _ hh)
      rw [List.foldl_cons]
      split
      · next can =>
        refine ih _ ?_ fun h hh => State.takeGrant_rest (tail h hh)
        obtain waits | not := hl x (List.mem_cons_self ..)
        · exact State.takeGrant_rampsOk ok waits (.inl (State.canGrant_room can))
        · rwa [State.takeGrant_of_not_pends not]
      · exact ih s ok tail
  refine key _ s ok fun h hh => .inl ?_
  obtain ⟨e, he, rfl⟩ := List.mem_map.mp hh
  exact ⟨e, (List.mem_filter.mp he).1, rfl⟩

/-- RSC's state of a degree changed by an edit that fits the same records. -/
theorem State.mapRamps_rampsOk (ok : s.rampsOk) {f : Ramps → Ramps}
    (own : (f s.ramps[d]).Ok s.settings[d].rampSlots (s.waitsOn d) (s.rampsOn d)) : (s.mapRamps d f).rampsOk := by
  rw [State.rampsOk_iff] at ok ⊢
  intro k
  refine ⟨(ok k).1, ?_⟩
  rw [State.mapRamps_ramps, get_set]
  split
  · next hk =>
    subst hk
    exact own
  · exact (ok k).2

theorem State.offerOne_rampsOk (ok : s.rampsOk) (hh : h ∈ s.ramps[d].unoffered) (can : s.canGrant d = true) :
    (s.offerOne d h).rampsOk := by
  have law := ((s.rampsOk_iff).mp ok d).2
  obtain ⟨⟨c, hc, -⟩, -⟩ := law.unoffered_free (fun _ x => x.not_rampsOn) hh
  have marked : (s.mapRamps d fun r => r.offered h).rampsOk := State.mapRamps_rampsOk ok
    (law.offer (fun _ x => x.not_rampsOn) (fun x hx hne => State.slot_apart hx hc hne) hh (State.canGrant_room can))
  rw [State.offerOne_eq]
  exact State.rampsOk_of marked rfl rfl rfl

/-- The other entries without the offered mark are still to be offered after an offer (R57, R58). -/
theorem Ramps.unoffered_offered {m : Ramps} {x : Handle} (hx : x ∈ m.unoffered) (hne : x ≠ h) :
    x ∈ (m.offered h).unoffered := by
  obtain ⟨e, he, rfl⟩ := List.mem_map.mp hx
  obtain ⟨he, none⟩ := List.mem_filter.mp he
  exact List.mem_map.mpr ⟨e, List.mem_filter.mpr ⟨Ramps.mem_queue_offered he hne, none⟩, rfl⟩

theorem State.offerEvent_rampsOk (ok : s.rampsOk) (d : Degree) : (s.offerEvent d).rampsOk := by
  have key : ∀ (l : List Handle) (s : State), s.rampsOk → l.Nodup → (∀ h ∈ l, h ∈ s.ramps[d].unoffered) →
      (l.foldl (fun s h => if s.canGrant d then s.offerOne d h else s) s).rampsOk := by
    intro l
    induction l with
    | nil => exact fun _ ok _ _ => ok
    | cons x l ih =>
      intro s ok nodup hl
      obtain ⟨new, nodup⟩ := List.nodup_cons.mp nodup
      have tail : ∀ h ∈ l, h ∈ s.ramps[d].unoffered := fun h hh => hl h (List.mem_cons_of_mem _ hh)
      rw [List.foldl_cons]
      split
      · next can =>
        refine ih _ (State.offerOne_rampsOk ok (hl x (List.mem_cons_self ..)) can) nodup fun h hh => ?_
        rw [State.ramps_offerOne]
        exact Ramps.unoffered_offered (tail h hh) fun e => new (e ▸ hh)
      · exact ih s ok nodup tail
  exact key _ s ok (State.unoffered_free ok d).2 fun _ hh => hh

theorem State.notTaken_rampsOk (ok : s.rampsOk) (d : Degree) (r : GrantReq) : (s.notTaken d r).rampsOk := by
  rw [State.notTaken_eq]
  exact State.grantEvent_rampsOk (State.mapRamps_rampsOk ok (((s.rampsOk_iff).mp ok d).2.answered r)) d

theorem State.answerGrant_rampsOk (ok : s.rampsOk) (d : Degree) (r : GrantReq) : (s.answerGrant d r).rampsOk := by
  unfold State.answerGrant
  split
  · next takes =>
    obtain ⟨-, entry, -⟩ := (s.takesGrant_iff d r).mp takes
    exact State.takeGrant_rampsOk ok ⟨_, entry, rfl⟩
      (.inr ⟨_, (((s.rampsOk_iff).mp ok d).2.offered _ _).mpr entry, rfl⟩)
  · exact State.notTaken_rampsOk ok d r

/-! ## A record that comes to wait, or to wait or ramp no more -/

/-- The law after a record sinking on a degree is rewritten and RSC's state of that degree edited to fit it. -/
theorem State.rampsOk_put_edit (ok : s.rampsOk) (hi : s.conn i = some c) (hd : c.route.sinkDegree = some d)
    (route : c'.route = c.route) (table : w.table = (s.putConn i (some c')).table) (settings : w.settings = s.settings)
    (ramps : w.ramps = s.ramps) {f : Ramps → Ramps} (own : (f s.ramps[d]).Ok s.settings[d].rampSlots
      (fun x => if x = s.handleAt i then c'.state.Pends else s.waitsOn d x)
      (fun x => if x = s.handleAt i then c'.state.Ramps else s.rampsOn d x)) : (w.mapRamps d f).rampsOk := by
  refine State.rampsOk_put (t := w.mapRamps d f) ok hi route table settings (fun k hk => ?_) fun k hk => ?_
  · rw [State.mapRamps_ramps, get_set_ne, ramps]
    rintro rfl
    exact hk hd
  · rw [hd] at hk
    cases hk
    rw [State.ramps_mapRamps, ramps]
    exact own

theorem State.joinQueue_rampsOk (ok : s.rampsOk) (hi : s.conn i = some c) (hd : c.route.sinkDegree = some d)
    (route : c'.route = c.route) (pends : ¬ c.state.Pends) (ramping : ¬ c.state.Ramps) (waits : c'.state.Pends)
    (table : w.table = (s.putConn i (some c')).table) (settings : w.settings = s.settings) (ramps : w.ramps = s.ramps) :
    (w.joinQueue d (s.handleAt i)).rampsOk := by
  have notWaits : ¬ s.waitsOn d (s.handleAt i) := fun x => pends ((State.sinksIn_handleAt hi ..).mp x).2
  have notRamps : ¬ s.rampsOn d (s.handleAt i) := fun x => ramping ((State.sinksIn_handleAt hi ..).mp x).2
  refine State.grantEvent_rampsOk (State.rampsOk_put_edit ok hi hd route table settings ramps ?_) d
  refine (((s.rampsOk_iff).mp ok d).2.joined notWaits).congr (fun x => ?_) fun x => ?_
  · by_cases hx : x = s.handleAt i <;> simp [hx, waits]
  · by_cases hx : x = s.handleAt i <;> simp [hx, notRamps, waits.not_ramps]

theorem State.freeRamp_rampsOk (ok : s.rampsOk) (hi : s.conn i = some c) (hd : c.route.sinkDegree = some d)
    (route : c'.route = c.route) (ramping : c.state.Ramps) (pends' : ¬ c'.state.Pends) (ramping' : ¬ c'.state.Ramps)
    (table : w.table = (s.putConn i (some c')).table) (settings : w.settings = s.settings) (ramps : w.ramps = s.ramps) :
    (w.freeRamp d (s.handleAt i)).rampsOk := by
  have notWaits : ¬ s.waitsOn d (s.handleAt i) := fun x =>
    CState.Pends.not_ramps ((State.sinksIn_handleAt hi ..).mp x).2 ramping
  refine State.grantEvent_rampsOk (State.rampsOk_put_edit ok hi hd route table settings ramps ?_) d
  refine (((s.rampsOk_iff).mp ok d).2.released notWaits).congr (fun x => ?_) fun x => ?_
  · by_cases hx : x = s.handleAt i <;> simp [hx, notWaits, pends']
  · by_cases hx : x = s.handleAt i <;> simp [hx, ramping']

theorem State.leaveQueue_rampsOk (ok : s.rampsOk) (hi : s.conn i = some c) (hd : c.route.sinkDegree = some d)
    (route : c'.route = c.route) (pends : c.state.Pends) (pends' : ¬ c'.state.Pends) (ramping' : ¬ c'.state.Ramps)
    (table : w.table = (s.putConn i (some c')).table) (settings : w.settings = s.settings) (ramps : w.ramps = s.ramps) :
    (w.leaveQueue d (s.handleAt i)).rampsOk := by
  have law := ((s.rampsOk_iff).mp ok d).2
  have waits : s.waitsOn d (s.handleAt i) := (State.sinksIn_handleAt hi ..).mpr ⟨hd, pends⟩
  have left : ∀ {f : Ramps → Ramps} {hs : List SlotHolder}, hs.Sublist s.ramps[d].holders →
      (∀ x, x ∈ hs ↔ x ∈ s.ramps[d].holders ∧ (x.handle = s.handleAt i → x.offer = none)) →
      f s.ramps[d] = { s.ramps[d].dequeue (s.handleAt i) with holders := hs } → (w.mapRamps d f).rampsOk := by
    intro f hs sub kept hf
    refine State.rampsOk_put_edit ok hi hd route table settings ramps ?_
    rw [hf]
    refine (law.left sub kept).congr (fun x => ?_) fun x => ?_
    · by_cases hx : x = s.handleAt i <;> simp [hx, pends']
    · by_cases hx : x = s.handleAt i <;> simp [hx, waits.not_rampsOn, ramping']
  obtain ⟨e, he, same⟩ := (law.queued _).mpr waits
  unfold State.leaveQueue
  rw [ramps]
  split
  · next hn =>
    have := List.find?_eq_none.mp hn e he
    simp [same] at this
  · next e' he' =>
    have same' : e'.handle = s.handleAt i := by simpa using List.find?_some he'
    have mem' := List.mem_of_find?_eq_some he'
    split
    · next unoffered =>
      refine left (.refl _) (fun x => ⟨fun hx => ⟨hx, fun hh => ?_⟩, And.left⟩) rfl
      obtain ⟨xh, _ | n⟩ := x
      · rfl
      · have := law.entry_unique mem' ((law.offered xh n).mp hx) (same'.trans hh.symm)
        rw [this] at unoffered
        cases unoffered
    · next n offered =>
      refine State.grantEvent_rampsOk (left List.filter_sublist (fun x => ?_) rfl) d
      rw [List.mem_filter, decide_eq_true_eq]
      refine and_congr_right fun hx => ⟨fun hn hh => ?_, fun hn ⟨hh, ho⟩ => by rw [hn hh] at ho; cases ho⟩
      obtain ⟨xh, _ | k⟩ := x
      · rfl
      · have := law.entry_unique mem' ((law.offered xh k).mp hx) (same'.trans hh.symm)
        rw [this] at offered
        exact absurd ⟨hh, offered⟩ hn

/-! ## Records -/

theorem State.freeRecord_rampsOk (ok : s.rampsOk) (hi : s.conn i = some c) (pends : ¬ c.state.Pends)
    (ramping : ¬ c.state.Ramps) : (s.freeRecord i c).rampsOk :=
  State.rampsOk_freed ok hi pends ramping (s.table_freeRecord i c) (by simp) (by simp)

theorem State.drainTest_rampsOk (ok : s.rampsOk) (i : SlotIx) : (s.drainTest i).rampsOk := by
  unfold State.drainTest
  split
  · exact ok
  · next c hi =>
    split
    · next hs =>
      refine State.rampsOk_of (State.freeRecord_rampsOk ok hi ?_ ?_) (by simp) (by simp) (by simp)
      all_goals simp [hs.1, CState.Pends, CState.Ramps]
    · exact ok

theorem State.drainTests_rampsOk (l : List SlotIx) (ok : s.rampsOk) : (l.foldl State.drainTest s).rampsOk := by
  induction l generalizing s with
  | nil => exact ok
  | cons i l ih => exact ih (State.drainTest_rampsOk ok i)

theorem State.addCause_rampsOk (ok : s.rampsOk) (i : SlotIx) (k : Cause) : (s.addCause i k).rampsOk := by
  unfold State.addCause
  split
  · exact ok
  next c hi =>
  split
  · exact ok
  next d hd =>
  dsimp only
  split
  · exact ok
  · exact ok
  · exact ok
  · exact State.rampsOk_rewritten (c' := { c with causes := some ((c.causes.getD .empty).insert k) }) ok hi rfl .rfl .rfl
      rfl rfl rfl
  · next hs =>
    exact State.leaveQueue_rampsOk (c' := c.suspendedBy k) ok hi hd rfl (.inl hs) (by simp [CState.Pends, Conn.suspendedBy])
      (by simp [CState.Ramps, Conn.suspendedBy]) (by simp) (by simp) (by simp)
  · next hs =>
    exact State.freeRamp_rampsOk (c' := { c.suspendedBy k with power := some .normal }) ok hi hd rfl (.inl hs)
      (by simp [CState.Pends, Conn.suspendedBy]) (by simp [CState.Ramps, Conn.suspendedBy]) (by simp) (by simp) (by simp)
  · next hs =>
    exact State.rampsOk_rewritten (c' := { c.suspendedBy k with power := some .normal }) ok hi rfl
      (by simp [CState.Pends, Conn.suspendedBy, hs]) (by simp [CState.Ramps, Conn.suspendedBy, hs]) (by simp) (by simp)
      (by simp)
  · next hs =>
    exact State.leaveQueue_rampsOk (c' := { c with state := .draining, shadow := .blocked }) ok hi hd rfl (.inr hs)
      (by simp [CState.Pends]) (by simp [CState.Ramps]) (by simp) (by simp) (by simp)
  · next hs =>
    exact State.freeRamp_rampsOk (c' := { c with state := .draining, shadow := .blocked }) ok hi hd rfl (.inr hs)
      (by simp [CState.Pends]) (by simp [CState.Ramps]) (by simp) (by simp) (by simp)

theorem State.removeCause_rampsOk (ok : s.rampsOk) (i : SlotIx) (k : Cause) : (s.removeCause i k).rampsOk := by
  unfold State.removeCause
  split
  · exact ok
  next c hi =>
  split
  · exact ok
  next d hd =>
  dsimp only
  split
  · next hs =>
    have pends : ¬ c.state.Pends := by simp [CState.Pends, hs.1]
    have ramping : ¬ c.state.Ramps := by simp [CState.Ramps, hs.1]
    split
    · exact State.joinQueue_rampsOk
        (c' := { c with state := .pendingUp, causes := some ((c.causes.getD .empty).erase k) })
        ok hi hd rfl pends ramping (.inl rfl) (by simp) (by simp) (by simp)
    · exact State.rampsOk_rewritten (c' := { c with causes := some ((c.causes.getD .empty).erase k) })
        ok hi rfl .rfl .rfl rfl rfl rfl
  · exact ok

end

end Sys2Proof.Machine
end

