-- ==== Sys2Proof/Proofs/RampRecords.lean ====
section
/-! Proofs/RampRecords.lean: the laws of the scheduler through records admitted, released and passed, and trips (O53). -/

set_option Elab.async false

namespace Sys2Proof.Machine
open Sys2Proof

section
variable {s t u w : State} {d : Degree} {h : Handle} {i : SlotIx} {c c' : Conn}

/-! ## Records released, armed and admitted -/

theorem State.drain_rampsOk (ok : s.rampsOk) (hi : s.conn i = some c) (pends : ¬ c.state.Pends)
    (ramping : ¬ c.state.Ramps) : (s.drain i c).rampsOk := by
  have draining : ∀ t : State, t.table = (s.putConn i (some { c with state := .draining, shadow := .blocked })).table →
      t.settings = s.settings → t.ramps = s.ramps → t.rampsOk := fun t =>
    State.rampsOk_rewritten ok hi rfl (iff_of_false (by simp [CState.Pends]) pends)
      (iff_of_false (by simp [CState.Ramps]) ramping)
  unfold State.drain
  refine State.drainTest_rampsOk (draining _ ?_ ?_ ?_) i
  all_goals split <;> simp

theorem State.releaseRecord_rampsOk (ok : s.rampsOk) (hi : s.conn i = some c) (p : Domain) :
    (s.releaseRecord p i c).rampsOk := by
  unfold State.releaseRecord
  dsimp only
  split
  · next hs =>
    exact State.rampsOk_of (State.freeRecord_rampsOk ok hi (by simp [CState.Pends, hs]) (by simp [CState.Ramps, hs]))
      (by simp) (by simp) (by simp)
  · next hs =>
    exact State.rampsOk_of (State.freeRecord_rampsOk ok hi (by simp [CState.Pends, hs]) (by simp [CState.Ramps, hs]))
      (by simp) (by simp) (by simp)
  · next hs => exact State.drain_rampsOk ok hi (by simp [CState.Pends, hs]) (by simp [CState.Ramps, hs])
  · next hs =>
    split
    · next d hd =>
      exact State.drainTest_rampsOk (State.leaveQueue_rampsOk (c' := { c with state := .draining, shadow := .blocked })
        ok hi hd rfl (.inl hs) (by simp [CState.Pends]) (by simp [CState.Ramps]) rfl rfl rfl) i
    · exact ok
  · next hs =>
    exact State.rampsOk_rewritten (c' := { c with state := .rampDown }) ok hi rfl (by simp [CState.Pends, hs])
      (by simp [CState.Ramps, hs]) rfl rfl rfl
  · next hs =>
    split
    · next d hd =>
      exact State.joinQueue_rampsOk (c' := { c with state := .pendingDown }) ok hi hd rfl (by simp [CState.Pends, hs])
        (by simp [CState.Ramps, hs]) (.inr rfl) rfl rfl rfl
    · exact State.drain_rampsOk ok hi (by simp [CState.Pends, hs]) (by simp [CState.Ramps, hs])
  · exact ok
  · exact ok
  · exact ok

/-- An activated record keeps its route, and neither waits nor ramps (R35, R36). -/
theorem State.activated_apart (s : State) (c : Conn) : (s.activated c).route = c.route ∧
    ¬ (s.activated c).state.Pends ∧ ¬ (s.activated c).state.Ramps := by
  unfold State.activated
  split <;> simp [CState.Pends, CState.Ramps]

theorem State.armed_apart (s : State) (c : Conn) : (s.armed c).route = c.route ∧
    ¬ (s.armed c).state.Pends ∧ ¬ (s.armed c).state.Ramps := by
  unfold State.armed
  split
  · exact s.activated_apart _
  · simp [CState.Pends, CState.Ramps]

/-- A record as PROPOSED or ARMED neither waits nor ramps. -/
theorem Conn.new_apart (new : c.state = .proposed ∨ c.state = .armed) : ¬ c.state.Pends ∧ ¬ c.state.Ramps := by
  obtain hs | hs := new <;> simp [CState.Pends, CState.Ramps, hs]

theorem State.activateRecord_rampsOk (ok : s.rampsOk) (hi : s.conn i = some c) (hs : c.state = .armed) :
    (s.activateRecord i c).rampsOk := by
  obtain ⟨route, pends, ramping⟩ := s.activated_apart c
  obtain ⟨pends', ramping'⟩ := Conn.new_apart (.inr hs)
  exact State.rampsOk_rewritten ok hi route (iff_of_false pends pends') (iff_of_false ramping ramping')
    (s.table_activateRecord i c) (by simp) (by simp)

theorem State.armRecord_rampsOk (ok : s.rampsOk) (hi : s.conn i = some c)
    (new : c.state = .proposed ∨ c.state = .armed) : (s.armRecord i c).rampsOk := by
  obtain ⟨route, pends, ramping⟩ := s.armed_apart c
  obtain ⟨pends', ramping'⟩ := Conn.new_apart new
  exact State.rampsOk_rewritten ok hi route (iff_of_false pends pends') (iff_of_false ramping ramping')
    (s.table_armRecord i c) (by simp) (by simp)

/-- The slot allocated was FREE, and its new record neither waits nor ramps (R16, R24). -/
theorem State.entered_rampsOk (ok : s.rampsOk) (free : s.conn i = none) (pends : ¬ c.state.Pends)
    (ramping : ¬ c.state.Ramps) : (s.entered i c).rampsOk := by
  have none : ∀ x : Handle, x.slot = i → s.find x = none := by
    rintro x rfl
    cases hx : s.find x with
    | none => rfl
    | some a => rw [((s.find_eq_some x a).mp hx).2] at free; cases free
  have sinks : ∀ k x a b, ¬ (c.state = a ∨ c.state = b) → ((s.entered i c).sinksIn k x a b ↔ s.sinksIn k x a b) := by
    intro k x a b apart
    unfold State.sinksIn
    rw [State.find_entered]
    split
    · next hx => simp [apart, none x (by rw [hx]; rfl)]
    · split
      · next hx => simp [none x hx]
      · rfl
  have settings : (s.entered i c).settings = s.settings := by simp [State.entered, State.allocate]
  have ramps : (s.entered i c).ramps = s.ramps := by simp [State.entered, State.allocate]
  rw [State.rampsOk_iff] at ok ⊢
  intro k
  rw [settings, ramps]
  exact ⟨(ok k).1, (ok k).2.congr (fun x => (sinks k x _ _ pends).symm) fun x => (sinks k x _ _ ramping).symm⟩

theorem State.enterRecord_rampsOk (ok : s.rampsOk) (free : s.conn i = none)
    (new : c.state = .proposed ∨ c.state = .armed) : (s.enterRecord i c).rampsOk := by
  obtain ⟨pends, ramping⟩ := Conn.new_apart new
  have entered : (s.entered i c).rampsOk := State.entered_rampsOk ok free pends ramping
  unfold State.enterRecord
  dsimp only
  split
  · exact State.rampsOk_of (s := s.entered i c) entered (by simp [State.entered]) (by simp [State.entered])
      (by simp [State.entered])
  · exact State.armRecord_rampsOk (s := s.entered i c) entered (by rw [State.conn_entered, if_pos rfl]) new

/-! ## What the requests that wait do to a record -/

/-- What a pass result may do to a record's state (R103, R111 to R114). -/
def PassResult.EndsRamp (r : PassResult) : Prop :=
  r.toState = none ∨ (r.computedFor = .rampUp ∧ r.toState = some .inService) ∨
    (r.computedFor = .rampDown ∧ r.toState = some .draining)

/-- A slot given back for a handle that holds none of a degree's: a grant event alone. -/
theorem State.freeRamp_rampsOk_none (ok : s.rampsOk) (hi : s.conn i = some c) (hd : c.route.sinkDegree = none)
    (route : c'.route = c.route) (table : w.table = (s.putConn i (some c')).table) (settings : w.settings = s.settings)
    (ramps : w.ramps = s.ramps) (d : Degree) : (w.freeRamp d (s.handleAt i)).rampsOk := by
  have absent : ∀ x ∈ s.ramps[d].holders, x.handle ≠ s.handleAt i := by
    intro x hx same
    obtain ⟨a, ha, hr, -⟩ | ⟨a, ha, hr, -⟩ := (((s.rampsOk_iff).mp ok d).2).names hx
    all_goals
      rw [same, State.find_handleAt, hi] at ha
      cases ha
      rw [hd] at hr
      cases hr
  have kept : w.rampsOk := State.rampsOk_put ok hi route table settings (fun k _ => by rw [ramps]) fun k hk => by
    rw [hd] at hk
    cases hk
  refine State.grantEvent_rampsOk (State.mapRamps_rampsOk kept ?_) d
  rw [show w.ramps[d].holders.filter (·.handle ≠ s.handleAt i) = w.ramps[d].holders from
    List.filter_eq_self.mpr fun x hx => by simpa using absent x (ramps ▸ hx)]
  exact ((w.rampsOk_iff).mp kept d).2

theorem State.tellPower_settings (s : State) (h : Handle) (c : Conn) (r : PassResult) :
    (s.tellPower h c r).settings = s.settings := by
  unfold State.tellPower
  split
  · rfl
  · split <;> simp

theorem State.applyResult_rampsOk {r : PassResult} (ok : s.rampsOk) (hi : s.conn i = some c) (name : r.handle = s.handleAt i)
    (law : r.EndsRamp) (hs : c.state = r.computedFor) (passed : Degree) : (s.applyResult passed i c r).rampsOk := by
  have unchanged : r.toState = none → ∀ t : State, t.table = (s.putConn i (some (c.apply r))).table →
      t.settings = s.settings → t.ramps = s.ramps → t.rampsOk := fun none _ =>
    State.rampsOk_rewritten (c' := c.apply r) ok hi rfl (by simp [Conn.apply, none]) (by simp [Conn.apply, none])
  have given : ∀ {k : CState} {t : State}, r.toState = some k → c.state.Ramps → ¬ k.Pends → ¬ k.Ramps →
      t.table = (s.putConn i (some (c.apply r))).table → t.settings = s.settings → t.ramps = s.ramps →
      (t.freeRamp (c.route.sinkDegree.getD passed) r.handle).rampsOk := by
    intro k t ends ramping pends' ramping' table settings ramps
    have state : (c.apply r).state = k := by simp [Conn.apply, ends]
    rw [name]
    cases hd : c.route.sinkDegree with
    | none => exact State.freeRamp_rampsOk_none ok hi hd (c' := c.apply r) rfl table settings ramps _
    | some d =>
      exact State.freeRamp_rampsOk ok hi hd (c' := c.apply r) rfl ramping (state ▸ pends') (state ▸ ramping') table
        settings ramps
  have marked : ∀ t : State, t = (if r.shadow = c.shadow then s.putConn i (some (c.apply r))
      else (s.putConn i (some (c.apply r))).mark c.route.link) →
      t.table = (s.putConn i (some (c.apply r))).table ∧ t.settings = s.settings ∧ t.ramps = s.ramps := by
    rintro t rfl
    split <;> simp
  unfold State.applyResult
  dsimp only
  generalize he : (if r.shadow = c.shadow then s.putConn i (some (c.apply r))
    else (s.putConn i (some (c.apply r))).mark c.route.link) = v
  obtain ⟨table, settings, ramps⟩ := marked v he.symm
  obtain ends | ⟨up, ends⟩ | ⟨down, ends⟩ := law
  · rw [ends]
    refine unchanged ends _ ?_ ?_ ?_
    all_goals
      split <;> try split
      all_goals simp_all [State.tellPower_settings]
  · rw [up, ends]
    exact given ends (.inl (hs.trans up)) (by simp [CState.Pends]) (by simp [CState.Ramps]) (by simpa using table)
      (by simpa [State.tellPower_settings] using settings) (by simpa using ramps)
  · rw [down, ends]
    exact State.drainTest_rampsOk (given ends (.inr (hs.trans down)) (by simp [CState.Pends]) (by simp [CState.Ramps])
      table settings ramps) i

theorem State.takeResult_rampsOk {r : PassResult} (ok : s.rampsOk) (law : r.EndsRamp) (d : Degree) :
    (s.takeResult d r).rampsOk := by
  unfold State.takeResult
  split
  · exact ok
  · next c hc =>
    split
    · next hs =>
      exact State.applyResult_rampsOk ok ((s.find_eq_some r.handle c).mp hc).2 (State.handleAt_of_find hc).symm law hs d
    · exact ok

theorem State.applyDeclaration_rampsOk {r : DeclReq} (ok : s.rampsOk) (hi : s.conn i = some c) :
    (s.applyDeclaration i c r).rampsOk := by
  have taken : (s.putConn i (some { c with source := some r.light })).rampsOk :=
    State.rampsOk_rewritten (c' := { c with source := some r.light }) ok hi rfl .rfl .rfl rfl rfl rfl
  unfold State.applyDeclaration
  dsimp only
  split
  · split
    · exact taken
    · exact State.drainTest_rampsOk (State.addCause_rampsOk taken i _) i
  · exact State.removeCause_rampsOk taken i _
  · exact State.rampsOk_of taken (by simp) (by simp) (by simp)
  · exact State.rampsOk_of taken (by simp) (by simp) (by simp)

/-! ## Trips -/

theorem State.rampsOk_foldl {α : Type} {f : State → α → State} (hf : ∀ s a, s.rampsOk → (f s a).rampsOk) (l : List α)
    {s : State} (ok : s.rampsOk) : (l.foldl f s).rampsOk := by
  induction l generalizing s with
  | nil => exact ok
  | cons a l ih => exact ih (hf s a ok)

theorem State.mapTrip_rampsOk (ok : s.rampsOk) (d : Degree) (f : Trip → Trip) : (s.mapTrip d f).rampsOk :=
  State.rampsOk_of ok rfl rfl rfl

theorem State.enterTripped_rampsOk (ok : s.rampsOk) (d : Degree) : (s.enterTripped d).rampsOk := by
  unfold State.enterTripped
  exact State.drainTests_rampsOk _ (State.rampsOk_foldl (fun _ i ok => State.addCause_rampsOk ok i _) _
    (State.rampsOk_of ok (by simp) (by simp) (by simp)))

theorem State.endTrip_rampsOk (ok : s.rampsOk) (d : Degree) : (s.endTrip d).rampsOk := by
  unfold State.endTrip
  exact State.offerEvent_rampsOk (State.rampsOk_foldl (fun _ i ok => State.removeCause_rampsOk ok i _) _
    (State.rampsOk_of ok (by simp) (by simp) (by simp))) d

theorem State.enterHolding_rampsOk (ok : s.rampsOk) (d : Degree) : (s.enterHolding d).rampsOk :=
  State.mapTrip_rampsOk ok d _

theorem State.applyTrip_rampsOk (ok : s.rampsOk) (d : Degree) (ch : TripChange) : (s.applyTrip d ch).rampsOk := by
  cases ch with
  | trip => exact State.enterTripped_rampsOk ok d
  | hold => exact State.enterHolding_rampsOk ok d
  | clear => exact State.endTrip_rampsOk ok d

theorem State.takeHandOff_rampsOk (ok : s.rampsOk) (d : Degree) : (s.takeHandOff d).rampsOk := by
  unfold State.takeHandOff
  split
  · exact ok
  · exact State.applyTrip_rampsOk (s := { s with tripReqs := s.tripReqs.set d none })
      (State.rampsOk_of ok rfl rfl rfl) d _

theorem State.setLine_rampsOk (ok : s.rampsOk) (d : Degree) (line : LineLevel) : (s.setLine d line).rampsOk :=
  State.mapTrip_rampsOk ok d _

theorem State.reread_rampsOk (ok : s.rampsOk) (d : Degree) : (s.reread d).rampsOk := by
  unfold State.reread
  split
  · exact ok
  · split
    · exact State.applyTrip_rampsOk (State.setLine_rampsOk ok d _) d _
    · exact State.setLine_rampsOk ok d _

theorem State.modeChange_rampsOk (ok : s.rampsOk) (d : Degree) : (s.modeChange d).rampsOk := by
  unfold State.modeChange
  dsimp only
  split
  · split
    · split
      · exact State.endTrip_rampsOk ok d
      · exact State.enterHolding_rampsOk ok d
    · exact ok
  · split
    · exact State.mapTrip_rampsOk ok d _
    · exact ok

theorem State.settingEffects_rampsOk (ok : s.rampsOk) (d : Degree) (old : Settings) :
    (s.settingEffects d old).rampsOk := by
  have line : (if old.activeLevel = s.settings[d].activeLevel then s else s.reread d).rampsOk := by
    split
    · exact ok
    · exact State.reread_rampsOk ok d
  unfold State.settingEffects
  generalize (if old.activeLevel = s.settings[d].activeLevel then s else s.reread d) = a at line
  have mode : (if old.mode = a.settings[d].mode then a else a.modeChange d).rampsOk := by
    split
    · exact line
    · exact State.modeChange_rampsOk line d
  extract_lets s2
  split
  · exact State.grantEvent_rampsOk mode d
  · exact mode

/-! ## Settings -/

/-- The ramp slots after a change is stored: within 4, and no fewer than the active ramps (R168, R172). -/
theorem State.storedRampSlots (ok : s.rampsOk) (d : Degree) (g : Settings)
    (hg : s.ramps[d].holders.length ≤ g.rampSlots ∧ g.rampSlots ≤ 4) (code : Nat) (v : Int) :
    s.ramps[d].holders.length ≤ (g.store code (s.storedValue d code v)).rampSlots ∧
      (g.store code (s.storedValue d code v)).rampSlots ≤ 4 := by
  by_cases h2 : code = 2
  · subst h2
    obtain ⟨cap, law⟩ := (s.rampsOk_iff).mp ok d
    have := law.room
    show _ ≤ (max (clampInt 1 4 v) (s.activeRamps d : Int)).toNat ∧ (max (clampInt 1 4 v) (s.activeRamps d : Int)).toNat ≤ 4
    unfold State.activeRamps clampInt
    omega
  · have : (g.store code (s.storedValue d code v)).rampSlots = g.rampSlots := by
      unfold Settings.store
      split <;> first | rfl | exact absurd rfl h2
    rw [this]
    exact hg

theorem State.changedRampSlots (ok : s.rampsOk) (d : Degree) (cs : List (Nat × Int)) :
    s.ramps[d].holders.length ≤ (s.changedSettings d cs).rampSlots ∧ (s.changedSettings d cs).rampSlots ≤ 4 := by
  have key : ∀ (cs : List (Nat × Int)) (g : Settings), s.ramps[d].holders.length ≤ g.rampSlots ∧ g.rampSlots ≤ 4 →
      s.ramps[d].holders.length ≤ (cs.foldl (fun g c => g.store c.1 (s.storedValue d c.1 c.2)) g).rampSlots ∧
        (cs.foldl (fun g c => g.store c.1 (s.storedValue d c.1 c.2)) g).rampSlots ≤ 4 := by
    intro cs
    induction cs with
    | nil => exact fun _ hg => hg
    | cons c cs ih => exact fun g hg => ih _ (State.storedRampSlots ok d g hg c.1 c.2)
  obtain ⟨cap, law⟩ := (s.rampsOk_iff).mp ok d
  exact key cs _ ⟨law.room, cap⟩

theorem storeDegree_rampsOk (ok : s.rampsOk) (p : Domain) (d : Degree) (changes : List (Nat × Int)) :
    (storeDegree p d changes s).1.rampsOk := by
  unfold storeDegree
  split
  · exact ok
  · split
    · exact ok
    · dsimp only
      refine State.settingEffects_rampsOk ?_ d _
      obtain ⟨room, cap⟩ := State.changedRampSlots ok d changes
      rw [State.rampsOk_iff] at ok ⊢
      intro k
      show (s.settings.set d (s.changedSettings d changes))[k].rampSlots ≤ 4 ∧
        s.ramps[k].Ok (s.settings.set d (s.changedSettings d changes))[k].rampSlots (s.waitsOn k) (s.rampsOn k)
      rw [get_set]
      split
      · next hk =>
        subst hk
        exact ⟨cap, { (ok k).2 with room := room }⟩
      · exact ok k

end

end Sys2Proof.Machine
end

