-- ==== Sys2Proof/Proofs/Scheduler.lean ====
section
/-! Proofs/Scheduler.lean: the laws of the scheduler through every command, event and reset (O53). -/

set_option Elab.async false

namespace Sys2Proof.Machine
open Sys2Proof

section
variable {s t u : State}

/-! ## What keeps the laws -/

/-- The scheduler's laws, with the law of the pass results that wait, go from a state to the next (R53, R54). -/
def Scheduled (s t : State) : Prop := s.rampsOk ∧ s.passesOk → t.rampsOk ∧ t.passesOk

theorem Scheduled.refl (s : State) : Scheduled s s := id

theorem Scheduled.trans (a : Scheduled s t) (b : Scheduled t u) : Scheduled s u := b ∘ a

/-- What leaves the pass results that wait, and keeps the law of the ramps. -/
theorem Scheduled.of (passes : t.passReqs = s.passReqs) (ramps : s.rampsOk → t.rampsOk) : Scheduled s t :=
  fun ⟨r, p⟩ => ⟨ramps r, by unfold State.passesOk; rwa [passes]⟩

theorem Scheduled.beside (table : t.table = s.table) (ramps : t.ramps = s.ramps) (settings : t.settings = s.settings)
    (passes : t.passReqs = s.passReqs) : Scheduled s t :=
  .of passes fun h => State.rampsOk_of h table ramps settings

theorem Scheduled.finish (s : State) : Scheduled s s.finish := .beside (by simp) (by simp) (by simp) (by simp)

theorem Scheduled.ended (passes : t.passReqs = s.passReqs) (ramps : s.rampsOk → t.rampsOk) : Scheduled s t.finish :=
  (Scheduled.of passes ramps).trans (.finish t)

theorem Scheduled.wires (w : Wires s t) : Scheduled s t := .beside w.table w.ramps w.settings w.passes

theorem Scheduled.command {p : Domain} {tag : Byte} {i : Instr} {body : State → State × Answer}
    (h : runCommand p tag i body s = .next t) (hb : Scheduled s (body s).1) : Scheduled s t := by
  have replied : ∀ (u : State) (a : Answer), Scheduled u (u.reply p tag a) := fun u a =>
    .beside (by simp) (by simp) (by simp) (by simp)
  obtain rfl | ⟨-, rfl⟩ | rfl := runCommand_run h
  · exact .refl _
  · exact hb.trans (replied _ _)
  · exact replied _ _

theorem Scheduled.running {f : State → State} (h : whileRunning s f = .next t) (hf : Scheduled s (f s)) : Scheduled s t := by
  obtain rfl | ⟨-, rfl⟩ := whileRunning_run h
  · exact .refl _
  · exact hf

theorem Scheduled.withHandle {slot : Nat} {gen : BitVec 8} {k : SlotIx → Conn → State × Answer}
    (h : ∀ i c, s.conn i = some c → Scheduled s (k i c).1) : Scheduled s (withHandle s slot gen k).1 := by
  obtain ⟨code, he⟩ | ⟨i, c, hc, he⟩ := withHandle_cases s slot gen k
  · rw [he]
    exact .refl s
  · rw [he]
    exact h i c ((s.find_eq_some _ c).mp hc).2

theorem Scheduled.withManagedDegree {p : Domain} {degree : Nat} {k : Degree → State × Answer}
    (h : ∀ d, Scheduled s (k d).1) : Scheduled s (withManagedDegree s p degree k).1 := by
  unfold Machine.withManagedDegree
  split
  · exact .refl s
  · split
    · exact h _
    · exact .refl s

theorem Scheduled.foldl {α : Type} {f : State → α → State} (hf : ∀ s a, Scheduled s (f s a)) (l : List α) (s : State) :
    Scheduled s (l.foldl f s) := by
  induction l generalizing s with
  | nil => exact .refl s
  | cons a l ih => exact (hf s a).trans (ih _)

/-! ## Commands on connections -/

theorem Scheduled.acceptBody (p : Domain) (slot : Nat) (gen : BitVec 8) : Scheduled s (acceptBody p slot gen s).1 :=
  .withHandle fun i c hi => by
    split
    · exact .refl s
    · split
      · exact .refl s
      · next hs =>
        dsimp only
        exact .ended (by simp) fun ok => State.rampsOk_of (State.armRecord_rampsOk ok hi (.inl (by simpa using hs)))
          (by simp) (by simp) (by simp)

theorem Scheduled.declineBody (p : Domain) (slot : Nat) (gen : BitVec 8) : Scheduled s (declineBody p slot gen s).1 :=
  .withHandle fun i c hi => by
    split
    · exact .refl s
    · split
      · exact .refl s
      · next hs =>
        obtain ⟨pends, ramping⟩ := Conn.new_apart (c := c) (.inl (by simpa using hs))
        dsimp only
        exact .ended (by simp) fun ok => State.rampsOk_of (State.freeRecord_rampsOk ok hi pends ramping)
          (by simp) (by simp) (by simp)

theorem Scheduled.activateBody (p : Domain) (slot : Nat) (gen : BitVec 8) : Scheduled s (activateBody p slot gen s).1 :=
  .withHandle fun i c hi => by
    split
    · exact .refl s
    · split
      · exact .refl s
      · next hs =>
        dsimp only
        exact .ended (by simp) fun ok => State.activateRecord_rampsOk ok hi (by simpa using hs)

theorem Scheduled.releaseBody (p : Domain) (slot : Nat) (gen : BitVec 8) : Scheduled s (releaseBody p slot gen s).1 :=
  .withHandle fun i c hi => by
    split
    · exact .refl s
    · split
      · exact .refl s
      · dsimp only
        exact .ended (by simp) fun ok => State.releaseRecord_rampsOk ok hi p

theorem Scheduled.rewritten {i : SlotIx} {c c' : Conn} (hi : s.conn i = some c) (route : c'.route = c.route)
    (state : c'.state = c.state) : Scheduled s (s.putConn i (some c')) :=
  .of rfl fun ok => State.rampsOk_rewritten ok hi route (by rw [state]) (by rw [state]) rfl rfl rfl

theorem Scheduled.setTargetBody (p : Domain) (slot : Nat) (gen : BitVec 8) (level : Int) :
    Scheduled s (setTargetBody p slot gen level s).1 :=
  .withHandle fun i c hi => by
    split
    · exact .refl s
    · split
      · exact .refl s
      · exact .rewritten hi rfl rfl

theorem Scheduled.setDropAttenBody (p : Domain) (slot : Nat) (gen : BitVec 8) (atten : Int) :
    Scheduled s (setDropAttenBody p slot gen atten s).1 :=
  .withHandle fun i c hi => by
    split
    · split
      · exact .refl s
      · dsimp only
        split
        · exact .rewritten hi rfl rfl
        · exact .rewritten hi rfl rfl
        · dsimp only
          exact .ended (by simp) fun ok => State.rampsOk_rewritten (c' := { c with
            dropAtten := some (clampInt 0 250 atten).toNat, shadow := .att (clampInt 0 250 atten).toNat })
            ok hi rfl .rfl .rfl (by simp) (by simp) (by simp)
        · exact .refl s
    · exact .refl s

theorem Scheduled.proposeBody (p : Domain) (source sink first width hold auto : Nat) (level : Int) (notify : Nat) :
    Scheduled s (proposeBody p source sink first width hold auto level notify s).1 := by
  obtain he | ⟨i, c, hi, -, new, -, he⟩ := proposeBody_cases p source sink first width hold auto level notify s
  · rw [he]
    exact .refl s
  · rw [he]
    exact .ended (State.enterRecord_frame s i c).1 fun ok => State.enterRecord_rampsOk ok hi new

/-! ## Commands on degrees, endpoints and links -/

theorem Scheduled.takeHandOff (s : State) (d : Degree) : Scheduled s (s.takeHandOff d) :=
  .of (by simp) fun ok => State.takeHandOff_rampsOk ok d

theorem storeDegree_passReqs (p : Domain) (d : Degree) (changes : List (Nat × Int)) (s : State) :
    (storeDegree p d changes s).1.passReqs = s.passReqs := by
  unfold storeDegree
  split
  · rfl
  · split
    · rfl
    · exact (State.settingEffects_frame _ _ _).1

theorem Scheduled.setDegreeBody (p : Domain) (degree : Nat) (changes : List (Nat × Int)) :
    Scheduled s (setDegreeBody p degree changes s).1 := by
  obtain he | ⟨d, -, he⟩ := setDegreeBody_cases p degree changes s
  · rw [he]
    exact .refl s
  · rw [he]
    exact (Scheduled.takeHandOff s d).trans
      (.ended (storeDegree_passReqs ..) fun ok => storeDegree_rampsOk ok p d changes)

theorem Scheduled.clearTripBody (p : Domain) (degree : Nat) : Scheduled s (clearTripBody p degree s).1 :=
  .withManagedDegree fun d => by
    split
    · dsimp only
      exact .ended (by simp) fun ok => State.endTrip_rampsOk ok d
    · exact .refl s

theorem Scheduled.rearmBody (p : Domain) (degree : Nat) : Scheduled s (rearmBody p degree s).1 :=
  .withManagedDegree fun d => by
    dsimp only
    split <;> exact .beside rfl rfl rfl rfl

theorem Scheduled.claimBody (p : Domain) (endpoint : Nat) : Scheduled s (claimBody p endpoint s).1 := by
  unfold Machine.claimBody
  split
  · exact .refl s
  · split
    · exact .beside rfl rfl rfl rfl
    · split <;> exact .refl s

theorem Scheduled.handOverBody (p : Domain) (endpoint domain : Nat) :
    Scheduled s (handOverBody p endpoint domain s).1 := by
  unfold Machine.handOverBody
  split
  · split
    · exact .refl s
    · split
      · exact .refl s
      · split
        · exact .refl s
        · exact .beside (by simp) (by simp) (by simp) (by simp)
  · exact .refl s

theorem Scheduled.unclaimBody (p : Domain) (endpoint : Nat) : Scheduled s (unclaimBody p endpoint s).1 := by
  unfold Machine.unclaimBody
  split
  · exact .refl s
  · split
    · exact .refl s
    · split
      · exact .refl s
      · exact .beside rfl rfl rfl rfl

theorem Scheduled.resynced (s : State) (l : LinkId) (byRetry : Bool) : Scheduled s (s.resync l byRetry) := by
  unfold State.resync
  exact .beside (by simp) (by simp) (by simp) (by simp)

theorem Scheduled.prompt (s : State) : Scheduled s s.prompt := .beside (by simp) (by simp) (by simp) (by simp)

theorem Scheduled.choice (s : State) : Scheduled s s.choice := .beside (by simp) (by simp) (by simp) (by simp)

theorem Scheduled.retryLinkBody (p : Domain) (link : Nat) : Scheduled s (retryLinkBody p link s).1 := by
  unfold Machine.retryLinkBody
  split
  · exact .refl s
  · split
    · exact .refl s
    · split
      · exact .refl s
      · exact (Scheduled.resynced s _ true).trans (.prompt _)

/-! ## The monitor port and the pass -/

theorem Scheduled.failRequest (s : State) (f : Tap → MonFailure) : Scheduled s (s.failRequest f) := by
  unfold State.failRequest
  exact .beside (by simp) (by simp) (by simp) (by simp)

/-- What a pass computes ends a ramp in the one state its direction has, or changes no state (R103, R111 to R114). -/
theorem passResultOf_endsRamp {st : Settings} {h : Handle} {c : Conn} {level : Int} {r : PassResult}
    (hr : passResultOf st h c level = some r) : r.EndsRamp := by
  unfold passResultOf at hr
  split at hr
  · cases hr
    exact .inl rfl
  · cases hr
    unfold rampUpPass
    dsimp only
    split
    · exact .inr (.inl ⟨rfl, rfl⟩)
    · split
      · exact .inr (.inl ⟨rfl, rfl⟩)
      · exact .inl rfl
  · cases hr
    unfold rampDownPass
    split
    · exact .inl rfl
    · exact .inr (.inr ⟨rfl, rfl⟩)
  · cases hr

theorem Scheduled.runPass (s : State) (d : Degree) (readings : List Int) : Scheduled s (s.runPass d readings) := by
  refine fun ⟨ramps, passes⟩ => ⟨State.rampsOk_of ramps rfl rfl rfl, fun k r hr => ?_⟩
  have hr' : r ∈ (s.passReqs.set d (s.passReqs[d] ++ (s.sinking d).filterMap fun i =>
      (s.conn i).bind fun c => passResultOf s.settings[d] (s.handleAt i) c (spanLevel readings c.span)))[k] := hr
  rw [get_set] at hr'
  split at hr'
  · obtain hr' | hr' := List.mem_append.mp hr'
    · exact passes d r hr'
    · obtain ⟨i, -, hi⟩ := List.mem_filterMap.mp hr'
      obtain ⟨c, -, hc⟩ := Option.bind_eq_some_iff.mp hi
      exact passResultOf_endsRamp hc
  · exact passes k r hr'

theorem Scheduled.completeSweep (s : State) (readings : List Int) : Scheduled s (s.completeSweep readings) := by
  unfold State.completeSweep
  dsimp only
  refine .trans (t := { s with
    banks := s.banks.set s.mon.tap.code (some (s.newBank readings))
    mon := { s.mon with
      state := .idle, timer := none, count := Config.openCount s.freeCount, buffer := [], sample := none }
    freeCount := s.freeCount + 1 }) (.beside rfl rfl rfl rfl)
    (.trans ?_ (.choice _))
  unfold State.handOn
  split
  · split
    · exact .runPass _ _ _
    · exact .refl _
  · exact .beside rfl rfl rfl rfl

theorem Scheduled.headerWord {w : BitVec 16} (h : execHeaderWord w s = .next t) : Scheduled s t :=
  .running h (by
    split
    · exact .refl s
    · exact .failRequest s _
    · split
      · exact .beside rfl rfl rfl rfl
      · exact .failRequest s _)

theorem Scheduled.readingWord {w : BitVec 16} (h : execReadingWord w s = .next t) : Scheduled s t :=
  .running h (by
    split
    · split
      · exact .beside rfl rfl rfl rfl
      · exact .completeSweep s _
    · exact .refl s)

theorem Scheduled.takeSweepExpiry (s : State) : Scheduled s s.takeSweepExpiry := by
  obtain he | ⟨-, he⟩ := s.takeSweepExpiry_cases
  · rw [he]
    exact .refl s
  · rw [he]
    exact .failRequest s _

/-! ## Links -/

theorem Scheduled.failed (s : State) (l : LinkId) (b : Batch) (f : LinkFailure) : Scheduled s (s.failLink l b f) := by
  unfold State.failLink
  refine .trans (.beside ?_ ?_ ?_ ?_) (.prompt _)
  · simp
  · unfold State.tellLinkFault
    split <;> simp
  · simp
  · simp

theorem Scheduled.takeFault (s : State) (l : LinkId) (seq : BitVec 8) (cause : Nat) :
    Scheduled s (s.takeFault l seq cause) := by
  unfold State.takeFault
  split
  · exact .refl s
  · split
    · exact .failed s l _ _
    · exact .refl s

theorem Scheduled.takeReplyExpiry (s : State) (l : LinkId) : Scheduled s (s.takeReplyExpiry l) := by
  obtain he | ⟨b, -, -, he⟩ := s.takeReplyExpiry_cases l
  · rw [he]
    exact .refl s
  · rw [he]
    exact .failed s l b _

theorem State.linkReady_rampsOk (ok : s.rampsOk) (l : LinkId) (kind : BatchKind) : (s.linkReady l kind).rampsOk := by
  unfold State.linkReady
  split
  · next d _ =>
    have offered := State.offerEvent_rampsOk ok d
    dsimp only
    split
    · exact State.rampsOk_of offered (by simp) (by simp) (by simp)
    · exact offered
  · split
    · exact State.rampsOk_of ok (by simp) (by simp) (by simp)
    · exact ok

theorem Scheduled.completeBatch (s : State) (l : LinkId) (b : Batch) : Scheduled s (s.completeBatch l b) := by
  obtain ⟨table, -, ramps, -, -, -, -, settings, passes, -⟩ := s.batchDone_frame l b
  rw [State.completeBatch_eq]
  refine Scheduled.ended (by simp [(s.batchSettled_frame l b).1]) fun ok => ?_
  have drained : ((s.batchDone l b).drainLink l).rampsOk := by
    have done : (s.batchDone l b).rampsOk := State.rampsOk_of ok table ramps settings
    unfold State.drainLink
    split
    · exact State.drainTests_rampsOk _ done
    · exact done
  have settled : (s.batchSettled l b).rampsOk := by
    unfold State.batchSettled
    split
    · exact State.linkReady_rampsOk drained l b.kind
    · exact drained
  exact State.rampsOk_of settled (by simp) (by simp) (by simp)

theorem Scheduled.takeDone (s : State) (l : LinkId) (seq : BitVec 8) : Scheduled s (s.takeDone l seq) := by
  obtain he | ⟨b, -, he⟩ := s.takeDone_cases l seq
  · rw [he]
    exact .refl s
  · rw [he]
    exact .completeBatch s l b

theorem Scheduled.discardedFrame {l : LinkId} {octets : List Byte} (h : execDiscardedFrame l octets s = .next t) :
    Scheduled s t :=
  .running h (by
    split
    · exact .takeDone s l _
    · exact .takeFault s l _ _
    · exact .refl s)

/-! ## Requests that wait at CNM -/

theorem Scheduled.grant {d : Degree} (h : execGrant d s = .next t) : Scheduled s t :=
  .running h (by
    split
    · exact .refl s
    · next r rest _ =>
      refine .ended ?_ fun ok => State.answerGrant_rampsOk (s := { s with grantReqs := s.grantReqs.set d rest })
        (State.rampsOk_of ok rfl rfl rfl) d r
      unfold State.answerGrant
      split <;> simp)

theorem Scheduled.passResult {d : Degree} (h : execPassResult d s = .next t) : Scheduled s t :=
  .running h (by
    split
    · exact .refl s
    · next r rest hr =>
      refine .trans (fun ⟨ramps, passes⟩ => ?_) (.finish _)
      have head : r ∈ s.passReqs[d] := hr ▸ List.mem_cons_self ..
      refine ⟨State.takeResult_rampsOk (s := { s with passReqs := s.passReqs.set d rest })
        (State.rampsOk_of ramps rfl rfl rfl) (passes d r head) d, fun k x hx => ?_⟩
      rw [(State.takeResult_frame _ d r).1, get_set] at hx
      split at hx
      · exact passes d x (hr ▸ List.mem_cons_of_mem _ hx)
      · exact passes k x hx)

theorem Scheduled.declaration {i : SlotIx} {gen : BitVec 8} (h : execDeclaration i gen s = .next t) : Scheduled s t :=
  .running h (by
    dsimp only
    split
    · exact .refl s
    · next r _ =>
      have taken : Scheduled s { s with declReqs := s.declReqs.eraseP (·.handle == ⟨i, gen⟩) } :=
        .beside rfl rfl rfl rfl
      split
      · exact taken
      · next c hc =>
        exact taken.trans (.ended (by simp) fun ok =>
          State.applyDeclaration_rampsOk ok ((State.find_eq_some _ _ c).mp hc).2))

/-! ## Timers and trip lines -/

theorem Scheduled.takeReservation (s : State) (i : SlotIx) : Scheduled s (s.takeReservation i) := by
  obtain he | ⟨c, hc, hs, -, he⟩ := s.takeReservation_cases i
  · rw [he]
    exact .refl s
  · obtain ⟨pends, ramping⟩ := Conn.new_apart (.inl hs)
    rw [he]
    refine .ended (by simp) fun ok => State.rampsOk_of (State.freeRecord_rampsOk ok hc pends ramping) ?_ ?_ ?_
    all_goals
      refine foldl_keeps _ _ ?_ _ _
      intro s q
      simp

theorem Scheduled.takeHoldExpiry (s : State) (d : Degree) : Scheduled s (s.takeHoldExpiry d) := by
  obtain he | ⟨-, -, -, he⟩ := s.takeHoldExpiry_cases d
  · rw [he]
    exact .refl s
  · rw [he]
    exact .beside rfl rfl rfl rfl

theorem Scheduled.lineEvent {d : Degree} {high : Bool} (h : execLineEvent d high s = .next t) : Scheduled s t :=
  Scheduled.trans (t := { s with tripPins := s.tripPins.set d high }) (.beside rfl rfl rfl rfl) (.running h (by
    unfold State.sampleLine
    split <;> exact .beside rfl rfl rfl rfl))

theorem Scheduled.takeExpiries (s : State) : Scheduled s s.takeExpiries :=
  (((Scheduled.foldl Scheduled.takeReservation _ s).trans (.takeSweepExpiry _)).trans
    (.foldl Scheduled.takeReplyExpiry _ _)).trans (.foldl Scheduled.takeHoldExpiry _ _)

theorem Scheduled.nodeTimeAdvance (h : execNodeTimeAdvance s = .next t) : Scheduled s t := by
  have ticked : ∀ u : State, Scheduled u u.tick := fun _ => .beside rfl rfl rfl rfl
  cases hh : s.held with
  | none =>
    rw [execNodeTimeAdvance_running hh] at h
    rw [← Host.Outcome.next.inj h]
    exact (Scheduled.takeExpiries s).trans (ticked _)
  | some kind =>
    cases kind with
    | warm =>
      rw [execNodeTimeAdvance_warm hh] at h
      cases h
      exact ticked s
    | cold =>
      rw [execNodeTimeAdvance_cold hh] at h
      cases h
      exact .refl s

end

end Sys2Proof.Machine
end

