-- ==== Sys2Proof/Proofs/RampResets.lean ====
section
/-! Proofs/RampResets.lean: the laws of the scheduler through the resets, and through every step (O53). -/

set_option Elab.async false

namespace Sys2Proof.Machine
open Sys2Proof

section
variable {s t u : State}

/-! ## Entering a reset -/

/-- The scheduler's laws in a state with no record, an empty scheduler and no pass result waiting. -/
theorem State.scheduled_of_empty (empty : ∀ i, s.conn i = none) (passes : ∀ d : Degree, s.passReqs[d] = [])
    (ramps : ∀ d : Degree, s.ramps[d].queue = [] ∧ s.ramps[d].holders = [] ∧ s.settings[d].rampSlots ≤ 4) :
    s.rampsOk ∧ s.passesOk := by
  have none : ∀ d h a b, ¬ s.sinksIn d h a b := by
    rintro d h a b ⟨c, hc, -⟩
    have := ((s.find_eq_some h c).mp hc).2
    rw [empty] at this
    cases this
  refine ⟨fun d => ?_, fun d r hr => ?_⟩
  · obtain ⟨queue, holders, cap⟩ := ramps d
    rw [queue, holders]
    exact ⟨Nat.zero_le _, cap, List.nodup_nil, List.Pairwise.nil, by simp [none], by simp [none], by simp⟩
  · rw [passes d] at hr
    cases hr

theorem Scheduled.enterCold (s : State) : Scheduled s s.enterCold := by
  refine fun _ => State.scheduled_of_empty (fun i => ?_) (fun d => ?_) fun d => ?_
  · show (Vector.replicate 128 (⟨0, none⟩ : Slot))[i].conn = none
    simp
  · show (Vector.replicate 4 [])[d] = []
    simp
  · show State.reset.ramps[d].queue = [] ∧ State.reset.ramps[d].holders = [] ∧ State.reset.settings[d].rampSlots ≤ 4
    revert d
    decide

theorem State.warmFree_rampsOk (ok : s.rampsOk) (i : SlotIx) : (s.warmFree i).rampsOk := by
  unfold State.warmFree
  split
  · exact ok
  · next c hc =>
    split
    · next hs =>
      obtain ⟨pends, ramping⟩ := Conn.new_apart (.inl hs)
      exact State.freeRecord_rampsOk ok hc pends ramping
    · exact ok

theorem Scheduled.enterWarm (s : State) : Scheduled s s.enterWarm := by
  rintro ⟨ramps, -⟩
  refine ⟨?_, fun d r hr => ?_⟩
  · have freed : (slots.foldl State.warmFree s).rampsOk :=
      State.rampsOk_foldl (fun _ i ok => State.warmFree_rampsOk ok i) _ ramps
    unfold State.enterWarm
    generalize slots.foldl State.warmFree s = u at freed
    exact State.rampsOk_of freed rfl rfl rfl
  · rw [(s.requests_enterWarm d).2.1] at hr
    cases hr

/-! ## Leaving a reset -/

theorem State.ramps_rebuild (s : State) (d : Degree) : s.rebuild.ramps[d] = s.rebuiltRamps d := by
  unfold State.rebuild
  fin_cases d <;> rfl

/-- The handles of the records of a degree in the states that a test picks, in ascending slot order (R64). -/
def State.picked (s : State) (d : Degree) (f : CState → Bool) : List Handle :=
  ((s.sinking d).filter fun i => (s.conn i).any fun c => f c.state).map s.handleAt

theorem State.rebuiltRamps_eq (s : State) (d : Degree) : s.rebuiltRamps d =
    ⟨(s.picked d fun k => k == .pendingUp || k == .pendingDown).map fun h => ⟨h, none⟩,
      (s.picked d CState.ramping).map fun h => ⟨h, none⟩, s.ramps[d].offerCount⟩ := by
  simp only [State.rebuiltRamps, State.picked, List.map_map]
  rfl

theorem State.picked_slots (s : State) (d : Degree) (f : CState → Bool) :
    ((s.picked d f).map (·.slot.val)).Pairwise (· < ·) := by
  have ascending : (slots.map Fin.val).Pairwise (· < ·) := by
    rw [List.pairwise_map]
    exact List.pairwise_lt_finRange 128
  rw [State.picked, List.map_map]
  exact ascending.sublist ((List.filter_sublist.trans List.filter_sublist).map _)

theorem State.mem_picked (s : State) (d : Degree) (f : CState → Bool) (h : Handle) : h ∈ s.picked d f ↔
    ∃ c, s.find h = some c ∧ c.route.sinkDegree = some d ∧ f c.state = true := by
  simp only [State.picked, List.mem_map, List.mem_filter, State.mem_sinking, Option.any_eq_true]
  constructor
  · rintro ⟨i, ⟨⟨c, hc, hd⟩, a, ha, hs⟩, rfl⟩
    rw [hc] at ha
    cases ha
    exact ⟨c, (s.find_handleAt i).trans hc, hd, hs⟩
  · rintro ⟨c, hc, hd, hs⟩
    have hi := ((s.find_eq_some h c).mp hc).2
    exact ⟨h.slot, ⟨⟨c, hi, hd⟩, c, hi, hs⟩, State.handleAt_of_find hc⟩

/-- RSC's state rebuilt from the records fits them; the ramps are those that held a slot (R64). -/
theorem State.rebuild_rampsOk (ok : s.rampsOk) : s.rebuild.rampsOk := by
  rw [State.rampsOk_iff]
  intro d
  obtain ⟨cap, law⟩ := (s.rampsOk_iff).mp ok d
  refine ⟨cap, ?_⟩
  rw [State.ramps_rebuild, State.rebuiltRamps_eq]
  have nodup : ∀ f : CState → Bool, (s.picked d f).Nodup := fun f =>
    List.Pairwise.of_map _ (fun a b hne e => hne (by rw [e])) ((s.picked_slots d f).imp fun hlt => Nat.ne_of_lt hlt)
  have find : ∀ h, s.rebuild.find h = s.find h := State.find_of_table rfl
  refine ⟨?room, ?once, ?order, fun h => ?_, fun h => ?_, fun h n => by simp⟩
  case room =>
    have held : (s.picked d CState.ramping).map (fun h => (⟨h, none⟩ : SlotHolder)) ⊆ s.ramps[d].holders := by
      intro x hx
      obtain ⟨h, hh, rfl⟩ := List.mem_map.mp hx
      obtain ⟨c, hc, hd, hs⟩ := (s.mem_picked d _ h).mp hh
      refine (law.held h).mpr ⟨c, hc, hd, ?_⟩
      cases hk : c.state <;> simp [hk, CState.ramping] at hs ⊢
    exact ((((nodup _).map fun a b e => by cases e; rfl).subperm held).length_le).trans law.room
  case once =>
    rw [List.map_map]
    simpa [Function.comp_def] using nodup _
  case order =>
    rw [List.map_map]
    exact s.picked_slots d _
  · simp only [List.mem_map, exists_exists_and_eq_and, exists_eq_right, State.mem_picked]
    exact exists_congr fun c => by simp [find]
  · simp only [List.mem_map, SlotHolder.mk.injEq, and_true, exists_eq_right, State.mem_picked]
    exact exists_congr fun c => by cases c.state <;> simp [CState.ramping, find]

theorem State.coldLine_rampsOk (ok : s.rampsOk) (d : Degree) : (s.coldLine d).rampsOk := by
  have line := State.setLine_rampsOk ok d (s.readLine d)
  unfold State.coldLine
  dsimp only
  split
  · exact State.enterTripped_rampsOk line d
  · exact line

theorem State.warmLine_rampsOk (ok : s.rampsOk) (d : Degree) : (s.warmLine d).rampsOk := by
  have line := State.setLine_rampsOk ok d (s.readLine d)
  have hold : (if s.settings[d].hold = 0 then (s.setLine d (s.readLine d)).endTrip d
      else (s.setLine d (s.readLine d)).enterHolding d).rampsOk := by
    split
    · exact State.endTrip_rampsOk line d
    · exact State.enterHolding_rampsOk line d
  unfold State.warmLine
  dsimp only
  split
  · exact line
  · exact State.enterTripped_rampsOk line d
  · exact line
  · split
    · exact line
    · exact hold
  · exact hold
  · exact State.enterTripped_rampsOk line d

theorem State.takeUp_rampsOk (kind : ResetKind) (ok : s.rampsOk) (w : ResetWork) : (s.takeUp kind w).rampsOk := by
  cases w with
  | line d =>
    cases kind with
    | cold => exact State.coldLine_rampsOk ok d
    | warm => exact State.warmLine_rampsOk ok d
  | batch l =>
    cases kind with
    | cold => exact State.rampsOk_of ok (by simp [State.takeUp]) (by simp [State.takeUp]) (by simp [State.takeUp])
    | warm =>
      exact State.rampsOk_of ok (by simp [State.takeUp, State.resync]) (by simp [State.takeUp, State.resync])
        (by simp [State.takeUp, State.resync])
  | choice => exact State.rampsOk_of ok (by simp [State.takeUp]) (by simp [State.takeUp]) (by simp [State.takeUp])

theorem State.keptTripFlags_rampsOk (ok : s.rampsOk) (before : State) : (s.keptTripFlags before).rampsOk := by
  unfold State.keptTripFlags
  refine State.rampsOk_foldl (fun s d ok => ?_) _ ok
  split
  · exact State.rampsOk_of ok (by simp) (by simp) (by simp)
  · exact ok

theorem Scheduled.leave (s : State) (kind : ResetKind) (order : List ResetWork) : Scheduled s (s.leave kind order) := by
  have passes : ∀ (k : ResetKind) (u : State), ((workOrder order).foldl (State.takeUp k) u).passReqs = u.passReqs :=
    fun k u => foldl_keeps (·.passReqs) _ (fun s w => (s.takeUp_frame k w).1) _ _
  have flushed : ∀ u : State, Scheduled u u.flushLinks := fun _ => .beside (by simp) (by simp) (by simp) (by simp)
  cases kind with
  | cold =>
    exact (Scheduled.of (passes .cold s.startLinks) fun ok =>
      State.rampsOk_foldl (fun _ w ok => State.takeUp_rampsOk .cold ok w) _ (State.rampsOk_of ok rfl rfl rfl)).trans
        (flushed _)
  | warm =>
    refine (Scheduled.of (s := s) (((State.keptTripFlags_frame _ s).1).trans (passes .warm s.startLinks.rebuild)) fun ok =>
      State.keptTripFlags_rampsOk (State.rampsOk_foldl (fun _ w ok => State.takeUp_rampsOk .warm ok w) _ ?_) s).trans
        (flushed _)
    exact State.rebuild_rampsOk (State.rampsOk_of ok rfl rfl rfl)

/-! ## Every step -/

/-- Every command and event keeps the scheduler's laws. -/
theorem exec_scheduled {i : Instr} (h : exec i s = .next t) : Scheduled s t := by
  cases i with
  | commandTransaction p e => cases h; exact .wires (.portEvent s p e)
  | claim p tag e => exact .command h (.claimBody p e)
  | handOver p tag e q => exact .command h (.handOverBody p e q)
  | unclaim p tag e => exact .command h (.unclaimBody p e)
  | readEndpoints p tag => exact .command (body := fun s => (s, ⟨.ok, s.endpointResults⟩)) h (.refl s)
  | propose p tag source sink first width hold auto level notify =>
    exact .command h (.proposeBody p source sink first width hold auto level notify)
  | accept p tag slot gen => exact .command h (.acceptBody p slot gen)
  | decline p tag slot gen => exact .command h (.declineBody p slot gen)
  | activate p tag slot gen => exact .command h (.activateBody p slot gen)
  | release p tag slot gen => exact .command h (.releaseBody p slot gen)
  | setTarget p tag slot gen level => exact .command h (.setTargetBody p slot gen level)
  | setDropAtten p tag slot gen atten => exact .command h (.setDropAttenBody p slot gen atten)
  | readConn p tag slot gen => exact .command h (by rw [readConnBody_state]; exact .refl s)
  | listSpans p tag degree list start => exact .command h (by rw [listSpansBody_state]; exact .refl s)
  | readLevel p tag tap first width => exact .command h (by rw [readLevelBody_state]; exact .refl s)
  | setDegree p tag degree changes => exact .command h (.setDegreeBody p degree changes)
  | readDegree p tag degree => exact .command h (by rw [readDegreeBody_state]; exact .refl s)
  | clearTrip p tag degree => exact .command h (.clearTripBody p degree)
  | retryLink p tag link => exact .command h (.retryLinkBody p link)
  | readExcursions p tag degree => exact .command h (by rw [readExcursionsBody_state]; exact .refl s)
  | rearmExcursions p tag degree => exact .command h (.rearmBody p degree)
  | fetchNotice p tag => exact .wires (.command h (.portBody (i := .fetchNotice p tag) rfl))
  | readPort p tag => exact .wires (.command h (.portBody (i := .readPort p tag) rfl))
  | clearFlags p tag flags => exact .wires (.command h (.portBody (i := .clearFlags p tag flags) rfl))
  | setMask p tag flags => exact .wires (.command h (.portBody (i := .setMask p tag flags) rfl))
  | setAllNotices p tag option => exact .wires (.command h (.portBody (i := .setAllNotices p tag option) rfl))
  | resetPort p tag => exact .wires (.command h (.portBody (i := .resetPort p tag) rfl))
  | readNode p tag => exact .command (body := fun s => (s, ⟨.ok, s.nodeResults⟩)) h (.refl s)
  | headerWord w => exact .headerWord h
  | readingWord w => exact .readingWord h
  | sweepTimeout => exact .running h (.takeSweepExpiry s)
  | done l seq => exact .running (f := fun s => s.takeDone l seq) h (.takeDone s l seq)
  | fault l seq cause => exact .running (f := fun s => s.takeFault l seq cause) h (.takeFault s l seq cause)
  | replyTimeout l => exact .running (f := fun s => s.takeReplyExpiry l) h (.takeReplyExpiry s l)
  | discardedFrame l octets => exact .discardedFrame h
  | grant d => exact .grant h
  | passResult d => exact .passResult h
  | declaration i gen => exact .declaration h
  | reservationExpiry i => exact .running (f := fun s => s.takeReservation i) h (.takeReservation s i)
  | lineEvent d high => exact .lineEvent h
  | tripHandOff d =>
    change execTripHandOff d s = .next t at h
    exact .running h (by
      split
      · exact (Scheduled.takeHandOff s d).trans (.finish _)
      · exact .refl s)
  | holdExpiry d => exact .running (f := fun s => s.takeHoldExpiry d) h (.takeHoldExpiry s d)
  | coldReset =>
    cases h
    split
    · exact .refl s
    · exact .enterCold s
  | warmReset =>
    cases h
    split
    · exact .refl s
    · exact .enterWarm s
  | leaveReset order =>
    change execLeaveReset order s = .next t at h
    unfold execLeaveReset at h
    split at h
    · cases h
      exact .refl _
    · next kind _ =>
      cases h
      exact .leave s kind order
  | nodeTimeAdvance => exact .nodeTimeAdvance h

end

/-- Settles O53, by the law of each degree's ramps kept by every command and event. -/
theorem stepKeepsTheRamps : Obligations.StepKeepsTheRamps := by
  unfold Obligations.StepKeepsTheRamps
  intro s t ramps passes h
  obtain rfl | ⟨i, rest, he⟩ := step_cases h
  · exact ⟨ramps, passes⟩
  · exact exec_scheduled he ⟨State.rampsOk_of ramps rfl rfl rfl, passes⟩

end Sys2Proof.Machine
end

