-- ==== Sys2Proof/Proofs/Trips.lean ====
section
/-! Proofs/Trips.lean: what the work of a trip leaves: the records of a degree that trips, or whose trip ends. -/

set_option Elab.async false

namespace Sys2Proof.Machine
open Sys2Proof

section
variable {s t u w : State} {d : Degree} {i : SlotIx} {c c' : Conn}

/-! ## A degree that grants nothing -/

/-- A degree whose link is not READY, or whose trip is in force, grants nothing (R57). -/
def State.shut (s : State) (d : Degree) : Prop := s.links[degreeLink d].state ≠ .ready ∨ s.trips[d].state ≠ .clear

theorem State.shut.canGrant (h : s.shut d) : s.canGrant d = false := by
  obtain h | h := h <;> simp [-Fin.getElem_fin, State.canGrant, State.tripInForce, h]

theorem State.shut.of (h : s.shut d) (links : t.links[degreeLink d].state = s.links[degreeLink d].state)
    (trips : t.trips = s.trips) : t.shut d := by
  unfold State.shut
  rwa [links, trips]

theorem State.shut.grantEvent (h : s.shut d) : s.grantEvent d = s := State.grantEvent_none s d h.canGrant

/-- A record that leaves the queue, the entry's slot with it, and nothing granted (R56). -/
theorem State.shut.leaveQueue (shut : s.shut d) (h : Handle) : ∃ f, s.leaveQueue d h = s.mapRamps d f := by
  unfold State.leaveQueue
  split
  · exact ⟨id, by simp [State.mapRamps]⟩
  · split
    · exact ⟨_, rfl⟩
    · exact ⟨_, State.shut.grantEvent (s := s.mapRamps d _) shut⟩

theorem State.shut.freeRamp (shut : s.shut d) (h : Handle) : ∃ f, s.freeRamp d h = s.mapRamps d f :=
  ⟨_, State.shut.grantEvent (s := s.mapRamps d _) shut⟩

theorem State.shut.joinQueue (shut : s.shut d) (h : Handle) :
    s.joinQueue d h = s.mapRamps d fun r => { r with queue := r.queue ++ [⟨h, none⟩] } :=
  State.shut.grantEvent (s := s.mapRamps d _) shut

theorem State.shut.told (h : s.shut d) (k : Handle) (c : Conn) (kind : NoticeKind) (v : Option Int) :
    (s.tellConn k c kind v).shut d := h.of (by simp) (by simp)

theorem State.shut.put (h : s.shut d) (i : SlotIx) (c : Option Conn) : (s.putConn i c).shut d := h

theorem State.shut.marked (h : s.shut d) (l : LinkId) : (s.mark l).shut d := h.of (State.state_mark ..) (by simp)

/-! ## Requests to add and to remove a cause -/

/-- One record of a slot rewritten, RSC's state of one degree changed, links marked and ports told: all that a request to
add or to remove a cause does where nothing is granted. -/
structure Recaused (d : Degree) (i : SlotIx) (c' : Conn) (s t : State) : Prop where
  table : t.table = (s.putConn i (some c')).table
  ramps : ∀ k : Degree, k ≠ d → t.ramps[k] = s.ramps[k]
  links : SameLinks s t

theorem State.table_putConn_self (hi : s.conn i = some c) : s.table = (s.putConn i (some c)).table := by
  rw [State.putConn_table, ← hi]
  exact (Vector.set_getElem_self ..).symm

theorem Recaused.refl (hi : s.conn i = some c) : Recaused d i c s s := ⟨State.table_putConn_self hi, fun _ _ => rfl, .of_links rfl⟩

theorem Recaused.put (s : State) (d : Degree) (i : SlotIx) (c' : Conn) : Recaused d i c' s (s.putConn i (some c')) :=
  ⟨rfl, fun _ _ => rfl, .of_links rfl⟩

theorem Recaused.marked (r : Recaused d i c' s t) (l : LinkId) : Recaused d i c' s (t.mark l) :=
  ⟨r.table, r.ramps, r.links.trans (.of_mark rfl)⟩

theorem Recaused.told (r : Recaused d i c' s t) (h : Handle) (c : Conn) (kind : NoticeKind) (v : Option Int) :
    Recaused d i c' s (t.tellConn h c kind v) :=
  ⟨by simpa using r.table, by simpa using r.ramps, r.links.trans (.of_links (by simp))⟩

theorem Recaused.mapRamps (r : Recaused d i c' s t) (f : Ramps → Ramps) : Recaused d i c' s (t.mapRamps d f) :=
  ⟨r.table, fun k hk => by rw [State.mapRamps_ramps, get_set_ne _ _ hk, r.ramps k hk], r.links.trans (.of_links rfl)⟩

theorem Recaused.left (r : Recaused d i c' s t) (shut : t.shut d) (h : Handle) : Recaused d i c' s (t.leaveQueue d h) := by
  obtain ⟨f, he⟩ := shut.leaveQueue h
  rw [he]
  exact r.mapRamps f

theorem Recaused.freed (r : Recaused d i c' s t) (shut : t.shut d) (h : Handle) : Recaused d i c' s (t.freeRamp d h) := by
  obtain ⟨f, he⟩ := shut.freeRamp h
  rw [he]
  exact r.mapRamps f

/-- A request to add a cause on a degree that grants nothing (R37). -/
theorem State.addCause_recaused (shut : s.shut d) (hi : s.conn i = some c) (hd : c.route.sinkDegree = some d) (k : Cause) :
    Recaused d i (c.caused k) s (s.addCause i k) := by
  have put := Recaused.put s d i (c.caused k)
  unfold State.addCause
  rw [hi]
  dsimp only
  rw [hd]
  dsimp only
  unfold Conn.caused at put ⊢
  cases hs : c.state <;> simp only [hs] at put ⊢
  case proposed => exact .refl hi
  case armed => exact .refl hi
  case draining => exact .refl hi
  case suspended => exact put
  case pendingUp => exact (put.told _ _ _ _).left ((shut.put _ _).told _ _ _ _) _
  case rampUp => exact ((put.marked _).told _ _ _ _).freed (((shut.put _ _).marked _).told _ _ _ _) _
  case inService => exact (put.marked _).told _ _ _ _
  case pendingDown => exact (put.marked _).left ((shut.put _ _).marked _) _
  case rampDown => exact (put.marked _).freed ((shut.put _ _).marked _) _

/-- The record that a request to remove a cause leaves (R38), before any grant. -/
def Conn.uncaused (c : Conn) (k : Cause) : Conn :=
  if c.state = .suspended ∧ (c.causes.getD .empty).has k = true then
    { c with
      state := if (c.causes.getD .empty).erase k = .empty then .pendingUp else .suspended
      causes := some ((c.causes.getD .empty).erase k) }
  else c

/-- A request to remove a cause frees the record of its last one (R38). -/
def Conn.resumes (c : Conn) (k : Cause) : Prop :=
  c.state = .suspended ∧ (c.causes.getD .empty).has k = true ∧ (c.causes.getD .empty).erase k = .empty

theorem Conn.uncaused_route (c : Conn) (k : Cause) : (c.uncaused k).route = c.route := by
  unfold Conn.uncaused
  split <;> rfl

theorem Conn.caused_route (c : Conn) (k : Cause) : (c.caused k).route = c.route := by
  unfold Conn.caused
  split <;> rfl

/-- A request to remove a cause: a record freed of its last one joins the queue, and is told of; another keeps its place. -/
theorem State.removeCause_eq (hi : s.conn i = some c) (hd : c.route.sinkDegree = some d) (k : Cause) :
    (c.resumes k → s.removeCause i k =
      ((s.putConn i (some (c.uncaused k))).tellConn (s.handleAt i) c .resumed none).joinQueue d (s.handleAt i)) ∧
    (¬ c.resumes k → s.removeCause i k = s.putConn i (some (c.uncaused k)) ∨ s.removeCause i k = s ∧ c.uncaused k = c) := by
  unfold State.removeCause Conn.resumes
  rw [hi]
  dsimp only
  rw [hd]
  dsimp only
  by_cases held : c.state = .suspended ∧ (c.causes.getD .empty).has k = true
  · rw [if_pos held, Conn.uncaused, if_pos held]
    by_cases last : (c.causes.getD .empty).erase k = .empty
    · rw [if_pos last, if_pos last]
      exact ⟨fun _ => rfl, fun h => absurd ⟨held.1, held.2, last⟩ h⟩
    · rw [if_neg last, if_neg last]
      refine ⟨fun h => absurd h.2.2 last, fun _ => .inl ?_⟩
      rw [← held.1]
  · rw [if_neg held, Conn.uncaused, if_neg held]
    exact ⟨fun h => absurd ⟨h.1, h.2.1⟩ held, fun _ => .inr ⟨rfl, rfl⟩⟩

/-- All that a request to remove a cause does to the table: its own record as R38 leaves it, and grants. -/
theorem State.removeCause_uncaused (hi : s.conn i = some c) (hd : c.route.sinkDegree = some d) (k : Cause) :
    ∃ w, w.table = (s.putConn i (some (c.uncaused k))).table ∧ Granted w (s.removeCause i k) := by
  obtain ⟨resumed, other⟩ := State.removeCause_eq hi hd k
  by_cases h : c.resumes k
  · rw [resumed h]
    exact ⟨_, (State.tellConn_frame ..).1, State.joinQueue_granted ..⟩
  · obtain he | ⟨he, same⟩ := other h
    · rw [he]
      exact ⟨_, rfl, .refl _⟩
    · rw [he, same]
      exact ⟨_, State.table_putConn_self hi, .refl _⟩

/-- A request to remove a cause on a degree that grants nothing (R38). -/
theorem State.removeCause_recaused (shut : s.shut d) (hi : s.conn i = some c) (hd : c.route.sinkDegree = some d)
    (k : Cause) : Recaused d i (c.uncaused k) s (s.removeCause i k) := by
  have put := Recaused.put s d i (c.uncaused k)
  obtain ⟨resumed, other⟩ := State.removeCause_eq hi hd k
  by_cases h : c.resumes k
  · rw [resumed h, State.shut.joinQueue ((shut.put _ _).told _ _ _ _)]
    exact (put.told _ _ _ _).mapRamps _
  · obtain he | ⟨he, same⟩ := other h
    · rw [he]
      exact put
    · rw [he, same]
      exact .refl hi

/-! ## The TRIP flag -/

/-- The TRIP flag of a port, once set, stays (R197). -/
def TripFlags (s t : State) : Prop := ∀ q : Domain, s.ports[q].flags.trip = true → t.ports[q].flags.trip = true

theorem TripFlags.of_eq (h : t.ports = s.ports) : TripFlags s t := fun q => by rw [h]; exact id

theorem TripFlags.trans (a : TripFlags s t) (b : TripFlags t u) : TripFlags s u := fun q h => b q (a q h)

theorem TripFlags.foldl {α : Type} {f : State → α → State} (hf : ∀ s a, TripFlags s (f s a)) (l : List α) (s : State) :
    TripFlags s (l.foldl f s) := by
  induction l generalizing s with
  | nil => exact .of_eq rfl
  | cons a l ih => exact (hf s a).trans (ih _)

theorem State.tell_tripFlags (s : State) (p : Domain) (n : Notice) : TripFlags s (s.tell p n) := fun q h => by
  rw [State.port_tell]
  split
  · next hq =>
    subst hq
    rw [Port.join_eq]
    split <;> exact h
  · exact h

theorem State.setFlag_tripFlags (s : State) (p : Domain) (f : FlagSet) : TripFlags s (s.setFlag p f) := fun q h => by
  rw [State.port_setFlag]
  split
  · next hq =>
    subst hq
    show (_ || _) = true
    rw [h, Bool.true_or]
  · exact h

theorem State.tellManager_tripFlags (s : State) (d : Degree) (n : Notice) : TripFlags s (s.tellManager d n) := by
  unfold State.tellManager
  split
  · exact s.tell_tripFlags _ _
  · exact .of_eq rfl

theorem State.flagManager_tripFlags (s : State) (d : Degree) (f : FlagSet) : TripFlags s (s.flagManager d f) := by
  unfold State.flagManager
  split
  · exact s.setFlag_tripFlags _ _
  · exact .of_eq rfl

theorem State.tellConn_tripFlags (s : State) (h : Handle) (c : Conn) (kind : NoticeKind) (v : Option Int) :
    TripFlags s (s.tellConn h c kind v) := by
  unfold State.tellConn
  refine TripFlags.foldl (fun s p => ?_) _ _
  split
  · exact s.tell_tripFlags _ _
  · exact .of_eq rfl

/-- What a request to add or to remove a cause tells: the record's domains, or none. -/
theorem State.addCause_told (s : State) (i : SlotIx) (k : Cause) :
    (s.addCause i k).ports = s.ports ∨
      ∃ c, (s.addCause i k).ports = (s.tellConn (s.handleAt i) c .suspended (some k.value)).ports := by
  cases hi : s.conn i with
  | none => exact .inl (by simp [State.addCause, hi])
  | some c =>
    cases hd : c.route.sinkDegree with
    | none => exact .inl (by simp [State.addCause, hi, hd])
    | some d =>
      by_cases hs : c.state = .rampUp ∨ c.state = .inService ∨ c.state = .pendingUp
      · exact .inr ⟨c, State.addCause_ports hi hd k hs⟩
      · refine .inl ?_
        simp only [not_or] at hs
        cases h : c.state <;> simp_all [State.addCause]

theorem State.addCause_tripFlags (s : State) (i : SlotIx) (k : Cause) : TripFlags s (s.addCause i k) := by
  obtain h | ⟨c, h⟩ := s.addCause_told i k
  · exact .of_eq h
  · exact TripFlags.trans (s.tellConn_tripFlags _ _ _ _) (.of_eq h)

theorem State.addCause_grows (s : State) (i : SlotIx) (k : Cause) : PortsGrow s (s.addCause i k) := by
  obtain h | ⟨c, h⟩ := s.addCause_told i k
  · exact .of_eq h
  · exact PortsGrow.trans (s.tellConn_grows _ _ _ _) (.of_eq h)

theorem State.removeCause_told (s : State) (i : SlotIx) (k : Cause) :
    (s.removeCause i k).ports = s.ports ∨
      ∃ (t : State) (c : Conn), t.ports = s.ports ∧ (s.removeCause i k).ports = (t.tellConn (s.handleAt i) c .resumed none).ports := by
  cases hi : s.conn i with
  | none => exact .inl (by simp [State.removeCause, hi])
  | some c =>
    cases hd : c.route.sinkDegree with
    | none => exact .inl (by simp [State.removeCause, hi, hd])
    | some d =>
      obtain ⟨resumed, other⟩ := State.removeCause_eq hi hd k
      by_cases h : c.resumes k
      · exact .inr ⟨s.putConn i (some (c.uncaused k)), c, rfl, by rw [resumed h]; simp⟩
      · obtain he | ⟨he, -⟩ := other h <;> exact .inl (by rw [he]; try rfl)

theorem State.removeCause_tripFlags (s : State) (i : SlotIx) (k : Cause) : TripFlags s (s.removeCause i k) := by
  obtain h | ⟨t, c, ports, h⟩ := s.removeCause_told i k
  · exact .of_eq h
  · exact (TripFlags.of_eq ports).trans (TripFlags.trans (t.tellConn_tripFlags _ _ _ _) (.of_eq h))

theorem State.removeCause_grows (s : State) (i : SlotIx) (k : Cause) : PortsGrow s (s.removeCause i k) := by
  obtain h | ⟨t, c, ports, h⟩ := s.removeCause_told i k
  · exact .of_eq h
  · exact (PortsGrow.of_eq ports).trans (PortsGrow.trans (t.tellConn_grows _ _ _ _) (.of_eq h))

theorem State.drainTest_tripFlags (s : State) (i : SlotIx) : TripFlags s (s.drainTest i) := by
  unfold State.drainTest
  split
  · exact .of_eq rfl
  · split
    · next c _ _ =>
      exact TripFlags.trans (.of_eq (State.freeRecord_frame s i c).2.2.2.2.2.2.2.2.1) (State.tellConn_tripFlags _ _ _ _ _)
    · exact .of_eq rfl

theorem State.drainTest_grows (s : State) (i : SlotIx) : PortsGrow s (s.drainTest i) := by
  unfold State.drainTest
  split
  · exact .of_eq rfl
  · split
    · next c _ _ =>
      exact PortsGrow.trans (.of_eq (State.freeRecord_frame s i c).2.2.2.2.2.2.2.2.1) (State.tellConn_grows _ _ _ _ _)
    · exact .of_eq rfl

/-! ## The records of a degree, one after another -/

theorem State.sinking_nodup (s : State) (d : Degree) : (s.sinking d).Nodup := (List.nodup_finRange 128).filter _

/-- A list of records, each rewritten once, while a condition lasts that says so. -/
theorem State.conn_foldl_once {f : State → SlotIx → State} {F : Conn → Conn} {good : State → Prop}
    (once : ∀ s i c, good s → s.conn i = some c → c.route.sinkDegree = some d →
      good (f s i) ∧ (f s i).table = (s.putConn i (some (F c))).table) :
    ∀ (l : List SlotIx) (s : State), l.Nodup → good s →
      (∀ i ∈ l, ∃ c, s.conn i = some c ∧ c.route.sinkDegree = some d) →
      good (l.foldl f s) ∧ (∀ i : SlotIx, (l.foldl f s).table[i].gen = s.table[i].gen) ∧
        ∀ i, (l.foldl f s).conn i = if i ∈ l then (s.conn i).map F else s.conn i := by
  intro l
  induction l with
  | nil => exact fun s _ hg _ => ⟨hg, fun _ => rfl, fun i => by simp⟩
  | cons j l ih =>
    intro s nodup hg hl
    obtain ⟨new, nodup⟩ := List.nodup_cons.mp nodup
    obtain ⟨c, hc, hd⟩ := hl j (List.mem_cons_self ..)
    obtain ⟨hg', table⟩ := once s j c hg hc hd
    have conn : ∀ i, (f s j).conn i = if i = j then some (F c) else s.conn i := fun i => by
      rw [State.conn_of_table table, State.conn_putConn]
    obtain ⟨good', gens, conns⟩ := ih (f s j) nodup hg' fun i hi => by
      obtain ⟨a, ha, hda⟩ := hl i (List.mem_cons_of_mem _ hi)
      exact ⟨a, by rw [conn, if_neg (ne_of_mem_of_not_mem hi new), ha], hda⟩
    refine ⟨good', fun i => (gens i).trans (by rw [table, State.gen_putConn]), fun i => ?_⟩
    rw [List.foldl_cons, conns, conn]
    by_cases hij : i = j
    · subst hij
      rw [if_neg new, if_pos rfl, if_pos (List.mem_cons_self ..), hc]
      rfl
    · rw [if_neg hij]
      simp [hij]

/-! ## A degree that trips -/

/-- The state in which a trip's cause is added: TRIPPED, its manager told and flagged (R147). -/
def State.tripTold (s : State) (d : Degree) : State :=
  ((s.mapTrip d fun t => { t with state := .tripped, timer := none }).tellManager d
    (s.notice .tripOn none (some d) none)).flagManager d .onlyTrip

/-- The state in which the records that a trip put in DRAINING are tested (R147). -/
def State.tripCaused (s : State) (d : Degree) : State := (s.sinking d).foldl (fun s i => s.addCause i .trip) (s.tripTold d)

theorem State.enterTripped_eq (s : State) (d : Degree) : s.enterTripped d =
    ((s.sinking d).filter fun i => ¬ (s.conn i).any fun c => c.state == .draining).foldl State.drainTest
      (s.tripCaused d) := rfl

theorem Conn.caused_trip (c : Conn) : c.caused .trip = trippedRecord c := by
  cases hs : c.state <;>
    simp [Conn.caused, trippedRecord, hs, suspendedRecord, Conn.suspendedBy, Causes.insert, Causes.empty]

/-- A trip puts in DRAINING the records that ramp down, or wait to (R37). -/
theorem Conn.tripped_draining (c : Conn) :
    c.state ≠ .draining ∧ (trippedRecord c).state = .draining ↔ c.state = .pendingDown ∨ c.state = .rampDown := by
  cases hs : c.state <;> simp [trippedRecord, suspendedRecord, hs]

theorem State.tripTold_tripped (s : State) (d : Degree) : (s.tripTold d).trips[d].state = .tripped := by
  have trips : (s.tripTold d).trips = (s.mapTrip d fun t => { t with state := .tripped, timer := none }).trips := by
    simp [State.tripTold]
  rw [trips, State.mapTrip_trips, get_set_self]

/-- The records that a trip's cause has been added to (R37, R147). -/
theorem State.tripCaused_records (s : State) (d : Degree) :
    (∀ i : SlotIx, (s.tripCaused d).table[i].gen = s.table[i].gen) ∧
    (∀ i c, s.conn i = some c → c.route.sinkDegree = some d → (s.tripCaused d).conn i = some (trippedRecord c)) ∧
    ∀ i, (∀ c, s.conn i = some c → c.route.sinkDegree ≠ some d) → (s.tripCaused d).conn i = s.conn i := by
  have told : (s.tripTold d).table = s.table := by simp [State.tripTold]
  obtain ⟨-, gens, conns⟩ := State.conn_foldl_once (d := d) (f := fun s i => s.addCause i .trip) (F := trippedRecord)
    (good := fun s => s.trips[d].state ≠ .clear) 
    (fun s i c hg hi hd => ⟨by simpa [-Fin.getElem_fin] using hg,
      by rw [← c.caused_trip]; exact (State.addCause_recaused (.inr hg) hi hd .trip).table⟩)
    (s.sinking d) (s.tripTold d) (s.sinking_nodup d) (by rw [s.tripTold_tripped]; simp)
    fun i hi => by rw [State.conn_of_table told]; exact (s.mem_sinking d i).mp hi
  refine ⟨fun i => (gens i).trans (by rw [told]), fun i c hc hd => ?_, fun i hi => ?_⟩
  · rw [State.tripCaused, conns, if_pos ((s.mem_sinking d i).mpr ⟨c, hc, hd⟩), State.conn_of_table told, hc]
    rfl
  · rw [State.tripCaused, conns, if_neg fun hm => ?_, State.conn_of_table told]
    obtain ⟨c, hc, hd⟩ := (s.mem_sinking d i).mp hm
    exact hi c hc hd

theorem State.tripCaused_aside (s : State) (d : Degree) :
    (s.tripCaused d).actives = s.actives ∧ (s.tripCaused d).settings = s.settings ∧
    (s.tripCaused d).managers = s.managers ∧ (s.tripCaused d).logs = s.logs ∧ (s.tripCaused d).banks = s.banks := by
  have told : (s.tripTold d).actives = s.actives ∧ (s.tripTold d).settings = s.settings ∧
      (s.tripTold d).managers = s.managers ∧ (s.tripTold d).logs = s.logs ∧ (s.tripTold d).banks = s.banks := by
    simp [State.tripTold]
  obtain ⟨actives, settings, managers, logs, banks⟩ := told
  unfold State.tripCaused
  refine ⟨(foldl_keeps (·.actives) _ ?_ _ _).trans actives, (foldl_keeps (·.settings) _ ?_ _ _).trans settings,
    (foldl_keeps (·.managers) _ ?_ _ _).trans managers, (foldl_keeps (·.logs) _ ?_ _ _).trans logs,
    (foldl_keeps (·.banks) _ ?_ _ _).trans banks⟩
  all_goals
    intro s i
    simp

theorem State.tripCaused_sameBatches (s : State) (d : Degree) : SameBatches s (s.tripCaused d) := by
  have key : ∀ (l : List SlotIx) (t : State), SameBatches s t → SameBatches s (l.foldl (fun s i => s.addCause i .trip) t) := by
    intro l
    induction l with
    | nil => exact fun _ h => h
    | cons i l ih => exact fun t h => ih _ (h.trans (t.addCause_sameBatches i .trip))
  exact key _ _ (.of_links (by simp [State.tripTold]))

/-- Everything that a trip's work tells stays told (R147, R192). -/
theorem State.enterTripped_told (s : State) (d : Degree) : PortsGrow (s.tripTold d) (s.enterTripped d) ∧
    TripFlags (s.tripTold d) (s.enterTripped d) := by
  rw [State.enterTripped_eq]
  exact ⟨PortsGrow.trans (PortsGrow.foldl _ (fun s i => s.addCause_grows i .trip) _ _)
      (PortsGrow.foldl _ State.drainTest_grows _ _),
    (TripFlags.foldl (fun s i => s.addCause_tripFlags i .trip) _ _).trans (TripFlags.foldl State.drainTest_tripFlags _ _)⟩

theorem State.drainTests_gens (l : List SlotIx) (s : State) (i : SlotIx) :
    (l.foldl State.drainTest s).table[i].gen = s.table[i].gen := by
  induction l generalizing s with
  | nil => rfl
  | cons j l ih => exact (ih _).trans (congrArg Handle.gen (s.handleAt_drainTest j i))

/-- The test of R44 leaves the records that it is not made for. -/
theorem State.conn_drainTests_others {l : List SlotIx} (hi : i ∉ l) (s : State) :
    (l.foldl State.drainTest s).conn i = s.conn i := by
  induction l generalizing s with
  | nil => rfl
  | cons j l ih =>
    simp only [List.mem_cons, not_or] at hi
    rw [List.foldl_cons, ih hi.2, State.conn_drainTest_other s hi.1]

/-- A record sinking on a degree that trips (R37, R44, R147). -/
theorem State.conn_enterTripped (hc : s.conn i = some c) (hd : c.route.sinkDegree = some d) :
    (s.enterTripped d).conn i =
      if (c.state = .pendingDown ∨ c.state = .rampDown) ∧ s.settled i c = true then none else some (trippedRecord c) := by
  obtain ⟨gens, records, -⟩ := s.tripCaused_records d
  rw [State.enterTripped_eq, State.conn_drainTests _ _ (records i c hc hd),
    State.settled_congr (s := s) (c := c) (by rw [← c.caused_trip, c.caused_route]) (s.tripCaused_aside d).1
      (by rw [State.handleAt, gens, State.handleAt]) (s.tripCaused_sameBatches d)]
  refine if_congr ?_ rfl rfl
  rw [← c.tripped_draining, List.mem_filter, State.mem_sinking, hc]
  simp [hd, and_assoc]

theorem State.conn_enterTripped_other (hi : ∀ c, s.conn i = some c → c.route.sinkDegree ≠ some d) :
    (s.enterTripped d).conn i = s.conn i := by
  obtain ⟨-, -, others⟩ := s.tripCaused_records d
  rw [State.enterTripped_eq, State.conn_drainTests_others, others i hi]
  intro hm
  obtain ⟨c, hc, hd⟩ := (s.mem_sinking d i).mp (List.mem_filter.mp hm).1
  exact hi c hc hd

theorem State.gen_enterTripped (s : State) (d : Degree) (i : SlotIx) :
    (s.enterTripped d).table[i].gen = s.table[i].gen := by
  rw [State.enterTripped_eq, State.drainTests_gens, (s.tripCaused_records d).1]

theorem State.tellManager_of {q : Domain} (hq : s.manager d = some q) (n : Notice) : s.tellManager d n = s.tell q n := by
  rw [State.tellManager, hq]

theorem State.flagManager_of {q : Domain} (hq : s.manager d = some q) (f : FlagSet) :
    s.flagManager d f = s.setFlag q f := by
  rw [State.flagManager, hq]

/-- The manager of a degree that trips is told and flagged (R147). -/
theorem State.tripTold_flagged {q : Domain} (hq : s.manager d = some q) :
    (s.tripTold d).ports[q].flags.trip = true ∧ Heard (s.tripTold d) q ⟨.tripOn, none, some d, none, s.nodeTime⟩ := by
  have told : s.tripTold d = ((s.mapTrip d fun t => { t with state := .tripped, timer := none }).tell q
      (s.notice .tripOn none (some d) none)).setFlag q .onlyTrip := by
    unfold State.tripTold
    rw [State.tellManager_of (by simpa [State.manager] using hq), State.flagManager_of (by simpa [State.manager] using hq)]
  rw [told]
  refine ⟨?_, (State.tell_heard _ q _).grow (State.setFlag_grows _ _ _)⟩
  rw [State.port_setFlag, if_pos rfl]
  show (_ || _) = true
  rw [Bool.or_eq_true]
  exact .inr rfl

/-- A degree enters TRIPPED, whatever it was in (R37, R44, R147). -/
theorem State.enterTripped_tripped (s : State) (d : Degree) : Tripped s (s.enterTripped d) d := by
  obtain ⟨grows, flags⟩ := s.enterTripped_told d
  refine ⟨s.trips_enterTripped d, fun i c hc hd => State.conn_enterTripped hc hd,
    fun i hi => State.conn_enterTripped_other hi, s.gen_enterTripped d, fun q hq => ?_, by simp, by simp, by simp, by simp⟩
  obtain ⟨flag, heard⟩ := State.tripTold_flagged hq
  exact ⟨flags q flag, heard.grow grows⟩

/-! ## A trip that ends -/

/-- The state in which a trip's cause is removed: CLEAR, its manager told (R152). -/
def State.clearTold (s : State) (d : Degree) : State :=
  (s.mapTrip d fun t => { t with state := .clear, timer := none }).tellManager d (s.notice .tripOff none (some d) none)

/-- The state in which RSC offers after a trip has ended (R152). -/
def State.tripUncaused (s : State) (d : Degree) : State :=
  (s.sinking d).foldl (fun s i => s.removeCause i .trip) (s.clearTold d)

theorem State.endTrip_eq (s : State) (d : Degree) : s.endTrip d = (s.tripUncaused d).offerEvent d := rfl

/-- A record that a grant may have taken, and a cause removed from both. -/
theorem Taken.uncaused {a b : Option Conn} (h : Taken a b) (k : Cause) :
    Taken (a.map fun c => c.uncaused k) (b.map fun c => c.uncaused k) := by
  have same : ∀ c : Conn, c.state ≠ .suspended → c.uncaused k = c := fun c hs => if_neg fun h => hs h.1
  obtain rfl | ⟨c, rfl, ⟨hs, rfl⟩ | ⟨hs, rfl⟩⟩ := h
  · exact .inl rfl
  · exact .inr ⟨c, by simp [same c (by simp [hs])], .inl ⟨hs, by simp [same]⟩⟩
  · exact .inr ⟨c, by simp [same c (by simp [hs])], .inr ⟨hs, by simp [same]⟩⟩

theorem Taken.route {a : Option Conn} (h : Taken (some c) a) : ∃ c', a = some c' ∧ c'.route = c.route := by
  obtain rfl | ⟨x, hx, ⟨-, rfl⟩ | ⟨-, rfl⟩⟩ := h
  · exact ⟨c, rfl, rfl⟩
  · cases hx
    exact ⟨_, rfl, rfl⟩
  · cases hx
    exact ⟨_, rfl, rfl⟩

/-- The records of a list that a cause is removed from, one after another, and the grants of the step (R38, R58). -/
theorem State.removeCauses_taken (k : Cause) : ∀ (l : List SlotIx) (s : State), l.Nodup →
    (∀ i ∈ l, ∃ c, s.conn i = some c ∧ c.route.sinkDegree = some d) →
    ∀ i, Taken (if i ∈ l then (s.conn i).map fun c => c.uncaused k else s.conn i)
      ((l.foldl (fun s i => s.removeCause i k) s).conn i) := by
  intro l
  induction l with
  | nil => exact fun s _ _ i => .inl (by simp)
  | cons j l ih =>
    intro s nodup hl i
    obtain ⟨new, nodup⟩ := List.nodup_cons.mp nodup
    obtain ⟨c, hc, hd⟩ := hl j (List.mem_cons_self ..)
    obtain ⟨w, table, grants⟩ := State.removeCause_uncaused hc hd k
    have first : ∀ i, Taken (if i = j then some (c.uncaused k) else s.conn i) ((s.removeCause j k).conn i) := fun i => by
      have := grants.2 i
      rwa [State.conn_of_table table, State.conn_putConn] at this
    have rest := ih (s.removeCause j k) nodup (fun i hi => by
      obtain ⟨a, ha, hda⟩ := hl i (List.mem_cons_of_mem _ hi)
      have := first i
      rw [if_neg (ne_of_mem_of_not_mem hi new), ha] at this
      obtain ⟨a', ha', route⟩ := this.route
      exact ⟨a', ha', by rw [route, hda]⟩) i
    have own := first i
    by_cases hij : i = j
    · subst hij
      rw [if_pos rfl] at own
      rw [if_neg new] at rest
      rw [if_pos (List.mem_cons_self ..), hc]
      exact own.trans rest
    · rw [if_neg hij] at own
      by_cases hi : i ∈ l
      · rw [if_pos hi] at rest
        rw [if_pos (List.mem_cons_of_mem _ hi)]
        exact (own.uncaused k).trans rest
      · rw [if_neg hi] at rest
        rw [if_neg (by simp [hij, hi])]
        exact own.trans rest

/-- The records after a trip has ended (R38, R58, R152). -/
theorem State.endTrip_taken (s : State) (d : Degree) :
    (∀ i c, s.conn i = some c → c.route.sinkDegree = some d → Taken (some (c.uncaused .trip)) ((s.endTrip d).conn i)) ∧
    ∀ i, (∀ c, s.conn i = some c → c.route.sinkDegree ≠ some d) → Taken (s.conn i) ((s.endTrip d).conn i) := by
  have told : (s.clearTold d).table = s.table := by simp [State.clearTold]
  have table : (s.endTrip d).table = (s.tripUncaused d).table := by simp [State.endTrip_eq]
  have records := State.removeCauses_taken (d := d) .trip (s.sinking d) (s.clearTold d) (s.sinking_nodup d)
    fun i hi => by rw [State.conn_of_table told]; exact (s.mem_sinking d i).mp hi
  refine ⟨fun i c hc hd => ?_, fun i hi => ?_⟩
  · have := records i
    rw [if_pos ((s.mem_sinking d i).mpr ⟨c, hc, hd⟩), State.conn_of_table told, hc] at this
    rwa [State.conn_of_table table]
  · have := records i
    rw [if_neg fun hm => ?_, State.conn_of_table told] at this
    · rwa [State.conn_of_table table]
    · obtain ⟨c, hc, hd⟩ := (s.mem_sinking d i).mp hm
      exact hi c hc hd

theorem State.endTrip_told (s : State) (d : Degree) : PortsGrow (s.clearTold d) (s.endTrip d) ∧
    TripFlags (s.clearTold d) (s.endTrip d) := by
  have ports : (s.endTrip d).ports = (s.tripUncaused d).ports := by simp [State.endTrip_eq]
  exact ⟨PortsGrow.trans (PortsGrow.foldl _ (fun s i => s.removeCause_grows i .trip) _ _) (.of_eq ports),
    (TripFlags.foldl (fun s i => s.removeCause_tripFlags i .trip) _ _).trans (.of_eq ports)⟩

/-- The manager of a degree whose trip ends is told (R152). -/
theorem State.endTrip_heard {q : Domain} (hq : s.manager d = some q) :
    Heard (s.endTrip d) q ⟨.tripOff, none, some d, none, s.nodeTime⟩ := by
  refine Heard.grow ?_ (s.endTrip_told d).1
  unfold State.clearTold
  rw [State.tellManager_of (by simpa [State.manager] using hq)]
  exact State.tell_heard _ q _

/-- What removing TRIP leaves of a record (R38). -/
theorem Conn.uncaused_trip (c : Conn) :
    (c.state = .suspended → c.causes = some ⟨true, true⟩ → c.uncaused .trip = { c with causes := some ⟨true, false⟩ }) ∧
    (c.state = .suspended → c.causes = some ⟨false, true⟩ →
      c.uncaused .trip = { c with state := .pendingUp, causes := some ⟨false, false⟩ }) ∧
    (c.state ≠ .suspended ∨ (∀ x : Bool, c.causes ≠ some ⟨x, true⟩) → c.uncaused .trip = c) := by
  refine ⟨fun hs hc => ?_, fun hs hc => ?_, fun h => if_neg fun ⟨hs, hc⟩ => ?_⟩
  · simp [Conn.uncaused, hs, hc, Causes.has, Causes.erase, Causes.empty]
  · simp [Conn.uncaused, hs, hc, Causes.has, Causes.erase, Causes.empty]
  · obtain h | h := h
    · exact h hs
    · cases hk : c.causes with
      | none => simp [hk, Causes.has, Causes.empty] at hc
      | some k =>
        obtain ⟨x, y⟩ := k
        simp only [hk, Option.getD_some, Causes.has] at hc
        exact h x (by rw [hk, hc])

/-- A trip ends, whatever grants its end allows (R38, R58, R152). -/
theorem State.endTrip_ended (s : State) (d : Degree) : TripEnded s (s.endTrip d) d := by
  obtain ⟨sinking, others⟩ := s.endTrip_taken d
  refine ⟨s.trips_endTrip d, fun i c hc hd hs both => ?_, fun i c hc hd hs one => ?_, fun i hi => ?_,
    fun q hq => State.endTrip_heard hq, by simp, by simp, by simp, by simp, by simp⟩
  · have := sinking i c hc hd
    rw [c.uncaused_trip.1 hs both] at this
    exact this.eq fun a ha => by cases ha; simp [hs]
  · have := sinking i c hc hd
    rw [c.uncaused_trip.2.1 hs one] at this
    obtain h | ⟨x, hx, ⟨-, h⟩ | ⟨down, -⟩⟩ := this
    · exact .inl h
    · cases hx
      exact .inr h
    · cases hx
      cases down
  · by_cases hd : ∃ c, s.conn i = some c ∧ c.route.sinkDegree = some d
    · obtain ⟨c, hc, hd⟩ := hd
      obtain ⟨up, down, kept⟩ := hi c hc
      have := sinking i c hc hd
      rw [c.uncaused_trip.2.2 (.inl fun hs => kept hs hd), ← hc] at this
      exact this.eq fun a ha => by rw [hc] at ha; cases ha; exact ⟨up, down⟩
    · exact (others i fun c hc hs => hd ⟨c, hc, hs⟩).eq fun a ha => ⟨(hi a ha).1, (hi a ha).2.1⟩

end

end Sys2Proof.Machine
end

