-- ==== Sys2Proof/Proofs/DegreeEffects.lean ====
section
/-! Proofs/DegreeEffects.lean: the effects that SET_DEGREE makes in its step (O37). -/

set_option Elab.async false

namespace Sys2Proof.Machine
open Sys2Proof

section
variable {s t u : State} {d : Degree} {p : Domain} {tag : Byte} {h : Handle} {c : Conn}

/-! ## A change carried out -/

/-- What the end of a CNM step and a reply leave of a state: everything but the links, MON and the reply slot. -/
structure Afterwards (u t : State) : Prop where
  table : t.table = u.table
  map : t.map = u.map
  actives : t.actives = u.actives
  ramps : t.ramps = u.ramps
  trips : t.trips = u.trips
  settings : t.settings = u.settings
  managers : t.managers = u.managers
  logs : t.logs = u.logs
  banks : t.banks = u.banks
  ports : ∀ q : Domain, t.ports[q].queue = u.ports[q].queue ∧ t.ports[q].flags = u.ports[q].flags

theorem State.finish_reply_afterwards (u : State) (p : Domain) (tag : Byte) (a : Answer) :
    Afterwards u (u.finish.reply p tag a) where
  table := by simp
  map := by simp
  actives := by simp
  ramps := by simp
  trips := by simp
  settings := by simp
  managers := by simp
  logs := by simp
  banks := by simp
  ports q := by
    have ports : u.finish.ports = u.ports := by simp
    rw [State.port_reply, ports]
    split
    · next hq => rw [hq]; exact ⟨rfl, rfl⟩
    · exact ⟨rfl, rfl⟩

theorem Tripped.afterwards (h : Tripped s u d) (a : Afterwards u t) : Tripped s t d := by
  obtain ⟨trips, sinking, others, gens, told, settings, managers, logs, banks⟩ := h
  have conn : ∀ i, t.conn i = u.conn i := State.conn_of_table a.table
  refine ⟨a.trips.trans trips, fun i c hc hd => (conn i).trans (sinking i c hc hd),
    fun i hi => (conn i).trans (others i hi), fun i => by rw [a.table, gens], fun q hq => ?_,
    a.settings.trans settings, a.managers.trans managers, a.logs.trans logs, a.banks.trans banks⟩
  rw [(a.ports q).1, (a.ports q).2]
  exact told q hq

theorem TripEnded.afterwards (h : TripEnded s u d) (a : Afterwards u t) : TripEnded s t d := by
  obtain ⟨trips, both, one, others, told, map, actives, settings, managers, logs⟩ := h
  have conn : ∀ i, t.conn i = u.conn i := State.conn_of_table a.table
  refine ⟨a.trips.trans trips, fun i c hc hd hs hk => (conn i).trans (both i c hc hd hs hk),
    fun i c hc hd hs hk => ?_, fun i hi => (conn i).trans (others i hi), fun q hq => ?_, a.map.trans map,
    a.actives.trans actives, a.settings.trans settings, a.managers.trans managers, a.logs.trans logs⟩
  · rw [conn]
    exact one i c hc hd hs hk
  · rw [(a.ports q).1, (a.ports q).2]
    exact told q hq

/-- The settings record that one change of SET_DEGREE stores (R169 to R172). -/
def State.storing (s : State) (d : Degree) (k : Nat) (v : Int) : State :=
  { s with settings := s.settings.set d (s.settings[d].store k (s.storedValue d k v)) }

theorem State.settings_storing (s : State) (d : Degree) (k : Nat) (v : Int) :
    (s.storing d k v).settings[d] = s.settings[d].store k (s.storedValue d k v) := get_set_self ..

/-- One change sent alone by the degree's manager, with no hand-off waiting, is carried out (R146, R169, R173). -/
theorem exec_setDegree_one {k : Nat} {v : Int} (held : s.held = none) (free : s.ports[p].slot.isBusy = false)
    (manager : s.manager d = some p) (hands : s.tripReqs[d] = none) (field : k ≤ 17)
    (value : isChoiceField k = true → v = 0 ∨ v = 1) :
    ∃ t, exec (.setDegree p tag d.val [(k, v)]) s = .next t ∧
      Afterwards ((s.storing d k v).settingEffects d s.settings[d]) t := by
  have untaken : s.takeHandOff d = s := by rw [State.takeHandOff, hands]
  have code : degreeOfCode d.val = some d := by simp [degreeOfCode]
  have ok : changesOk [(k, v)] = true := by
    cases hk : isChoiceField k <;> simp [changesOk, field, hk]
    exact value hk
  have manages : s.manages p (.degree d) = true := (s.manages_iff p _).mpr manager
  obtain ⟨a, stored, carried⟩ : ∃ a : Answer,
      storeDegree p d [(k, v)] s = ((s.storing d k v).settingEffects d s.settings[d], a) ∧ a.carriedOut = true := by
    unfold storeDegree
    rw [if_neg (by simp [ok]), if_neg (by simp [manages])]
    refine ⟨_, rfl, ?_⟩
    unfold okOrClamped
    split <;> rfl
  have body : setDegreeBody p d.val [(k, v)] s = (((s.storing d k v).settingEffects d s.settings[d]).finish, a) := by
    unfold setDegreeBody
    rw [code]
    dsimp only
    rw [untaken, stored]
    simp [carried]
  exact ⟨_, carried_of ⟨held, .inr ⟨free, rfl⟩⟩ body, State.finish_reply_afterwards ..⟩

/-! ## The effects of one change -/

/-- A change of another field has no effect but its storing (R173). -/
theorem State.settingEffects_mode {old : Settings} (level : old.activeLevel = s.settings[d].activeLevel)
    (mode : old.mode ≠ s.settings[d].mode) (slots : old.rampSlots = s.settings[d].rampSlots) :
    s.settingEffects d old = s.modeChange d := by
  have settings : (s.modeChange d).settings = s.settings := by
    unfold State.modeChange
    dsimp only
    split <;> split <;> try split
    all_goals simp
  unfold State.settingEffects
  rw [if_pos level]
  dsimp only
  rw [if_neg mode, settings, if_neg (by omega)]

theorem State.settingEffects_level {old : Settings} (level : old.activeLevel ≠ s.settings[d].activeLevel)
    (mode : old.mode = s.settings[d].mode) (slots : old.rampSlots = s.settings[d].rampSlots) :
    s.settingEffects d old = s.reread d := by
  have settings : (s.reread d).settings = s.settings := by
    unfold State.reread State.setLine
    split
    · rfl
    · split <;> simp
  unfold State.settingEffects
  rw [if_neg level]
  dsimp only
  rw [settings, if_pos mode, settings, if_neg (by omega)]

theorem State.settingEffects_slots {old : Settings} (level : old.activeLevel = s.settings[d].activeLevel)
    (mode : old.mode = s.settings[d].mode) (slots : old.rampSlots < s.settings[d].rampSlots) :
    s.settingEffects d old = s.grantEvent d := by
  unfold State.settingEffects
  rw [if_pos level]
  dsimp only
  rw [if_pos mode, if_pos slots]

/-- FOLLOW on a degree in TRIPPED whose line is INACTIVE (R154). -/
theorem State.modeChange_follow (mode : s.settings[d].mode = .follow) (tripped : s.trips[d].state = .tripped)
    (line : s.trips[d].line = .inactive) :
    s.modeChange d = if s.settings[d].hold = 0 then s.endTrip d else s.enterHolding d := by
  simp only [State.modeChange, mode, tripped, line, and_self, if_true]

/-- LATCHED on a degree in HOLDING (R154). -/
theorem State.modeChange_latched (mode : s.settings[d].mode = .latched) (holding : s.trips[d].state = .holding) :
    s.modeChange d = s.mapTrip d fun t => { t with state := .tripped, timer := none } := by
  simp only [State.modeChange, mode, holding, if_true]

/-- A line found ACTIVE on a CLEAR degree (R147, R153). -/
theorem State.reread_trips (active : s.readLine d = .active) (line : s.trips[d].line = .inactive)
    (clear : s.trips[d].state = .clear) : s.reread d = (s.setLine d .active).enterTripped d := by
  unfold State.reread
  rw [active, line, if_neg (by simp)]
  simp only [State.lineChange, clear, State.applyTrip]

/-! ## The oldest waiting record granted -/

/-- A record that a grant of the step has taken: in its ramp, a slot holder, out of the queue (R40, R58). -/
structure State.Ramped (s : State) (d : Degree) (h : Handle) (c : Conn) : Prop where
  find : s.find h = some { c with state := .rampUp, shadow := .att 250 }
  holds : (⟨h, none⟩ : SlotHolder) ∈ s.ramps[d].holders
  gone : ∀ e ∈ s.ramps[d].queue, e.handle ≠ h

theorem State.ramps_takeGrant_cases (s : State) (d : Degree) (x : Handle) :
    (s.takeGrant d x).ramps[d] = s.ramps[d] ∨ (s.takeGrant d x).ramps[d] = (s.ramps[d].dequeue x).hold x none := by
  obtain he | ⟨a, ha, hs⟩ := s.takeGrant_cases d x
  · exact .inl (by rw [he])
  · exact .inr (State.ramps_takeGrant ha (hs.imp And.left And.left))

/-- The other grants of the step leave it so. -/
theorem State.Ramped.takeGrant (r : s.Ramped d h c) (x : Handle) : (s.takeGrant d x).Ramped d h c := by
  have gens := (s.takeGrant_granted d x).1 h.slot
  obtain ⟨gen, conn⟩ := (s.find_eq_some h _).mp r.find
  have find : (s.takeGrant d x).find h = some { c with state := .rampUp, shadow := .att 250 } :=
    ((s.takeGrant d x).find_eq_some h _).mpr
      ⟨gens.trans gen, (s.takeGrant_granted d x).conn_some conn (by simp) (by simp)⟩
  by_cases hx : x = h
  · subst hx
    rw [State.takeGrant_of_not_pends]
    · exact r
    · rintro ⟨a, ha, hs⟩
      rw [r.find] at ha
      cases ha
      simp at hs
  · obtain he | he := s.ramps_takeGrant_cases d x
    · exact ⟨find, he ▸ r.holds, he ▸ r.gone⟩
    · refine ⟨find, ?_, ?_⟩
      · rw [he, Ramps.mem_holders_hold]
        exact .inr ⟨r.holds, fun e => hx e.symm⟩
      · rw [he, Ramps.granted_queue]
        exact fun e hm => r.gone e (List.mem_filter.mp hm).1

/-- A grant event takes the oldest entry first (R57). -/
theorem State.grantEvent_oldest {rest : List QueueEntry} (queue : s.ramps[d].queue = ⟨h, none⟩ :: rest)
    (find : s.find h = some c) (up : c.state = .pendingUp) (can : s.canGrant d = true) : (s.grantEvent d).Ramped d h c := by
  have oldest : s.ramps[d].unoffered = h :: (rest.filter (·.offer.isNone)).map (·.handle) := by
    simp [-Fin.getElem_fin, Ramps.unoffered, queue]
  have first : (s.takeGrant d h).Ramped d h c := by
    have ramps := State.ramps_takeGrant (d := d) find (.inl up)
    refine ⟨?_, ramps ▸ Ramps.granted_holder _ h, fun e he => ?_⟩
    · have table : (s.takeGrant d h).table =
          (s.putConn h.slot (some { c with state := .rampUp, shadow := .att 250 })).table := by
        rw [State.takeGrant_up find up]
        rfl
      rw [State.find_of_table table, State.find_putConn, if_pos (State.handleAt_of_find find).symm]
    · rw [ramps, Ramps.granted_queue] at he
      simpa using (List.mem_filter.mp he).2
  unfold State.grantEvent
  rw [oldest, List.foldl_cons, if_pos can]
  generalize (rest.filter (·.offer.isNone)).map (·.handle) = l
  generalize s.takeGrant d h = v at first
  induction l generalizing v with
  | nil => exact first
  | cons x l ih =>
    rw [List.foldl_cons]
    refine ih _ ?_
    split
    · exact first.takeGrant x
    · exact first

end

/-- Settles O37, by the one effect that each change has in its step. -/
theorem setDegreeEffects : Obligations.SetDegreeEffects := by
  unfold Obligations.SetDegreeEffects
  intro p tag d v s sent held free manager hands
  refine ⟨fun hv mode tripped line => ?_, fun hv mode holding => ?_, fun hv level pin line clear => ?_,
    fun h c rest cap raise queue find up ready clear room => ?_⟩
  · subst hv
    obtain ⟨t, ht, after⟩ := exec_setDegree_one (tag := tag) (k := 11) (v := 1) held free manager hands (by omega)
      fun _ => .inr rfl
    have settings : (s.storing d 11 1).settings[d] = { s.settings[d] with mode := .follow } := s.settings_storing d 11 1
    rw [State.settingEffects_mode (by rw [settings]) (by rw [settings, mode]; simp) (by rw [settings]),
      State.modeChange_follow (s := s.storing d 11 1) (by rw [settings]) tripped line, settings] at after
    refine ⟨t, ht, fun hold => ?_, fun hold => ?_⟩
    · rw [if_neg (by simpa using hold.ne')] at after
      refine ⟨after.trips.trans ?_, after.table.trans (by simp [State.storing]), fun q => (after.ports q).1.trans ?_⟩
      · rw [State.enterHolding, settings]
        show s.trips.set d ⟨_, s.trips[d].line, _⟩ = _
        rw [line]
        rfl
      · simp [State.storing]
    · rw [if_pos hold] at after
      exact (State.endTrip_ended _ d).afterwards after
  · subst hv
    obtain ⟨t, ht, after⟩ := exec_setDegree_one (tag := tag) (k := 11) (v := 0) held free manager hands (by omega)
      fun _ => .inl rfl
    have settings : (s.storing d 11 0).settings[d] = { s.settings[d] with mode := .latched } := s.settings_storing d 11 0
    rw [State.settingEffects_mode (by rw [settings]) (by rw [settings, mode]; simp) (by rw [settings]),
      State.modeChange_latched (s := s.storing d 11 0) (by rw [settings]) holding] at after
    exact ⟨t, ht, after.trips, after.table, fun q => (after.ports q).1⟩
  · subst hv
    obtain ⟨t, ht, after⟩ := exec_setDegree_one (tag := tag) (k := 10) (v := 1) held free manager hands (by omega)
      fun _ => .inr rfl
    have settings : (s.storing d 10 1).settings[d] = { s.settings[d] with activeLevel := .high } :=
      s.settings_storing d 10 1
    have active : (s.storing d 10 1).readLine d = .active := by
      rw [State.readLine, settings]
      show ActiveLevel.judge .high s.tripPins[d] = _
      rw [pin]
      rfl
    rw [State.settingEffects_level (by rw [settings, level]; simp) (by rw [settings]) (by rw [settings]),
      State.reread_trips (s := s.storing d 10 1) active line clear] at after
    refine ⟨t, ht, ?_⟩
    have told := (State.enterTripped_tripped ((s.storing d 10 1).setLine d .active) d).afterwards after
    have line : (s.storing d 10 1).setLine d .active =
        { s with
          settings := s.settings.set d { s.settings[d] with activeLevel := .high }
          trips := s.trips.set d ⟨.clear, .active, s.trips[d].timer⟩ } := by
      rw [← clear]
      rfl
    rwa [line] at told
  · obtain ⟨t, ht, after⟩ := exec_setDegree_one (tag := tag) (k := 2) (v := v) held free manager hands (by omega)
      fun hk => by simp [isChoiceField] at hk
    have value : s.storedValue d 2 v = v := by
      show max (clampInt 1 4 v) (s.activeRamps d : Int) = v
      unfold clampInt State.activeRamps
      omega
    have settings : (s.storing d 2 v).settings[d] = { s.settings[d] with rampSlots := v.toNat } := by
      rw [s.settings_storing d 2 v, value]
      rfl
    rw [State.settingEffects_slots (by rw [settings]) (by rw [settings]) (by rw [settings]; dsimp only; omega)] at after
    have can : (s.storing d 2 v).canGrant d = true := by
      unfold State.canGrant State.tripInForce State.activeRamps
      rw [settings]
      show (s.links[degreeLink d].state == .ready && !(s.trips[d].state != .clear) &&
        decide (s.ramps[d].holders.length < v.toNat)) = true
      rw [ready, clear]
      simp [-Fin.getElem_fin]
      omega
    have ramped := State.grantEvent_oldest (s := s.storing d 2 v) queue find up can
    refine ⟨t, ht, ?_, after.ramps ▸ ramped.holds, after.ramps ▸ ramped.gone⟩
    rw [State.conn_of_table after.table]
    exact ((State.find_eq_some _ h _).mp ramped.find).2

end Sys2Proof.Machine
end

