-- ==== Sys2Proof/Proofs/Choice.lean ====
section
/-! Proofs/Choice.lean: what a choice of MON leaves (R76 to R79). -/

set_option Elab.async false

namespace Sys2Proof.Machine
open Sys2Proof

section
variable {s t : State}

/-- Twelve places on from any tap the rotation has passed every tap (R77). -/
theorem Tap.reached (r t : Tap) : ∃ k : Nat, k < 12 ∧ Tap.atPlace (r.place + k) = t := by
  obtain ⟨rk, rd⟩ := r
  obtain ⟨tk, td⟩ := t
  cases rk <;> cases tk
  all_goals
    revert rd td
    decide

/-- The pick of a rotation turn is the first wanted tap from the rotation position on (R77). -/
theorem State.rotationPick_some {t : Tap} (h : s.rotationPick = some t) : ∃ k : Nat, k < 12 ∧
    t = Tap.atPlace (s.mon.rotation.place + k) ∧ s.wanted t = true ∧
    ∀ j : Nat, j < k → s.wanted (Tap.atPlace (s.mon.rotation.place + j)) = false := by
  rw [State.rotationPick, List.find?_map, Option.map_eq_some_iff] at h
  obtain ⟨k, hk, rfl⟩ := h
  obtain ⟨wanted, range, first⟩ := List.find?_range_eq_some.mp hk
  exact ⟨k, List.mem_range.mp range, rfl, wanted, fun j hj => by simpa using first j hj⟩

theorem State.rotationPick_none (h : s.rotationPick = none) (t : Tap) : s.wanted t = false := by
  rw [State.rotationPick, List.find?_map, Option.map_eq_none_iff, List.find?_range_eq_none] at h
  obtain ⟨k, hk, rfl⟩ := Tap.reached s.mon.rotation t
  simpa using h k hk

/-- The pick of a boost turn is the first qualifying degree from the boost pointer on (R78). -/
theorem State.boostPick_some {d : Degree} (h : s.boostPick = some d) : s.boosts d = true ∧
    ∀ k : Degree, (k - s.mon.boost).val < (d - s.mon.boost).val → s.boosts k = false := by
  obtain ⟨boosts, i, hi, hd, first⟩ := List.find?_eq_some_iff_getElem.mp h
  have four : i < 4 := by simpa using hi
  simp only [List.getElem_map, List.getElem_finRange] at hd first
  refine ⟨boosts, fun k hk => ?_⟩
  have place : (d - s.mon.boost).val = i := by
    rw [← hd]
    simp
  have := first (k - s.mon.boost).val (place ▸ hk)
  simpa using this

theorem State.boostPick_none (h : s.boostPick = none) (d : Degree) : s.boosts d = false := by
  have := List.find?_eq_none.mp h d (List.mem_map.mpr ⟨d - s.mon.boost, List.mem_finRange _, by simp⟩)
  simpa using this

theorem Turn.other_ne (k : Turn) : k.other ≠ k := by cases k <;> simp [Turn.other]

/-- A rotation turn: MON stays as it is, or requests the pick (R67, R77). -/
theorem State.rotationTurn_chose (s : State) (turn : s.mon.turn = .rotation ∨ ∀ d : Degree, s.boosts d = false) :
    Chose s s.mon s.rotationTurn.mon s.mreqPulses s.rotationTurn.mreqPulses s.nodeTime := by
  unfold State.rotationTurn
  split
  · next none => exact .inl ⟨State.rotationPick_none none, rfl, rfl⟩
  · next t some =>
    obtain ⟨k, hk, rfl, wanted, first⟩ := State.rotationPick_some some
    exact .inr ⟨.inr ⟨turn, k, hk, rfl, wanted, first, rfl, rfl⟩, rfl, rfl, rfl, rfl, rfl, Turn.other_ne _, rfl, rfl, rfl,
      rfl, rfl, rfl⟩

/-- What a choice of MON leaves (R67, R76 to R79). -/
theorem State.choice_chose (s : State) :
    Chose s s.mon s.choice.mon s.mreqPulses s.choice.mreqPulses s.nodeTime := by
  unfold State.choice
  split
  · next turn => exact s.rotationTurn_chose (.inl turn)
  · next turn =>
    split
    · next d pick =>
      obtain ⟨boosts, first⟩ := State.boostPick_some pick
      exact .inr ⟨.inl ⟨turn, d, rfl, boosts, first, rfl, rfl⟩, rfl, rfl, rfl, rfl, rfl, Turn.other_ne _, rfl, rfl, rfl,
        rfl, rfl, rfl⟩
    · next none => exact s.rotationTurn_chose (.inr (State.boostPick_none none))

end

end Sys2Proof.Machine
end

