-- ==== Sys2Proof/Proofs/ResetLines.lean ====
section
/-! Proofs/ResetLines.lean: what the work on one trip line keeps while every link is STARTING (R156, R157). -/

set_option Elab.async false

namespace Sys2Proof.Machine
open Sys2Proof

section
variable {s t u : State} {d : Degree} {i : SlotIx} {c c' : Conn}

/-! ## Every link STARTING -/

/-- Every link is STARTING, as a reset's end leaves them (R139, R141). -/
def State.AllStarting (s : State) : Prop := ∀ l : LinkId, s.links[l].state = .starting

theorem State.AllStarting.shut (h : s.AllStarting) (d : Degree) : s.shut d := .inl (by rw [h]; simp)

theorem SameLinks.allStarting (l : SameLinks s t) (h : s.AllStarting) : t.AllStarting := fun k =>
  (congrArg Link.state (l k) :).trans (h k)

/-! ## What the work keeps -/

/-- What no piece of the work touches, and the ports, which only gain. -/
structure Untouched (s t : State) : Prop where
  settings : t.settings = s.settings
  managers : t.managers = s.managers
  nodeTime : t.nodeTime = s.nodeTime
  held : t.held = s.held
  tripPins : t.tripPins = s.tripPins
  ports : PortsGrow s t
  flags : TripFlags s t

theorem Untouched.trans (a : Untouched s t) (b : Untouched t u) : Untouched s u where
  settings := b.settings.trans a.settings
  managers := b.managers.trans a.managers
  nodeTime := b.nodeTime.trans a.nodeTime
  held := b.held.trans a.held
  tripPins := b.tripPins.trans a.tripPins
  ports := a.ports.trans b.ports
  flags := a.flags.trans b.flags

theorem Untouched.refl (s : State) : Untouched s s := ⟨rfl, rfl, rfl, rfl, rfl, .of_eq rfl, .of_eq rfl⟩

/-- What the work keeps: a record there is was there, under its generation and route; the lists, the tracks and the active
values lose only what belongs to a record freed; a matrix half stays or returns to none. -/
structure Kept (s t : State) : Prop extends Untouched s t where
  starting : t.AllStarting
  gens : ∀ i : SlotIx, t.table[i].gen = s.table[i].gen
  conns : ∀ i c', t.conn i = some c' → ∃ c, s.conn i = some c ∧ c'.route = c.route
  listed : ∀ d h, t.lists d h → s.lists d h
  lists : ∀ d h, s.lists d h → t.conn h.slot ≠ none → t.lists d h
  tracks : ∀ e : TrackEntry, e ∈ t.tracks ↔
    e ∈ s.tracks ∧ (s.conn e.handle.slot = none ∨ t.conn e.handle.slot ≠ none)
  ordered : t.tracks.Sublist s.tracks
  actives : ∀ i : SlotIx, t.conn i ≠ none → t.actives[i] = s.actives[i]
  matrix : ∀ k : LocalPort, (t.matrix[k].addShadow = s.matrix[k].addShadow ∨ t.matrix[k].addShadow = none) ∧
    (t.matrix[k].dropShadow = s.matrix[k].dropShadow ∨ t.matrix[k].dropShadow = none)

theorem Kept.there (k : Kept s t) {i : SlotIx} (h : t.conn i ≠ none) : s.conn i ≠ none := by
  obtain ⟨c', hc'⟩ := Option.ne_none_iff_exists'.mp h
  obtain ⟨c, hc, -⟩ := k.conns i c' hc'
  rw [hc]
  simp

theorem Kept.trans (a : Kept s t) (b : Kept t u) : Kept s u where
  toUntouched := a.toUntouched.trans b.toUntouched
  starting := b.starting
  gens i := (b.gens i).trans (a.gens i)
  conns i c' hc' := by
    obtain ⟨x, hx, rx⟩ := b.conns i c' hc'
    obtain ⟨c, hc, rc⟩ := a.conns i x hx
    exact ⟨c, hc, rx.trans rc⟩
  listed d h hl := a.listed d h (b.listed d h hl)
  lists d h hl hu := b.lists d h (a.lists d h hl (b.there hu)) hu
  tracks e := by
    rw [b.tracks, a.tracks, and_assoc]
    refine and_congr_right fun _ => ⟨fun ⟨hs, ht⟩ => ?_, fun h => ?_⟩
    · exact hs.imp id fun hs => ht.resolve_left hs
    · obtain none | hu := h
      · exact ⟨.inl none, .inl (by_contra fun ht => a.there ht none)⟩
      · exact ⟨.inr (b.there hu), .inr hu⟩
  ordered := b.ordered.trans a.ordered
  actives i hu := (b.actives i hu).trans (a.actives i (b.there hu))
  matrix k := by
    obtain ⟨ax, ay⟩ := a.matrix k
    obtain ⟨bx, drop'⟩ := b.matrix k
    constructor
    · obtain h | h := bx
      · rw [h]; exact ax
      · exact .inr h
    · obtain h | h := drop'
      · rw [h]; exact ay
      · exact .inr h

/-- One record rewritten, its route kept. -/
theorem Kept.put (untouched : Untouched s t) (starting : t.AllStarting) (hi : s.conn i = some c)
    (route : c'.route = c.route) (table : t.table = (s.putConn i (some c')).table) (map : t.map = s.map)
    (actives : t.actives = s.actives) (matrix : t.matrix = s.matrix) (tracks : t.tracks = s.tracks) : Kept s t := by
  have conn : ∀ j, t.conn j = if j = i then some c' else s.conn j := fun j => by
    rw [State.conn_of_table table, State.conn_putConn]
  refine { untouched with
    starting := starting
    gens := fun j => by rw [table, State.gen_putConn]
    conns := fun j a ha => ?_
    listed := fun d h => (State.lists_of_map map d h).mp
    lists := fun d h hl _ => (State.lists_of_map map d h).mpr hl
    tracks := fun e => ?_
    ordered := by rw [tracks]
    actives := fun j _ => by rw [actives]
    matrix := fun k => by rw [matrix]; exact ⟨.inl rfl, .inl rfl⟩ }
  · rw [conn] at ha
    split at ha
    · next hj => cases ha; exact ⟨c, hj ▸ hi, route⟩
    · exact ⟨a, ha, rfl⟩
  · rw [tracks, conn]
    refine (and_iff_left ?_).symm
    split
    · exact .inr (by simp)
    · cases s.conn e.handle.slot <;> simp

theorem Kept.same (untouched : Untouched s t) (starting : t.AllStarting) (table : t.table = s.table) (map : t.map = s.map)
    (actives : t.actives = s.actives) (matrix : t.matrix = s.matrix) (tracks : t.tracks = s.tracks) : Kept s t := by
  have conn : ∀ j, t.conn j = s.conn j := State.conn_of_table table
  exact { untouched with
    starting := starting
    gens := fun j => by rw [table]
    conns := fun j a ha => ⟨a, (conn j).symm.trans ha, rfl⟩
    listed := fun d h => (State.lists_of_map map d h).mp
    lists := fun d h hl _ => (State.lists_of_map map d h).mpr hl
    tracks := fun e => by rw [tracks, conn]; cases s.conn e.handle.slot <;> simp
    ordered := by rw [tracks]
    actives := fun j _ => by rw [actives]
    matrix := fun k => by rw [matrix]; exact ⟨.inl rfl, .inl rfl⟩ }

theorem Kept.refl (h : s.AllStarting) : Kept s s := .same (.refl s) h rfl rfl rfl rfl rfl

/-! ## The work on one line -/

/-- The work on the line of one degree: it keeps what every piece keeps, the links but for marks, MON, and what belongs to
the other degrees. -/
structure LineWorked (d : Degree) (s t : State) : Prop where
  kept : Kept s t
  links : SameLinks s t
  switchGen : t.switchGen = s.switchGen
  mon : t.mon = s.mon
  pulses : t.mreqPulses = s.mreqPulses
  trips : ∀ k : Degree, k ≠ d → t.trips[k] = s.trips[k]
  ramps : ∀ k : Degree, k ≠ d → t.ramps[k] = s.ramps[k]
  others : ∀ i, (∀ c, s.conn i = some c → c.route.sinkDegree ≠ some d) → t.conn i = s.conn i

theorem LineWorked.trans (a : LineWorked d s t) (b : LineWorked d t u) : LineWorked d s u where
  kept := a.kept.trans b.kept
  links := a.links.trans b.links
  switchGen := b.switchGen.trans a.switchGen
  mon := b.mon.trans a.mon
  pulses := b.pulses.trans a.pulses
  trips k hk := (b.trips k hk).trans (a.trips k hk)
  ramps k hk := (b.ramps k hk).trans (a.ramps k hk)
  others i hi := by
    have same := a.others i hi
    exact (b.others i fun c hc => hi c (same ▸ hc)).trans same

theorem LineWorked.refl (d : Degree) (h : s.AllStarting) : LineWorked d s s :=
  ⟨.refl h, .of_links rfl, rfl, rfl, rfl, fun _ _ => rfl, fun _ _ => rfl, fun _ _ => rfl⟩

/-- Work beside the records. -/
theorem LineWorked.aside (h : s.AllStarting) (untouched : Untouched s t) (table : t.table = s.table) (map : t.map = s.map)
    (actives : t.actives = s.actives) (matrix : t.matrix = s.matrix) (tracks : t.tracks = s.tracks)
    (links : t.links = s.links) (switchGen : t.switchGen = s.switchGen) (mon : t.mon = s.mon)
    (pulses : t.mreqPulses = s.mreqPulses) (trips : ∀ k : Degree, k ≠ d → t.trips[k] = s.trips[k])
    (ramps : ∀ k : Degree, k ≠ d → t.ramps[k] = s.ramps[k]) : LineWorked d s t :=
  ⟨.same untouched ((SameLinks.of_links links).allStarting h) table map actives matrix tracks, .of_links links, switchGen,
    mon, pulses, trips, ramps, fun i _ => State.conn_of_table table i⟩

theorem State.mapTrip_worked (h : s.AllStarting) (f : Trip → Trip) : LineWorked d s (s.mapTrip d f) :=
  .aside h ⟨rfl, rfl, rfl, rfl, rfl, .of_eq rfl, .of_eq rfl⟩ rfl rfl rfl rfl rfl rfl rfl rfl rfl
    (fun k hk => by rw [State.mapTrip_trips, get_set_ne _ _ hk]) fun _ _ => rfl

theorem State.tellManager_worked (h : s.AllStarting) (k : Degree) (n : Notice) :
    LineWorked d s (s.tellManager k n) := by
  refine .aside h ⟨?_, ?_, ?_, ?_, ?_, s.tellManager_grows k n, s.tellManager_tripFlags k n⟩ ?_ ?_ ?_ ?_ ?_ ?_ ?_ ?_ ?_
    (fun k _ => ?_) fun k _ => ?_
  all_goals simp

theorem State.flagManager_worked (h : s.AllStarting) (k : Degree) (f : FlagSet) :
    LineWorked d s (s.flagManager k f) := by
  refine .aside h ⟨?_, ?_, ?_, ?_, ?_, s.flagManager_grows k f, s.flagManager_tripFlags k f⟩ ?_ ?_ ?_ ?_ ?_ ?_ ?_ ?_ ?_
    (fun k _ => ?_) fun k _ => ?_
  all_goals simp

theorem LineWorked.andTold (w : LineWorked d s t) (k : Degree) (n : Notice) : LineWorked d s (t.tellManager k n) :=
  w.trans (State.tellManager_worked w.kept.starting k n)

theorem LineWorked.andFlagged (w : LineWorked d s t) (k : Degree) (f : FlagSet) : LineWorked d s (t.flagManager k f) :=
  w.trans (State.flagManager_worked w.kept.starting k f)

theorem State.offerEvent_worked (h : s.AllStarting) : LineWorked d s (s.offerEvent d) := by
  rw [State.offerEvent_none (h.shut d).canGrant]
  exact .refl d h

/-- A record of the degree rewritten by a request to add or to remove a cause. -/
theorem Recaused.worked (r : Recaused d i c' s t) (h : s.AllStarting) (hi : s.conn i = some c)
    (hd : c.route.sinkDegree = some d) (route : c'.route = c.route) (untouched : Untouched s t) (map : t.map = s.map)
    (actives : t.actives = s.actives) (matrix : t.matrix = s.matrix) (tracks : t.tracks = s.tracks)
    (switchGen : t.switchGen = s.switchGen) (mon : t.mon = s.mon) (pulses : t.mreqPulses = s.mreqPulses)
    (trips : t.trips = s.trips) : LineWorked d s t where
  kept := .put untouched (r.links.allStarting h) hi route r.table map actives matrix tracks
  links := r.links
  switchGen := switchGen
  mon := mon
  pulses := pulses
  trips _ _ := by rw [trips]
  ramps := r.ramps
  others j hj := by
    rw [State.conn_of_table r.table, State.conn_putConn, if_neg]
    rintro rfl
    exact hj c hi hd

theorem State.addCause_worked (h : s.AllStarting) (hd : ∀ c, s.conn i = some c → c.route.sinkDegree = some d) (k : Cause) :
    LineWorked d s (s.addCause i k) := by
  cases hi : s.conn i with
  | none =>
    rw [State.addCause, hi]
    exact .refl d h
  | some c =>
    refine (State.addCause_recaused (h.shut d) hi (hd c hi) k).worked h hi (hd c hi) (c.caused_route k)
      ⟨?_, ?_, ?_, ?_, ?_, s.addCause_grows i k, s.addCause_tripFlags i k⟩ ?_ ?_ ?_ ?_ ?_ ?_ ?_ ?_
    all_goals simp

theorem State.removeCause_worked (h : s.AllStarting) (hd : ∀ c, s.conn i = some c → c.route.sinkDegree = some d)
    (k : Cause) : LineWorked d s (s.removeCause i k) := by
  cases hi : s.conn i with
  | none =>
    rw [State.removeCause, hi]
    exact .refl d h
  | some c =>
    refine (State.removeCause_recaused (h.shut d) hi (hd c hi) k).worked h hi (hd c hi) (c.uncaused_route k)
      ⟨?_, ?_, ?_, ?_, ?_, s.removeCause_grows i k, s.removeCause_tripFlags i k⟩ ?_ ?_ ?_ ?_ ?_ ?_ ?_ ?_
    all_goals simp

/-! ## A record freed -/

/-- A record freed returns its own half of the matrix to none, and no other (R45). -/
theorem State.shadows_freeRecord (s : State) (i : SlotIx) (c : Conn) (k : LocalPort) :
    ((s.freeRecord i c).matrix[k].addShadow = s.matrix[k].addShadow ∨ (s.freeRecord i c).matrix[k].addShadow = none) ∧
    ((s.freeRecord i c).matrix[k].dropShadow = s.matrix[k].dropShadow ∨ (s.freeRecord i c).matrix[k].dropShadow = none) := by
  have entry : ∀ (p : LocalPort) (f : MatrixEntry → MatrixEntry),
      (s.mapMatrix p f).matrix[k] = if k = p then f s.matrix[p] else s.matrix[k] := fun _ _ => get_set ..
  by_cases hs : c.state = .proposed
  · rw [(State.freeRecord_proposed hs).1]
    exact ⟨.inl rfl, .inl rfl⟩
  · rw [(State.freeRecord_past hs).1]
    cases c.route with
    | add p d =>
      rw [State.clearMatrix, entry]
      split
      · next h => subst h; exact ⟨.inr rfl, .inl rfl⟩
      · exact ⟨.inl rfl, .inl rfl⟩
    | drop d p =>
      rw [State.clearMatrix, entry]
      split
      · next h => subst h; exact ⟨.inl rfl, .inr rfl⟩
      · exact ⟨.inl rfl, .inl rfl⟩
    | express a b => exact ⟨.inl rfl, .inl rfl⟩

/-- A handle of another slot stands in the lists as before (R17). -/
theorem State.lists_freeRecord_other {h : Handle} (hl : s.lists d h) (other : h.slot ≠ i) :
    (s.freeRecord i c).lists d h := by
  have apart : h ≠ s.handleAt i := fun e => other (by rw [e]; rfl)
  simp only [State.lists, State.map_freeRecord, State.egress_leaveMap, State.drops_leaveMap]
  exact hl.imp (fun ⟨x, hx, e⟩ => ⟨x, ⟨hx, fun _ => e ▸ apart⟩, e⟩) fun ⟨x, hx, e⟩ => ⟨x, ⟨hx, fun _ => e ▸ apart⟩, e⟩

/-- A record freed and told of loses its places and no other's (R17, R45, R46). -/
theorem State.release_kept (h : s.AllStarting) (hi : s.conn i = some c) :
    Kept s ((s.freeRecord i c).tellConn (s.handleAt i) c .released none) := by
  obtain ⟨table, map, -⟩ := State.tellConn_frame (s.freeRecord i c) (s.handleAt i) c .released none
  have conn : ∀ j, ((s.freeRecord i c).tellConn (s.handleAt i) c .released none).conn j =
      if j = i then none else s.conn j := fun j => by rw [State.conn_of_table table, State.conn_freeRecord]
  have links : SameLinks s ((s.freeRecord i c).tellConn (s.handleAt i) c .released none) := by
    have told : ((s.freeRecord i c).tellConn (s.handleAt i) c .released none).links = (s.freeRecord i c).links := by simp
    obtain same | marked := s.freeRecord_links i c
    · exact .of_links (told.trans same)
    · exact .of_mark (told.trans marked)
  exact {
    settings := by simp
    managers := by simp
    nodeTime := by simp
    held := by simp
    tripPins := by simp
    ports := PortsGrow.trans (.of_eq (State.freeRecord_frame s i c).2.2.2.2.2.2.2.2.1) (State.tellConn_grows _ _ _ _ _)
    flags := TripFlags.trans (.of_eq (State.freeRecord_frame s i c).2.2.2.2.2.2.2.2.1) (State.tellConn_tripFlags _ _ _ _ _)
    starting := links.allStarting h
    gens := fun j => by rw [table, State.gen_freeRecord]
    conns := fun j a ha => by
      rw [conn] at ha
      split at ha
      · cases ha
      · exact ⟨a, ha, rfl⟩
    listed := fun d k hl => State.lists_freeRecord ((State.lists_of_map map d k).mp hl)
    lists := fun d k hl there => by
      rw [State.lists_of_map map]
      refine State.lists_freeRecord_other hl fun e => there ?_
      rw [conn, if_pos e]
    tracks := fun e => by
      have tracks : ((s.freeRecord i c).tellConn (s.handleAt i) c .released none).tracks =
          s.tracks.filter (·.handle.slot ≠ i) := by simp [State.tracks_freeRecord]
      rw [tracks, List.mem_filter, conn]
      refine and_congr_right fun _ => ?_
      by_cases he : e.handle.slot = i
      · simp [he, hi]
      · cases s.conn e.handle.slot <;> simp [he]
    ordered := by
      have tracks : ((s.freeRecord i c).tellConn (s.handleAt i) c .released none).tracks =
          s.tracks.filter (·.handle.slot ≠ i) := by simp [State.tracks_freeRecord]
      rw [tracks]
      exact List.filter_sublist
    actives := fun j there => by
      have actives : ((s.freeRecord i c).tellConn (s.handleAt i) c .released none).actives = (s.freeRecord i c).actives := by
        simp
      rw [actives, State.actives_freeRecord_other]
      rintro rfl
      exact there (by rw [conn, if_pos rfl])
    matrix := fun k => by
      have matrix : ((s.freeRecord i c).tellConn (s.handleAt i) c .released none).matrix = (s.freeRecord i c).matrix := by
        simp
      rw [matrix]
      exact s.shadows_freeRecord i c k }

/-- The test of R44 made for a record of the degree. -/
theorem State.drainTest_worked (h : s.AllStarting) (hd : ∀ c, s.conn i = some c → c.route.sinkDegree = some d) :
    LineWorked d s (s.drainTest i) := by
  have still : s.drainTest i = s → LineWorked d s (s.drainTest i) := fun e => by
    rw [e]
    exact .refl d h
  cases hi : s.conn i with
  | none => exact still (by rw [State.drainTest, hi])
  | some c =>
    by_cases drains : c.state = .draining ∧ s.settled i c = true
    · refine ⟨?_, s.drainTest_sameLinks i, by simp, by simp, by simp, fun k _ => by simp, fun k _ => by simp,
        fun j hj => State.conn_drainTest_other s fun e => ?_⟩
      · have freed : s.drainTest i = (s.freeRecord i c).tellConn (s.handleAt i) c .released none := by
          rw [State.drainTest, hi]
          exact if_pos drains
        rw [freed]
        exact State.release_kept h hi
      · subst e
        exact hj c hi (hd c hi)
    · exact still (by rw [State.drainTest, hi]; exact if_neg drains)

/-! ## The work on one line, put together -/

theorem LineWorked.foldl {f : State → SlotIx → State}
    (step : ∀ (s : State) (i : SlotIx), s.AllStarting → (∀ c, s.conn i = some c → c.route.sinkDegree = some d) →
      LineWorked d s (f s i)) :
    ∀ (l : List SlotIx) (s : State), s.AllStarting → (∀ i ∈ l, ∀ c, s.conn i = some c → c.route.sinkDegree = some d) →
      LineWorked d s (l.foldl f s) := by
  intro l
  induction l with
  | nil => exact fun s h _ => .refl d h
  | cons j l ih =>
    intro s h hl
    have first := step s j h (hl j (List.mem_cons_self ..))
    refine first.trans (ih _ first.kept.starting fun i hi c' hc' => ?_)
    obtain ⟨c, hc, route⟩ := first.kept.conns i c' hc'
    rw [route]
    exact hl i (List.mem_cons_of_mem _ hi) c hc

theorem State.sinking_sinks (s : State) (d : Degree) : ∀ i ∈ s.sinking d, ∀ c, s.conn i = some c →
    c.route.sinkDegree = some d := by
  intro i hi c hc
  obtain ⟨a, ha, hd⟩ := (s.mem_sinking d i).mp hi
  rw [hc] at ha
  cases ha
  exact hd

theorem State.enterTripped_worked (h : s.AllStarting) : LineWorked d s (s.enterTripped d) := by
  have told : LineWorked d s (s.tripTold d) :=
    ((State.mapTrip_worked h _).andTold d _).andFlagged d _
  have conn : ∀ i, (s.tripTold d).conn i = s.conn i := State.conn_of_table (by simp [State.tripTold])
  have caused : LineWorked d (s.tripTold d) (s.tripCaused d) :=
    LineWorked.foldl (fun _ _ h hd => State.addCause_worked h hd .trip) _ _ told.kept.starting fun i hi c hc =>
      s.sinking_sinks d i hi c ((conn i).symm.trans hc)
  have both := told.trans caused
  refine both.trans ?_
  rw [State.enterTripped_eq]
  refine LineWorked.foldl (fun _ _ h hd => State.drainTest_worked h hd) _ _ both.kept.starting fun i hi c' hc' => ?_
  obtain ⟨c, hc, route⟩ := both.kept.conns i c' hc'
  rw [route]
  exact s.sinking_sinks d i (List.mem_filter.mp hi).1 c hc

theorem State.clearTold_worked (h : s.AllStarting) : LineWorked d s (s.clearTold d) :=
  (State.mapTrip_worked h _).andTold d _

theorem State.endTrip_worked (h : s.AllStarting) : LineWorked d s (s.endTrip d) := by
  have told : LineWorked d s (s.clearTold d) := State.clearTold_worked h
  have conn : ∀ i, (s.clearTold d).conn i = s.conn i := State.conn_of_table (by simp [State.clearTold])
  have uncaused : LineWorked d s (s.tripUncaused d) :=
    told.trans (LineWorked.foldl (fun _ _ h hd => State.removeCause_worked h hd .trip) _ _ told.kept.starting
      fun i hi c hc => s.sinking_sinks d i hi c ((conn i).symm.trans hc))
  exact uncaused.trans (State.offerEvent_worked uncaused.kept.starting)

/-! ## The records that a trip's end releases -/

/-- The records after a trip has ended, no grant being made (R38, R152). -/
theorem State.tripUncaused_records (h : s.AllStarting) (d : Degree) :
    (∀ i c, s.conn i = some c → c.route.sinkDegree = some d →
      (s.tripUncaused d).conn i = some (c.uncaused .trip)) := by
  have told : (s.clearTold d).table = s.table := by simp [State.clearTold]
  obtain ⟨-, -, conns⟩ := State.conn_foldl_once (d := d) (f := fun s i => s.removeCause i .trip)
    (F := fun c => c.uncaused .trip) (good := State.AllStarting)
    (fun s i c hg hi hd => by
      have r := State.removeCause_recaused (hg.shut d) hi hd .trip
      exact ⟨r.links.allStarting hg, r.table⟩)
    (s.sinking d) (s.clearTold d) (s.sinking_nodup d) (State.clearTold_worked (d := d) h).kept.starting
    fun i hi => by rw [State.conn_of_table told]; exact (s.mem_sinking d i).mp hi
  intro i c hc hd
  rw [State.tripUncaused, conns, if_pos ((s.mem_sinking d i).mpr ⟨c, hc, hd⟩), State.conn_of_table told, hc]
  rfl

theorem State.conn_endTrip (h : s.AllStarting) (hc : s.conn i = some c) (hd : c.route.sinkDegree = some d) :
    (s.endTrip d).conn i = some (c.uncaused .trip) := by
  rw [State.endTrip_eq, State.conn_of_table (State.offerEvent_frame ..).1]
  exact State.tripUncaused_records h d i c hc hd

/-- What a request to remove a cause adds to the queue, no grant being made: the record freed of its last cause (R55). -/
theorem State.queue_removeCause (h : s.AllStarting) (hc : s.conn i = some c) (hd : c.route.sinkDegree = some d)
    (k : Cause) :
    (∀ e ∈ s.ramps[d].queue, e ∈ (s.removeCause i k).ramps[d].queue) ∧
    (c.resumes k → (⟨s.handleAt i, none⟩ : QueueEntry) ∈ (s.removeCause i k).ramps[d].queue) := by
  obtain ⟨resumed, other⟩ := State.removeCause_eq hc hd k
  by_cases last : c.resumes k
  · rw [resumed last, State.shut.joinQueue (((h.shut d).put _ _).told _ _ _ _), State.ramps_mapRamps]
    have ramps : ((s.putConn i (some (c.uncaused k))).tellConn (s.handleAt i) c .resumed none).ramps = s.ramps := by simp
    rw [ramps]
    exact ⟨fun e he => List.mem_append_left _ he, fun _ => List.mem_append_right _ (List.mem_singleton.mpr rfl)⟩
  · have ramps : (s.removeCause i k).ramps = s.ramps := by
      obtain he | ⟨he, -⟩ := other last <;> rw [he]
      rfl
    rw [ramps]
    exact ⟨fun _ he => he, fun hr => absurd hr last⟩

/-- What waits goes on to wait while a cause is removed from record after record. -/
theorem State.queue_removeCauses (k : Cause) : ∀ (l : List SlotIx) (s : State), s.AllStarting →
    (∀ i ∈ l, ∀ c, s.conn i = some c → c.route.sinkDegree = some d) →
    ∀ e ∈ s.ramps[d].queue, e ∈ (l.foldl (fun s i => s.removeCause i k) s).ramps[d].queue := by
  intro l
  induction l with
  | nil => exact fun _ _ _ _ he => he
  | cons j l ih =>
    intro s h hl e he
    have own := hl j (List.mem_cons_self ..)
    have worked := State.removeCause_worked h own k
    refine ih _ worked.kept.starting (fun i hi c' hc' => ?_) e ?_
    · obtain ⟨c, hc, route⟩ := worked.kept.conns i c' hc'
      rw [route]
      exact hl i (List.mem_cons_of_mem _ hi) c hc
    · cases hc : s.conn j with
      | none => rwa [State.removeCause, hc]
      | some c => exact (State.queue_removeCause h hc (own c hc) k).1 e he

/-- A record that a trip's end frees of its last cause waits for a grant (R55, R152). -/
theorem State.queue_endTrip (h : s.AllStarting) (hc : s.conn i = some c) (hd : c.route.sinkDegree = some d)
    (last : c.resumes .trip) : (⟨s.handleAt i, none⟩ : QueueEntry) ∈ (s.endTrip d).ramps[d].queue := by
  have told : (s.clearTold d).table = s.table := by simp [State.clearTold]
  have begun : (s.clearTold d).AllStarting := (State.clearTold_worked (d := d) h).kept.starting
  have sinks : ∀ j ∈ s.sinking d, ∃ a, (s.clearTold d).conn j = some a ∧ a.route.sinkDegree = some d := fun j hj => by
    rw [State.conn_of_table told]
    exact (s.mem_sinking d j).mp hj
  obtain ⟨A, B, split⟩ := List.append_of_mem ((s.mem_sinking d i).mpr ⟨c, hc, hd⟩)
  have nodup := s.sinking_nodup d
  rw [split] at nodup sinks
  obtain ⟨nodupA, -, apart⟩ := List.nodup_append.mp nodup
  obtain ⟨-, gens, conns⟩ := State.conn_foldl_once (d := d) (f := fun s i => s.removeCause i .trip)
    (F := fun c => c.uncaused .trip) (good := State.AllStarting)
    (fun s i c hg hi hd => by
      have r := State.removeCause_recaused (hg.shut d) hi hd .trip
      exact ⟨r.links.allStarting hg, r.table⟩)
    A (s.clearTold d) nodupA begun fun j hj => sinks j (List.mem_append_left _ hj)
  have before : LineWorked d (s.clearTold d) (A.foldl (fun s i => s.removeCause i .trip) (s.clearTold d)) :=
    LineWorked.foldl (fun _ _ h hd => State.removeCause_worked h hd .trip) _ _ begun fun j hj a ha => by
      obtain ⟨x, hx, hdx⟩ := sinks j (List.mem_append_left _ hj)
      rw [hx] at ha
      cases ha
      exact hdx
  rw [State.endTrip_eq, State.offerEvent_none, State.tripUncaused, split, List.foldl_append, List.foldl_cons]
  · generalize A.foldl (fun s i => s.removeCause i .trip) (s.clearTold d) = v at gens conns before
    have own : v.conn i = some c := by
      rw [conns, if_neg fun hi => apart i hi i (List.mem_cons_self ..) rfl, State.conn_of_table told, hc]
    have name : v.handleAt i = s.handleAt i := by
      rw [State.handleAt, gens, told, State.handleAt]
    have after := State.removeCause_worked (d := d) before.kept.starting (i := i)
      (fun a ha => by rw [own] at ha; cases ha; exact hd) .trip
    refine State.queue_removeCauses .trip B _ after.kept.starting (fun j hj a ha => ?_) _
      (name ▸ (State.queue_removeCause before.kept.starting own hd .trip).2 last)
    obtain ⟨y, hy, route⟩ := (before.trans after).kept.conns j a ha
    obtain ⟨x, hx, hdx⟩ := sinks j (List.mem_append_right _ (List.mem_cons_of_mem _ hj))
    rw [hx] at hy
    cases hy
    rw [route, hdx]
  · refine State.shut.canGrant (State.AllStarting.shut (LineWorked.kept (d := d) (s := s.clearTold d) ?_).starting d)
    exact LineWorked.foldl (fun _ _ h hd => State.removeCause_worked h hd .trip) _ _ begun fun j hj a ha => by
      obtain ⟨x, hx, hdx⟩ := sinks j (split ▸ hj)
      rw [hx] at ha
      cases ha
      exact hdx

end

end Sys2Proof.Machine
end

