-- ==== Sys2Proof/Proofs/ResetWork.lean ====
section
/-! Proofs/ResetWork.lean: the pieces of the work of a reset's end, each taken up once, in any order (R204, log entry 8). -/

set_option Elab.async false

namespace Sys2Proof.Machine
open Sys2Proof

section
variable {s t u v x : State} {d : Degree} {i : SlotIx} {l : LinkId} {c c' : Conn} {kind : ResetKind} {w : ResetWork}
  {A B : List ResetWork}

/-! ## The order of the work -/

/-- The pieces named so far and the next, each once (log entry 8). -/
def addPiece (done : List ResetWork) (w : ResetWork) : List ResetWork := if done.contains w then done else done ++ [w]

theorem mem_addPiece {done : List ResetWork} {a : ResetWork} : a ∈ addPiece done w ↔ a ∈ done ∨ a = w := by
  unfold addPiece
  split
  · next h =>
    have hw : w ∈ done := by simpa using h
    exact ⟨.inl, fun h => h.elim id fun e => e ▸ hw⟩
  · simp

theorem addPiece_nodup {done : List ResetWork} (h : done.Nodup) : (addPiece done w).Nodup := by
  unfold addPiece
  split
  · exact h
  · next hw => exact List.nodup_append.mpr ⟨h, by simp, fun a ha b hb e => hw (by simp_all)⟩

theorem addPieces (ws : List ResetWork) : ∀ done : List ResetWork, done.Nodup →
    (ws.foldl addPiece done).Nodup ∧ ∀ a, a ∈ ws.foldl addPiece done ↔ a ∈ done ∨ a ∈ ws := by
  induction ws with
  | nil => exact fun done h => ⟨h, fun a => by simp⟩
  | cons w ws ih =>
    intro done h
    obtain ⟨nodup, mem⟩ := ih (addPiece done w) (addPiece_nodup h)
    exact ⟨nodup, fun a => by rw [List.foldl_cons, mem, mem_addPiece, List.mem_cons, or_assoc]⟩

theorem mem_allResetWork (w : ResetWork) : w ∈ allResetWork := by
  cases w <;> simp [allResetWork]

/-- Every piece of the work stands once in the order: its place parts the pieces before it from those after it. -/
theorem workOrder_split (order : List ResetWork) (w : ResetWork) :
    ∃ A B, workOrder order = A ++ w :: B ∧ (A ++ w :: B).Nodup := by
  obtain ⟨nodup, mem⟩ := addPieces (order ++ allResetWork) [] List.nodup_nil
  have there : w ∈ workOrder order := (mem w).mpr (.inr (List.mem_append_right _ (mem_allResetWork w)))
  obtain ⟨A, B, split⟩ := List.append_of_mem there
  exact ⟨A, B, split, split ▸ nodup⟩

/-! ## What pieces of the work leave -/

/-- What a run of pieces leaves: the links, MON, and each degree's trip and records belong to a piece of their own. -/
structure Worked (ws : List ResetWork) (s t : State) : Prop where
  kept : Kept s t
  link : ∀ l, .batch l ∉ ws → t.links[l].unmarked = s.links[l].unmarked
  switchGen : ∀ d : Degree, .batch (degreeLink d) ∉ ws → t.switchGen[d] = s.switchGen[d]
  mon : .choice ∉ ws → t.mon = s.mon ∧ t.mreqPulses = s.mreqPulses
  trips : ∀ d : Degree, .line d ∉ ws → t.trips[d] = s.trips[d]
  ramps : ∀ d : Degree, .line d ∉ ws → t.ramps[d] = s.ramps[d]
  conn : ∀ i, (∀ c d, s.conn i = some c → c.route.sinkDegree = some d → .line d ∉ ws) → t.conn i = s.conn i

theorem Worked.refl (ws : List ResetWork) (h : s.AllStarting) : Worked ws s s :=
  ⟨.refl h, fun _ _ => rfl, fun _ _ => rfl, fun _ => ⟨rfl, rfl⟩, fun _ _ => rfl, fun _ _ => rfl, fun _ _ => rfl⟩

theorem Worked.trans (a : Worked A s t) (b : Worked B t u) : Worked (A ++ B) s u := by
  have left : ∀ {w}, w ∉ A ++ B → w ∉ A := fun h hw => h (List.mem_append_left _ hw)
  have right : ∀ {w}, w ∉ A ++ B → w ∉ B := fun h hw => h (List.mem_append_right _ hw)
  refine ⟨a.kept.trans b.kept, fun l h => (b.link l (right h)).trans (a.link l (left h)),
    fun d h => (b.switchGen d (right h)).trans (a.switchGen d (left h)),
    fun h => ⟨(b.mon (right h)).1.trans (a.mon (left h)).1, (b.mon (right h)).2.trans (a.mon (left h)).2⟩,
    fun d h => (b.trips d (right h)).trans (a.trips d (left h)),
    fun d h => (b.ramps d (right h)).trans (a.ramps d (left h)), fun i h => ?_⟩
  have same := a.conn i fun c d hc hd => left (h c d hc hd)
  exact (b.conn i fun c d hc hd => right (h c d (same ▸ hc) hd)).trans same

/-- A piece's work is its own alone. -/
theorem LineWorked.worked (h : LineWorked d s t) : Worked [.line d] s t where
  kept := h.kept
  link l _ := h.links l
  switchGen _ _ := by rw [h.switchGen]
  mon _ := ⟨h.mon, h.pulses⟩
  trips k hk := h.trips k fun e => hk (by simp [e])
  ramps k hk := h.ramps k fun e => hk (by simp [e])
  conn i hi := h.others i fun c hc hd => hi c d hc hd (by simp)

/-! ## A line -/

/-- The line of a degree, read as the reset ends (R156, R157). -/
def State.lineRead (s : State) (d : Degree) : State := s.setLine d (s.readLine d)

/-- What the work on a line comes to, by the table of the reset (R156, R157). -/
inductive LineTaken (kind : ResetKind) (u : State) (d : Degree) : State → Prop where
  /-- An ACTIVE line trips the degree, but out of a warm reset one TRIPPED already. -/
  | trips (active : u.readLine d = .active) (h : kind = .cold ∨ u.trips[d].state ≠ .tripped) :
      LineTaken kind u d ((u.lineRead d).enterTripped d)
  /-- The trip state stays. -/
  | stays (active : u.readLine d = .active → kind = .warm ∧ u.trips[d].state = .tripped)
      (inactive : u.readLine d = .inactive → kind = .cold ∨ u.trips[d].state = .clear ∨
        u.trips[d].state = .tripped ∧ u.settings[d].mode = .latched) : LineTaken kind u d (u.lineRead d)
  /-- A trip ends without a hold. -/
  | ends (warm : kind = .warm) (inactive : u.readLine d = .inactive)
      (force : u.trips[d].state = .holding ∨ u.trips[d].state = .tripped ∧ u.settings[d].mode = .follow)
      (hold : u.settings[d].hold = 0) : LineTaken kind u d ((u.lineRead d).endTrip d)
  /-- The hold starts. -/
  | holds (warm : kind = .warm) (inactive : u.readLine d = .inactive)
      (force : u.trips[d].state = .holding ∨ u.trips[d].state = .tripped ∧ u.settings[d].mode = .follow)
      (hold : u.settings[d].hold ≠ 0) : LineTaken kind u d ((u.lineRead d).enterHolding d)

theorem State.warmLine_taken (u : State) (d : Degree) : LineTaken .warm u d (u.warmLine d) := by
  have held (inactive : u.readLine d = .inactive)
      (force : u.trips[d].state = .holding ∨ u.trips[d].state = .tripped ∧ u.settings[d].mode = .follow) :
      LineTaken .warm u d (if u.settings[d].hold = 0 then (u.lineRead d).endTrip d else (u.lineRead d).enterHolding d) := by
    split
    · next hold => exact .ends rfl inactive force hold
    · next hold => exact .holds rfl inactive force hold
  unfold State.warmLine
  dsimp only
  split
  case h_1 clear inactive => exact .stays (fun h => by rw [inactive] at h; cases h) fun _ => .inr (.inl clear)
  case h_2 clear active => exact .trips active (.inr (by rw [clear]; simp))
  case h_3 tripped active => exact .stays (fun _ => ⟨rfl, tripped⟩) fun h => by rw [active] at h; cases h
  case h_4 tripped inactive =>
    split
    · next latched =>
      exact .stays (fun h => by rw [inactive] at h; cases h) fun _ => .inr (.inr ⟨tripped, latched⟩)
    · next follow =>
      refine held inactive (.inr ⟨tripped, ?_⟩)
      cases mode : u.settings[d].mode with
      | latched => exact absurd mode follow
      | follow => rfl
  case h_5 holding inactive => exact held inactive (.inl holding)
  case h_6 holding active => exact .trips active (.inr (by rw [holding]; simp))

theorem State.takeUp_line (kind : ResetKind) (u : State) (d : Degree) : LineTaken kind u d (u.takeUp kind (.line d)) := by
  cases kind with
  | warm => exact u.warmLine_taken d
  | cold =>
    show LineTaken .cold u d (u.coldLine d)
    unfold State.coldLine
    dsimp only
    split
    · next active => exact .trips active (.inl rfl)
    · next idle => exact .stays (fun h => absurd h idle) fun _ => .inl rfl

theorem State.lineRead_worked (h : s.AllStarting) : LineWorked d s (s.lineRead d) := by
  rw [State.lineRead, State.setLine]
  exact State.mapTrip_worked h _

theorem LineTaken.worked (h : LineTaken kind s d t) (hs : s.AllStarting) : LineWorked d s t := by
  have read : LineWorked d s (s.lineRead d) := State.lineRead_worked hs
  have starting := read.kept.starting
  cases h with
  | trips => exact read.trans (State.enterTripped_worked starting)
  | stays => exact read
  | ends => exact read.trans (State.endTrip_worked starting)
  | holds => exact read.trans (State.mapTrip_worked starting _)

/-! ## A batch -/

/-- The START or RESYNC batch that a reset's end sends (R139, R141). -/
def ResetKind.batchKind : ResetKind → BatchKind
  | .cold => .start
  | .warm => .resync false

/-- Its entries. -/
def State.resetEntries (s : State) (l : LinkId) : ResetKind → List Entry
  | .cold => startEntries l
  | .warm => s.resyncEntries l

theorem State.mapLink_self {f : Link → Link} (h : f s.links[l] = s.links[l]) : s.mapLink l f = s := by
  unfold State.mapLink
  rw [h]
  show { s with links := s.links.set l.val s.links[l.val] } = s
  rw [Vector.set_getElem_self]

theorem State.takeUp_batch (hs : s.AllStarting) (kind : ResetKind) (l : LinkId) :
    s.takeUp kind (.batch l) = s.sendBatch l kind.batchKind (s.resetEntries l kind) := by
  have same : (s.mapLink l fun k => { k with state := .starting }) = s := State.mapLink_self <| by
    rw [← hs l]
  cases kind with
  | cold => rfl
  | warm =>
    show s.resync l false = _
    rw [State.resync, same]
    rfl

theorem State.batch_worked (hs : s.AllStarting) (kind : ResetKind) (l : LinkId) :
    Worked [.batch l] s (s.takeUp kind (.batch l)) := by
  rw [State.takeUp_batch hs]
  have starting : (s.sendBatch l kind.batchKind (s.resetEntries l kind)).AllStarting := fun k => by
    rw [State.link_sendBatch]
    split
    · exact hs l
    · exact hs k
  refine ⟨.same ⟨?_, ?_, ?_, ?_, ?_, .of_eq ?_, .of_eq ?_⟩ starting ?_ ?_ ?_ ?_ ?_, fun k hk => ?_, fun d hd => ?_,
    fun _ => ⟨?_, ?_⟩, fun d _ => ?_, fun d _ => ?_, fun i _ => State.conn_of_table ?_ i⟩
  case refine_13 => rw [State.link_sendBatch, if_neg fun e => hk (by simp [e])]
  case refine_14 => rw [State.switchGen_sendBatch, if_neg fun e => hd (by simp [e])]
  all_goals simp

/-! ## The choice -/

theorem State.prompt_worked (hs : s.AllStarting) : Worked [.choice] s s.prompt := by
  have links : s.prompt.links = s.links := by simp
  refine ⟨.same ⟨?_, ?_, ?_, ?_, ?_, .of_eq ?_, .of_eq ?_⟩ ((SameLinks.of_links links).allStarting hs) ?_ ?_ ?_ ?_ ?_,
    fun l _ => by rw [links], fun d _ => ?_, fun h => absurd (List.mem_singleton.mpr rfl) h, fun d _ => ?_, fun d _ => ?_,
    fun i _ => State.conn_of_table ?_ i⟩
  all_goals simp

theorem State.prompt_chose (idle : s.mon.state = .idle) :
    Chose s s.mon s.prompt.mon s.mreqPulses s.prompt.mreqPulses s.nodeTime := by
  rw [State.prompt, if_pos idle]
  exact s.choice_chose

theorem State.prompt_busy (busy : s.mon.state ≠ .idle) : s.prompt = s := if_neg busy

/-! ## The work, piece by piece -/

theorem State.takeUp_worked (hs : s.AllStarting) (kind : ResetKind) (w : ResetWork) : Worked [w] s (s.takeUp kind w) := by
  cases w with
  | line d => exact ((State.takeUp_line kind s d).worked hs).worked
  | batch l => exact State.batch_worked hs kind l
  | choice => exact State.prompt_worked hs

theorem State.takeUps_worked (kind : ResetKind) (ws : List ResetWork) : ∀ s : State, s.AllStarting →
    Worked ws s (ws.foldl (State.takeUp kind) s) := by
  induction ws with
  | nil => exact fun s hs => .refl [] hs
  | cons w ws ih =>
    intro s hs
    have first := State.takeUp_worked hs kind w
    exact first.trans (ih _ first.kept.starting)

/-- A piece is taken up in `u`, other pieces being taken up before it and after it, each once. -/
structure TakenIn (kind : ResetKind) (w : ResetWork) (s u t : State) : Prop where
  before : Kept s u
  after : Kept (u.takeUp kind w) t
  links : ∀ l, w = .batch l → u.links[l].unmarked = s.links[l].unmarked ∧
    t.links[l].unmarked = (u.takeUp kind w).links[l].unmarked
  switchGens : ∀ d, w = .batch (degreeLink d) → u.switchGen[d] = s.switchGen[d] ∧
    t.switchGen[d] = (u.takeUp kind w).switchGen[d]
  mons : w = .choice → (u.mon = s.mon ∧ u.mreqPulses = s.mreqPulses) ∧
    t.mon = (u.takeUp kind w).mon ∧ t.mreqPulses = (u.takeUp kind w).mreqPulses
  lines : ∀ d, w = .line d → (u.trips[d] = s.trips[d] ∧ u.ramps[d] = s.ramps[d]) ∧
    t.trips[d] = (u.takeUp kind w).trips[d] ∧ t.ramps[d] = (u.takeUp kind w).ramps[d]
  own : ∀ d i c, w = .line d → s.conn i = some c → c.route.sinkDegree = some d →
    u.conn i = some c ∧ t.conn i = (u.takeUp kind w).conn i
  records : (∀ d, w ≠ .line d) → ∀ i, u.conn i = s.conn i ∨ u.conn i = t.conn i

/-- Every piece is taken up once. -/
theorem State.takenIn (hs : s.AllStarting) (kind : ResetKind) (order : List ResetWork) (w : ResetWork)
    (last : Worked [] ((workOrder order).foldl (State.takeUp kind) s) t) : ∃ u, TakenIn kind w s u t := by
  obtain ⟨A, B, split, nodup⟩ := workOrder_split order w
  rw [split, List.foldl_append, List.foldl_cons] at last
  obtain ⟨-, nodupB, apart⟩ := List.nodup_append.mp nodup
  have first : Worked A s (A.foldl (State.takeUp kind) s) := State.takeUps_worked kind A s hs
  obtain ⟨u, hu⟩ : ∃ u, u = A.foldl (State.takeUp kind) s := ⟨_, rfl⟩
  rw [← hu] at last first
  refine ⟨u, ?_⟩
  have own : Worked [w] u (u.takeUp kind w) := State.takeUp_worked first.kept.starting kind w
  have rest := (State.takeUps_worked kind B _ own.kept.starting).trans last
  rw [List.append_nil] at rest
  have notA : w ∉ A := fun h => apart w h w (List.mem_cons_self ..) rfl
  have notB : w ∉ B := (List.nodup_cons.mp nodupB).1
  exact {
    before := first.kept
    after := rest.kept
    links := by rintro l rfl; exact ⟨first.link l notA, rest.link l notB⟩
    switchGens := by rintro d rfl; exact ⟨first.switchGen d notA, rest.switchGen d notB⟩
    mons := by rintro rfl; exact ⟨first.mon notA, rest.mon notB⟩
    lines := by
      rintro d rfl
      exact ⟨⟨first.trips d notA, first.ramps d notA⟩, rest.trips d notB, rest.ramps d notB⟩
    own := by
      rintro d i c rfl hc hd
      have same : u.conn i = some c := hc ▸ first.conn i fun a k ha hk => by
        rw [hc] at ha
        cases ha
        rw [hd] at hk
        cases hk
        exact notA
      refine ⟨same, rest.conn i fun a k ha hk => ?_⟩
      obtain ⟨c', hc', route⟩ := own.kept.conns i a ha
      rw [same] at hc'
      cases hc'
      rw [route, hd] at hk
      cases hk
      exact notB
    records := fun hw i => by
      by_cases line : ∃ c d, s.conn i = some c ∧ c.route.sinkDegree = some d ∧ .line d ∈ A
      · obtain ⟨c, d, hc, hd, hA⟩ := line
        have same : (u.takeUp kind w).conn i = u.conn i := own.conn i fun _ k _ _ h => hw k (List.mem_singleton.mp h).symm
        refine .inr (same.symm.trans (rest.conn i fun a k ha hk hB => ?_).symm)
        obtain ⟨c', hc', route⟩ := (first.kept.trans own.kept).conns i a ha
        rw [hc] at hc'
        cases hc'
        rw [route, hd] at hk
        cases hk
        exact apart _ hA _ (List.mem_cons_of_mem _ hB) rfl
      · exact .inl (first.conn i fun c d hc hd h => line ⟨c, d, hc, hd, h⟩) }

end

end Sys2Proof.Machine
end

