-- ==== Sys2Proof/Proofs/ResetEnd.lean ====
section
/-! Proofs/ResetEnd.lean: a reset's end from its first state to its last, and what it leaves of each link and each line
(R139, R141, R156, R157). -/

set_option Elab.async false

namespace Sys2Proof.Machine
open Sys2Proof

section
variable {s t u v x : State} {d : Degree} {i : SlotIx} {l : LinkId} {c c' : Conn} {kind : ResetKind} {w : ResetWork}
  {order : List ResetWork} {q : Domain}

/-! ## The first state and the last -/

theorem State.link_leaving (s : State) (kind : ResetKind) (l : LinkId) :
    (s.leaving kind).links[l] = { s.links[l] with state := .starting } := by
  have links : (s.leaving kind).links = s.links.map fun k => { k with state := .starting } := by cases kind <;> rfl
  rw [links, Fin.getElem_fin, Vector.getElem_map]
  rfl

theorem State.leaving_starting (s : State) (kind : ResetKind) : (s.leaving kind).AllStarting := fun l => by
  rw [State.link_leaving]

/-- What stands as it stood when the work begins. -/
theorem State.leaving_frame (s : State) (kind : ResetKind) :
    (s.leaving kind).table = s.table ∧ (s.leaving kind).map = s.map ∧ (s.leaving kind).actives = s.actives ∧
    (s.leaving kind).matrix = s.matrix ∧ (s.leaving kind).settings = s.settings ∧
    (s.leaving kind).managers = s.managers ∧ (s.leaving kind).nodeTime = s.nodeTime ∧ (s.leaving kind).held = none ∧
    (s.leaving kind).tripPins = s.tripPins ∧ (s.leaving kind).trips = s.trips ∧
    (s.leaving kind).switchGen = s.switchGen ∧ (s.leaving kind).mon = s.mon ∧
    (s.leaving kind).mreqPulses = s.mreqPulses := by
  cases kind <;> exact ⟨rfl, rfl, rfl, rfl, rfl, rfl, rfl, rfl, rfl, rfl, rfl, rfl, rfl⟩

/-- Work beside the pieces. -/
theorem Worked.aside (hs : s.AllStarting) (untouched : Untouched s t) (links : SameLinks s t) (table : t.table = s.table)
    (map : t.map = s.map) (actives : t.actives = s.actives) (matrix : t.matrix = s.matrix) (tracks : t.tracks = s.tracks)
    (switchGen : ∀ d : Degree, t.switchGen[d] = s.switchGen[d]) (mon : t.mon = s.mon)
    (pulses : t.mreqPulses = s.mreqPulses) (trips : t.trips = s.trips) (ramps : t.ramps = s.ramps) : Worked [] s t :=
  ⟨.same untouched (links.allStarting hs) table map actives matrix tracks, fun l _ => links l, fun d _ => switchGen d,
    fun _ => ⟨mon, pulses⟩, fun _ _ => by rw [trips], fun _ _ => by rw [ramps],
    fun i _ => State.conn_of_table table i⟩

/-- With every link STARTING the examination of the links sends nothing (R127). -/
theorem State.flushLink_worked (hs : s.AllStarting) (l : LinkId) : Worked [] s (s.flushLink l) := by
  have still : ∀ k, ¬ s.sendable k := fun k h => by
    have ready := h.1
    rw [hs k] at ready
    cases ready
  refine .aside hs ⟨?_, ?_, ?_, ?_, ?_, .of_eq ?_, .of_eq ?_⟩ (fun k => (State.flushLink_still l (still k)).1) ?_ ?_ ?_ ?_ ?_
    (fun d => (State.flushLink_still l (still (degreeLink d))).2 d rfl) ?_ ?_ ?_ ?_
  all_goals simp

theorem State.flagManager_besides (hs : s.AllStarting) (d : Degree) (f : FlagSet) : Worked [] s (s.flagManager d f) := by
  refine .aside hs ⟨?_, ?_, ?_, ?_, ?_, s.flagManager_grows d f, s.flagManager_tripFlags d f⟩
    (.of_links ?_) ?_ ?_ ?_ ?_ ?_ (fun _ => ?_) ?_ ?_ ?_ ?_
  all_goals simp

theorem Worked.foldl {α : Type} {f : State → α → State} (step : ∀ s a, s.AllStarting → Worked [] s (f s a)) (l : List α) :
    ∀ s : State, s.AllStarting → Worked [] s (l.foldl f s) := by
  induction l with
  | nil => exact fun s hs => .refl [] hs
  | cons a l ih =>
    intro s hs
    have first := step s a hs
    exact first.trans (ih _ first.kept.starting)

theorem State.flushLinks_worked (hs : s.AllStarting) : Worked [] s s.flushLinks :=
  Worked.foldl (fun _ l hs => State.flushLink_worked hs l) _ s hs

/-- The TRIP flag of one degree at the end of a warm reset (R157). -/
def State.keptTripFlag (before t : State) (d : Degree) : State :=
  if before.tripInForce d && t.tripInForce d then t.flagManager d .onlyTrip else t

theorem State.keptTripFlag_worked (before : State) (hs : s.AllStarting) (d : Degree) :
    Worked [] s (before.keptTripFlag s d) := by
  unfold State.keptTripFlag
  split
  · exact State.flagManager_besides hs d _
  · exact .refl [] hs

theorem State.keptTripFlags_worked (before : State) (hs : s.AllStarting) : Worked [] s (s.keptTripFlags before) :=
  Worked.foldl (fun _ d hs => State.keptTripFlag_worked before hs d) _ s hs

/-- After the work nothing but marks and flags changes. -/
theorem State.leave_last (s : State) (kind : ResetKind) (order : List ResetWork) :
    Worked [] ((workOrder order).foldl (State.takeUp kind) (s.leaving kind)) (s.leave kind order) := by
  have starting := (State.takeUps_worked kind (workOrder order) _ (s.leaving_starting kind)).kept.starting
  cases kind with
  | cold => exact State.flushLinks_worked starting
  | warm =>
    have flags := State.keptTripFlags_worked s starting
    exact flags.trans (State.flushLinks_worked flags.kept.starting)

theorem State.leave_worked (s : State) (kind : ResetKind) (order : List ResetWork) :
    Worked (workOrder order) (s.leaving kind) (s.leave kind order) := by
  have all := (State.takeUps_worked kind (workOrder order) _ (s.leaving_starting kind)).trans (s.leave_last kind order)
  rwa [List.append_nil] at all

theorem State.leave_takes (s : State) (kind : ResetKind) (order : List ResetWork) (w : ResetWork) :
    ∃ u, TakenIn kind w (s.leaving kind) u (s.leave kind order) :=
  State.takenIn (s.leaving_starting kind) kind order w (s.leave_last kind order)

/-! ## The TRIP flag of a trip that stays in force -/

theorem State.keptTripFlag_set (hq : s.manager d = some q) {before : State} (first : before.tripInForce d = true)
    (last : s.tripInForce d = true) : (before.keptTripFlag s d).ports[q].flags.trip = true := by
  rw [State.keptTripFlag, first, last, Bool.and_true, if_pos rfl, State.flagManager_of hq, State.port_setFlag, if_pos rfl]
  show (_ || _) = true
  rw [Bool.or_eq_true]
  exact .inr rfl

theorem State.keptTripFlags_set (hs : s.AllStarting) (hq : s.manager d = some q) {before : State}
    (first : before.tripInForce d = true) (last : s.tripInForce d = true) :
    (s.keptTripFlags before).ports[q].flags.trip = true := by
  obtain ⟨A, B, split⟩ := List.append_of_mem (List.mem_finRange d)
  have flags : s.keptTripFlags before = (List.finRange 4).foldl before.keptTripFlag s := rfl
  rw [flags, split, List.foldl_append, List.foldl_cons]
  have upTo : Worked [] s (A.foldl before.keptTripFlag s) :=
    Worked.foldl (fun _ d hs => State.keptTripFlag_worked before hs d) A s hs
  generalize A.foldl before.keptTripFlag s = u at upTo
  have own := State.keptTripFlag_worked before upTo.kept.starting d
  have rest : Worked [] _ (B.foldl before.keptTripFlag (before.keptTripFlag u d)) :=
    Worked.foldl (fun _ d hs => State.keptTripFlag_worked before hs d) B _ own.kept.starting
  refine rest.kept.flags q (State.keptTripFlag_set ?_ first ?_)
  · rw [State.manager, upTo.kept.managers]
    exact hq
  · rw [State.tripInForce, upTo.trips d (List.not_mem_nil)]
    exact last

/-- A trip in force before a warm reset and at its end sets TRIP (R157). -/
theorem State.leave_tripFlag (ht : s.leave .warm order = t) (hq : s.manager d = some q)
    (first : s.trips[d].state ≠ .clear) (last : t.trips[d].state ≠ .clear) : t.ports[q].flags.trip = true := by
  have work := State.takeUps_worked .warm (workOrder order) _ (s.leaving_starting .warm)
  have leave : s.leave .warm order =
    (((workOrder order).foldl (State.takeUp .warm) (s.leaving .warm)).keptTripFlags s).flushLinks := rfl
  rw [leave] at ht
  subst ht
  generalize (workOrder order).foldl (State.takeUp .warm) (s.leaving .warm) = x at work last
  have trips : (x.keptTripFlags s).flushLinks.trips = x.trips := by
    rw [(x.keptTripFlags s).flushLinks_frame.2.2.2.2.2.2.2.2.2.2.2.1, (x.keptTripFlags_frame s).2.2.1]
  rw [trips] at last
  rw [(x.keptTripFlags s).flushLinks_frame.2.2.2.2.2.2.2.2.2.2.2.2.2.1]
  refine State.keptTripFlags_set (d := d) work.kept.starting ?_ ?_ ?_
  · rw [State.manager, work.kept.managers]
    exact hq
  · simpa [State.tripInForce, -Fin.getElem_fin] using first
  · simpa [State.tripInForce, -Fin.getElem_fin] using last

/-! ## A link -/

/-- What a reset's end leaves of a link: its batch in flight, sent from the state `u`. -/
structure BatchLeft (kind : ResetKind) (l : LinkId) (s u t : State) : Prop where
  before : Kept (s.leaving kind) u
  after : Kept u t
  records : ∀ i, u.conn i = s.conn i ∨ u.conn i = t.conn i
  state : t.links[l].state = .starting
  seq : t.links[l].seq = s.links[l].seq + 1
  timer : t.links[l].timer = some (s.nodeTime + s.period l)
  inFlight : t.links[l].inFlight = some ⟨kind.batchKind, s.links[l].seq, u.resetEntries l kind⟩
  switchGen : ∀ d, l = degreeLink d → t.switchGen[d] = s.switchGen[d] + 1

theorem State.leave_batch (s : State) (kind : ResetKind) (order : List ResetWork) (l : LinkId) :
    ∃ u, BatchLeft kind l s u (s.leave kind order) := by
  obtain ⟨u, h⟩ := s.leave_takes kind order (.batch l)
  obtain ⟨table, -, -, -, settings, -, nodeTime, -, -, -, switchGen, -⟩ := s.leaving_frame kind
  obtain ⟨first, last⟩ := h.links l rfl
  rw [State.takeUp_batch h.before.starting, State.link_sendBatch, if_pos rfl] at last
  have seq : u.links[l].seq = s.links[l].seq := by
    refine (congrArg Link.seq first :).trans ?_
    show (s.leaving kind).links[l].seq = _
    rw [State.link_leaving]
  have period : u.period l = s.period l := by
    unfold State.period
    rw [h.before.settings, settings]
  refine ⟨u, h.before, ?_, fun i => ?_, h.after.starting l, ?_, ?_, ?_, fun d hd => ?_⟩
  · exact (State.batch_worked h.before.starting kind l).kept.trans h.after
  · rw [← State.conn_of_table table i]
    exact h.records (fun _ e => nomatch e) i
  · exact (congrArg Link.seq last :).trans (by rw [← seq]; rfl)
  · refine (congrArg Link.timer last :).trans ?_
    rw [← period, ← State.replyPeriod_period, ← nodeTime, ← h.before.nodeTime]
    rfl
  · exact (congrArg Link.inFlight last :).trans (by rw [← seq]; rfl)
  · subst hd
    obtain ⟨first, last⟩ := h.switchGens d rfl
    rw [last, State.takeUp_batch h.before.starting, State.switchGen_sendBatch, if_pos rfl, first, switchGen]

/-! ## A line -/

/-- What a reset's end leaves of a line: it is taken up in the state `u`, and leaves `v`. -/
structure LineLeft (kind : ResetKind) (d : Degree) (s u v t : State) : Prop where
  taken : LineTaken kind u d v
  before : Kept (s.leaving kind) u
  after : Kept v t
  trip : u.trips[d] = s.trips[d] ∧ t.trips[d] = v.trips[d]
  ramps : u.ramps[d] = (s.leaving kind).ramps[d] ∧ t.ramps[d] = v.ramps[d]
  own : ∀ i c, s.conn i = some c → c.route.sinkDegree = some d → u.conn i = some c ∧ t.conn i = v.conn i

theorem State.leave_line (s : State) (kind : ResetKind) (order : List ResetWork) (d : Degree) :
    ∃ u v, LineLeft kind d s u v (s.leave kind order) := by
  obtain ⟨u, h⟩ := s.leave_takes kind order (.line d)
  obtain ⟨table, -, -, -, -, -, -, -, -, trips, -⟩ := s.leaving_frame kind
  obtain ⟨⟨trip, ramps⟩, trip', ramps'⟩ := h.lines d rfl
  refine ⟨u, _, State.takeUp_line kind u d, h.before, h.after, ⟨by rw [trip, trips], trip'⟩, ⟨ramps, ramps'⟩,
    fun i c hc hd => h.own d i c rfl ?_ hd⟩
  rw [State.conn_of_table table, hc]

theorem State.trip_lineRead (s : State) (d : Degree) : (s.lineRead d).trips[d] = { s.trips[d] with line := s.readLine d } := by
  rw [State.lineRead, State.setLine, State.mapTrip_trips, get_set_self]

theorem State.trip_lineTrips (s : State) (d : Degree) : ((s.lineRead d).enterTripped d).trips[d] =
    { s.trips[d] with line := s.readLine d, state := .tripped, timer := none } := by
  rw [State.trips_enterTripped, State.mapTrip_trips, get_set_self, State.trip_lineRead]

theorem State.trip_lineEnds (s : State) (d : Degree) : ((s.lineRead d).endTrip d).trips[d] =
    { s.trips[d] with line := s.readLine d, state := .clear, timer := none } := by
  rw [State.trips_endTrip, State.mapTrip_trips, get_set_self, State.trip_lineRead]

theorem State.trip_lineHolds (s : State) (d : Degree) : ((s.lineRead d).enterHolding d).trips[d] =
    { s.trips[d] with line := s.readLine d, state := .holding,
                      timer := some (s.nodeTime + BitVec.ofNat 32 s.settings[d].hold) } := by
  rw [State.enterHolding, State.mapTrip_trips, get_set_self, State.trip_lineRead]
  rfl

/-- The trip state that a line's activity leaves, by the table of the reset (R156, R157). -/
def LineTable (kind : ResetKind) (s : State) (d : Degree) (act : LineLevel) (k : Trip) : Prop :=
  k.line = act ∧
  (act = .active → k.state = .tripped) ∧
  (act = .inactive → kind = .cold ∨ s.trips[d].state = .clear ∨
      (s.trips[d].state = .tripped ∧ s.settings[d].mode = .latched) →
    k.state = s.trips[d].state) ∧
  (act = .inactive → kind = .warm → s.trips[d].state = .holding ∨
      (s.trips[d].state = .tripped ∧ s.settings[d].mode = .follow) →
    (s.settings[d].hold = 0 → k.state = .clear) ∧
    (0 < s.settings[d].hold → k.state = .holding ∧
      k.timer = some (s.nodeTime + BitVec.ofNat 32 s.settings[d].hold)))

/-- The two rows of the table out of which an INACTIVE line leads exclude each other. -/
theorem resetRows_apart {k : TripState} {m : TripMode} (warm : kind = .warm)
    (force : k = .holding ∨ k = .tripped ∧ m = .follow) : ¬ (kind = .cold ∨ k = .clear ∨ k = .tripped ∧ m = .latched) := by
  subst warm
  obtain rfl | ⟨rfl, rfl⟩ := force <;> simp

theorem LineTaken.table (h : LineTaken kind u d v) : LineTable kind u d (u.readLine d) v.trips[d] := by
  cases h with
  | trips active =>
    have idle : u.readLine d ≠ .inactive := by rw [active]; simp
    rw [State.trip_lineTrips]
    exact ⟨rfl, fun _ => rfl, fun h => absurd h idle, fun h => absurd h idle⟩
  | stays active inactive =>
    rw [State.trip_lineRead]
    exact ⟨rfl, fun h => (active h).2, fun _ _ => rfl,
      fun h warm force => absurd (inactive h) (resetRows_apart warm force)⟩
  | ends warm inactive force hold =>
    have idle : u.readLine d ≠ .active := by rw [inactive]; simp
    rw [State.trip_lineEnds]
    exact ⟨rfl, fun h => absurd h idle, fun _ rest => absurd rest (resetRows_apart warm force),
      fun _ _ _ => ⟨fun _ => rfl, fun h => absurd hold (Nat.ne_of_gt h)⟩⟩
  | holds warm inactive force hold =>
    have idle : u.readLine d ≠ .active := by rw [inactive]; simp
    rw [State.trip_lineHolds]
    exact ⟨rfl, fun h => absurd h idle, fun _ rest => absurd rest (resetRows_apart warm force),
      fun _ _ _ => ⟨fun h => absurd h hold, fun _ => ⟨rfl, rfl⟩⟩⟩

/-! ### Out of a warm reset -/

/-- A degree that trips has done so on its line. -/
theorem LineTaken.tripped (h : LineTaken kind u d v) (first : u.trips[d].state ≠ .tripped)
    (last : v.trips[d].state = .tripped) : v = (u.lineRead d).enterTripped d := by
  cases h with
  | trips => rfl
  | stays => rw [State.trip_lineRead] at last; exact absurd last first
  | ends => rw [State.trip_lineEnds] at last; cases last
  | holds => rw [State.trip_lineHolds] at last; cases last

theorem LineTaken.ended (h : LineTaken kind u d v) (first : u.trips[d].state ≠ .clear)
    (last : v.trips[d].state = .clear) : v = (u.lineRead d).endTrip d := by
  cases h with
  | trips => rw [State.trip_lineTrips] at last; cases last
  | stays => rw [State.trip_lineRead] at last; exact absurd last first
  | ends => rfl
  | holds => rw [State.trip_lineHolds] at last; cases last

/-- A trip state that stays, or a hold that starts, leaves the records and the ramps. -/
theorem LineTaken.still (h : LineTaken .warm u d v)
    (state : v.trips[d].state = u.trips[d].state ∨ v.trips[d].state = .holding) :
    v.table = u.table ∧ v.ramps = u.ramps := by
  cases h with
  | trips active first =>
    rw [State.trip_lineTrips] at state
    obtain cold | first := first
    · cases cold
    · obtain same | holding := state
      · exact absurd same.symm first
      · cases holding
  | stays => exact ⟨rfl, rfl⟩
  | ends warm inactive force =>
    rw [State.trip_lineEnds] at state
    have : u.trips[d].state ≠ .clear := by
      obtain h | ⟨h, -⟩ := force <;> rw [h] <;> simp
    obtain same | holding := state
    · exact absurd same.symm this
    · cases holding
  | holds => exact ⟨rfl, rfl⟩

end

end Sys2Proof.Machine
end

