-- ==== Sys2Proof/Proofs/LeaveReset.lean ====
section
/-! Proofs/LeaveReset.lean: LEAVE_RESET, whatever the order of its work (R139, R141, R156, R157, R204). -/

set_option Elab.async false

namespace Sys2Proof.Machine
open Sys2Proof

section
variable {s t u v x : State} {d : Degree} {i : SlotIx} {l : LinkId} {c c' : Conn} {kind : ResetKind} {w : ResetWork}
  {order : List ResetWork} {q : Domain}

/-! ## The whole of it -/

/-- What a reset's end leaves. -/
structure ResetLeft (kind : ResetKind) (s t : State) : Prop where
  kept : Kept (s.leaving kind) t
  unsunk : ∀ i, (∀ c d, s.conn i = some c → c.route.sinkDegree ≠ some d) → t.conn i = s.conn i
  batch : ∀ l, ∃ u, BatchLeft kind l s u t
  line : ∀ d, ∃ u v, LineLeft kind d s u v t
  choice : ∃ u, TakenIn kind .choice (s.leaving kind) u t
  tripFlag : ∀ (d : Degree) (q : Domain), kind = .warm → s.manager d = some q → s.trips[d].state ≠ .clear →
    t.trips[d].state ≠ .clear → t.ports[q].flags.trip = true

theorem State.leave_left (ht : s.leave kind order = t) : ResetLeft kind s t := by
  have worked := s.leave_worked kind order
  have batch := s.leave_batch kind order
  have line := s.leave_line kind order
  have choice := s.leave_takes kind order .choice
  rw [ht] at worked batch line choice
  refine ⟨worked.kept, fun i hi => ?_, batch, line, choice, fun d q warm hq => ?_⟩
  · have conn : (s.leaving kind).conn i = s.conn i := State.conn_of_table (s.leaving_frame kind).1 i
    exact (worked.conn i fun c d hc hd => absurd hd (hi c d (conn ▸ hc))).trans conn
  · subst warm
    exact State.leave_tripFlag ht hq

/-! ## The trip states -/

theorem State.readLine_eq (s : State) (d : Degree) : s.readLine d =
    if (s.settings[d].activeLevel = .high ↔ s.tripPins[d] = true) then .active else .inactive := by
  unfold State.readLine ActiveLevel.judge
  cases s.settings[d].activeLevel <;> cases s.tripPins[d] <;> rfl

theorem ResetLeft.table (r : ResetLeft kind s t) (d : Degree) : LineTable kind s d (s.readLine d) t.trips[d] := by
  obtain ⟨u, v, h⟩ := r.line d
  obtain ⟨-, -, -, -, settings, -, nodeTime, -, pins, -⟩ := s.leaving_frame kind
  have table := h.taken.table
  have line : u.readLine d = s.readLine d := by
    unfold State.readLine
    rw [h.before.settings, h.before.tripPins, settings, pins]
  unfold LineTable at table
  rwa [line, h.trip.1, h.before.settings, settings, h.before.nodeTime, nodeTime, ← h.trip.2] at table

/-! ## The records out of a warm reset -/

/-- A trip state that stays, or a hold that starts, leaves the records of the degree and RSC's state rebuilt (R64, R157). -/
theorem ResetLeft.still (r : ResetLeft .warm s t)
    (state : t.trips[d].state = s.trips[d].state ∨ t.trips[d].state = .holding) :
    t.ramps[d] = s.startLinks.rebuiltRamps d ∧
    ∀ i c, s.conn i = some c → c.route.sinkDegree = some d → t.conn i = some c := by
  obtain ⟨u, v, h⟩ := r.line d
  obtain ⟨table, ramps⟩ := h.taken.still (by rw [← h.trip.2, h.trip.1]; exact state)
  refine ⟨?_, fun i c hc hd => ?_⟩
  · rw [h.ramps.2, ramps, h.ramps.1]
    exact s.startLinks.ramps_rebuild d
  · obtain ⟨first, last⟩ := h.own i c hc hd
    rw [last, State.conn_of_table table, first]

/-- A degree that trips leaves its records as R37 gives, or FREE when they were to drain and are settled BLOCKED. -/
theorem ResetLeft.tripped (r : ResetLeft .warm s t) (first : s.trips[d].state ≠ .tripped)
    (last : t.trips[d].state = .tripped) :
    (∀ i c, s.conn i = some c → c.route.sinkDegree = some d →
      t.conn i = some (trippedRecord c) ∨
        (c.state = .pendingDown ∨ c.state = .rampDown) ∧ s.actives[i] = .blocked ∧ t.conn i = none) ∧
    ∀ q : Domain, s.manager d = some q → t.ports[q].flags.trip = true ∧
      Heard t q ⟨.tripOn, none, some d, none, s.nodeTime⟩ := by
  obtain ⟨u, v, h⟩ := r.line d
  have trips := h.taken.tripped (by rw [h.trip.1]; exact first) (by rw [← h.trip.2]; exact last)
  obtain ⟨-, -, actives, -, -, managers, nodeTime, -⟩ := s.leaving_frame .warm
  obtain ⟨-, -, -, -, told, -⟩ := (u.lineRead d).enterTripped_tripped d
  rw [← trips] at told
  refine ⟨fun i c hc hd => ?_, fun q hq => ?_⟩
  · obtain ⟨before, after⟩ := h.own i c hc hd
    have active : u.actives[i] = s.actives[i] := by rw [h.before.actives i (by rw [before]; simp), actives]
    rw [after, trips, State.conn_enterTripped (s := u.lineRead d) before hd]
    split
    · next drains =>
      obtain ⟨down, settled⟩ := drains
      refine .inr ⟨down, ?_, rfl⟩
      rw [← active]
      simp only [State.settled, Bool.and_eq_true, beq_iff_eq] at settled
      exact settled.1.1
    · exact .inl rfl
  · have manager : (u.lineRead d).manager d = some q := by
      show u.managers[_] = _
      rw [h.before.managers, managers]
      exact hq
    obtain ⟨flag, heard⟩ := told q manager
    have now : (u.lineRead d).nodeTime = s.nodeTime := h.before.nodeTime.trans nodeTime
    rw [now] at heard
    have told : Heard v q ⟨.tripOn, none, some d, none, s.nodeTime⟩ := heard
    exact ⟨h.after.flags q flag, told.grow h.after.ports⟩

/-- A trip that ends releases its records, which wait for a grant (R38, R55, R152). -/
theorem ResetLeft.ended (r : ResetLeft .warm s t) (first : s.trips[d].state ≠ .clear)
    (last : t.trips[d].state = .clear) :
    (∀ i c, s.conn i = some c → c.route.sinkDegree = some d →
      t.conn i = some (c.uncaused .trip) ∧
        (c.resumes .trip → (⟨s.handleAt i, none⟩ : QueueEntry) ∈ t.ramps[d].queue)) ∧
    ∀ q : Domain, s.manager d = some q → Heard t q ⟨.tripOff, none, some d, none, s.nodeTime⟩ := by
  obtain ⟨u, v, h⟩ := r.line d
  have ends := h.taken.ended (by rw [h.trip.1]; exact first) (by rw [← h.trip.2]; exact last)
  obtain ⟨table, -, -, -, -, managers, nodeTime, -⟩ := s.leaving_frame .warm
  have starting := (State.lineRead_worked (d := d) h.before.starting).kept.starting
  refine ⟨fun i c hc hd => ?_, fun q hq => ?_⟩
  · obtain ⟨before, after⟩ := h.own i c hc hd
    have name : (u.lineRead d).handleAt i = s.handleAt i := by
      show u.handleAt i = _
      rw [State.handleAt, h.before.gens, table, State.handleAt]
    refine ⟨by rw [after, ends, State.conn_endTrip starting before hd], fun last => ?_⟩
    rw [h.ramps.2, ends, ← name]
    exact State.queue_endTrip starting before hd last
  · have manager : (u.lineRead d).manager d = some q := by
      show u.managers[_] = _
      rw [h.before.managers, managers]
      exact hq
    have heard := State.endTrip_heard manager
    have now : (u.lineRead d).nodeTime = s.nodeTime := h.before.nodeTime.trans nodeTime
    rw [← ends, now] at heard
    exact heard.grow h.after.ports

theorem trippedRecord_entry (c : Conn) : (trippedRecord c).span = c.span ∧
    ((trippedRecord c).shadow = c.shadow ∨ (trippedRecord c).shadow = .blocked) := by
  unfold trippedRecord
  split <;> simp [suspendedRecord]

theorem Conn.uncaused_entry (c : Conn) (k : Cause) : (c.uncaused k).span = c.span ∧ (c.uncaused k).shadow = c.shadow := by
  unfold Conn.uncaused
  split <;> exact ⟨rfl, rfl⟩

/-- What a reset's end may leave of a record's entry in a batch: its shadow, or BLOCKED where its sink degree has tripped. -/
def EntryLeft (s t : State) (c c' : Conn) : Prop :=
  c'.span = c.span ∧ (c'.shadow = c.shadow ∨ c'.shadow = .blocked ∧ ∃ k : Degree, c.route.sinkDegree = some k ∧
    s.trips[k].state ≠ .tripped ∧ t.trips[k].state = .tripped)

theorem ResetLeft.entry (r : ResetLeft .warm s t) (hc : s.conn i = some c)
    (hc' : t.conn i = some c') : EntryLeft s t c c' := by
  have same : t.conn i = some c → EntryLeft s t c c' := fun e => by
    rw [hc'] at e
    cases e
    exact ⟨rfl, .inl rfl⟩
  cases hd : c.route.sinkDegree with
  | none =>
    refine same ((r.unsunk i fun a d ha hs => ?_).trans hc)
    rw [hc] at ha
    cases ha
    rw [hd] at hs
    cases hs
  | some d =>
    by_cases tripped : s.trips[d].state ≠ .tripped ∧ t.trips[d].state = .tripped
    · obtain ⟨first, last⟩ := tripped
      obtain h | ⟨-, -, free⟩ := (r.tripped first last).1 i c hc hd
      · rw [hc'] at h
        cases h
        obtain ⟨span, shadow⟩ := trippedRecord_entry c
        exact ⟨span, shadow.imp id fun h => ⟨h, d, hd, first, last⟩⟩
      · rw [hc'] at free
        cases free
    · by_cases ended : s.trips[d].state ≠ .clear ∧ t.trips[d].state = .clear
      · obtain ⟨h, -⟩ := (r.ended ended.1 ended.2).1 i c hc hd
        rw [hc'] at h
        cases h
        obtain ⟨span, shadow⟩ := c.uncaused_entry .trip
        exact ⟨span, .inl shadow⟩
      · refine same ((r.still ?_).2 i c hc hd)
        cases last : t.trips[d].state with
        | holding => exact .inr rfl
        | clear => exact .inl (by_contra fun h => ended ⟨fun e => h e.symm, last⟩)
        | tripped => exact .inl (by_contra fun h => tripped ⟨fun e => h e.symm, last⟩)

/-! ## The batches out of a warm reset -/

theorem State.leaving_lists (s : State) (kind : ResetKind) (d : Degree) (h : Handle) :
    (s.leaving kind).lists d h ↔ s.lists d h := State.lists_of_map (s.leaving_frame kind).2.1 d h

/-- A RESYNC carries entries of the degree's records only. -/
theorem BatchLeft.names {h : Handle} (b : BatchLeft .warm l s u t) (r : ResetLeft .warm s t) (hl : u.lists d h)
    (hc' : u.find h = some c') :
    ∃ c, s.find h = some c ∧ s.lists d h ∧ c'.route = c.route ∧ EntryLeft s t c c' := by
  obtain ⟨table, -⟩ := s.leaving_frame .warm
  obtain ⟨gen, own⟩ := (u.find_eq_some h c').mp hc'
  obtain ⟨c, hc, route⟩ := b.before.conns h.slot c' own
  rw [State.conn_of_table table] at hc
  refine ⟨c, (s.find_eq_some h c).mpr ⟨?_, hc⟩, (s.leaving_lists .warm d h).mp (b.before.listed d h hl), route, ?_⟩
  · rw [← gen, b.before.gens, table]
  · obtain same | same := b.records h.slot
    · rw [own, hc] at same
      cases same
      exact ⟨rfl, .inl rfl⟩
    · exact r.entry hc (same.symm.trans own)

/-- A RESYNC carries an entry of every record of the degree's lists that stays. -/
theorem BatchLeft.carries {h : Handle} (b : BatchLeft .warm l s u t) (hl : s.lists d h) (hc : s.find h = some c)
    (stays : t.conn h.slot ≠ none) : u.lists d h ∧ ∃ c', u.find h = some c' := by
  obtain ⟨table, -⟩ := s.leaving_frame .warm
  have there : u.conn h.slot ≠ none := b.after.there stays
  obtain ⟨c', hc'⟩ := Option.ne_none_iff_exists'.mp there
  refine ⟨b.before.lists d h ((s.leaving_lists .warm d h).mpr hl) there, c', (u.find_eq_some h c').mpr ⟨?_, hc'⟩⟩
  rw [b.before.gens, table]
  exact ((s.find_eq_some h c).mp hc).1

/-- A matrix half in a batch of SLM's is as kept, or none where it is none at the end. -/
theorem BatchLeft.halves (b : BatchLeft .warm l s u t) (k : LocalPort) :
    (u.matrix[k].addShadow = s.matrix[k].addShadow ∨ u.matrix[k].addShadow = none ∧ t.matrix[k].addShadow = none) ∧
    (u.matrix[k].dropShadow = s.matrix[k].dropShadow ∨ u.matrix[k].dropShadow = none ∧ t.matrix[k].dropShadow = none) := by
  obtain ⟨-, -, -, matrix, -⟩ := s.leaving_frame .warm
  obtain ⟨add, drop⟩ := b.before.matrix k
  obtain ⟨add', drop'⟩ := b.after.matrix k
  rw [matrix] at add drop
  exact ⟨add.imp id fun h => ⟨h, by rw [h, or_self] at add'; exact add'⟩,
    drop.imp id fun h => ⟨h, by rw [h, or_self] at drop'; exact drop'⟩⟩

/-! ## What is rebuilt -/

theorem State.rebuiltTrack_eq (s : State) (i : SlotIx) (e : TrackEntry) : s.rebuiltTrack i = some e ↔
    ∃ (c : Conn) (light : Light), s.conn i = some c ∧ c.source = some light ∧
      e = ⟨s.handleAt i, c.route.tap, c.span, light, 0, 0⟩ := by
  simp only [State.rebuiltTrack, Option.bind_eq_some_iff, Option.map_eq_some_iff]
  constructor
  · rintro ⟨c, hc, light, hl, rfl⟩
    exact ⟨c, light, hc, hl, rfl⟩
  · rintro ⟨c, light, hc, hl, rfl⟩
    exact ⟨c, hc, light, hl, rfl⟩

/-- The tracking entries rebuilt, in slot order, of the records that stay (R97). -/
theorem ResetLeft.tracks (r : ResetLeft .warm s t) :
    (t.tracks.map (·.handle.slot.val)).Pairwise (· < ·) ∧
    ∀ e : TrackEntry, e ∈ t.tracks ↔ ∃ (i : SlotIx) (c : Conn) (light : Light), s.conn i = some c ∧
      t.conn i ≠ none ∧ c.source = some light ∧
      e = ⟨s.handleAt i, c.route.tap, c.span, light, 0, 0⟩ := by
  have tracks : (s.leaving .warm).tracks = slots.filterMap s.rebuiltTrack := rfl
  have conn : ∀ i, (s.leaving .warm).conn i = s.conn i := fun _ => rfl
  refine ⟨List.Pairwise.sublist (r.kept.ordered.map _) ?_, fun e => ?_⟩
  · rw [tracks, List.pairwise_map, List.pairwise_filterMap]
    refine (List.pairwise_lt_finRange 128).imp fun {i j} lt a ha b hb => ?_
    obtain ⟨-, -, -, -, rfl⟩ := (s.rebuiltTrack_eq i a).mp ha
    obtain ⟨-, -, -, -, rfl⟩ := (s.rebuiltTrack_eq j b).mp hb
    exact lt
  · rw [r.kept.tracks, tracks, List.mem_filterMap, conn]
    constructor
    · rintro ⟨⟨i, -, he⟩, stays⟩
      obtain ⟨c, light, hc, hl, rfl⟩ := (s.rebuiltTrack_eq i e).mp he
      refine ⟨i, c, light, hc, stays.resolve_left fun free => ?_, hl, rfl⟩
      rw [show (s.handleAt i).slot = i from rfl, hc] at free
      cases free
    · rintro ⟨i, c, light, hc, stays, hl, rfl⟩
      exact ⟨⟨i, List.mem_finRange i, (s.rebuiltTrack_eq i _).mpr ⟨c, light, hc, hl, rfl⟩⟩, .inr stays⟩

/-- RSC's lists rebuilt from the records, in slot order (R64). -/
theorem State.mem_rebuilt {α : Type} (s : State) (d : Degree) (f : CState → Bool) (g : Handle → α) (e : α) :
    e ∈ (s.picked d f).map g ↔ ∃ (i : SlotIx) (c : Conn), s.conn i = some c ∧ c.route.sinkDegree = some d ∧
      f c.state = true ∧ e = g (s.handleAt i) := by
  rw [List.mem_map]
  constructor
  · rintro ⟨h, hh, rfl⟩
    obtain ⟨c, hc, hd, hs⟩ := (s.mem_picked d f h).mp hh
    exact ⟨h.slot, c, ((s.find_eq_some h c).mp hc).2, hd, hs, by rw [State.handleAt_of_find hc]⟩
  · rintro ⟨i, c, hc, hd, hs, rfl⟩
    exact ⟨s.handleAt i, (s.mem_picked d f _).mpr ⟨c, (s.find_handleAt i).trans hc, hd, hs⟩, rfl⟩

theorem State.rebuiltRamps_law (s : State) (d : Degree) :
    ((s.rebuiltRamps d).queue.map (·.handle.slot.val)).Pairwise (· < ·) ∧
    ((s.rebuiltRamps d).holders.map (·.handle.slot.val)).Pairwise (· < ·) ∧
    (∀ e : QueueEntry, e ∈ (s.rebuiltRamps d).queue ↔ ∃ (i : SlotIx) (c : Conn), s.conn i = some c ∧
      c.route.sinkDegree = some d ∧ (c.state = .pendingUp ∨ c.state = .pendingDown) ∧ e = ⟨s.handleAt i, none⟩) ∧
    ∀ k : SlotHolder, k ∈ (s.rebuiltRamps d).holders ↔ ∃ (i : SlotIx) (c : Conn), s.conn i = some c ∧
      c.route.sinkDegree = some d ∧ (c.state = .rampUp ∨ c.state = .rampDown) ∧ k = ⟨s.handleAt i, none⟩ := by
  rw [State.rebuiltRamps_eq]
  refine ⟨?_, ?_, fun e => ?_, fun k => ?_⟩
  · rw [List.map_map]
    exact s.picked_slots d _
  · rw [List.map_map]
    exact s.picked_slots d _
  · rw [State.mem_rebuilt]
    simp only [Bool.or_eq_true, beq_iff_eq]
  · have ramping : ∀ k : CState, k.ramping = true ↔ k = .rampUp ∨ k = .rampDown := fun k => by cases k <;> simp [CState.ramping]
    rw [State.mem_rebuilt]
    simp only [ramping]

/-! ## The entries of a batch -/

theorem startEntries_eq (l : LinkId) : startEntries l =
    if l = slm then (List.finRange 16).map (fun k => Entry.port k none none) else [.allBlocked] := by
  obtain rfl | ⟨d, rfl⟩ := link_cases l
  · rfl
  · rw [startEntries, linkDegree_degreeLink, if_neg (degreeLink_ne_slm d)]
    rfl

theorem State.resyncEntries_slm (s : State) : s.resyncEntries slm =
    (List.finRange 16).map fun k => Entry.port k s.matrix[k].addShadow s.matrix[k].dropShadow := by
  rw [State.resyncEntries, State.linkEntries, linkDegree_slm]
  exact List.map_map

theorem State.mem_resyncEntries (s : State) (d : Degree) (e : Entry) : e ∈ s.resyncEntries (degreeLink d) ↔
    ∃ h c, s.lists d h ∧ s.find h = some c ∧ e = c.entry h := by
  rw [State.resyncEntries, State.linkEntries_degree, List.mem_map]
  constructor
  · rintro ⟨x, hx, rfl⟩
    obtain ⟨h, c, hl, hc, rfl⟩ := (s.mem_degreeEntries d x).mp hx
    exact ⟨h, c, hl, hc, rfl⟩
  · rintro ⟨h, c, hl, hc, rfl⟩
    exact ⟨_, (s.mem_degreeEntries d _).mpr ⟨h, c, hl, hc, rfl⟩, rfl⟩

/-- The entry of a record of another's route and span. -/
theorem Conn.entry_of (h : Handle) (route : c'.route = c.route) (span : c'.span = c.span) : c'.entry h =
    match c.route with
    | .add _ _ => .select h c.span 4 c'.shadow
    | .express a _ => .select h c.span ⟨a.val, by omega⟩ c'.shadow
    | .drop _ p => .drop h c.span p c'.shadow := by
  unfold Conn.entry
  rw [route, span]
  cases c.route <;> rfl

end

/-- Settles O48: whatever the order, each piece is taken up once, in a state that the pieces before it leave, and what is
its own the pieces after it keep (`State.leave_left`). -/
theorem leaveResetResult : Obligations.LeaveResetResult := by
  unfold Obligations.LeaveResetResult
  refine ⟨fun order s held => ?still, fun order kind s held => ?_⟩
  case still =>
    show execLeaveReset order s = .next s
    rw [execLeaveReset, held]
  obtain ⟨t, ht⟩ : ∃ t, s.leave kind order = t := ⟨_, rfl⟩
  have r := State.leave_left ht
  obtain ⟨table, -, -, -, -, managers, nodeTime, none, -, -, -, mon, pulses⟩ := s.leaving_frame kind
  refine ⟨t, ?exec, r.kept.held.trans none, r.kept.nodeTime.trans nodeTime, fun l => ?link, fun d => ⟨?gen, ?trip, ?busy,
    ?choice, fun warm => ?warm⟩⟩
  case exec =>
    show execLeaveReset order s = .next t
    rw [execLeaveReset, held, ← ht]
  case link =>
    obtain ⟨u, b⟩ := r.batch l
    refine ⟨u.resetEntries l kind, b.state, b.seq, b.timer, fun cold => ?_, fun warm => ?_⟩
    · subst cold
      exact ⟨b.inFlight, startEntries_eq l⟩
    · subst warm
      refine ⟨b.inFlight, fun slm => ?_, fun d hd => ⟨fun e he => ?_, fun h c hc hl stays => ?_⟩⟩
      · subst slm
        have entries : u.resetEntries slm .warm = _ := u.resyncEntries_slm
        rw [entries]
        refine ⟨by simp, fun k => ⟨_, _, ?_, b.halves k⟩⟩
        simp
      · subst hd
        obtain ⟨h, c', hl, hc', rfl⟩ := (u.mem_resyncEntries d e).mp he
        obtain ⟨c, hc, listed, route, span, shadow⟩ := b.names r hl hc'
        exact ⟨h, c, c'.shadow, hc, listed, Conn.entry_of h route span, shadow⟩
      · subst hd
        obtain ⟨listed, c', hc'⟩ := b.carries hl hc stays
        exact ⟨c'.entry h, (u.mem_resyncEntries d _).mpr ⟨h, c', listed, hc', rfl⟩, c'.entry_handle h⟩
  case gen =>
    obtain ⟨u, b⟩ := r.batch (degreeLink d)
    exact b.switchGen d rfl
  case trip =>
    have table := r.table d
    rw [State.readLine_eq] at table
    exact table
  case busy =>
    intro busy
    obtain ⟨u, h⟩ := r.choice
    obtain ⟨⟨first, first'⟩, last, last'⟩ := h.mons rfl
    have still : u.takeUp kind .choice = u := State.prompt_busy (by rw [first, mon]; exact busy)
    rw [last, last', still, first, first', mon, pulses]
    exact ⟨rfl, rfl⟩
  case choice =>
    intro idle
    obtain ⟨u, h⟩ := r.choice
    obtain ⟨⟨first, first'⟩, last, last'⟩ := h.mons rfl
    refine ⟨u, fun i => ?_, h.before.starting, ?_⟩
    · rw [← State.conn_of_table table i]
      exact h.records (fun _ e => nomatch e) i
    · have chose := u.prompt_chose (by rw [first, mon]; exact idle)
      rw [first, first', mon, pulses, h.before.nodeTime, nodeTime] at chose
      rw [last, last']
      exact chose
  case warm =>
    subst warm
    refine ⟨fun i => ?_, fun i kept => ?_, fun i c d hc hd => ⟨fun first last => ?_, fun first last => ?_⟩,
      fun d q hq => ⟨fun first last => ?_, fun first last => ?_⟩, r.tracks.1, r.tracks.2,
      fun d => ⟨fun state => ?_, fun q hq first last => r.tripFlag d q rfl hq first last⟩⟩
    · rw [r.kept.gens, table]
    · by_cases sinks : ∃ c d, s.conn i = some c ∧ c.route.sinkDegree = some d
      · obtain ⟨c, d, hc, hd⟩ := sinks
        rw [hc]
        exact (r.still (kept c d hc hd)).2 i c hc hd
      · exact r.unsunk i fun c d hc hd => sinks ⟨c, d, hc, hd⟩
    · exact (r.tripped first last).1 i c hc hd
    · obtain ⟨conn, waits⟩ := (r.ended first last).1 i c hc hd
      obtain ⟨both, own, others⟩ := c.uncaused_trip
      refine ⟨fun hs hk => by rw [conn, both hs hk], fun hs hk => ⟨by rw [conn, own hs hk], waits ?_⟩,
        fun h => by rw [conn, others h]⟩
      rw [Conn.resumes, hk]
      exact ⟨hs, rfl, rfl⟩
    · exact (r.tripped first last).2 q hq
    · exact (r.ended first last).2 q hq
    · rw [(r.still state).1]
      exact s.startLinks.rebuiltRamps_law d

end Sys2Proof.Machine
end
